-- ==== Sys2Proof/Word.lean ====
section
/-! DEFINITION. The bit widths the manual gives its numbers (00_scope.md, "Words", "Belt distance"). -/

namespace Sys2Proof

/-- A 16-bit word of either link, and of one table cell. -/
abbrev Word := BitVec 16

/-- A record number (R3): 16 bits, counting round. -/
abbrev RecNo := BitVec 16

/-- An encoder value (R9): 24 bits, counting round. -/
abbrev Pos := BitVec 24

/-- A period counter or line total (R131, R133): 32 bits, counting round. -/
abbrev Count := BitVec 32

/-- One print column (R84): bit n is dot row n, row 0 uppermost. -/
abbrev Dots := BitVec 32

end Sys2Proof
end

