-- ==== Sys2Proof/Config.lean ====
section
/-! DEFINITION. The sizes and limits the manual fixes for the part. The manual leaves no value open for an
implementation to fix and calls no result undefined, so there is no free value here. -/

namespace Sys2Proof.Config

/-- R1: the Tracking Queue holds at most 24 records. -/
def maxRecords : Nat := 24
/-- R1, R155: QUEUE_HIGH is held at 20 records or more. -/
def queueHigh : Nat := 20
/-- R164: words the Feed Input FIFO holds. -/
def fifoWords : Nat := 512
/-- R165: the count at which LINK-BUSY is asserted. -/
def busyAt : Nat := 480
/-- R165: the count at which LINK-BUSY is released. -/
def releaseAt : Nat := 448
/-- R176: words the Report Queue holds. -/
def reportWords : Nat := 256
/-- R138: words of a TALLY PAGE frame. -/
def pageWords : Nat := 120
/-- R188: cell writes the Pending Write Queue holds. -/
def pendingCells : Nat := 256
/-- R188: groups the Pending Write Queue holds. -/
def pendingGroups : Nat := 32
/-- R89: columns of the Column Ring. -/
def ringColumns : Nat := 1024
/-- R92: the greatest cancel sequence number. -/
def sequenceMax : Nat := 999999
/-- R159: the value at which a repeat count holds. -/
def repeatMax : Nat := 255
/-- R27: the greatest number of observations a scan part carries. -/
def maxObservations : Nat := 8
/-- R9: half the encoder's range; a difference below it means "at or after". -/
def halfTurn : Nat := 8388608

end Sys2Proof.Config
end

