-- ==== Sys2Proof/Syntax.lean ====
section
/-! DEFINITION. The commands of the part: one constructor of `Instr` for each row of spec/opcode_table.json, with
the operands the row's rule names, and the types of those operands. -/

namespace Sys2Proof

/-- The side of a letter a scan part describes (R27). -/
inductive Side | a | b
  deriving DecidableEq, Repr

/-- The zone code of an observation (R28, 12.2): two of its four values are illegal and are held as carried. -/
inductive Zone | top | bottom | illegal2 | illegal3
  deriving DecidableEq, Repr

/-- The luminescence of a mark (R28). -/
inductive Lum | none | phosphor | fluor | both
  deriving DecidableEq, Repr

/-- One mark as the scan unit reports it (R28); height_mm is not stored. -/
structure Observation where
  zone : Zone
  offsetMm : BitVec 9
  widthMm : BitVec 6
  lum : Lum
  inkOver : Bool
  confidence : BitVec 4
  signature : Word
  deriving DecidableEq, Repr

/-- The size of a letter as SCAN A carries it (R29). -/
structure Geometry where
  lengthMm : BitVec 9
  thickness : BitVec 3
  deriving DecidableEq, Repr

/-- A complete scan part (R27). SCAN A alone carries a geometry. -/
structure ScanPart where
  side : Side
  tag : Word
  marksFound : BitVec 8
  geometry : Option Geometry
  observations : List Observation
  deriving DecidableEq, Repr

/-- A word of either link: 16 data bits and a head mark (R164). -/
structure LinkWord where
  head : Bool
  data : Word
  deriving DecidableEq, Repr

/-- The stations whose cells are matched (R11, rows 1..20). -/
inductive Station
  | twist | turn | cancel | exit
  | gate (k : Fin 16)
  deriving DecidableEq, Repr

/-- The two face-check sensors (R72): FCHK-L and FCHK-T. -/
inductive Sensor | lead | trail
  deriving DecidableEq, Repr

/-- The 25 commands of the command set (R172). -/
inductive CommandKind
  | nop | readStatus | enterRun | drain | halt | resume | purgeTrack | softReset | holdFeed | releaseFeed
  | selectWindow | writeWindow | writeContinue | readWindow | readContinue | compareWrite | exchangeCounter
  | closeTally | setClock | adjustClock | ackAttention | setAttentionMask | clearScanLock | binOut | binReturn
  deriving DecidableEq, Repr

/-- The frame kinds taken on the Feed Link (R166). -/
inductive FrameKind
  | scan (side : Side)
  | command (c : CommandKind)
  deriving DecidableEq, Repr

/-- R176, R179: a change of REPORT-HOLD. An assertion falls within the head word of the Report Queue or between two
words, as `begun` says (log 28). -/
inductive HoldLevel
  | deasserted
  | asserted (begun : Bool)
  deriving DecidableEq, Repr

/-- The commands the part takes: one constructor for each row of the opcode table. A row that is an event of one
record names the record by its number; a row that is a change of a line carries the line's new level; a command frame
carries its tag and its parameter words in the order of R172. -/
inductive Instr
  | powerOnReset
  | lineReset
  | encPulse
  | scanCellLeadEdge
  | scanCellTrailingEdge
  | stationLeadEdge (st : Station)
  | stationTrailingEdge (st : Station)
  | deadline (rec : RecNo)
  | windowExpiry (rec : RecNo) (st : Station)
  | jamExpiry (row : Fin 21)
  | endOfCheckSpan (rec : RecNo)
  | fchkAssertion (line : Sensor) (level : Bool)
  | printStart (rec : RecNo)
  | printColumnDue
  | printReadyDeasserted
  | printReadyAsserted
  | classifierTake
  | decisionComplete (rec : RecNo)
  | buildBegin
  | buildComplete (rec : RecNo)
  | secondPulse
  | deferredClose
  | tallyPageQueued
  | feedHeldChange (level : Bool)
  | drainCompletion
  | binOutSwitchAssertion (k : Fin 16)
  | binOutSwitchRelease (k : Fin 16)
  | feedLinkWord (w : LinkWord)
  | frameDelimiterTake
  | scanPart (part : ScanPart)
  | responsePlaced
  | reportWordTransmitted
  | reportHoldChange (level : HoldLevel)
  | applyPoint
  | gapMet
  | nop (tag : BitVec 8) (words : List Word)
  | readStatus (tag : BitVec 8)
  | enterRun (tag : BitVec 8)
  | drain (tag : BitVec 8)
  | halt (tag : BitVec 8)
  | resume (tag : BitVec 8)
  | purgeTrack (tag : BitVec 8)
  | softReset (tag : BitVec 8)
  | holdFeed (tag : BitVec 8)
  | releaseFeed (tag : BitVec 8)
  | selectWindow (tag : BitVec 8) (table firstRow lastRow firstField lastField orderOverrun : Word)
  | writeWindow (tag : BitVec 8) (words : List Word)
  | writeContinue (tag : BitVec 8) (words : List Word)
  | readWindow (tag : BitVec 8) (n : Word)
  | readContinue (tag : BitVec 8) (n : Word)
  | compareWrite (tag : BitVec 8) (table row field expected new : Word)
  | exchangeCounter (tag : BitVec 8) (number upper lower : Word)
  | closeTally (tag : BitVec 8)
  | setClock (tag : BitVec 8) (year month day hour minute second : Word)
  | adjustClock (tag : BitVec 8) (seconds : Word)
  | ackAttention (tag : BitVec 8)
  | setAttentionMask (tag : BitVec 8) (mask : Word)
  | clearScanLock (tag : BitVec 8)
  | binOut (tag : BitVec 8) (bin : Word)
  | binReturn (tag : BitVec 8) (bin : Word)
  | resetRelease
  deriving DecidableEq, Repr

end Sys2Proof
end

