-- ==== Sys2Proof/WellFormed.lean ====
section
/-! DEFINITION. Which commands are well formed: the operand types bound every operand but a scan part's, whose
observation count and geometry follow R27. -/

namespace Sys2Proof

/-- R27: a part carries at most 8 observations, and SCAN A alone carries the geometry. -/
def ScanPart.wellFormed (p : ScanPart) : Bool :=
  decide (p.observations.length ≤ Config.maxObservations) &&
    match p.side with
    | .a => p.geometry.isSome
    | .b => p.geometry.isNone

/-- The commands that can reach the part. -/
def Instr.wellFormed : Instr → Bool
  | .scanPart part => part.wellFormed
  | _ => true

end Sys2Proof
end

