-- ==== Sys2Proof/Decode.lean ====
section
/-! DEFINITION. The command a word of the opcode table's bits spells. No row of spec/opcode_table.json gives bits
(98_reader.md: n_rows_with_fixed 0, n_rows_with_fields 0), so no word spells a command. The words of the Feed
Link are read by `Sys2Proof.Machine.execFrameDelimiterTake` (R167, R197), a step of the part. -/

namespace Sys2Proof

/-- None of the 61 rows gives bits: every word is refused. -/
def decodeTableWord (_nbits _w : Nat) : Option Instr := none

end Sys2Proof
end

