-- ==== Sys2Proof/Machine/State.lean ====
section
/-! DEFINITION. What the part holds: one structure for each block of 00_scope.md, plain data throughout, and the
state right after a power-on reset. -/

namespace Sys2Proof.Machine

/-- No step of the part stops it: every error of the manual is an effect on state (a counter, a cause, a result
code). So no fault exists and none is raised; safe. -/
inductive Fault
  deriving DecidableEq, Repr

/-- Why a command has no meaning. -/
inductive Refusal
  /-- Raised by an arm of `exec` whose command is not modelled; safe. No arm raises it. -/
  | notModelled (mnemonic : String)
  deriving DecidableEq, Repr

/-! ## Values of fields -/

/-- R147. -/
inductive Mode | idle | run | drain | halted
  deriving DecidableEq, Repr

/-- R7. -/
inductive RecordState | awaitScan | partial_ | ready | classifying | decided | late
  deriving DecidableEq, Repr

/-- The ten dispositions (R25 field 11). -/
inductive Disposition
  | facedPaid | shortPaid | outOfGauge | reused | noMark | ambiguous | scanFault | late | faceFault | uncancelled
  deriving DecidableEq, Repr

/-- R2, R25 field 15. -/
inductive ImprintStatus | none | queued | building | built | printing | printed | underrun | aborted
  deriving DecidableEq, Repr

/-- R61: the end of the letter at which the mark stands after facing. -/
inductive FacingGroup | lead | trail
  deriving DecidableEq, Repr

/-- R61: the Facing Table row copied at the decision. -/
structure FacingPlan where
  twist : Bool
  turn : Bool
  group : FacingGroup
  deriving DecidableEq, Repr

/-- R52: the row that classed an observation. -/
inductive ClassRow
  | markClass (row : Nat)
  | default (row : Nat)
  deriving DecidableEq, Repr

/-- R59: the chosen mark as recorded. -/
structure ChosenMark where
  side : Side
  zone : Zone
  offsetMm : BitVec 9
  widthMm : BitVec 6
  lum : Lum
  row : ClassRow
  deriving DecidableEq, Repr

/-- R59, R65: cancel intent yes, with its template 0..3 and start column. Intent no is the absence of this. -/
structure CancelIntent where
  template : Nat
  startColumn : Nat
  deriving DecidableEq, Repr

/-- R73. -/
inductive FaceCheck | pass | fail
  deriving DecidableEq, Repr

/-- R72: an open check, with the sensor its record samples. -/
structure OpenCheck where
  sensor : Sensor
  assertedSeen : Bool
  deriving DecidableEq, Repr

/-- R114. -/
inductive Via | primary | alternate | reject
  deriving DecidableEq, Repr

/-- R115: a record's route. -/
structure Route where
  bin : Fin 16
  via : Via
  deriving DecidableEq, Repr

/-- R102: the date of the Day Clock. -/
structure Date where
  year : Nat
  month : Nat
  day : Nat
  deriving DecidableEq, Repr

/-- R15: a station row at which a record was SEEN, and where. -/
structure SeenAt where
  station : Station
  pos : Pos
  deriving DecidableEq, Repr

/-- R2: an item record, with the position events outstanding for it (R10). -/
structure ItemRecord where
  number : RecNo
  tag : Option Word
  lead : Pos
  length : Option Pos
  gotA : Bool
  gotB : Bool
  geometry : Option Geometry
  obsA : List Observation
  obsB : List Observation
  state : RecordState
  scanFault : Bool
  disposition : Option Disposition
  positionCode : Option (Fin 8)
  chosen : Option ChosenMark
  totalValue : Option Word
  requiredValue : Option Word
  classGroup : Option (Fin 16)
  plan : Option FacingPlan
  cancel : Option CancelIntent
  imprint : ImprintStatus
  sequence : Option Nat
  buildDate : Option Date
  faceCheck : Option FaceCheck
  /-- Newest first; its head is the last station SEEN (R25 field 17). -/
  seen : List SeenAt
  route : Option Route
  /-- R13: SEEN at its routed gate, the route having been fixed by then. -/
  gateSeen : Bool
  /-- R21: where its end of check span falls, while that event is outstanding. -/
  checkEnd : Option Pos
  openCheck : Option OpenCheck
  /-- R86: where its print start falls, while that event is outstanding. -/
  printStart : Option Pos
  /-- R87. -/
  clip : Option Pos
  deriving DecidableEq, Repr

/-- R14: what occupies a cell. -/
inductive Occupant
  | nobody
  | record (n : RecNo)
  | untracked
  | stray
  deriving DecidableEq, Repr

/-- R89: a run of ring columns one imprint holds, from `start` onward in ring order, with their dots. -/
structure Holding where
  number : RecNo
  start : Nat
  columns : List Dots
  deriving DecidableEq, Repr

/-- R95: the print in progress: its record, its print start and the next column due. -/
structure Printing where
  number : RecNo
  start : Pos
  column : Nat
  deriving DecidableEq, Repr

/-- R117, R124. -/
inductive BinState | active | full | outPending | out | disabled
  deriving DecidableEq, Repr

/-- R116, fields 3..6: a bin's dynamic state. -/
structure Bin where
  fill : Nat
  committed : Nat
  state : BinState
  held : Bool
  deriving DecidableEq, Repr

/-- R133. -/
structure LineTotals where
  admitted : Count
  stacked : Count
  lost : Count
  missed : Count
  purged : Count
  untracked : Count
  deriving DecidableEq, Repr

/-- R134, R137: the causes a close has gathered. -/
structure CloseCauses where
  command : Bool
  autoClose : Bool
  deriving DecidableEq, Repr

/-- R139: a tally page as frozen at its close. -/
structure TallyPage where
  period : Word
  causes : CloseCauses
  deferred : Bool
  clockValid : Bool
  date : Date
  hour : Nat
  minute : Nat
  second : Nat
  admission : RecNo
  counters : Vector Count 56
  deriving DecidableEq, Repr

/-- R167: the state of the frame delimiter, with the frame it has open or last handed on. -/
inductive Delimiter
  | noFrame
  | stray
  | opened (kind : FrameKind) (qualifier : BitVec 8) (body : List Word)
  | complete (kind : FrameKind) (qualifier : BitVec 8)
  | excess (kind : FrameKind) (qualifier : BitVec 8)
  | openEnded (kind : FrameKind) (qualifier : BitVec 8)
  | discard
  deriving DecidableEq, Repr

/-- R171. -/
inductive ResultCode
  | done | refusedMode | badParameter | noWindow | pendingFull | queueNotEmpty | mismatch | deferred
  | switchHeld | badStations | readOnly
  deriving DecidableEq, Repr

/-- R186: one cell write, its value held by the field's own range rule. -/
structure CellWrite where
  table : Nat
  row : Nat
  field : Nat
  value : Word
  deriving DecidableEq, Repr

/-- R184, R186: an open-ended frame in progress. For WRITE frames: the refusal settled at opening, the place it
began at, whether it has overflowed, its open group, and the counts its response will carry. -/
structure OpenFrame where
  kind : CommandKind
  tag : BitVec 8
  bodyWords : Nat
  refusal : Option ResultCode
  start : Nat
  overflowed : Bool
  group : List CellWrite
  written : Nat
  pastEnd : Nat
  readOnly : Nat
  deriving DecidableEq, Repr

/-- R169: the Command Unit. WAITING holds the words of its response not yet placed and whether a response of more
than 256 words has begun to enter (R177). -/
inductive CommandState
  | free
  | receiving (frame : OpenFrame)
  | waiting (rest : List LinkWord) (begun : Bool)
  deriving DecidableEq, Repr

/-- R182. -/
inductive Order | rowFirst | fieldFirst
  deriving DecidableEq, Repr

/-- R182, R183. -/
inductive Overrun | ignore | wrap
  deriving DecidableEq, Repr

/-- R182: a window selection. -/
structure Window where
  table : Nat
  firstRow : Nat
  lastRow : Nat
  firstField : Nat
  lastField : Nat
  order : Order
  overrun : Overrun
  cursor : Nat
  deriving DecidableEq, Repr

/-- R191: the gap the apply point waits for. -/
inductive Gap
  | closed
  | opened (start : Pos)
  | met
  deriving DecidableEq, Repr

/-- R168, R34, R35: the seven link error kinds with their details. -/
inductive LinkError
  | shortFrame (kind : FrameKind) (received expected : Nat)
  | excessBody (kind : FrameKind) (qualifier : BitVec 8)
  | strayBody
  | unknownKind (head : Word)
  | badCount (side : Side) (count : Nat)
  | duplicatePart (side : Side) (tag : Word) (rec : RecNo)
  | orphanPart (side : Side) (tag : Word)
  deriving DecidableEq, Repr

/-- R159: an occurrence of an event cause, with its detail. -/
inductive Occurrence
  | jam (row : Nat) (rec : Option RecNo)
  | lost (rec : RecNo) (row : Nat) (expected : Pos)
  | stray (row : Nat) (pos : Pos)
  | missed (rec : RecNo) (route : Option Route)
  | queueFull (pos : Pos)
  | scanSuspect (rec : RecNo) (threshold : Nat)
  | underrun (rec : RecNo) (building : Bool)
  | linkError (e : LinkError)
  | rollover (date : Date)
  deriving DecidableEq, Repr

/-- R158: a set latch: the detail of the first occurrence and the repeat count. -/
structure Latch where
  detail : Occurrence
  repeats : Nat
  deriving DecidableEq, Repr

/-- R158: the twelve causes, in order of priority. -/
inductive Cause
  | jam | lost | stray | missed | queueFull | rejectFull | binFull | scanSuspect | underrun | printFault
  | linkError | rollover
  deriving DecidableEq, Repr

/-- R158, R160. -/
inductive Condition | inactive | activeNew | activeSeen
  deriving DecidableEq, Repr

/-! ## The blocks -/

/-- The levels of the input lines (00_scope.md, pin summary). -/
structure Inputs where
  printReady : Bool
  reportHold : Bool
  feedHeld : Bool
  fchkL : Bool
  fchkT : Bool
  resetLine : Bool
  binOut : Vector Bool 16
  /-- Cell levels by Station Table row; true while a letter blocks the cell. -/
  blocked : Vector Bool 21
  deriving DecidableEq, Repr

/-- R26. -/
structure TrackUnit where
  queue : List ItemRecord
  admission : RecNo
  encoder : Pos
  inService : Vector Bool 16
  occupants : Vector Occupant 21
  /-- R18: where the jam expiry of a timed cell falls. -/
  jam : Vector (Option Pos) 21
  /-- R19: the record whose TWIST order is held; the line is asserted while there is one. -/
  twist : Option RecNo
  turn : Option RecNo
  deriving DecidableEq, Repr

/-- R42, R45. -/
structure Classifier where
  busy : Option RecNo
  suspect : Nat
  deriving DecidableEq, Repr

/-- R101, less the tables. -/
structure ImprintUnit where
  builder : Option RecNo
  ring : List Holding
  alloc : Nat
  sequence : Nat
  printFault : Bool
  printing : Option Printing
  printCol : Dots
  /-- The number of PRINT-STROBE pulses given (a pulse is counted: log 8). -/
  printStrobes : Nat
  /-- R95: the 32 dots PRINT-COL held at the last PRINT-STROBE pulse; none before the first (log 8). -/
  strobed : Option Dots
  deriving DecidableEq, Repr

/-- R102. -/
structure DayClock where
  date : Date
  hour : Nat
  minute : Nat
  second : Nat
  valid : Bool
  adjust : Option Int
  clamped : Bool
  deriving DecidableEq, Repr

/-- R130, less the tables. -/
structure StackerUnit where
  bins : Vector Bin 16
  /-- R119: the record whose order GATE k carries; the line is asserted while there is one. -/
  gates : Vector (Option RecNo) 16
  deriving DecidableEq, Repr

/-- R146. A report in the batch buffer is its six words. -/
structure TallyUnit where
  counters : Vector Count 56
  totals : LineTotals
  period : Word
  page : Option TallyPage
  deferred : Option CloseCauses
  batch : List (List Word)
  deriving DecidableEq, Repr

/-- R164, R165, R167, R168. -/
structure FeedLink where
  fifo : List LinkWord
  /-- R164: words presented and not yet taken, the FIFO being full. -/
  presented : List LinkWord
  busy : Bool
  delim : Delimiter
  excess : Nat
  deriving DecidableEq, Repr

/-- R182, R188, R191. The open group is in the Command Unit's open frame. -/
structure WindowUnit where
  selection : Option Window
  groups : List (List CellWrite)
  gap : Gap
  deriving DecidableEq, Repr

/-- R176. -/
structure ReportLink where
  queue : List LinkWord
  /-- R176: the word at the head was begun before REPORT-HOLD was asserted and is still to be completed. While
  REPORT-HOLD is deasserted the field is no (log 28). -/
  begun : Bool
  /-- The word last put on RL-DATA and RL-HEAD (log 8). -/
  sent : Option LinkWord
  /-- The number of RL-STROBE pulses given (log 8). -/
  strobes : Nat
  deriving DecidableEq, Repr

/-- R147, R155, R157. -/
structure LineControl where
  mode : Mode
  holdFeed : Bool
  scanLock : Bool
  /-- The number of GAP pulses given (log 8). -/
  gapPulses : Nat
  deriving DecidableEq, Repr

/-- R158. -/
structure AttentionUnit where
  jam : Option Latch
  lost : Option Latch
  stray : Option Latch
  missed : Option Latch
  queueFull : Option Latch
  scanSuspect : Option Latch
  underrun : Option Latch
  linkError : Option Latch
  rollover : Option Latch
  rejectFull : Condition
  binFull : Condition
  printFault : Condition
  mask : BitVec 12
  deriving DecidableEq, Repr

/-- Everything the part holds. `tables` is the store of the writable tables' cells, in canonical form: keys
rising, no cell at its reset value. -/
structure Device where
  inputs : Inputs
  tables : List (Nat × Word)
  track : TrackUnit
  classifier : Classifier
  imprint : ImprintUnit
  clock : DayClock
  stacker : StackerUnit
  tally : TallyUnit
  feed : FeedLink
  command : CommandState
  window : WindowUnit
  report : ReportLink
  line : LineControl
  attention : AttentionUnit
  deriving DecidableEq, Repr

/-- The part, and the queue of the commands that wait for it. -/
structure State where
  pending : List Instr
  dev : Device
  deriving DecidableEq, Repr

/-! ## Reset values -/

/-- Every input line deasserted (log 6). -/
def Inputs.reset : Inputs :=
  { printReady := false, reportHold := false, feedHeld := false, fchkL := false, fchkT := false,
    resetLine := false, binOut := Vector.replicate 16 false, blocked := Vector.replicate 21 false }

/-- R26. -/
def TrackUnit.reset : TrackUnit :=
  { queue := [], admission := 0, encoder := 0, inService := Vector.replicate 16 false,
    occupants := Vector.replicate 21 .nobody, jam := Vector.replicate 21 none, twist := none, turn := none }

/-- R101. -/
def ImprintUnit.reset : ImprintUnit :=
  { builder := none, ring := [], alloc := 0, sequence := 0, printFault := false, printing := none,
    printCol := 0, printStrobes := 0, strobed := none }

/-- R102. -/
def DayClock.reset : DayClock :=
  { date := { year := 2000, month := 1, day := 1 }, hour := 0, minute := 0, second := 0, valid := false,
    adjust := none, clamped := false }

/-- R130: a bin after a power-on or line reset, its switch line at `level`. -/
def Bin.reset (level : Bool) : Bin := { fill := 0, committed := 0, state := .disabled, held := level }

/-- R130. -/
def StackerUnit.reset (levels : Vector Bool 16) : StackerUnit :=
  { bins := levels.map Bin.reset, gates := Vector.replicate 16 none }

/-- R146. -/
def TallyUnit.reset : TallyUnit :=
  { counters := Vector.replicate 56 0,
    totals := { admitted := 0, stacked := 0, lost := 0, missed := 0, purged := 0, untracked := 0 },
    period := 0, page := none, deferred := none, batch := [] }

/-- R180. -/
def FeedLink.reset : FeedLink :=
  { fifo := [], presented := [], busy := false, delim := .noFrame, excess := 0 }

/-- R182, R188, R191. -/
def WindowUnit.reset : WindowUnit := { selection := none, groups := [], gap := .closed }

/-- R158. -/
def AttentionUnit.reset : AttentionUnit :=
  { jam := none, lost := none, stray := none, missed := none, queueFull := none, scanSuspect := none,
    underrun := none, linkError := none, rollover := none, rejectFull := .inactive, binFull := .inactive,
    printFault := .inactive, mask := 0 }

/-- The part after a power-on reset with its input lines at the levels `inp`. -/
def Device.reset (inp : Inputs) : Device :=
  { inputs := inp, tables := [], track := .reset, classifier := { busy := none, suspect := 0 },
    imprint := .reset, clock := .reset, stacker := .reset inp.binOut, tally := .reset, feed := .reset,
    command := .free, window := .reset, report := { queue := [], begun := false, sent := none, strobes := 0 },
    line := { mode := .idle, holdFeed := false, scanLock := false, gapPulses := 0 }, attention := .reset }

/-- The machine right after a power-on reset, its queue empty and its input lines deasserted (log 6). -/
def State.reset : State := { pending := [], dev := .reset .reset }

end Sys2Proof.Machine
end

