-- ==== Sys2Proof/Machine/Ops.lean ====
section
/-! DEFINITION. The named operations the blocks share: fixed-size arrays, belt positions, the store of table cells
with each field's range, the records of the Tracking Queue, and the counters. -/

namespace Sys2Proof.Machine

/-! ## Fixed-size arrays -/

/-- The array with its entry `i` replaced. -/
def upd {α : Type} {n : Nat} (v : Vector α n) (i : Fin n) (x : α) : Vector α n := v.set i.val x i.isLt

/-! ## Belt positions (R9) -/

/-- R9: `x` is at or after `y`: their difference modulo 2^24 is below 2^23. -/
def atOrAfter (x y : Pos) : Bool := decide ((x - y).toNat < Config.halfTurn)

/-- A distance in belt counts as an encoder difference. -/
def counts (n : Nat) : Pos := BitVec.ofNat 24 n

/-! ## Modes -/

/-- RUN or DRAIN: the modes in which the line tracks letters (R147). -/
def Mode.active : Mode → Bool
  | .run => true
  | .drain => true
  | .idle => false
  | .halted => false

/-- R147: the mode is RUN or DRAIN. -/
def Device.active (d : Device) : Bool := d.line.mode.active

/-! ## The store of table cells -/

/-- The key of a cell: rows lie below 512 and fields below 32 in every table (R181). -/
def cellKey (table row field : Nat) : Nat := (table * 512 + row) * 32 + field

/-- What a cell holds after a power-on reset: Settings fields 1, 6 and 7 hold 1, 48 and 64 (R196), every other cell
of every table 0 (R11, R49, R51, R60, R68, R79, R80, R82, R111, R118). -/
def cellReset (key : Nat) : Word :=
  if key = cellKey 0 0 1 then 1
  else if key = cellKey 0 0 6 then 48
  else if key = cellKey 0 0 7 then 64
  else 0

/-- The value at a key; an unlisted key holds its reset value. -/
def storeGet : List (Nat × Word) → Nat → Word
  | [], key => cellReset key
  | (k, v) :: rest, key => if k = key then v else storeGet rest key

/-- The store without an entry that equals the key's reset value. -/
def storeCons (key : Nat) (value : Word) (rest : List (Nat × Word)) : List (Nat × Word) :=
  if value = cellReset key then rest else (key, value) :: rest

/-- The store with a key's value replaced, its form kept. -/
def storeSet : List (Nat × Word) → Nat → Word → List (Nat × Word)
  | [], key, value => storeCons key value []
  | (k, v) :: rest, key, value =>
    if key < k then storeCons key value ((k, v) :: rest)
    else if key = k then storeCons key value rest
    else (k, v) :: storeSet rest key value

/-- The canonical form: keys strictly rising, no entry equal to its key's reset value. -/
def storeWf : List (Nat × Word) → Bool
  | [] => true
  | [(k, v)] => decide (v ≠ cellReset k)
  | (k, v) :: (k', v') :: rest => decide (v ≠ cellReset k) && decide (k < k') && storeWf ((k', v') :: rest)

/-- A configuration cell's value, as applied. -/
def Device.cell (d : Device) (table row field : Nat) : Word := storeGet d.tables (cellKey table row field)

/-- The same as a number. -/
def Device.num (d : Device) (table row field : Nat) : Nat := (d.cell table row field).toNat

/-- The same as a yes-or-no field: 0 is no. -/
def Device.flag (d : Device) (table row field : Nat) : Bool := decide (d.num table row field ≠ 0)

/-- The device with one configuration cell replaced. -/
def Device.setCell (d : Device) (table row field : Nat) (value : Word) : Device :=
  { d with tables := storeSet d.tables (cellKey table row field) value }

/-! ## Table geometry (R181) -/

/-- R181: the number of rows of a table, by identifier; 0 for an identifier of no table. -/
def tableRows : Nat → Nat
  | 0 => 1 | 1 => 512 | 2 => 4 | 3 => 16 | 4 => 8 | 5 => 41 | 6 => 16 | 7 => 21 | 8 => 4 | 9 => 16 | 10 => 12
  | 11 => 128 | 12 => 256 | 13 => 62 | 14 => 24 | _ => 0

/-- R181: the number of fields of a table. -/
def tableFields : Nat → Nat
  | 0 => 9 | 1 => 9 | 2 => 6 | 3 => 4 | 4 => 3 | 5 => 3 | 6 => 7 | 7 => 6 | 8 => 30 | 9 => 20 | 10 => 3
  | 11 => 12 | 12 => 2 | 13 => 2 | 14 => 23 | _ => 0

/-- R181: the read-only cells. -/
def cellReadOnly (table row field : Nat) : Bool :=
  match table with
  | 6 => decide (3 ≤ field)
  | 7 =>
    (decide (row = 0) && decide (field < 2)) || (decide (field = 3) && decide (row ≠ 1)) ||
      ((decide (field = 4) || decide (field = 5)) && decide (row ≠ 3))
  | 13 => true
  | 14 => true
  | _ => false

/-- The greatest value of a Template Table field (R79), the anchor apart. -/
def templateMax (field : Nat) : Nat :=
  match field with
  | 0 => 320
  | 2 => 4
  | 3 => 319
  | 4 => 320
  | 5 => 4
  | f =>
    match (f - 6) % 6 with
    | 0 => 319
    | 1 => 16
    | 2 => 20
    | _ => 1

/-- The greatest value a field holds: a value written above it is held as it (R11, R49, R51, R60, R68, R79, R111,
R116, R196). -/
def fieldMax (table field : Nat) : Nat :=
  match table, field with
  | 0, 0 => 1 | 0, 2 => 15 | 0, 3 => 1 | 0, 4 => 1 | 0, 5 => 999 | 0, 6 => 127 | 0, 8 => 1
  | 1, 0 => 1 | 1, 2 => 3 | 1, 3 => 15 | 1, 5 => 15 | 1, 6 => 15 | 1, 7 => 3 | 1, 8 => 15
  | 2, 0 => 15 | 2, 2 => 15 | 2, 3 => 15 | 2, 4 => 3 | 2, 5 => 15
  | 3, 0 => 1 | 3, 1 => 511 | 3, 2 => 7
  | 4, _ => 1
  | 5, 0 => 15 | 5, 1 => 1 | 5, 2 => 4
  | 6, 0 => 1 | 6, 2 => 15
  | 7, 1 => 255
  | 8, f => templateMax f
  | _, _ => 65535

/-- R79: the anchor is a signed word held within -320..+320. -/
def heldAnchor (v : Word) : Word :=
  if v.toInt < -320 then BitVec.ofInt 16 (-320) else if 320 < v.toInt then 320 else v

/-- The value a field holds when `v` is written to it. -/
def heldValue (table field : Nat) (v : Word) : Word :=
  if table = 8 ∧ field = 1 then heldAnchor v
  else if fieldMax table field < v.toNat then BitVec.ofNat 16 (fieldMax table field) else v

/-! ## Settings (R196) -/

def Device.itemReports (d : Device) : Bool := d.flag 0 0 0
/-- R144: a batch size of 0 is used as 1 and a size above 8 as 8. -/
def Device.batchSize (d : Device) : Nat := max 1 (min 8 (d.num 0 0 1))
def Device.suspectThreshold (d : Device) : Nat := d.num 0 0 2
def Device.scanLockEnable (d : Device) : Bool := d.flag 0 0 3
def Device.autoClose (d : Device) : Bool := d.flag 0 0 4
def Device.machineNumber (d : Device) : Nat := d.num 0 0 5
def Device.digitBase (d : Device) : Nat := d.num 0 0 6
def Device.gapDistance (d : Device) : Nat := d.num 0 0 7
def Device.gapSync (d : Device) : Bool := d.flag 0 0 8

/-! ## Stations (R11) -/

/-- The Station Table row of a station. -/
def stationRow : Station → Fin 21
  | .twist => 1
  | .turn => 2
  | .cancel => 3
  | .exit => 4
  | .gate k => ⟨5 + k.val, by omega⟩

/-- The twenty stations whose cells are matched, by row. -/
def allStations : List Station :=
  [.twist, .turn, .cancel, .exit] ++ (List.finRange 16).map Station.gate

def Device.stationOffset (d : Device) (row : Nat) : Nat := d.num 7 row 0
/-- R11: a half-width of 0..3 is used as 4. -/
def Device.halfWidth (d : Device) (row : Nat) : Nat := max 4 (d.num 7 row 1)
def Device.jamSpan (d : Device) (row : Nat) : Nat := d.num 7 row 2
def Device.armLead (d : Device) : Nat := d.num 7 1 3
def Device.checkSpan (d : Device) : Nat := d.num 7 3 4
def Device.headOffset (d : Device) : Nat := d.num 7 3 5

/-- R14: a cell is watched unless it is the cell of a gate outside the in-service set. -/
def Device.watched (d : Device) (st : Station) : Bool :=
  match st with
  | .gate k => d.track.inService[k]
  | .twist => true
  | .turn => true
  | .cancel => true
  | .exit => true

/-- R14, by row: row 0 is SCAN-CELL. -/
def Device.watchedRow (d : Device) (row : Fin 21) : Bool :=
  if h : 5 ≤ row.val then d.track.inService[row.val - 5]'(by omega) else true

/-! ## Bins (R116) -/

def Device.binEnable (d : Device) (k : Fin 16) : Bool := d.flag 6 k.val 0
def Device.binCapacity (d : Device) (k : Fin 16) : Nat := d.num 6 k.val 1
def Device.binAlternate (d : Device) (k : Fin 16) : Fin 16 := Fin.ofNat 16 (d.num 6 k.val 2)

/-! ## Records -/

/-- The tracked record of a number (R1: no two share one). -/
def Device.find (d : Device) (n : RecNo) : Option ItemRecord :=
  d.track.queue.find? (fun r => decide (r.number = n))

/-- The device with the tracked record of a number rewritten. -/
def Device.modify (d : Device) (n : RecNo) (f : ItemRecord → ItemRecord) : Device :=
  { d with track := { d.track with queue := d.track.queue.map (fun r => if r.number = n then f r else r) } }

/-- R88: the Build Queue: the records of status QUEUED, in the order of the Tracking Queue. -/
def Device.buildQueue (d : Device) : List ItemRecord :=
  d.track.queue.filter (fun r => decide (r.imprint = .queued))

/-! ## Counters (R131) -/

/-- A counting event of weight `n` for counter `i`. -/
def Device.countBy (d : Device) (i : Fin 56) (n : Nat) : Device :=
  { d with tally := { d.tally with
      counters := upd d.tally.counters i (d.tally.counters[i] + BitVec.ofNat 32 n) } }

/-- A counting event: one is added to counter `i`, counting round at 2^32. -/
def Device.count (d : Device) (i : Fin 56) : Device := d.countBy i 1

/-- R133: the line totals rewritten. -/
def Device.total (d : Device) (f : LineTotals → LineTotals) : Device :=
  { d with tally := { d.tally with totals := f d.tally.totals } }

/-- R131, counters 0..15. -/
def ctrClassGroup (g : Fin 16) : Fin 56 := ⟨g.val, by omega⟩

/-- R131, counters 16..25. -/
def ctrDisposition : Disposition → Fin 56
  | .facedPaid => 16
  | .shortPaid => 17
  | .outOfGauge => 18
  | .reused => 19
  | .noMark => 20
  | .ambiguous => 21
  | .scanFault => 22
  | .late => 23
  | .faceFault => 24
  | .uncancelled => 25

/-- R131, counters 26..41. -/
def ctrBin (k : Fin 16) : Fin 56 := ⟨26 + k.val, by omega⟩

def ctrAdmitted : Fin 56 := 42
def ctrUntracked : Fin 56 := 43
def ctrLost : Fin 56 := 44
def ctrMissed : Fin 56 := 45
def ctrPurged : Fin 56 := 46
def ctrStray : Fin 56 := 47
def ctrPrinted : Fin 56 := 48
def ctrPrintAborted : Fin 56 := 49
def ctrUnderruns : Fin 56 := 50
def ctrBuildsBegun : Fin 56 := 51
def ctrLateParts : Fin 56 := 52
def ctrScanDiscarded : Fin 56 := 53
def ctrReportsDropped : Fin 56 := 54
def ctrLinkErrors : Fin 56 := 55

/-! ## Lines -/

/-- The level of a face-check sensor line. -/
def Inputs.sensor (i : Inputs) : Sensor → Bool
  | .lead => i.fchkL
  | .trail => i.fchkT

/-- R102, as numbers: the seconds since midnight. -/
def DayClock.secondOfDay (c : DayClock) : Nat := c.hour * 3600 + c.minute * 60 + c.second

/-- What a step answers: the state with the device changed and the queue as it is. -/
def State.stepDevice (s : State) (f : Device → Device) : Host.Outcome State Fault Refusal :=
  .next { s with dev := f s.dev }

end Sys2Proof.Machine
end

