-- ==== Sys2Proof/Machine/Operands.lean ====
section
/-! DEFINITION. The word and frame layouts of chapter 12: how head words and scan parts are read from the Feed Link,
and the codes of every enumerated field the part sends. -/

namespace Sys2Proof.Machine

/-- A word of a number: the bits above 16 fall away. -/
def word (n : Nat) : Word := BitVec.ofNat 16 n

/-- A flag as a number. -/
def bit (b : Bool) : Nat := if b then 1 else 0

/-! ## Frame kinds (12.1) -/

/-- The kind code of a command. -/
def commandCode : CommandKind → Nat
  | .nop => 0x20 | .readStatus => 0x21 | .enterRun => 0x22 | .drain => 0x23 | .halt => 0x24 | .resume => 0x25
  | .purgeTrack => 0x26 | .softReset => 0x27 | .holdFeed => 0x28 | .releaseFeed => 0x29 | .selectWindow => 0x2A
  | .writeWindow => 0x2B | .writeContinue => 0x2C | .readWindow => 0x2D | .readContinue => 0x2E
  | .compareWrite => 0x2F | .exchangeCounter => 0x30 | .closeTally => 0x31 | .setClock => 0x32
  | .adjustClock => 0x33 | .ackAttention => 0x34 | .setAttentionMask => 0x35 | .clearScanLock => 0x36
  | .binOut => 0x37 | .binReturn => 0x38

/-- The kind code of a side's scan part. -/
def sideCode : Side → Nat
  | .a => 1
  | .b => 2

/-- The kind code of a frame kind. -/
def frameCode : FrameKind → Nat
  | .scan side => sideCode side
  | .command c => commandCode c

/-- The frame kind of a kind code; none for an unknown kind, the Report Link kinds among them (R166, R197). -/
def frameKindOf (code : Nat) : Option FrameKind :=
  match code with
  | 0x01 => some (.scan .a) | 0x02 => some (.scan .b)
  | 0x20 => some (.command .nop) | 0x21 => some (.command .readStatus) | 0x22 => some (.command .enterRun)
  | 0x23 => some (.command .drain) | 0x24 => some (.command .halt) | 0x25 => some (.command .resume)
  | 0x26 => some (.command .purgeTrack) | 0x27 => some (.command .softReset)
  | 0x28 => some (.command .holdFeed) | 0x29 => some (.command .releaseFeed)
  | 0x2A => some (.command .selectWindow) | 0x2B => some (.command .writeWindow)
  | 0x2C => some (.command .writeContinue) | 0x2D => some (.command .readWindow)
  | 0x2E => some (.command .readContinue) | 0x2F => some (.command .compareWrite)
  | 0x30 => some (.command .exchangeCounter) | 0x31 => some (.command .closeTally)
  | 0x32 => some (.command .setClock) | 0x33 => some (.command .adjustClock)
  | 0x34 => some (.command .ackAttention) | 0x35 => some (.command .setAttentionMask)
  | 0x36 => some (.command .clearScanLock) | 0x37 => some (.command .binOut) | 0x38 => some (.command .binReturn)
  | _ => none

/-- R197: the kind code of a head word, bits 15..8. -/
def headKind (w : Word) : Nat := (w.extractLsb' 8 8).toNat

/-- R197: the qualifier of a head word, bits 7..0. -/
def headQualifier (w : Word) : BitVec 8 := w.extractLsb' 0 8

/-- The head word of a kind code and qualifier. -/
def headWord (code : Nat) (qualifier : Nat) : Word := word (code * 256 + qualifier)

/-- R166: the body length of a frame; none for an open-ended kind. -/
def bodyLength (kind : FrameKind) (qualifier : BitVec 8) : Option Nat :=
  match kind with
  | .scan .a => some (3 + 3 * qualifier.toNat)
  | .scan .b => some (2 + 3 * qualifier.toNat)
  | .command .nop => none
  | .command .writeWindow => none
  | .command .writeContinue => none
  | .command .selectWindow => some 6
  | .command .readWindow => some 1
  | .command .readContinue => some 1
  | .command .compareWrite => some 5
  | .command .exchangeCounter => some 3
  | .command .setClock => some 6
  | .command .adjustClock => some 1
  | .command .setAttentionMask => some 1
  | .command .binOut => some 1
  | .command .binReturn => some 1
  | .command .readStatus => some 0
  | .command .enterRun => some 0
  | .command .drain => some 0
  | .command .halt => some 0
  | .command .resume => some 0
  | .command .purgeTrack => some 0
  | .command .softReset => some 0
  | .command .holdFeed => some 0
  | .command .releaseFeed => some 0
  | .command .closeTally => some 0
  | .command .ackAttention => some 0
  | .command .clearScanLock => some 0

/-! ## Scan parts (12.2) -/

def zoneOf (n : Nat) : Zone :=
  match n with
  | 0 => .top
  | 1 => .bottom
  | 2 => .illegal2
  | _ => .illegal3

def lumOf (n : Nat) : Lum :=
  match n with
  | 0 => .none
  | 1 => .phosphor
  | 2 => .fluor
  | _ => .both

/-- 12.2: the code of a zone. -/
def zoneCode : Zone → Nat
  | .top => 0
  | .bottom => 1
  | .illegal2 => 2
  | .illegal3 => 3

/-- 12.2: the code of a lum kind. -/
def lumCode : Lum → Nat
  | .none => 0
  | .phosphor => 1
  | .fluor => 2
  | .both => 3

/-- 12.2: an observation from its three words. -/
def observationOf (w1 w2 w3 : Word) : Observation :=
  { signature := w1
    zone := zoneOf (w2.extractLsb' 14 2).toNat
    lum := lumOf (w2.extractLsb' 12 2).toNat
    inkOver := w2.getLsbD 11
    confidence := w2.extractLsb' 7 4
    widthMm := w2.extractLsb' 1 6
    offsetMm := w3.extractLsb' 7 9 }

/-- 12.2: observations, three words each, in the order carried. -/
def observationsOf : List Word → List Observation
  | w1 :: w2 :: w3 :: rest => observationOf w1 w2 w3 :: observationsOf rest
  | _ => []

/-- 12.2: a complete scan part from its body words. -/
def scanPartOf (side : Side) (body : List Word) : ScanPart :=
  match side, body with
  | .a, w1 :: w2 :: w3 :: rest =>
    { side := .a, tag := w1, marksFound := w2.extractLsb' 8 8,
      geometry := some { lengthMm := w3.extractLsb' 0 9, thickness := w2.extractLsb' 0 3 },
      observations := observationsOf rest }
  | .b, w1 :: w2 :: rest =>
    { side := .b, tag := w1, marksFound := w2.extractLsb' 8 8, geometry := none,
      observations := observationsOf rest }
  | side, _ => { side := side, tag := 0, marksFound := 0, geometry := none, observations := [] }

/-- 12.2: the three words of an observation, the bits that are not read 0. -/
def observationWords (o : Observation) : List Word :=
  [o.signature,
    word (16384 * zoneCode o.zone + 4096 * lumCode o.lum + 2048 * bit o.inkOver + 128 * o.confidence.toNat +
      2 * o.widthMm.toNat),
    word (128 * o.offsetMm.toNat)]

/-- 12.2: the body words of a scan part, the bits that are not read 0. -/
def scanPartWords (p : ScanPart) : List Word :=
  let g := p.geometry.getD { lengthMm := 0, thickness := 0 }
  match p.side with
  | .a =>
    [p.tag, word (256 * p.marksFound.toNat + g.thickness.toNat), word g.lengthMm.toNat] ++
      p.observations.flatMap observationWords
  | .b => [p.tag, word (256 * p.marksFound.toNat)] ++ p.observations.flatMap observationWords

/-! ## Codes of enumerated fields -/

def Mode.code : Mode → Nat
  | .idle => 0
  | .run => 1
  | .drain => 2
  | .halted => 3

/-- 12.4. -/
def ResultCode.code : ResultCode → Nat
  | .done => 0
  | .refusedMode => 1
  | .badParameter => 2
  | .noWindow => 3
  | .pendingFull => 4
  | .queueNotEmpty => 5
  | .mismatch => 6
  | .deferred => 7
  | .switchHeld => 8
  | .badStations => 9
  | .readOnly => 10

/-- R25 field 4. -/
def RecordState.code : RecordState → Nat
  | .awaitScan => 0
  | .partial_ => 1
  | .ready => 2
  | .classifying => 3
  | .decided => 4
  | .late => 5

/-- R25 field 11; 0 is absent. -/
def dispositionCode : Option Disposition → Nat
  | none => 0
  | some .facedPaid => 1
  | some .shortPaid => 2
  | some .outOfGauge => 3
  | some .reused => 4
  | some .noMark => 5
  | some .ambiguous => 6
  | some .scanFault => 7
  | some .late => 8
  | some .faceFault => 9
  | some .uncancelled => 10

/-- R25 field 15. -/
def ImprintStatus.code : ImprintStatus → Nat
  | .none => 0
  | .queued => 1
  | .building => 2
  | .built => 3
  | .printing => 4
  | .printed => 5
  | .underrun => 6
  | .aborted => 7

/-- R25 field 16. -/
def faceCheckCode : Option FaceCheck → Nat
  | none => 0
  | some .pass => 1
  | some .fail => 2

/-- R25 field 14; 3 is absent. -/
def viaCode : Option Route → Nat
  | none => 3
  | some r => match r.via with
    | .primary => 0
    | .alternate => 1
    | .reject => 2

/-- R116 field 5. -/
def BinState.code : BinState → Nat
  | .active => 0
  | .full => 1
  | .outPending => 2
  | .out => 3
  | .disabled => 4

/-- R25 field 5, 12.5: 0 none, 1 A, 2 B, 3 both. -/
def partsCode (r : ItemRecord) : Nat := bit r.gotA + 2 * bit r.gotB

/-- R25 field 17: the row of the last station SEEN, 0 for none. -/
def lastSeenRow (r : ItemRecord) : Nat :=
  match r.seen with
  | [] => 0
  | s :: _ => (stationRow s.station).val

def FacingGroup.code : FacingGroup → Nat
  | .lead => 0
  | .trail => 1

/-- 12.4: READ STATUS word 17. -/
def Condition.code : Condition → Nat
  | .inactive => 0
  | .activeNew => 1
  | .activeSeen => 2

/-- The upper 8 bits of a position, then its lower 16 (12.4). -/
def posWords (p : Pos) : List Word := [word (p.toNat / 65536), word (p.toNat % 65536)]

/-- The upper 16 bits of a count, then its lower 16. -/
def countWords (c : Count) : List Word := [word (c.toNat / 65536), word (c.toNat % 65536)]

/-- 12.4: the items of a link error, one to a word. A kind alone is sent as its code; a kind with its qualifier as a
head word; BAD_COUNT's kind and count, two items, as the code and the number (log 14). -/
def LinkError.words : LinkError → List Word
  | .shortFrame kind received expected => [0, word (frameCode kind), word received, word expected]
  | .excessBody kind qualifier => [1, headWord (frameCode kind) qualifier.toNat]
  | .strayBody => [2]
  | .unknownKind head => [3, head]
  | .badCount side n => [4, word (sideCode side), word n]
  | .duplicatePart side tag n => [5, word (sideCode side), tag, n]
  | .orphanPart side tag => [6, word (sideCode side), tag]

/-- 12.4: the detail words of an occurrence, those with nothing to report left out. -/
def Occurrence.words : Occurrence → List Word
  | .jam row none => [word row, 0, 0]
  | .jam row (some n) => [word row, n, 1]
  | .lost n row e => [n, word row] ++ posWords e
  | .stray row p => word row :: posWords p
  | .missed n none => [n, 16, 3]
  | .missed n (some r) => [n, word r.bin.val, word (viaCode (some r))]
  | .queueFull p => posWords p
  | .scanSuspect n t => [n, word t]
  | .underrun n building => [n, word (bit building)]
  | .linkError e => e.words
  | .rollover date => [word date.year, word date.month, word date.day]

/-- 12.6: the words of a TALLY PAGE, its head word first. -/
def TallyPage.words (p : TallyPage) : List Word :=
  [headWord 0x82 0, p.period,
    word (bit p.causes.command + 2 * bit p.causes.autoClose + 4 * bit p.deferred + 8 * bit p.clockValid),
    word p.date.year, word (p.date.month * 256 + p.date.day), word (p.hour * 256 + p.minute), word p.second,
    p.admission] ++ p.counters.toList.flatMap countWords

/-- R164, R198: a frame's words on either link, the head mark on the first alone. -/
def linkFrame : List Word → List LinkWord
  | [] => []
  | h :: body => { head := true, data := h } :: body.map (fun w => { head := false, data := w })

/-- R166, R197: the words of a Feed Link frame: its head word and its body. -/
def frameWords (kind : FrameKind) (q : BitVec 8) (body : List Word) : List LinkWord :=
  linkFrame (headWord (frameCode kind) q.toNat :: body)

end Sys2Proof.Machine
end

