-- ==== Sys2Proof/Machine/Flags.lean ====
section
/-! DEFINITION. Every flag and line that follows other state: the conditions the blocks report, the twelve causes
and ATTN, the feed-stop causes with FEED-STOP, STOP and the handshake state. -/

namespace Sys2Proof.Machine

/-! ## Conditions (R122, R123, R100) -/

/-- R123: bin 0's enable is yes and its fill is at or above its capacity. -/
def Device.rejectFullActive (d : Device) : Bool :=
  d.binEnable 0 && decide (d.binCapacity 0 ≤ d.stacker.bins[(0 : Fin 16)].fill)

/-- R122: at least one of bins 1..15 is FULL. -/
def Device.binFullActive (d : Device) : Bool :=
  (List.finRange 16).any (fun k => decide (k.val ≠ 0) && decide (d.stacker.bins[k].state = .full))

/-- R100: the print-fault latch is set, or PRINT-READY is deasserted in RUN or DRAIN. -/
def Device.printFaultActive (d : Device) : Bool :=
  d.imprint.printFault || (!d.inputs.printReady && d.active)

/-- R160: a condition on a report of its source. -/
def Condition.on (c : Condition) (active : Bool) : Condition :=
  match c, active with
  | .inactive, true => .activeNew
  | .inactive, false => .inactive
  | .activeNew, true => .activeNew
  | .activeNew, false => .inactive
  | .activeSeen, true => .activeSeen
  | .activeSeen, false => .inactive

/-- R122, R123, R100, R160: the three sources report their conditions as they stand. -/
def reportConditions (d : Device) : Device :=
  { d with attention := { d.attention with
      rejectFull := d.attention.rejectFull.on d.rejectFullActive
      binFull := d.attention.binFull.on d.binFullActive
      printFault := d.attention.printFault.on d.printFaultActive } }

/-! ## Causes (R158, R159, R161) -/

/-- R158: the causes in order of priority. -/
def allCauses : List Cause :=
  [.jam, .lost, .stray, .missed, .queueFull, .rejectFull, .binFull, .scanSuspect, .underrun, .printFault,
    .linkError, .rollover]

/-- R158: a cause's priority, 0 highest. -/
def Cause.priority : Cause → Nat
  | .jam => 0
  | .lost => 1
  | .stray => 2
  | .missed => 3
  | .queueFull => 4
  | .rejectFull => 5
  | .binFull => 6
  | .scanSuspect => 7
  | .underrun => 8
  | .printFault => 9
  | .linkError => 10
  | .rollover => 11

/-- The latch of an event cause; a condition cause has none. -/
def AttentionUnit.latch (a : AttentionUnit) : Cause → Option Latch
  | .jam => a.jam
  | .lost => a.lost
  | .stray => a.stray
  | .missed => a.missed
  | .queueFull => a.queueFull
  | .scanSuspect => a.scanSuspect
  | .underrun => a.underrun
  | .linkError => a.linkError
  | .rollover => a.rollover
  | .rejectFull => none
  | .binFull => none
  | .printFault => none

/-- The latch of an event cause replaced. -/
def AttentionUnit.setLatch (a : AttentionUnit) (c : Cause) (l : Option Latch) : AttentionUnit :=
  match c with
  | .jam => { a with jam := l }
  | .lost => { a with lost := l }
  | .stray => { a with stray := l }
  | .missed => { a with missed := l }
  | .queueFull => { a with queueFull := l }
  | .scanSuspect => { a with scanSuspect := l }
  | .underrun => { a with underrun := l }
  | .linkError => { a with linkError := l }
  | .rollover => { a with rollover := l }
  | .rejectFull => a
  | .binFull => a
  | .printFault => a

/-- The state of a condition cause; an event cause has none and counts as inactive. -/
def AttentionUnit.condition (a : AttentionUnit) : Cause → Condition
  | .rejectFull => a.rejectFull
  | .binFull => a.binFull
  | .printFault => a.printFault
  | _ => .inactive

/-- R162: a condition cause moves to ACTIVE_SEEN. -/
def AttentionUnit.markSeen (a : AttentionUnit) (c : Cause) : AttentionUnit :=
  match c with
  | .rejectFull => { a with rejectFull := .activeSeen }
  | .binFull => { a with binFull := .activeSeen }
  | .printFault => { a with printFault := .activeSeen }
  | _ => a

/-- The cause an occurrence is of. -/
def Occurrence.cause : Occurrence → Cause
  | .jam _ _ => .jam
  | .lost _ _ _ => .lost
  | .stray _ _ => .stray
  | .missed _ _ => .missed
  | .queueFull _ => .queueFull
  | .scanSuspect _ _ => .scanSuspect
  | .underrun _ _ => .underrun
  | .linkError _ => .linkError
  | .rollover _ => .rollover

/-- R159: a latch on an occurrence: set with its detail, or its repeat count increased, holding at 255. -/
def latchOn (l : Option Latch) (o : Occurrence) : Latch :=
  match l with
  | none => { detail := o, repeats := 0 }
  | some l => { l with repeats := min Config.repeatMax (l.repeats + 1) }

/-- R159: an occurrence of an event cause, whatever the mask and the mode. -/
def occur (d : Device) (o : Occurrence) : Device :=
  { d with attention := d.attention.setLatch o.cause (some (latchOn (d.attention.latch o.cause) o)) }

/-- R161: a cause is masked; JAM never is. -/
def AttentionUnit.masked (a : AttentionUnit) (c : Cause) : Bool :=
  decide (c ≠ .jam) && a.mask.getLsbD c.priority

/-- R162: the causes that qualify: unmasked, with the latch set or the condition ACTIVE_NEW. -/
def AttentionUnit.qualifies (a : AttentionUnit) (c : Cause) : Bool :=
  !a.masked c && ((a.latch c).isSome || decide (a.condition c = .activeNew))

/-- R161: ATTN. -/
def Device.attn (d : Device) : Bool := allCauses.any d.attention.qualifies

/-! ## Feed hold (R155, R156, R151) -/

/-- R155: the set of feed-stop causes in effect, coded as READ STATUS word 0 bits 4..0. -/
def Device.feedStopCauses (d : Device) : Nat :=
  bit (decide (d.line.mode ≠ .run)) + 2 * bit (decide (Config.queueHigh ≤ d.track.queue.length)) +
    4 * bit d.rejectFullActive + 8 * bit d.line.holdFeed + 16 * bit d.line.scanLock

/-- R155: FEED-STOP is asserted while any cause is set. -/
def Device.feedStop (d : Device) : Bool := decide (d.feedStopCauses ≠ 0)

/-- R151: STOP is asserted if and only if the mode is HALTED. -/
def Device.stop (d : Device) : Bool := decide (d.line.mode = .halted)

/-- R156: the handshake state: 0 FEEDING, 1 STOPPING, 2 HELD, 3 RELEASING. -/
def Device.handshake (d : Device) : Nat :=
  match d.feedStop, d.inputs.feedHeld with
  | false, false => 0
  | true, false => 1
  | true, true => 2
  | false, true => 3

/-- R20, R119: the actuator lines: asserted while a record holds the order. -/
def Device.twistLine (d : Device) : Bool := d.track.twist.isSome
def Device.turnLine (d : Device) : Bool := d.track.turn.isSome
def Device.gateLine (d : Device) (k : Fin 16) : Bool := d.stacker.gates[k].isSome

end Sys2Proof.Machine
end

