-- ==== Sys2Proof/Machine/Report.lean ====
section
/-! DEFINITION. The Report Link and the Tally Unit's closes: the Report Queue and its arbiter (R176 to R178), the
period close (R134 to R139), the item batches (R143 to R145), and the building of a response (R171). -/

namespace Sys2Proof.Machine

/-! ## The Report Queue -/

/-- R176: the words the Report Queue has room for. -/
def Device.reportRoom (d : Device) : Nat := Config.reportWords - d.report.queue.length

/-- R177: words placed at the tail of the Report Queue. -/
def Device.enqueue (d : Device) (ws : List LinkWord) : Device :=
  { d with report := { d.report with queue := d.report.queue ++ ws } }

/-- R177: a response is waiting. -/
def Device.responseWaiting (d : Device) : Bool :=
  match d.command with
  | .waiting _ _ => true
  | .free => false
  | .receiving _ => false

/-- R177, R178: the waiting response is placed if it fits, and the Command Unit is FREE. A response of more than 256
words begins when the queue is empty and then enters word by word. -/
def placeResponse (d : Device) : Device :=
  match d.command with
  | .free => d
  | .receiving _ => d
  | .waiting rest begun =>
    if rest.length ≤ d.reportRoom then { d.enqueue rest with command := .free }
    else if begun || (decide (Config.reportWords < rest.length) && d.report.queue.isEmpty) then
      { d.enqueue (rest.take d.reportRoom) with command := .waiting (rest.drop d.reportRoom) true }
    else d

/-! ## Period closes -/

/-- R136: a close: the page takes the counters and the clock, the counters go to 0 and the next period opens. -/
def closePeriod (d : Device) (causes : CloseCauses) (deferred : Bool) : Device :=
  { d with tally := { d.tally with
      page := some
        { period := d.tally.period, causes := causes, deferred := deferred, clockValid := d.clock.valid,
          date := d.clock.date, hour := d.clock.hour, minute := d.clock.minute, second := d.clock.second,
          admission := d.track.admission, counters := d.tally.counters }
      counters := Vector.replicate 56 0
      period := d.tally.period + 1 } }

/-- R137: a pending deferred close is taken when the page buffer is empty. -/
def takeDeferred (d : Device) : Device :=
  match d.tally.page, d.tally.deferred with
  | none, some causes => closePeriod { d with tally := { d.tally with deferred := none } } causes true
  | none, none => d
  | some _, _ => d

/-- R138, R177: the page is queued whole when it fits and no response is waiting, and the page buffer is empty. -/
def placePage (d : Device) : Device :=
  match d.tally.page with
  | none => d
  | some p =>
    if d.responseWaiting = false ∧ Config.pageWords ≤ d.reportRoom then
      { d.enqueue (linkFrame p.words) with tally := { d.tally with page := none } }
    else d

/-- R137, R138: the page is placed; the close deferred behind it is then taken, and its page offered in turn. -/
def settlePage (d : Device) : Device := placePage (takeDeferred (placePage d))

/-- R177: the arbiter's test: the waiting response first, then the waiting page. -/
def arbiter (d : Device) : Device := settlePage (placeResponse d)

/-- R135, R137: a close is requested: taken at once, or deferred behind a page, or joined to the close deferred. The
arbiter's test of R177 follows in the same step, unless another request arrives together (log 32): `requestAutoClose`
makes it, and for CLOSE TALLY it is that of the response (log 15). -/
def requestClose (d : Device) (causes : CloseCauses) : Device :=
  match d.tally.page, d.tally.deferred with
  | none, none => closePeriod d causes false
  | _, some c =>
    let both : CloseCauses :=
      { command := c.command || causes.command, autoClose := c.autoClose || causes.autoClose }
    { d with tally := { d.tally with deferred := some both } }
  | some _, none => { d with tally := { d.tally with deferred := some causes } }

/-- R105, R135, R136 step 5, R177: an auto close is requested, and the arbiter tests the waiting frames. With a CLOSE
TALLY that arrives together (`beside`) the test is that of its response, so CLOSE TALLY finds the page buffer holding
the page just frozen (R110; log 32). -/
def requestAutoClose (beside : Bool) (d : Device) : Device :=
  let e := requestClose d { command := false, autoClose := true }
  if beside then e else arbiter e

/-! ## Item batches -/

/-- R145, 12.5: the ITEM BATCH frame of the reports held. -/
def batchFrame (reports : List (List Word)) : List LinkWord :=
  linkFrame (headWord 0x81 reports.length :: reports.flatten)

/-- R144, R145: the batch buffer is offered: placed if nothing is waiting and it fits, else dropped and counted. -/
def offerBatch (d : Device) : Device :=
  if d.tally.batch.isEmpty then d
  else if d.responseWaiting = false ∧ d.tally.page = none ∧ 1 + 6 * d.tally.batch.length ≤ d.reportRoom then
    { d.enqueue (batchFrame d.tally.batch) with tally := { d.tally with batch := [] } }
  else
    { d with tally := { d.tally with batch := [] } }.countBy ctrReportsDropped d.tally.batch.length

/-- R144: the offers that an applied Settings change calls for. -/
def offerOnSettings (d : Device) : Device :=
  if d.itemReports = false ∨ d.batchSize ≤ d.tally.batch.length then offerBatch d else d

/-! ## Responses -/

/-- What a command answers (R171): its result code, result detail and result words. -/
structure Answer where
  code : ResultCode
  detail : Nat
  words : List Word
  deriving DecidableEq, Repr

/-- DONE with its result words. -/
def Answer.done (words : List Word) : Answer := { code := .done, detail := 0, words := words }

/-- 12.4: the words of a RESPONSE frame. -/
def responseWords (kind : CommandKind) (tag : BitVec 8) (excess : Nat) (a : Answer) : List Word :=
  [headWord 0x80 tag.toNat, headWord (commandCode kind) a.code.code, word a.words.length, word excess,
    word a.detail] ++ a.words

/-- R171, R178: the response is built and waits, and the excess word count goes into it. -/
def buildResponse (d : Device) (kind : CommandKind) (tag : BitVec 8) (a : Answer) : Device :=
  { d with
    command := .waiting (linkFrame (responseWords kind tag d.feed.excess a)) false
    feed := { d.feed with excess := 0 } }

/-- R170, R171, R178: the response is built and the arbiter tests it: the Command Unit is FREE if it is placed and
WAITING if not. -/
def respond (d : Device) (kind : CommandKind) (tag : BitVec 8) (a : Answer) : Device :=
  arbiter (buildResponse d kind tag a)

/-! ## The steps of the Report Link and of the closes -/

/-- DEFERRED_CLOSE (R137): where a close is deferred and the page buffer is empty, it is taken and its page
offered. -/
def deferredClose (d : Device) : Device :=
  match d.tally.page, d.tally.deferred with
  | none, some _ => arbiter (takeDeferred d)
  | none, none => d
  | some _, _ => d

/-- R176: the word at the head may be completed: REPORT-HOLD is deasserted, or the word was begun before it was
asserted. -/
def Device.underWay (d : Device) : Bool := !d.inputs.reportHold || d.report.begun

/-- REPORT_WORD_TRANSMITTED (R176): the head word, if it is under way, leaves on RL-DATA and RL-HEAD with one RL-STROBE,
and none is begun behind it while REPORT-HOLD is asserted; the arbiter then tests (R177). -/
def transmitWord (d : Device) : Device :=
  match d.report.queue with
  | [] => d
  | w :: rest =>
    if d.underWay then
      arbiter { d with report := { queue := rest, begun := false, sent := some w, strobes := d.report.strobes + 1 } }
    else d

/-- REPORT_HOLD_CHANGE (R176, R179): a head word begun by the assertion of REPORT-HOLD is still completed, and one not
begun stays (log 28). With REPORT-HOLD asserted already no word can have been begun since. -/
def reportHoldChange (level : HoldLevel) (d : Device) : Device :=
  match level with
  | .deasserted =>
    { d with inputs := { d.inputs with reportHold := false }, report := { d.report with begun := false } }
  | .asserted begun =>
    { d with
      inputs := { d.inputs with reportHold := true }
      report := { d.report with
        begun := !d.report.queue.isEmpty && (if d.inputs.reportHold then d.report.begun else begun) } }

def execDeferredClose (s : State) : Host.Outcome State Fault Refusal := s.stepDevice deferredClose

/-- TALLY_PAGE_QUEUED (R138): the waiting page is queued if it fits and no response waits; the deferred close behind
it is then taken (R137). -/
def execTallyPageQueued (s : State) : Host.Outcome State Fault Refusal := s.stepDevice settlePage

/-- RESPONSE_PLACED (R178): the waiting response is placed if it fits, and the page behind it in the same test. -/
def execResponsePlaced (s : State) : Host.Outcome State Fault Refusal := s.stepDevice arbiter

def execReportWordTransmitted (s : State) : Host.Outcome State Fault Refusal := s.stepDevice transmitWord

def execReportHoldChange (level : HoldLevel) (s : State) : Host.Outcome State Fault Refusal :=
  s.stepDevice (reportHoldChange level)

end Sys2Proof.Machine
end

