-- ==== Sys2Proof/Machine/Stacker.lean ====
section
/-! DEFINITION. The Stacker Unit: the Route Table row of an outcome, bin choice and reservation, bin states, out and
return requests, and the switches (chapter 7). -/

namespace Sys2Proof.Machine

/-! ## Bin states -/

def Device.bin (d : Device) (k : Fin 16) : Bin := d.stacker.bins[k]

def Device.setBin (d : Device) (k : Fin 16) (b : Bin) : Device :=
  { d with stacker := { d.stacker with bins := upd d.stacker.bins k b } }

/-- R117: the settled state of a bin with this configuration and these counts. -/
def settledState (k : Fin 16) (enable : Bool) (load capacity : Nat) : BinState :=
  if enable = false then .disabled
  else if k = 0 then .active
  else if load < capacity then .active
  else .full

/-- R117: a bin's state as it settles from the configuration applied and its own counts. -/
def Device.settled (d : Device) (k : Fin 16) (b : Bin) : BinState :=
  settledState k (d.binEnable k) (b.fill + b.committed) (d.binCapacity k)

/-- R117: a bin with new counts: an OUT_PENDING or OUT bin keeps its state, any other settles again. -/
def Device.resettle (d : Device) (k : Fin 16) (b : Bin) : Bin :=
  match b.state with
  | .outPending => b
  | .out => b
  | .active => { b with state := d.settled k b }
  | .full => { b with state := d.settled k b }
  | .disabled => { b with state := d.settled k b }

/-- R117: bin `k` settles again from the configuration now applied. -/
def settleBin (d : Device) (k : Fin 16) : Device := d.setBin k (d.resettle k (d.bin k))

/-- R120, R121: an OUT_PENDING bin whose committed count has come to 0 is OUT; any other settles again. -/
def Device.afterRelease (d : Device) (k : Fin 16) (b : Bin) : Bin :=
  if b.state = .outPending ∧ b.committed = 0 then { b with state := .out } else d.resettle k b

/-- R120: a letter is stacked: fill one more (holding at 65535), committed one less. -/
def stackBin (d : Device) (k : Fin 16) : Device :=
  let b := d.bin k
  d.setBin k (d.afterRelease k { b with fill := min 65535 (b.fill + 1), committed := b.committed - 1 })

/-- R121: a route is released: committed one less. -/
def releaseBin (d : Device) (k : Fin 16) : Device :=
  let b := d.bin k
  d.setBin k (d.afterRelease k { b with committed := b.committed - 1 })

/-- R124: an out request. -/
def outRequest (d : Device) (k : Fin 16) : Device :=
  let b := d.bin k
  match b.state with
  | .outPending => d
  | .out => d
  | .active => d.setBin k { b with state := if b.committed = 0 then .out else .outPending }
  | .full => d.setBin k { b with state := if b.committed = 0 then .out else .outPending }
  | .disabled => d.setBin k { b with state := if b.committed = 0 then .out else .outPending }

/-- R126: a return request: an OUT_PENDING bin keeps its fill, any other goes to fill 0; the state settles. -/
def returnRequest (d : Device) (k : Fin 16) : Device :=
  let b := d.bin k
  let b' := if b.state = .outPending then b else { b with fill := 0 }
  d.setBin k { b' with state := d.settled k b' }

/-! ## The route point -/

/-- R111, R112: the Route Table row of the disposition in force; none while a record has no disposition. -/
def routeRow (r : ItemRecord) : Option Nat :=
  match r.disposition with
  | none => none
  | some .facedPaid =>
    match r.classGroup, r.plan with
    | some g, some p => some (2 * g.val + p.group.code)
    | _, _ => none
  | some .shortPaid => some 32
  | some .outOfGauge => some 33
  | some .reused => some 34
  | some .noMark => some 35
  | some .ambiguous => some 36
  | some .scanFault => some 37
  | some .late => some 38
  | some .faceFault => some 39
  | some .uncancelled => some 40

/-- R114, steps 1 to 3: a bin takes a route: bin 0 while ACTIVE, any other while ACTIVE with room. -/
def Device.takesRoute (d : Device) (k : Fin 16) : Bool :=
  decide ((d.bin k).state = .active) &&
    (decide (k = 0) || decide ((d.bin k).fill + (d.bin k).committed < d.binCapacity k))

/-- R114: the bin chosen from a primary bin, and by which step; none if bin 0 is out too. -/
def Device.chooseBin (d : Device) (p : Fin 16) : Option Route :=
  if d.takesRoute p then some { bin := p, via := .primary }
  else if d.binAlternate p ≠ p ∧ d.takesRoute (d.binAlternate p) = true then
    some { bin := d.binAlternate p, via := .alternate }
  else if (d.bin 0).state = .active ∨ (d.bin 0).state = .disabled then some { bin := 0, via := .reject }
  else none

/-- R115: a record's route is fixed: its bin's committed count rises and the bin settles again. -/
def fixRoute (d : Device) (n : RecNo) (route : Route) : Device :=
  let b := d.bin route.bin
  let d := d.setBin route.bin (d.resettle route.bin { b with committed := b.committed + 1 })
  d.modify n (fun r => { r with route := some route })

/-- R113: the route point of a record that has no route yet. -/
def routePoint (d : Device) (n : RecNo) : Device :=
  match d.find n with
  | none => d
  | some r =>
    match r.route, routeRow r with
    | none, some row =>
      match d.chooseBin (Fin.ofNat 16 (d.num 5 row 0)) with
      | some route => reportConditions (fixRoute d n route)
      | none => d
    | none, none => d
    | some _, _ => d

/-! ## Gate orders -/

/-- R119: GATE `k` takes the order of record `n`. -/
def assertGate (d : Device) (k : Fin 16) (n : RecNo) : Device :=
  { d with stacker := { d.stacker with gates := upd d.stacker.gates k (some n) } }

/-! ## The switches (R125, R127) -/

def setHeld (d : Device) (k : Fin 16) (held : Bool) : Device :=
  d.setBin k { d.bin k with held := held }

def setBinOutLine (d : Device) (k : Fin 16) (level : Bool) : Device :=
  { d with inputs := { d.inputs with binOut := upd d.inputs.binOut k level } }

/-- R125: an out request for bin 0 is not taken in RUN or DRAIN. -/
def Device.outBarred (d : Device) (k : Fin 16) : Bool := decide (k = 0) && d.active

/-- BIN_OUT_SWITCH_ASSERTION (R127): the switch is held and an out request is made, R125 apart. An edge while RESET
is asserted changes the line alone. -/
def binSwitchAssertion (k : Fin 16) (d : Device) : Device :=
  let d := setBinOutLine d k true
  if d.inputs.resetLine then d
  else
    let d := setHeld d k true
    if d.outBarred k then d else reportConditions (outRequest d k)

/-- BIN_OUT_SWITCH_RELEASE (R127): the switch is released and a return request is made. -/
def binSwitchRelease (k : Fin 16) (d : Device) : Device :=
  let d := setBinOutLine d k false
  if d.inputs.resetLine then d else reportConditions (returnRequest (setHeld d k false) k)

def execBinOutSwitchAssertion (k : Fin 16) (s : State) : Host.Outcome State Fault Refusal :=
  s.stepDevice (binSwitchAssertion k)

def execBinOutSwitchRelease (k : Fin 16) (s : State) : Host.Outcome State Fault Refusal :=
  s.stepDevice (binSwitchRelease k)

end Sys2Proof.Machine
end

