-- ==== Sys2Proof/Machine/Imprint.lean ====
section
/-! DEFINITION. The Imprint Unit: composition of an imprint, the Build Queue and the Column Ring, the build and the
print of its columns (chapter 5). -/

namespace Sys2Proof.Machine

/-! ## Composition (R79 to R84) -/

/-- R79: a width of 0 is used as 1. -/
def Device.templateWidth (d : Device) (t : Nat) : Nat := max 1 (d.num 8 t 0)
def Device.lineCount (d : Device) (t : Nat) : Nat := d.num 8 t 5
def Device.lineStart (d : Device) (t line : Nat) : Nat := d.num 8 t (6 + 6 * line)
def Device.lineOffset (d : Device) (t line : Nat) : Nat := d.num 8 t (7 + 6 * line)
def Device.lineChars (d : Device) (t line : Nat) : Nat := d.num 8 t (8 + 6 * line)
def Device.lineDoubled (d : Device) (t line : Nat) : Bool := d.flag 8 t (9 + 6 * line)
def Device.lineRightShadow (d : Device) (t line : Nat) : Bool := d.flag 8 t (10 + 6 * line)
def Device.lineDownShadow (d : Device) (t line : Nat) : Bool := d.flag 8 t (11 + 6 * line)

/-- R80: the Text Store code at place `k` of a line. -/
def Device.textCode (d : Device) (t line k : Nat) : Nat := d.num 9 (4 * t + line) k

/-- A glyph position: a glyph number, or blank. -/
abbrev Glyph := Option Nat

/-- R81: a digit's glyph number; blank if it exceeds 127. -/
def Device.digitGlyph (d : Device) (n : Nat) : Glyph :=
  if d.digitBase + n ≤ 127 then some (d.digitBase + n) else none

/-- R81: a number in `width` digits, most significant first, with leading zeros. -/
def Device.digits (d : Device) (width n : Nat) : List Glyph :=
  (List.range width).map (fun i => d.digitGlyph (n / 10 ^ (width - 1 - i) % 10))

/-- R81: a clock field: its digits with Clock Valid on, blanks with it off. -/
def Device.clockDigits (d : Device) (width n : Nat) : List Glyph :=
  if d.clock.valid then d.digits width n else List.replicate width none

/-- R81: the three glyphs of the month's name; a code above 127 is blank. -/
def Device.monthGlyphs (d : Device) : List Glyph :=
  if d.clock.valid then
    (List.range 3).map (fun j =>
      let c := d.num 10 (d.clock.date.month - 1) j
      if c ≤ 127 then some c else none)
  else List.replicate 3 none

/-- R81: the glyph positions of one code, for a record of sequence number `seq`. -/
def Device.renderCode (d : Device) (seq code : Nat) : List Glyph :=
  if code ≤ 127 then [some code]
  else if code = 128 then d.clockDigits 2 d.clock.date.day
  else if code = 129 then d.monthGlyphs
  else if code = 130 then d.clockDigits 4 d.clock.date.year
  else if code = 131 then d.clockDigits 2 d.clock.hour
  else if code = 132 then d.clockDigits 2 d.clock.minute
  else if code = 133 then d.digits 6 seq
  else if code = 134 then d.digits 3 d.machineNumber
  else [none]

/-- R83: the glyph positions of a line, laid end to end. -/
def Device.lineGlyphs (d : Device) (t line seq : Nat) : List Glyph :=
  (List.range (d.lineChars t line)).flatMap (fun k => d.renderCode seq (d.textCode t line k))

/-- R84: a glyph column doubled vertically: row r falls on rows 2r and 2r + 1. -/
def doubleRows (g : Word) : BitVec 64 :=
  (List.range 16).foldl
    (fun acc r => if g.getLsbD r then acc ||| (3#64 <<< (2 * r)) else acc) 0#64

/-- R83, R84 step 2: the dots of a line's image on imprint column `c`, rows above 31 not yet clipped. Columns at or
beyond the width are not composed. -/
def Device.lineImage (d : Device) (t line : Nat) (glyphs : List Glyph) (c : Nat) : BitVec 64 :=
  let start := d.lineStart t line
  if c < start ∨ d.templateWidth t ≤ c then 0
  else
    match glyphs[(c - start) / 12]? with
    | some (some g) =>
      let column := d.cell 11 g ((c - start) % 12)
      (if d.lineDoubled t line then doubleRows column else column.setWidth 64) <<< d.lineOffset t line
    | some none => 0
    | none => 0

/-- R84 step 3: the image with its shadows, each copied from the image alone. -/
def Device.lineDots (d : Device) (t line : Nat) (glyphs : List Glyph) (c : Nat) : BitVec 64 :=
  d.lineImage t line glyphs c |||
    (if d.lineRightShadow t line ∧ 0 < c then d.lineImage t line glyphs (c - 1) else 0) |||
    (if d.lineDownShadow t line then d.lineImage t line glyphs c <<< 1 else 0)

/-- R84 step 1: the bar's dots on column `c`. -/
def Device.barDots (d : Device) (t c : Nat) : BitVec 64 :=
  let pattern := d.num 8 t 2
  let start := d.num 8 t 3
  let width := d.num 8 t 4
  if pattern ≤ 3 ∧ width ≠ 0 ∧ start ≤ c ∧ c < start + width then
    let row := 64 * pattern + (c - start) % 64
    (d.cell 12 row 0).setWidth 64 ||| ((d.cell 12 row 1).setWidth 64 <<< 16)
  else 0

/-- R84 steps 4 and 5: the column's dots: the union, clipped at row 31. -/
def Device.composeColumn (d : Device) (t : Nat) (lines : List (Nat × List Glyph)) (c : Nat) : Dots :=
  (lines.foldl (fun acc l => acc ||| d.lineDots t l.1 l.2 c) (d.barDots t c)).setWidth 32

/-- R84: the columns of an imprint of template `t` for sequence number `seq`, from the tables and clock as they
stand. -/
def Device.compose (d : Device) (t seq : Nat) : List Dots :=
  let lines := (List.range (d.lineCount t)).map (fun l => (l, d.lineGlyphs t l seq))
  (List.range (d.templateWidth t)).map (d.composeColumn t lines)

/-! ## The Column Ring (R89) -/

/-- R89: a ring column is held by an imprint. -/
def Device.ringHeld (d : Device) (c : Nat) : Bool :=
  d.imprint.ring.any (fun h => decide ((c + Config.ringColumns - h.start) % Config.ringColumns < h.columns.length))

/-- R90: the `w` columns from the allocation point onward are all free. -/
def Device.ringRoom (d : Device) (w : Nat) : Bool :=
  (List.range w).all (fun k => !d.ringHeld ((d.imprint.alloc + k) % Config.ringColumns))

/-- READ STATUS word 23: the free ring columns. -/
def Device.ringFree (d : Device) : Nat :=
  Config.ringColumns - (d.imprint.ring.map (fun h => h.columns.length)).sum

/-- R89: every column an imprint holds is released. -/
def releaseRing (d : Device) (n : RecNo) : Device :=
  { d with imprint := { d.imprint with ring := d.imprint.ring.filter (fun h => decide (h.number ≠ n)) } }

/-- R89, R95: an imprint's first column is released. -/
def releaseColumn (d : Device) (n : RecNo) : Device :=
  { d with imprint := { d.imprint with ring := d.imprint.ring.map (fun h =>
      if h.number = n then
        { h with start := (h.start + 1) % Config.ringColumns, columns := h.columns.tail }
      else h) } }

/-- The columns an imprint holds. -/
def Device.heldColumns (d : Device) (n : RecNo) : List Dots :=
  match d.imprint.ring.find? (fun h => decide (h.number = n)) with
  | some h => h.columns
  | none => []

/-! ## The build -/

/-- R92: the cancel sequence counter after one advance, from 999999 to 1. -/
def nextSequence (n : Nat) : Nat := if Config.sequenceMax ≤ n then 1 else n + 1

/-- R90: the head of the Build Queue with its template, where the builder may begin it. -/
def Device.buildReady (d : Device) : Option (RecNo × Nat) :=
  if d.active = false ∨ d.imprint.builder ≠ none then none
  else
    match d.buildQueue with
    | [] => none
    | r :: _ =>
      match r.cancel with
      | none => none
      | some c => if d.ringRoom (d.templateWidth c.template) then some (r.number, c.template) else none

/-- R90: the builder waits for ring room with a head record. -/
def Device.buildWaiting (d : Device) : Bool :=
  d.active && decide (d.imprint.builder = none) && decide (d.buildQueue ≠ []) && d.buildReady.isNone

/-- R91 steps 1, 3 and 4: what a build begin writes into its record. -/
def ItemRecord.beginBuild (seq : Nat) (date : Option Date) (r : ItemRecord) : ItemRecord :=
  { r with imprint := .building, sequence := some seq, buildDate := date }

/-- R89, R91: the builder builds record `n`: the columns are held from the allocation point, the number is taken. -/
def holdColumns (d : Device) (n : RecNo) (seq : Nat) (columns : List Dots) : Device :=
  { d with imprint := { d.imprint with
      builder := some n
      ring := d.imprint.ring ++ [{ number := n, start := d.imprint.alloc, columns := columns }]
      alloc := (d.imprint.alloc + columns.length) % Config.ringColumns
      sequence := seq } }

/-- R91 step 4: the build date. -/
def Device.buildDate (d : Device) : Option Date := if d.clock.valid then some d.clock.date else none

/-- R91: the build of the record `n` with template `t` begins. -/
def beginBuild (d : Device) (n : RecNo) (t : Nat) : Device :=
  let seq := nextSequence d.imprint.sequence
  (holdColumns (d.modify n (ItemRecord.beginBuild seq d.buildDate)) n seq (d.compose t seq)).count ctrBuildsBegun

/-- BUILD_BEGIN (R90, R91): the builder takes the head of the Build Queue when the mode, the builder and the ring
allow. -/
def buildBegin (d : Device) : Device :=
  match d.buildReady with
  | some (n, t) => beginBuild d n t
  | none => d

/-- R93: the builder is free. -/
def freeBuilder (d : Device) : Device := { d with imprint := { d.imprint with builder := none } }

/-- R95: the print in progress, or none. -/
def setPrinting (d : Device) (p : Option Printing) : Device := { d with imprint := { d.imprint with printing := p } }

/-- R93: the builder is freed of record `n`, and the columns the record's imprint holds are released. -/
def dropImprint (d : Device) (n : RecNo) : Device :=
  let d := releaseRing d n
  if d.imprint.builder = some n then freeBuilder d else d

/-! ## The print -/

/-- R94, R97, R99: a record's cancellation fails: its status, the disposition UNCANCELLED, cancel intent no. -/
def ItemRecord.uncancel (r : ItemRecord) (status : ImprintStatus) : ItemRecord :=
  { r with imprint := status, disposition := some .uncancelled, cancel := none }

/-- R100: the print-fault latch. -/
def setPrintFault (d : Device) (b : Bool) : Device :=
  { d with imprint := { d.imprint with printFault := b } }

/-- R95, R96: the record PRINTING ends PRINTED, what columns it still holds released. -/
def endPrinted (d : Device) (n : RecNo) : Device :=
  let d := d.modify n (fun r => { r with imprint := .printed })
  (setPrinting (releaseRing d n) none).count ctrPrinted

/-- R97: the print in progress is aborted; nothing where no record is PRINTING. -/
def abortPrint (d : Device) : Device :=
  match d.imprint.printing with
  | none => d
  | some p =>
    let d := d.modify p.number (fun r => r.uncancel .aborted)
    (setPrintFault (setPrinting (releaseRing d p.number) none) true).count ctrPrintAborted

/-- R96: a print start while another record is PRINTING ends that record's print. -/
def preemptPrint (d : Device) : Device :=
  match d.imprint.printing with
  | none => d
  | some p => endPrinted d p.number

/-- R94: the print start decision of record `n`, its print start at `p`. -/
def printDecision (d : Device) (n : RecNo) (p : Pos) (status : ImprintStatus) : Device :=
  match status with
  | .built =>
    if d.inputs.printReady then
      setPrinting (d.modify n (fun r => { r with imprint := .printing })) (some { number := n, start := p, column := 0 })
    else
      let d := releaseRing (d.modify n (fun r => r.uncancel .aborted)) n
      (setPrintFault d true).count ctrPrintAborted
  | .building =>
    let d := dropImprint (d.modify n (fun r => r.uncancel .underrun)) n
    (occur d (.underrun n true)).count ctrUnderruns
  | .queued =>
    let d := d.modify n (fun r => r.uncancel .underrun)
    (occur d (.underrun n false)).count ctrUnderruns
  | .none => d
  | .printing => d
  | .printed => d
  | .underrun => d
  | .aborted => d

/-- PRINT-COL with these dots set. -/
def setPrintCol (d : Device) (dots : Dots) : Device := { d with imprint := { d.imprint with printCol := dots } }

/-- R95: where the print in progress has its next column due. -/
def Printing.due (p : Printing) : Pos := p.start + counts p.column

/-- R95: PRINT-COL takes a column's dots and PRINT-STROBE is given once on them (log 8). -/
def strobeColumn (d : Device) (dots : Dots) : Device :=
  { d with imprint := { d.imprint with
      printCol := dots, printStrobes := d.imprint.printStrobes + 1, strobed := some dots } }

/-- R95: the column due is sent unless it lies at or after the clip position. R95 gives no level of PRINT-COL at a
column not sent: there it keeps the dots last set (log 16). -/
def sendColumn (d : Device) (p : Printing) : Device :=
  let clipped := match d.find p.number with
    | some r => match r.clip with
      | some c => atOrAfter p.due c
      | none => false
    | none => false
  match clipped, d.heldColumns p.number with
  | false, dots :: _ => strobeColumn d dots
  | false, [] => d
  | true, _ => d

/-- PRINT_COLUMN_DUE (R95): in RUN and DRAIN, the next column of the record PRINTING is taken when the encoder is at
its due position; the last one makes the imprint PRINTED and leaves PRINT-COL with no dots. -/
def printColumnDue (d : Device) : Device :=
  match d.imprint.printing with
  | none => d
  | some p =>
    if d.active = true ∧ d.track.encoder = p.due then
      let d := releaseColumn (sendColumn d p) p.number
      if (d.heldColumns p.number).isEmpty then setPrintCol (endPrinted d p.number) 0
      else setPrinting d (some { p with column := p.column + 1 })
    else d

/-- PRINT_READY_DEASSERTED (R97, R100): the print in progress is aborted, and the condition follows. -/
def printReadyDeasserted (d : Device) : Device :=
  let d := { d with inputs := { d.inputs with printReady := false } }
  reportConditions (abortPrint d)

/-- PRINT_READY_ASSERTED (R100): in RUN or DRAIN the print-fault latch is cleared. -/
def printReadyAsserted (d : Device) : Device :=
  let d := { d with inputs := { d.inputs with printReady := true } }
  reportConditions (if d.active then setPrintFault d false else d)

/-! ## Removal and halting (R98, R99) -/

/-- R99: the imprint of a record removed by exit kind STACKED (`stacked`) or another: the part after it, and the
record as counted and reported. -/
def settleImprint (d : Device) (r : ItemRecord) (stacked : Bool) : Device × ItemRecord :=
  match r.imprint with
  | .queued => (d, { r with imprint := .none })
  | .building => (dropImprint d r.number, { r with imprint := .aborted })
  | .built => (dropImprint d r.number, { r with imprint := .aborted })
  | .printing =>
    let d := releaseRing (setPrinting d none) r.number
    if stacked then (d.count ctrPrinted, { r with imprint := .printed })
    else (d.count ctrPrintAborted, r.uncancel .aborted)
  | .none => (d, r)
  | .printed => (d, r)
  | .underrun => (d, r)
  | .aborted => (d, r)

/-- R98 step 1: a print in progress is aborted and PRINT-COL left with no dots. -/
def haltPrint (d : Device) : Device :=
  match d.imprint.printing with
  | none => d
  | some _ => setPrintCol (abortPrint d) 0

/-- R98 step 2: a build in progress is abandoned, its record ABORTED. -/
def haltBuild (d : Device) : Device :=
  match d.imprint.builder with
  | none => d
  | some n => dropImprint (d.modify n (fun r => { r with imprint := .aborted })) n

/-- R98: entry to HALTED. -/
def haltImprint (d : Device) : Device := haltBuild (haltPrint d)

def execPrintColumnDue (s : State) : Host.Outcome State Fault Refusal := s.stepDevice printColumnDue

def execPrintReadyDeasserted (s : State) : Host.Outcome State Fault Refusal := s.stepDevice printReadyDeasserted

def execPrintReadyAsserted (s : State) : Host.Outcome State Fault Refusal := s.stepDevice printReadyAsserted

def execBuildBegin (s : State) : Host.Outcome State Fault Refusal := s.stepDevice buildBegin

end Sys2Proof.Machine
end

