-- ==== Sys2Proof/Machine/Clock.lean ====
section
/-! DEFINITION. The Day Clock (chapter 6): the calendar, the SECOND pulse with its rollover and pending adjustment,
SET CLOCK and ADJUST CLOCK. -/

namespace Sys2Proof.Machine

/-- R103: the length of a month; every year divisible by 4 in 2000..2099 is a leap year. -/
def monthLength (year month : Nat) : Nat :=
  match month with
  | 2 => if year % 4 = 0 then 29 else 28
  | 4 => 30
  | 6 => 30
  | 9 => 30
  | 11 => 30
  | _ => 31

/-- R103 steps 4 to 7: the next date, from 31 December 2099 to 1 January 2000. -/
def nextDate (t : Date) : Date :=
  if t.day < monthLength t.year t.month then { t with day := t.day + 1 }
  else if t.month < 12 then { year := t.year, month := t.month + 1, day := 1 }
  else { year := if t.year < 2099 then t.year + 1 else 2000, month := 1, day := 1 }

/-- The clock with its time of day set to a number of seconds since midnight. -/
def DayClock.atSecond (c : DayClock) (n : Nat) : DayClock :=
  { c with hour := n / 3600, minute := n / 60 % 60, second := n % 60 }

/-- R92, R104: a date change handed to the Imprint Unit sets the cancel sequence counter to 0. -/
def dateChange (d : Device) : Device := { d with imprint := { d.imprint with sequence := 0 } }

/-- R105: a rollover: the new date is held, numbering restarts, ROLLOVER is latched and an auto close requested, with a
CLOSE TALLY beside it or not (R110). -/
def rollover (beside : Bool) (d : Device) (c : DayClock) : Device :=
  let d := dateChange { d with clock := c }
  let d := occur d (.rollover c.date)
  if d.autoClose then requestAutoClose beside d else d

/-- R103, R108: the clock moves by `delta` seconds, a pending adjustment gone: past 23:59:59 it rolls over, before
00:00:00 it is set to midnight of the same day and clamped. -/
def moveClock (beside : Bool) (d : Device) (delta : Int) : Device :=
  let c := { d.clock with adjust := none }
  let t : Int := c.secondOfDay + delta
  if 86400 ≤ t then rollover beside d { c.atSecond (t - 86400).toNat with date := nextDate c.date }
  else if t < 0 then { d with clock := { c.atSecond 0 with clamped := true } }
  else { d with clock := c.atSecond t.toNat }

/-- R103, R108: the seconds by which a pulse moves the clock: one, and the pending adjustment if there is one. -/
def DayClock.pulseSeconds (c : DayClock) : Int := 1 + c.adjust.getD 0

/-- SECOND_PULSE (R103, R108): with Clock Valid on, one second on, and by the pending adjustment if there is one. A
pulse while RESET is asserted is not taken. -/
def secondPulse (beside : Bool) (d : Device) : Device :=
  if d.inputs.resetLine = true ∨ d.clock.valid = false then d
  else moveClock beside d d.clock.pulseSeconds

/-! ## A rollover and a CLOSE TALLY that arrive together (R110)

Of two requests that arrive together one is taken first while the other stands next in the queue (log 32). -/

/-- R110: the command that stands next in the queue is a SECOND pulse. -/
def pulseNext : List Instr → Bool
  | .secondPulse :: _ => true
  | _ => false

/-- R105, R110: a SECOND pulse taken now rolls over with auto close on, and so requests a close. -/
def Device.pulseCloses (d : Device) : Bool :=
  !d.inputs.resetLine && d.clock.valid && d.autoClose &&
    decide (86400 ≤ (d.clock.secondOfDay : Int) + d.clock.pulseSeconds)

/-- R110: the command that stands next in the queue has a CLOSE TALLY served, by its row or by the take of its word from
the Feed Input FIFO, with the Command Unit FREE and no word before it. -/
def Device.closeTallyNext (d : Device) : List Instr → Bool
  | .closeTally _ :: _ => decide (d.command = .free ∧ d.feed.fifo = [] ∧ d.feed.presented = [])
  | .frameDelimiterTake :: _ =>
    match d.feed.fifo with
    | w :: _ =>
      decide (d.command = .free) && w.head &&
        decide (frameKindOf (headKind w.data) = some (.command .closeTally))
    | [] => false
  | _ => false

/-- R106: the place of the first value of SET CLOCK that fails its check. -/
def clockFault (year month day hour minute second : Nat) : Option Nat :=
  if year < 2000 ∨ 2099 < year then some 1
  else if month < 1 ∨ 12 < month then some 2
  else if day < 1 ∨ monthLength year month < day then some 3
  else if 23 < hour then some 4
  else if 59 < minute then some 5
  else if 59 < second then some 6
  else none

/-- SET CLOCK (R106). -/
def setClock (year month day hour minute second : Nat) (d : Device) : Device × Answer :=
  match clockFault year month day hour minute second with
  | some place => (d, { code := .badParameter, detail := place, words := [0] })
  | none =>
    let date : Date := { year := year, month := month, day := day }
    let changed := d.clock.valid = false ∨ date ≠ d.clock.date
    let answer := Answer.done
      [word (bit (decide changed) + 2 * bit d.clock.adjust.isSome + 4 * bit (!d.clock.valid))]
    let d' := { d with clock :=
      { date := date, hour := hour, minute := minute, second := second, valid := true, adjust := none,
        clamped := false } }
    (if changed then dateChange d' else d', answer)

/-- The pending adjustment as a result word: two's complement, 0 when absent. -/
def DayClock.adjustWord (c : DayClock) : Word := BitVec.ofInt 16 (c.adjust.getD 0)

/-- ADJUST CLOCK (R107). -/
def adjustClock (seconds : Word) (d : Device) : Device × Answer :=
  if seconds.toInt < -3600 ∨ 3600 < seconds.toInt then
    (d, { code := .badParameter, detail := 1, words := [d.clock.adjustWord] })
  else if d.clock.adjust.isSome then
    (d, { code := .pendingFull, detail := 0, words := [d.clock.adjustWord] })
  else
    let d := { d with clock := { d.clock with adjust := some seconds.toInt, clamped := false } }
    (d, .done [d.clock.adjustWord])

def execSecondPulse (s : State) : Host.Outcome State Fault Refusal :=
  s.stepDevice (secondPulse (s.dev.closeTallyNext s.pending))

end Sys2Proof.Machine
end

