-- ==== Sys2Proof/Machine/Window.lean ====
section
/-! DEFINITION. The Window Unit (chapter 11): reading and writing table cells, the window and its cursor, the Pending
Write Queue and the gap, and the open-ended WRITE frames. -/

namespace Sys2Proof.Machine

/-! ## Reading a cell -/

/-- R116 fields 3..6 of the Bin Table. -/
def Device.binField (d : Device) (k : Fin 16) (field : Nat) : Word :=
  match field with
  | 3 => word (d.bin k).fill
  | 4 => word (d.bin k).committed
  | 5 => word (d.bin k).state.code
  | _ => word (bit (d.bin k).held)

/-- R142: the 62 values of table 13. -/
def Device.tallyValues (d : Device) : List Count :=
  d.tally.counters.toList ++
    [d.tally.totals.admitted, d.tally.totals.stacked, d.tally.totals.lost, d.tally.totals.missed,
      d.tally.totals.purged, d.tally.totals.untracked]

/-- R25 field 18. -/
def chosenRowCode : Option ChosenMark → Nat
  | none => 65535
  | some m => match m.row with
    | .markClass n => n
    | .default n => 512 + n

/-- R25: the 23 fields of a record in the Tracking Queue view. -/
def ItemRecord.viewWords (r : ItemRecord) : List Word :=
  [1, r.number, word (bit r.tag.isSome), r.tag.getD 0, word r.state.code, word (partsCode r),
    word (bit r.scanFault)] ++ posWords r.lead ++
  [word (min 65535 (r.length.getD 0).toNat), word (bit r.length.isSome), word (dispositionCode r.disposition),
    word (match r.positionCode with | some c => c.val | none => 8),
    word (match r.route with | some t => t.bin.val | none => 16),
    word (viaCode r.route), word r.imprint.code, word (faceCheckCode r.faceCheck), word (lastSeenRow r),
    word (chosenRowCode r.chosen), r.totalValue.getD 0, r.requiredValue.getD 0,
    word (match r.buildDate with | some t => t.year | none => 0),
    word (match r.buildDate with | some t => t.month * 256 + t.day | none => 0)]

/-- R187: the value of a cell as applied; tables 13 and 14 are views (R142, R25). -/
def Device.readCell (d : Device) (table row field : Nat) : Word :=
  match table with
  | 6 => if 3 ≤ field then d.binField (Fin.ofNat 16 row) field else d.cell 6 row field
  | 13 =>
    match d.tallyValues[row]? with
    | some c => (countWords c).getD field 0
    | none => 0
  | 14 =>
    match d.track.queue[row]? with
    | some r => r.viewWords.getD field 0
    | none => 0
  | t => d.cell t row field

/-! ## Writing a cell -/

/-- R118: the capacity in effect of bin `k`: not below its fill plus committed, within the field. -/
def Device.clampCapacity (d : Device) (k : Fin 16) (v : Word) : Word :=
  word (min 65535 (max v.toNat ((d.bin k).fill + (d.bin k).committed)))

/-- R185, R193: one cell write taken by its table's rule; `value` is already held by the field's range. The Bin Table
alone acts at each write (R118); the other blocks act once, after the application (`afterWrites`). -/
def writeCell (d : Device) (w : CellWrite) : Device :=
  if cellReadOnly w.table w.row w.field then d
  else
    match w.table, w.field with
    | 6, 0 => settleBin (d.setCell 6 w.row 0 w.value) (Fin.ofNat 16 w.row)
    | 6, 1 =>
      let k := Fin.ofNat 16 w.row
      settleBin (d.setCell 6 w.row 1 (d.clampCapacity k w.value)) k
    | t, f => d.setCell t w.row f w.value

/-- R191: an open gap becomes met when the encoder has run the gap distance from its start. The apply point that R192
has tested at this is tested by the step (`gapMet`, `scanCellTrailingEdge`); at ENTER RUN and after an application the
Pending Write Queue holds no complete group. -/
def gapCheck (d : Device) : Device :=
  match d.window.gap with
  | .opened start =>
    if d.active = true ∧ d.gapDistance ≤ (d.track.encoder - start).toNat then
      { d with window := { d.window with gap := .met } }
    else d
  | .closed => d
  | .met => d

/-- R42: while the scan-suspect threshold, as applied, is 0 the scan-suspect counter is held at 0. -/
def holdSuspect (d : Device) : Device :=
  if d.suspectThreshold = 0 then { d with classifier := { d.classifier with suspect := 0 } } else d

/-- R193: what the other blocks do once writes have been applied as a whole: after a Settings write the batch offer it
calls for, the gap met by a shorter distance and the scan-suspect counter held by a threshold of 0; then the conditions
as the bins now stand (log 19, log 20). -/
def afterWrites (d : Device) (ws : List CellWrite) : Device :=
  let d := if ws.any (fun w => decide (w.table = 0)) then holdSuspect (gapCheck (offerOnSettings d)) else d
  reportConditions d

/-- R185: a cell write taken at once. -/
def writeNow (d : Device) (w : CellWrite) : Device := afterWrites (writeCell d w) [w]

/-- R157, R193, R194: staged writes applied in order as one event, with a GAP pulse if any was applied and GAP sync
is then on. -/
def applyWrites (d : Device) (ws : List CellWrite) : Device :=
  if ws.isEmpty then d
  else
    let d := afterWrites (ws.foldl writeCell d) ws
    if d.gapSync then { d with line := { d.line with gapPulses := d.line.gapPulses + 1 } } else d

/-! ## The Pending Write Queue -/

/-- R186: the open group. -/
def Device.openGroup (d : Device) : List CellWrite :=
  match d.command with
  | .receiving f => f.group
  | .free => []
  | .waiting _ _ => []

/-- R188: a frame that writes and has not overflowed holds an open group in RUN and DRAIN. -/
def Device.openGroups (d : Device) : Nat :=
  match d.command with
  | .receiving f => bit (decide (f.kind ≠ .nop) && f.refusal.isNone && !f.overflowed && d.active)
  | .free => 0
  | .waiting _ _ => 0

/-- R188: the cells held, open group included. -/
def Device.pendingCells (d : Device) : Nat := d.window.groups.flatten.length + d.openGroup.length

/-- R188: the groups held, open group included. -/
def Device.pendingGroups (d : Device) : Nat := d.window.groups.length + d.openGroups

/-- R194: the Pending Write Queue left empty, the open group's cells gone; an open frame goes on. -/
def clearPending (d : Device) : Device :=
  { d with
    window := { d.window with groups := [] }
    command := match d.command with
      | .receiving f => .receiving { f with group := [] }
      | .free => .free
      | .waiting rest begun => .waiting rest begun }

/-- R194: entry to IDLE or HALTED applies the whole queue: every complete group, then the open group's cells. -/
def applyAll (d : Device) : Device := applyWrites (clearPending d) (d.window.groups.flatten ++ d.openGroup)

/-- R192: the apply point's four terms, in RUN or DRAIN. -/
def Device.applyReady (d : Device) : Bool :=
  d.active && !d.window.groups.isEmpty && decide (d.window.gap = .met) && d.classifier.busy.isNone &&
    d.imprint.builder.isNone

/-- APPLY_POINT (R192, R193): every complete group is applied; an open group stays. Every step that makes one of the
four terms true ends with this test (log 29). -/
def applyPoint (d : Device) : Device :=
  if d.applyReady then
    applyWrites { d with window := { d.window with groups := [] } } d.window.groups.flatten
  else d

/-- R192: after a step that found the Mark Classifier or the builder at work and left it free (a decision complete, a
build complete, or either abandoned) the Window Unit tests the apply point. The test comes once, at the end of the step
(log 29). -/
def applyIfFreed (before after : Device) : Device :=
  if (before.classifier.busy.isSome && after.classifier.busy.isNone) ||
      (before.imprint.builder.isSome && after.imprint.builder.isNone) then applyPoint after
  else after

/-- R189: the staged value of a cell: its newest write in the complete groups, or the applied value. -/
def Device.stagedValue (d : Device) (table row field : Nat) : Word :=
  d.window.groups.flatten.foldl
    (fun v w => if w.table = table ∧ w.row = row ∧ w.field = field then w.value else v)
    (d.readCell table row field)

/-! ## The window and its cursor -/

def Window.rows (w : Window) : Nat := w.lastRow - w.firstRow + 1
def Window.fields (w : Window) : Nat := w.lastField - w.firstField + 1
/-- R183: the number of cells. -/
def Window.size (w : Window) : Nat := w.rows * w.fields

/-- R183: the row and field of place `k`. -/
def Window.place (w : Window) (k : Nat) : Nat × Nat :=
  match w.order with
  | .rowFirst => (w.firstRow + k / w.fields, w.firstField + k % w.fields)
  | .fieldFirst => (w.firstRow + k % w.rows, w.firstField + k / w.rows)

/-- R183: the window with its cursor advanced by one place. -/
def Window.advance (w : Window) : Window :=
  if w.cursor + 1 < w.size then { w with cursor := w.cursor + 1 }
  else
    match w.overrun with
    | .ignore => { w with cursor := w.size }
    | .wrap => { w with cursor := 0 }

/-- R183: the cursor rests at the end. -/
def Window.atEnd (w : Window) : Bool := decide (w.size ≤ w.cursor)

def setWindow (d : Device) (w : Window) : Device :=
  { d with window := { d.window with selection := some w } }

/-- R182: the place of the first SELECT WINDOW parameter that fails its check. -/
def windowFault (table firstRow lastRow firstField lastField sixth : Nat) : Option Nat :=
  if 14 < table then some 1
  else if tableRows table ≤ firstRow then some 2
  else if tableRows table ≤ lastRow ∨ lastRow < firstRow then some 3
  else if tableFields table ≤ firstField then some 4
  else if tableFields table ≤ lastField ∨ lastField < firstField then some 5
  else if 3 < sixth then some 6
  else none

/-- SELECT WINDOW (R182). -/
def selectWindow (table firstRow lastRow firstField lastField sixth : Nat) (d : Device) : Device × Answer :=
  match windowFault table firstRow lastRow firstField lastField sixth with
  | some place => (d, { code := .badParameter, detail := place, words := [0] })
  | none =>
    let w : Window :=
      { table := table, firstRow := firstRow, lastRow := lastRow, firstField := firstField,
        lastField := lastField, order := if sixth % 2 = 0 then .rowFirst else .fieldFirst,
        overrun := if sixth < 2 then .ignore else .wrap, cursor := 0 }
    (setWindow d w, .done [word w.size])

/-- R187: `n` words read at the cursor: the words, how many fell at the end, and the window left. -/
def readWords (d : Device) : Nat → Window → List Word × Nat × Window
  | 0, w => ([], 0, w)
  | n + 1, w =>
    if w.atEnd then
      let (rest, ends, w') := readWords d n w
      (0 :: rest, ends + 1, w')
    else
      let (row, field) := w.place w.cursor
      let (rest, ends, w') := readWords d n w.advance
      (d.readCell w.table row field :: rest, ends, w')

/-- READ WINDOW (`continue_` no) and READ CONTINUE (yes) (R187). -/
def readWindow (continue_ : Bool) (n : Nat) (d : Device) : Device × Answer :=
  if n < 1 ∨ 255 < n then (d, { code := .badParameter, detail := 1, words := [] })
  else
    match d.window.selection with
    | none => (d, { code := .noWindow, detail := 0, words := [] })
    | some w =>
      let (ws, ends, w') := readWords d n (if continue_ then w else { w with cursor := 0 })
      (setWindow d w', .done (word ends :: ws))

/-! ## Write frames -/

/-- R184: the refusal of a write frame at its opening, or none. -/
def Device.writeRefusal (d : Device) : Option ResultCode :=
  match d.window.selection with
  | none => some .noWindow
  | some w =>
    if w.table = 13 ∨ w.table = 14 then some .readOnly
    else if w.table = 7 ∧ d.line.mode ≠ .idle then some .refusedMode
    else if d.active = true ∧ Config.pendingGroups ≤ d.window.groups.length then some .pendingFull
    else none

/-- R184: the frame as it opens, at the cursor `start`. -/
def newFrame (kind : CommandKind) (tag : BitVec 8) (refusal : Option ResultCode) (start : Nat) : OpenFrame :=
  { kind := kind, tag := tag, bodyWords := 0, refusal := refusal, start := start, overflowed := false,
    group := [], written := 0, pastEnd := 0, readOnly := 0 }

/-- The open frame rewritten. -/
def setFrame (d : Device) (f : OpenFrame) : Device := { d with command := .receiving f }

/-- R169, R184: an open-ended frame opens: NOP, WRITE WINDOW at cursor 0, WRITE CONTINUE at the cursor. -/
def openFrame (d : Device) (kind : CommandKind) (tag : BitVec 8) : Device :=
  if kind = .nop then setFrame d (newFrame kind tag none 0)
  else
    match d.writeRefusal, d.window.selection with
    | none, some w =>
      let w := if kind = .writeWindow then { w with cursor := 0 } else w
      setFrame (setWindow d w) (newFrame kind tag none w.cursor)
    | refusal, _ => setFrame d (newFrame kind tag refusal 0)

/-- R185, R186: a body word of a frame that writes, at a cell that may be written: at once in IDLE and HALTED; staged
in RUN and DRAIN, where a cell that finds no room makes the frame overflow. -/
def writeWord (d : Device) (f : OpenFrame) (w : Window) (cell : CellWrite) : Device :=
  if d.active then
    if d.window.groups.flatten.length + f.group.length < Config.pendingCells then
      setFrame (setWindow d w.advance) { f with group := f.group ++ [cell], written := f.written + 1 }
    else setFrame (setWindow d { w with cursor := f.start }) { f with group := [], overflowed := true }
  else writeNow (setFrame (setWindow d w.advance) { f with written := f.written + 1 }) cell

/-- R184: a body word of the open frame `f`. -/
def frameWord (d : Device) (f : OpenFrame) (v : Word) : Device :=
  let f := { f with bodyWords := f.bodyWords + 1 }
  if f.kind = .nop ∨ f.refusal ≠ none ∨ f.overflowed = true then setFrame d f
  else
    match d.window.selection with
    | none => setFrame d f
    | some w =>
      if w.atEnd then setFrame d { f with pastEnd := f.pastEnd + 1 }
      else
        let place := w.place w.cursor
        if cellReadOnly w.table place.1 place.2 then
          setFrame (setWindow d w.advance) { f with readOnly := f.readOnly + 1 }
        else
          writeWord d f w
            { table := w.table, row := place.1, field := place.2, value := heldValue w.table place.2 v }

/-- R169: a body word handed to the Command Unit; nothing where no frame is open. -/
def openFrameWord (d : Device) (v : Word) : Device :=
  match d.command with
  | .receiving f => frameWord d f v
  | .free => d
  | .waiting _ _ => d

/-- R174, R184, R186: the answer of an open-ended frame at its closing. R184 has result word 1 alone hold at 65535;
words 2 to 4 count round modulo 65536 (log 31). -/
def frameAnswer (f : OpenFrame) : Answer :=
  let carried := word (min 65535 f.bodyWords)
  if f.kind = .nop then .done [carried]
  else
    match f.refusal with
    | some code => { code := code, detail := 0, words := [carried, 0, 0, 0] }
    | none =>
      if f.overflowed then { code := .pendingFull, detail := 0, words := [carried, 0, 0, 0] }
      else .done [carried, word f.written, word f.pastEnd, word f.readOnly]

/-- R186: the open group of the frame `f`, if it holds cells, becomes a complete group at the queue's tail. -/
def closeGroup (d : Device) (f : OpenFrame) : Device :=
  { d with window := { d.window with
      groups := if f.group.isEmpty then d.window.groups else d.window.groups ++ [f.group] } }

/-- R169, R186: the open frame is closed: its group is completed and it is answered; a group completed, the apply point
is then tested (R192). -/
def closeFrame (d : Device) : Device :=
  match d.command with
  | .free => d
  | .waiting _ _ => d
  | .receiving f =>
    let d := respond (closeGroup d f) f.kind f.tag (frameAnswer f)
    if f.group.isEmpty then d else applyPoint d

/-! ## COMPARE WRITE (R190) -/

/-- R190: the place of the first COMPARE WRITE parameter outside its range. -/
def compareFault (table row field : Nat) : Option Nat :=
  if 14 < table then some 1
  else if tableRows table ≤ row then some 2
  else if tableFields table ≤ field then some 3
  else none

/-- COMPARE WRITE (R190). -/
def compareWrite (table row field : Nat) (expected new : Word) (d : Device) : Device × Answer :=
  match compareFault table row field with
  | some place => (d, { code := .badParameter, detail := place, words := [0] })
  | none =>
    let staged := d.stagedValue table row field
    let cell : CellWrite := { table := table, row := row, field := field, value := heldValue table field new }
    if cellReadOnly table row field then (d, { code := .readOnly, detail := 0, words := [0] })
    else if table = 7 ∧ d.line.mode ≠ .idle then (d, { code := .refusedMode, detail := 0, words := [0] })
    else if staged ≠ expected then (d, { code := .mismatch, detail := 0, words := [staged] })
    else if d.active = false then (writeNow d cell, .done [staged])
    else if Config.pendingGroups ≤ d.pendingGroups ∨ Config.pendingCells ≤ d.pendingCells then
      (d, { code := .pendingFull, detail := 0, words := [staged] })
    else (applyPoint { d with window := { d.window with groups := d.window.groups ++ [[cell]] } }, .done [staged])

/-- GAP_MET (R191, R192): the encoder has reached the gap start plus the gap distance; the apply point is tested. -/
def gapMet (d : Device) : Device := applyPoint (gapCheck d)

def execGapMet (s : State) : Host.Outcome State Fault Refusal := s.stepDevice gapMet

def execApplyPoint (s : State) : Host.Outcome State Fault Refusal := s.stepDevice applyPoint

end Sys2Proof.Machine
end

