-- ==== Sys2Proof/Machine/Line.lean ====
section
/-! DEFINITION. Line Control: the entries to IDLE and HALTED, the drain completion, the Station Table check of ENTER
RUN, and the feeder handshake (chapter 9). -/

namespace Sys2Proof.Machine

def setMode (d : Device) (m : Mode) : Device := { d with line := { d.line with mode := m } }

/-- R20, R119: TWIST, TURN and every GATE line released. -/
def releaseActuators (d : Device) : Device :=
  { d with
    track := { d.track with twist := none, turn := none }
    stacker := { d.stacker with gates := Vector.replicate 16 none } }

/-- R14, R26: every cell's occupant becomes nobody and jam timing ends. -/
def clearCells (d : Device) : Device :=
  { d with track := { d.track with
      occupants := Vector.replicate 21 .nobody
      jam := Vector.replicate 21 none } }

/-- R46: a classification in progress is abandoned and the Classifier is free. -/
def freeClassifier (d : Device) : Device := { d with classifier := { d.classifier with busy := none } }

/-- R151: entry to HALTED, in the rule's order. -/
def enterHalted (d : Device) : Device :=
  let d := releaseActuators d
  let d := freeClassifier d
  let d := haltImprint d
  let d := setMode d .halted
  reportConditions (applyAll d)

/-- R150, R194: the drain completion: the mode becomes IDLE, the cells are cleared and the staged writes applied. -/
def completeDrain (d : Device) : Device :=
  let d := setMode (clearCells (releaseActuators d)) .idle
  reportConditions (applyAll d)

/-- R150: in DRAIN the queue is empty and FEED-HELD is asserted. -/
def Device.drainDone (d : Device) : Bool :=
  decide (d.line.mode = .drain) && d.track.queue.isEmpty && d.inputs.feedHeld

/-- R150: Line Control tests for the drain completion. -/
def drainTest (d : Device) : Device := if d.drainDone then completeDrain d else d

/-- R150: a step that took the last record out of the queue tests for the drain completion; R192: one that removed a
record at work tests the apply point. Both tests come at the end of the step, after a lead edge has been matched to its
end (R15): R150 has the test at the removal and does not say which comes first (log 3). Where one removal gives rise to
both, R150 and R192 do not order them: the drain completion is taken first, and the apply point, tested after it, is
past, the mode being IDLE and every group applied (log 29). -/
def afterRemovals (before after : Device) : Device :=
  applyIfFreed before
    (if before.track.queue.isEmpty = false ∧ after.track.queue.isEmpty = true then drainTest after else after)

/-! ## ENTER RUN (R12, R149) -/

/-- R12: the gates of the bins enabled, as applied. -/
def Device.enabledGates (d : Device) : Vector Bool 16 := Vector.ofFn d.binEnable

/-- R12: the rows named by the conditions that fail, offsets taken as plain numbers. -/
def Device.failingRows (d : Device) : List Nat :=
  let off (row : Nat) : Int := d.stationOffset row
  let enabled := (List.finRange 16).filter d.binEnable
  (if 0 < off 1 - d.armLead then [] else [1]) ++
  (if off 1 < off 2 then [] else [2]) ++
  (if off 2 < off 3 then [] else [3]) ++
  (if off 1 - d.armLead < off 3 - d.halfWidth 3 then [] else [3]) ++
  (if off 3 < off 4 then [] else [4]) ++
  (enabled.filter (fun k => decide (¬ off 3 < off (5 + k.val)))).map (fun k => 5 + k.val) ++
  (if enabled.all (fun k => decide (off (5 + k.val) < off 4)) then [] else [4])

/-- R12: the lowest row named; none when every condition holds. -/
def Device.badRow (d : Device) : Option Nat := d.failingRows.min?

/-- R14: a watched cell that is blocked at this moment. -/
def Device.foundBlocked (d : Device) (row : Fin 21) : Bool := d.inputs.blocked[row] && d.watchedRow row

/-- R18: where the jam expiry of a cell found blocked at ENTER RUN falls. -/
def Device.jamAtRun (d : Device) (row : Fin 21) : Option Pos :=
  if d.foundBlocked row = true ∧ d.jamSpan row.val ≠ 0 then
    some (d.track.encoder + counts (d.jamSpan row.val) + 1)
  else d.track.jam[row]

/-- R14, R18, R149 step 2: every watched cell blocked at this moment takes a stray and starts its jam timing. -/
def occupyBlocked (d : Device) : Device :=
  { d with track := { d.track with
      occupants := Vector.ofFn (fun row => if d.foundBlocked row then .stray else d.track.occupants[row])
      jam := Vector.ofFn d.jamAtRun } }

/-- R191: the gap at ENTER RUN. -/
def openGapAtRun (d : Device) : Device :=
  { d with window := { d.window with
      gap := if d.inputs.blocked[(0 : Fin 21)] then .closed else .opened d.track.encoder } }

/-- R149: ENTER RUN from IDLE, its check passed. -/
def enterRun (d : Device) : Device :=
  let d := { d with track := { d.track with inService := d.enabledGates } }
  let d := occupyBlocked d
  let d := { d with classifier := { d.classifier with suspect := 0 } }
  let d := if d.inputs.printReady then setPrintFault d false else d
  let d := setMode d .run
  reportConditions (gapCheck (openGapAtRun d))

/-! ## Steps -/

/-- FEED_HELD_CHANGE (R156): the level of FEED-HELD; an assertion tests for the drain completion (R150). -/
def feedHeldChange (level : Bool) (d : Device) : Device :=
  let d := { d with inputs := { d.inputs with feedHeld := level } }
  if level then drainTest d else d

/-- DRAIN_COMPLETION (R150): Line Control's own test. -/
def execDrainCompletion (s : State) : Host.Outcome State Fault Refusal := s.stepDevice drainTest

def execFeedHeldChange (level : Bool) (s : State) : Host.Outcome State Fault Refusal :=
  s.stepDevice (feedHeldChange level)

end Sys2Proof.Machine
end

