-- ==== Sys2Proof/Machine/Track.lean ====
section
/-! DEFINITION. The Track Unit (chapter 1 and the face check of chapter 4): removal, admission, station matching,
facing orders, the cancel station and the position events. -/

namespace Sys2Proof.Machine

/-! ## Removal (R22) -/

/-- R22: the exit kinds. -/
inductive ExitKind | stacked | lost | missed | purged
  deriving DecidableEq, Repr

def ExitKind.code : ExitKind → Nat
  | .stacked => 0
  | .lost => 1
  | .missed => 2
  | .purged => 3

/-- R14: a removed record's cells are occupied by a stray. -/
def Occupant.without (n : RecNo) (o : Occupant) : Occupant := if o = .record n then .stray else o

/-- An order held for record `n` is released. -/
def releaseOrder (n : RecNo) (o : Option RecNo) : Option RecNo := if o = some n then none else o

/-- R22 steps 1 and 2: the record leaves the queue, its cells take strays, its orders are released; its position
events are fields of the record and go with it. -/
def leaveTrack (d : Device) (n : RecNo) : Device :=
  { d with
    track := { d.track with
      queue := d.track.queue.eraseP (fun r => decide (r.number = n))
      occupants := d.track.occupants.map (Occupant.without n)
      twist := releaseOrder n d.track.twist
      turn := releaseOrder n d.track.turn }
    stacker := { d.stacker with gates := d.stacker.gates.map (releaseOrder n) } }

/-- R22 step 3: a classification of record `n` is abandoned. -/
def abandonClassification (d : Device) (n : RecNo) : Device :=
  if d.classifier.busy = some n then freeClassifier d else d

/-- R22 step 5: the route is completed (STACKED, R120) or released (R121). -/
def settleRoute (d : Device) (r : ItemRecord) (exit : ExitKind) : Device :=
  match r.route with
  | none => d
  | some t => if exit = .stacked then stackBin d t.bin else releaseBin d t.bin

/-- R132: the disposition counter, where the record has a disposition. -/
def countDisposition (d : Device) (r : ItemRecord) : Device :=
  match r.disposition with
  | none => d
  | some x => d.count (ctrDisposition x)

/-- R132: the routed bin's stacked counter. -/
def countBin (d : Device) (r : ItemRecord) : Device :=
  match r.route with
  | none => d
  | some t => d.count (ctrBin t.bin)

/-- R132: the class group counter, where the record has a class group. -/
def countGroup (d : Device) (r : ItemRecord) : Device :=
  match r.classGroup with
  | none => d
  | some g => d.count (ctrClassGroup g)

/-- R132, R133: the counters and line totals of a removal. -/
def countRemoval (d : Device) (r : ItemRecord) (exit : ExitKind) : Device :=
  let d := countDisposition d r
  match exit with
  | .stacked => countGroup (countBin (d.total (fun t => { t with stacked := t.stacked + 1 })) r) r
  | .lost => (d.total (fun t => { t with lost := t.lost + 1 })).count ctrLost
  | .missed => (d.total (fun t => { t with missed := t.missed + 1 })).count ctrMissed
  | .purged => (d.total (fun t => { t with purged := t.purged + 1 })).count ctrPurged

/-- R143, 12.5: the six words of an item report. -/
def itemReport (r : ItemRecord) (exit : ExitKind) : List Word :=
  let seq := r.sequence.getD 0
  [ r.number,
    r.tag.getD 0,
    word (32768 * bit r.tag.isSome + 8192 * exit.code + 512 * dispositionCode r.disposition + 128 * partsCode r +
      64 * bit r.scanFault + 16 * faceCheckCode r.faceCheck + 2 * r.imprint.code),
    word ((match r.route with | some t => 4096 * t.bin.val | none => 0) + 1024 * viaCode r.route +
      64 * (match r.positionCode with | some c => c.val | none => 8) + seq / 65536),
    word ((match r.plan with
        | some p => 32768 + 16384 * bit p.twist + 8192 * bit p.turn + 4096 * p.group.code
        | none => 0) +
      (match r.classGroup with | some g => 2048 + 128 * g.val | none => 0) + lastSeenRow r),
    word (seq % 65536) ]

/-- R143: with item reports enabled the report of a removal is appended to the batch buffer. -/
def appendReport (d : Device) (r : ItemRecord) (exit : ExitKind) : Device :=
  if d.itemReports then
    { d with tally := { d.tally with batch := d.tally.batch ++ [itemReport r exit] } }
  else d

/-- R143, R144: the report is appended; the batch is offered when it reaches the batch size or the queue is empty. -/
def reportRemoval (d : Device) (r : ItemRecord) (exit : ExitKind) : Device :=
  let d := appendReport d r exit
  if d.track.queue.isEmpty ∨ (d.itemReports = true ∧ d.batchSize ≤ d.tally.batch.length) then offerBatch d else d

/-- R22 steps 4 to 7, the record as step 4 leaves it. -/
def settleRemoval (d : Device) (r : ItemRecord) (exit : ExitKind) : Device :=
  reportRemoval (countRemoval (settleRoute d r exit) r exit) r exit

/-- R22: removal of the tracked record `n`, its effects in the rule's order. -/
def removeRecord (d : Device) (n : RecNo) (exit : ExitKind) : Device :=
  match d.find n with
  | none => d
  | some r =>
    let x := settleImprint (abandonClassification (leaveTrack d n) n) r (decide (exit = .stacked))
    reportConditions (settleRemoval x.1 x.2 exit)

/-- R24: every record removed PURGED, oldest first. -/
def purgeAll (d : Device) : Device :=
  (d.track.queue.map (fun r => r.number)).foldl (fun d n => removeRecord d n .purged) d

/-! ## The build complete (R93) -/

/-- BUILD_COMPLETE (R93, R192): the build of record `n` ends: BUILT, and the builder is free; the apply point is then
tested. It is void where the builder is not building that record. -/
def buildComplete (n : RecNo) (d : Device) : Device :=
  if d.imprint.builder = some n then
    applyPoint (freeBuilder (d.modify n (fun r => { r with imprint := .built })))
  else d

/-! ## What each station expects (R13) -/

/-- R2: the record has been SEEN at a station. -/
def ItemRecord.seenAt (r : ItemRecord) (st : Station) : Bool := r.seen.any (fun s => decide (s.station = st))

/-- R13: the record is due at the station. A record whose routed gate is not in service, or that was SEEN there, is due
at no gate at all: R13's last sentence ("due at no further gate") leaves open the in-service gates nearer than its
routed gate, which its bullet would keep (log 30). -/
def Device.due (d : Device) (r : ItemRecord) (st : Station) : Bool :=
  match st with
  | .twist => !r.seenAt .twist
  | .turn => !r.seenAt .turn
  | .cancel => !r.seenAt .cancel
  | .exit => !r.gateSeen
  | .gate k =>
    d.track.inService[k] && !r.seenAt (.gate k) &&
      match r.route with
      | none => true
      | some t =>
        decide (d.stationOffset (5 + k.val) ≤ d.stationOffset (5 + t.bin.val)) && !r.seenAt (.gate t.bin) &&
          d.track.inService[t.bin]

/-- R13: the record's expected position at the station. -/
def Device.expected (d : Device) (r : ItemRecord) (st : Station) : Pos :=
  r.lead + counts (d.stationOffset (stationRow st).val)

/-- R13: the first record of the station's expected sequence. -/
def Device.firstDue (d : Device) (st : Station) : Option ItemRecord := d.track.queue.find? (fun r => d.due r st)

/-- R16: where the record's window expiry at the station falls. -/
def Device.expiry (d : Device) (r : ItemRecord) (st : Station) : Pos :=
  d.expected r st + counts (d.halfWidth (stationRow st).val) + 1

/-- R16: the record is removed LOST at the station and LOST is latched. -/
def loseRecord (d : Device) (r : ItemRecord) (st : Station) : Device :=
  let o := Occurrence.lost r.number (stationRow st).val (d.expected r st)
  occur (removeRecord d r.number .lost) o

/-! ## Cells -/

def setOccupant (d : Device) (row : Fin 21) (o : Occupant) : Device :=
  { d with track := { d.track with occupants := upd d.track.occupants row o } }

def setBlocked (d : Device) (row : Fin 21) (b : Bool) : Device :=
  { d with inputs := { d.inputs with blocked := upd d.inputs.blocked row b } }

/-- R18: jam timing of a cell starts at the encoder position; a span of 0 starts none. -/
def startJam (d : Device) (row : Fin 21) : Device :=
  let expiry := if d.jamSpan row.val = 0 then none
    else some (d.track.encoder + counts (d.jamSpan row.val) + 1)
  { d with track := { d.track with jam := upd d.track.jam row expiry } }

/-- R17, R6: the occupant becomes nobody and the jam timing ends. -/
def vacate (d : Device) (row : Fin 21) : Device :=
  { d with track := { d.track with
      occupants := upd d.track.occupants row .nobody
      jam := upd d.track.jam row none } }

def setGap (d : Device) (g : Gap) : Device := { d with window := { d.window with gap := g } }

/-! ## SCAN-CELL -/

/-- R2: a record as admission creates it. -/
def newRecord (n : RecNo) (lead : Pos) : ItemRecord :=
  { number := n, tag := none, lead := lead, length := none, gotA := false, gotB := false, geometry := none,
    obsA := [], obsB := [], state := .awaitScan, scanFault := false, disposition := none, positionCode := none,
    chosen := none, totalValue := none, requiredValue := none, classGroup := none, plan := none, cancel := none,
    imprint := .none, sequence := none, buildDate := none, faceCheck := none, seen := [], route := none,
    gateSeen := false, checkEnd := none, openCheck := none, printStart := none, clip := none }

/-- R3, R4: a record is admitted. -/
def admitItem (d : Device) : Device :=
  let n := d.track.admission
  let d := { d with track := { d.track with
    queue := d.track.queue ++ [newRecord n d.track.encoder]
    admission := n + 1 } }
  let d := setOccupant d 0 (.record n)
  (d.total (fun t => { t with admitted := t.admitted + 1 })).count ctrAdmitted

/-- R5: the letter is untracked. -/
def leaveUntracked (d : Device) : Device :=
  let d := setOccupant d 0 .untracked
  (d.total (fun t => { t with untracked := t.untracked + 1 })).count ctrUntracked

/-- SCAN_CELL_LEAD_EDGE (R4, R5, R18, R191). -/
def scanCellLeadEdge (d : Device) : Device :=
  let d := setBlocked d 0 true
  if d.inputs.resetLine then d
  else
    match d.line.mode with
    | .halted => d
    | .idle => leaveUntracked d
    | .run | .drain =>
      let d := setGap (startJam d 0) .closed
      if d.track.queue.length < Config.maxRecords then admitItem d
      else occur (leaveUntracked d) (.queueFull d.track.encoder)

/-- R6: the occupant record's length is written. -/
def writeLength (d : Device) : Device :=
  match d.track.occupants[(0 : Fin 21)] with
  | .record n => d.modify n (fun r => { r with length := some (d.track.encoder - r.lead) })
  | .nobody => d
  | .untracked => d
  | .stray => d

/-- SCAN_CELL_TRAILING_EDGE (R6, R18, R191, R192). -/
def scanCellTrailingEdge (d : Device) : Device :=
  let d := setBlocked d 0 false
  if d.inputs.resetLine then d
  else
    match d.line.mode with
    | .halted => d
    | .idle => vacate d 0
    | .run | .drain => gapMet (setGap (vacate (writeLength d) 0) (.opened d.track.encoder))

/-! ## The face check (R71 to R76) -/

/-- R71: the open check a record has from its CANCEL SEEN: with a plan and a luminescent chosen mark. -/
def Device.openCheckFor (d : Device) (r : ItemRecord) : Option OpenCheck :=
  match r.plan, r.chosen with
  | some p, some m =>
    if m.lum = .none then none
    else
      let sensor := match p.group with
        | .lead => Sensor.lead
        | .trail => Sensor.trail
      some { sensor := sensor, assertedSeen := d.inputs.sensor sensor }
  | _, _ => none

/-- R76: the imprint status after a FAIL. -/
def failedStatus : ImprintStatus → ImprintStatus
  | .queued => .none
  | .building => .aborted
  | .built => .aborted
  | .none => .none
  | .printing => .printing
  | .printed => .printed
  | .underrun => .underrun
  | .aborted => .aborted

/-- R75: the record of a FAIL. -/
def ItemRecord.failCheck (r : ItemRecord) : ItemRecord :=
  { r with
    faceCheck := some .fail, openCheck := none, disposition := some .faceFault, cancel := none,
    printStart := none, imprint := failedStatus r.imprint }

/-- R75, R76: a FAIL: the record's disposition and intent, and the imprint it holds. -/
def failCheck (d : Device) (r : ItemRecord) : Device :=
  let d := d.modify r.number ItemRecord.failCheck
  if r.imprint = .building ∨ r.imprint = .built then dropImprint d r.number else d

/-- R73 to R75: the record's open check, if it has one, is concluded. -/
def concludeCheck (d : Device) (r : ItemRecord) : Device :=
  match r.openCheck with
  | none => d
  | some c =>
    if c.assertedSeen then
      d.modify r.number (fun r => { r with faceCheck := some .pass, openCheck := none })
    else failCheck d r

/-- R21: a record that holds no cancel intent takes its route point. -/
def routeWithoutCancel (d : Device) (n : RecNo) : Device :=
  match d.find n with
  | some r => if r.cancel = none then routePoint d n else d
  | none => d

/-- R10, R21: in RUN and DRAIN, the encoder is at the end of record `n`'s check span. -/
def Device.spanEnds (d : Device) (n : RecNo) : Bool :=
  match d.find n with
  | none => false
  | some r => d.active && decide (r.checkEnd = some d.track.encoder)

/-- R21, steps 1 and 2: at the end of record `n`'s check span the face check is concluded, and a record without cancel
intent takes its route point. A FAIL that abandoned a build tests the apply point (R192). -/
def concludeSpan (n : RecNo) (d : Device) : Device :=
  match d.find n with
  | none => d
  | some r =>
    if d.active = true ∧ r.checkEnd = some d.track.encoder then
      applyIfFreed d (routeWithoutCancel (concludeCheck (d.modify n (fun r => { r with checkEnd := none })) r) n)
    else d

/-- R94, R96, R21: the print start event of a record whose print start `p` has come: the print in progress is ended,
the decision taken, and then the route point; an UNDERRUN that abandoned a build tests the apply point (R192). -/
def takePrintStart (d : Device) (r : ItemRecord) (p : Pos) : Device :=
  let e := preemptPrint (d.modify r.number (fun r => { r with printStart := none }))
  let e := printDecision e r.number p r.imprint
  applyIfFreed d (reportConditions (routePoint e r.number))

/-- R94: in RUN and DRAIN, with the encoder at record `n`'s print start, the print start event. -/
def startIfDue (n : RecNo) (d : Device) : Device :=
  match d.find n with
  | none => d
  | some r =>
    if d.active = true ∧ r.printStart = some d.track.encoder then takePrintStart d r d.track.encoder else d

/-- END_OF_CHECK_SPAN (R21): in RUN and DRAIN, with the encoder at the end of record `n`'s check span, one event: the
check is concluded, a record without cancel intent takes its route point, and one with it whose print start equals the
end of the check span takes that print start at once. -/
def endOfCheckSpan (n : RecNo) (d : Device) : Device :=
  if d.spanEnds n then startIfDue n (concludeSpan n d) else d

/-- PRINT_START (R94): in RUN and DRAIN, with the encoder at record `n`'s print start. The end of its check span, if it
falls on the same value and is outstanding, comes first (R21). -/
def printStart (n : RecNo) (d : Device) : Device := startIfDue n (concludeSpan n d)

/-- The level of a sensor line. -/
def setSensor (d : Device) (line : Sensor) (level : Bool) : Device :=
  { d with inputs := match line with
    | .lead => { d.inputs with fchkL := level }
    | .trail => { d.inputs with fchkT := level } }

/-- R72: an open check that samples the line has seen it asserted. -/
def ItemRecord.sees (line : Sensor) (r : ItemRecord) : ItemRecord :=
  match r.openCheck with
  | some c => if c.sensor = line then { r with openCheck := some { c with assertedSeen := true } } else r
  | none => r

/-- R72: an assertion of a sensor line acts on every open check that samples it. -/
def markAsserted (d : Device) (line : Sensor) : Device :=
  { d with track := { d.track with queue := d.track.queue.map (ItemRecord.sees line) } }

/-- FCHK_ASSERTION (R72): the level of a sensor line; in RUN and DRAIN its assertion sets asserted-seen in every open
check that samples it. -/
def fchkAssertion (line : Sensor) (level : Bool) (d : Device) : Device :=
  let d := setSensor d line level
  if level = true ∧ d.active = true then markAsserted d line else d

/-! ## Stations (R15, R17, R19, R21, R23) -/

/-- R15: a STRAY edge. -/
def strayEdge (d : Device) (st : Station) : Device :=
  let d := (setOccupant d (stationRow st) .stray).count ctrStray
  occur d (.stray (stationRow st).val d.track.encoder)

/-- R19: a DECIDED record whose plan asks for the action takes the order. -/
def facingOrder (r : ItemRecord) (wanted : FacingPlan → Bool) : Bool :=
  match r.state, r.plan with
  | .decided, some p => wanted p
  | _, _ => false

/-- R86: the print start fixed at CANCEL SEEN at `s`. -/
def Device.printStartAt (d : Device) (s : Pos) (startColumn : Nat) : Pos :=
  let unclamped := s + counts d.headOffset + counts startColumn
  let spanEnd := s + counts d.checkSpan
  if atOrAfter unclamped spanEnd then unclamped else spanEnd

/-- R21, R71, R86, R87: what CANCEL SEEN at `s` fixes for the record. -/
def Device.cancelSeen (d : Device) (s : Pos) (r : ItemRecord) : ItemRecord :=
  { r with
    checkEnd := some (s + counts d.checkSpan)
    openCheck := d.openCheckFor r
    printStart := match r.cancel with
      | some c => some (d.printStartAt s c.startColumn)
      | none => none
    clip := match r.cancel, r.length with
      | some _, some len => some (s + counts d.headOffset + len)
      | _, _ => none }

/-- What the station does at a SEEN of the record `r` (as it stood before the SEEN) at encoder position `p`. -/
def stationSeen (d : Device) (st : Station) (r : ItemRecord) (p : Pos) : Device :=
  match st with
  | .twist =>
    if facingOrder r FacingPlan.twist then { d with track := { d.track with twist := some r.number } } else d
  | .turn =>
    if facingOrder r FacingPlan.turn then { d with track := { d.track with turn := some r.number } } else d
  | .cancel =>
    let d := d.modify r.number (d.cancelSeen p)
    if d.checkSpan = 0 then endOfCheckSpan r.number d else d
  | .gate k =>
    match r.route with
    | some t =>
      if t.bin = k then assertGate (d.modify r.number (fun r => { r with gateSeen := true })) k r.number else d
    | none => d
  | .exit => occur (removeRecord d r.number .missed) (.missed r.number r.route)

/-- R15: SEEN: the station records it, the record becomes the cell's occupant, and the station acts. -/
def seeRecord (d : Device) (st : Station) (r : ItemRecord) : Device :=
  let p := d.track.encoder
  let d := d.modify r.number (fun r => { r with seen := { station := st, pos := p } :: r.seen })
  stationSeen (setOccupant d (stationRow st) (.record r.number)) st r p

/-- R15: a lead edge matched against the station's first expected record; a record whose window has closed is lost and
the edge matched again. The fuel bounds the records that can be lost. -/
def matchEdge : Nat → Device → Station → Device
  | 0, d, st => strayEdge d st
  | fuel + 1, d, st =>
    match d.firstDue st with
    | none => strayEdge d st
    | some r =>
      let w := counts (d.halfWidth (stationRow st).val)
      let e := d.expected r st
      if atOrAfter d.track.encoder (e - w) = false then strayEdge d st
      else if atOrAfter (e + w) d.track.encoder then seeRecord d st r
      else matchEdge fuel (loseRecord d r st) st

/-- STATION_LEAD_EDGE (R15, R18). -/
def stationLeadEdge (st : Station) (d : Device) : Device :=
  let d := setBlocked d (stationRow st) true
  if d.inputs.resetLine = false ∧ d.active = true ∧ d.watched st = true then
    afterRemovals d (matchEdge (d.track.queue.length + 1) (startJam d (stationRow st)) st)
  else d

/-- R87: the clip position at the record's CANCEL-CELL trailing edge at `t`. -/
def Device.clipAtTrail (d : Device) (t : Pos) (r : ItemRecord) : ItemRecord :=
  let c := t + counts d.headOffset
  match r.cancel, r.clip with
  | none, _ => r
  | some _, none => { r with clip := some c }
  | some _, some old => if atOrAfter c old then r else { r with clip := some c }

/-- R17: what the station does at the trailing edge of its occupant record `n`. -/
def stationTrail (d : Device) (st : Station) (n : RecNo) : Device :=
  match st with
  | .twist => { d with track := { d.track with twist := releaseOrder n d.track.twist } }
  | .turn => { d with track := { d.track with turn := releaseOrder n d.track.turn } }
  | .cancel => d.modify n (d.clipAtTrail d.track.encoder)
  | .exit => d
  | .gate k =>
    match d.find n with
    | none => d
    | some r =>
      match r.route with
      | some t => if t.bin = k ∧ r.gateSeen = true then removeRecord d n .stacked else d
      | none => d

/-- R17: the station acts on the trailing edge of its cell's occupant, if that is a record. -/
def trailOf (d : Device) (st : Station) : Device :=
  match d.track.occupants[stationRow st] with
  | .record n => stationTrail d st n
  | .nobody => d
  | .untracked => d
  | .stray => d

/-- STATION_TRAILING_EDGE (R17, R23). -/
def stationTrailingEdge (st : Station) (d : Device) : Device :=
  let row := stationRow st
  let d := setBlocked d row false
  if d.inputs.resetLine = false ∧ d.active = true ∧ d.watched st = true then
    afterRemovals d (vacate (trailOf d st) row)
  else d

/-! ## Position events (R8, R10, R16, R18, R94) -/

/-- R8: the record's deadline position. -/
def Device.deadlinePos (d : Device) (r : ItemRecord) : Pos :=
  r.lead + counts (d.stationOffset 1) - counts d.armLead

/-- R7, R8: the record is LATE with disposition LATE. -/
def ItemRecord.makeLate (r : ItemRecord) : ItemRecord :=
  { r with state := .late, disposition := some .late }

/-- R8: the record waits for its decision. -/
def ItemRecord.undecided (r : ItemRecord) : Bool :=
  match r.state with
  | .awaitScan => true
  | .partial_ => true
  | .ready => true
  | .classifying => true
  | .decided => false
  | .late => false

/-- DEADLINE (R8, R192): in RUN and DRAIN, with the encoder at record `n`'s deadline: an undecided record becomes LATE
and a classification of it is abandoned, upon which the apply point is tested. -/
def deadline (n : RecNo) (d : Device) : Device :=
  match d.find n with
  | none => d
  | some r =>
    if d.active = true ∧ d.track.encoder = d.deadlinePos r ∧ r.undecided = true then
      applyIfFreed d (abandonClassification (d.modify n ItemRecord.makeLate) n)
    else d

/-- WINDOW_EXPIRY (R16): in RUN and DRAIN, with the encoder one past the record's window at a station at which it is
still due: it is lost. -/
def windowExpiry (n : RecNo) (st : Station) (d : Device) : Device :=
  match d.find n with
  | none => d
  | some r =>
    if d.active = true ∧ d.due r st = true ∧ d.track.encoder = d.expiry r st then
      afterRemovals d (loseRecord d r st)
    else d

/-- R18: the occupant's record number, or no record. -/
def Occupant.recordNumber : Occupant → Option RecNo
  | .record n => some n
  | .nobody => none
  | .untracked => none
  | .stray => none

/-- JAM_EXPIRY (R18): in RUN and DRAIN, with the encoder at the jam expiry of a cell still blocked: JAM is latched and
the line enters HALTED. -/
def jamExpiry (row : Fin 21) (d : Device) : Device :=
  if d.active = true ∧ d.track.jam[row] = some d.track.encoder ∧ d.inputs.blocked[row] = true then
    enterHalted (occur d (.jam row.val d.track.occupants[row].recordNumber))
  else d

def execScanCellLeadEdge (s : State) : Host.Outcome State Fault Refusal := s.stepDevice scanCellLeadEdge

def execScanCellTrailingEdge (s : State) : Host.Outcome State Fault Refusal := s.stepDevice scanCellTrailingEdge

def execStationLeadEdge (st : Station) (s : State) : Host.Outcome State Fault Refusal :=
  s.stepDevice (stationLeadEdge st)

def execStationTrailingEdge (st : Station) (s : State) : Host.Outcome State Fault Refusal :=
  s.stepDevice (stationTrailingEdge st)

def execDeadline (n : RecNo) (s : State) : Host.Outcome State Fault Refusal := s.stepDevice (deadline n)

def execWindowExpiry (n : RecNo) (st : Station) (s : State) : Host.Outcome State Fault Refusal :=
  s.stepDevice (windowExpiry n st)

def execJamExpiry (row : Fin 21) (s : State) : Host.Outcome State Fault Refusal := s.stepDevice (jamExpiry row)

def execEndOfCheckSpan (n : RecNo) (s : State) : Host.Outcome State Fault Refusal :=
  s.stepDevice (endOfCheckSpan n)

def execFchkAssertion (line : Sensor) (level : Bool) (s : State) : Host.Outcome State Fault Refusal :=
  s.stepDevice (fchkAssertion line level)

def execBuildComplete (n : RecNo) (s : State) : Host.Outcome State Fault Refusal := s.stepDevice (buildComplete n)

def execPrintStart (n : RecNo) (s : State) : Host.Outcome State Fault Refusal := s.stepDevice (printStart n)

end Sys2Proof.Machine
end

