-- ==== Sys2Proof/Machine/Classify.lean ====
section
/-! DEFINITION. Binding of scan parts (chapter 2) and the Mark Classifier (chapter 3): the take, the classification
operation and the decision complete. -/

namespace Sys2Proof.Machine

/-! ## Binding (R30 to R38) -/

/-- R31: the record has received the side. -/
def ItemRecord.got (r : ItemRecord) : Side → Bool
  | .a => r.gotA
  | .b => r.gotB

/-- R32, R36: the side is added to the record's parts bound. -/
def ItemRecord.gotSide (r : ItemRecord) : Side → ItemRecord
  | .a => { r with gotA := true }
  | .b => { r with gotB := true }

/-- R37: a zone that no side has. -/
def Zone.illegal : Zone → Bool
  | .top => false
  | .bottom => false
  | .illegal2 => true
  | .illegal3 => true

/-- R31, R32: a part's content stored: its side, its observations and, from SCAN A, the geometry. -/
def ItemRecord.storePart (r : ItemRecord) (p : ScanPart) : ItemRecord :=
  match p.side with
  | .a => { r with gotA := true, obsA := p.observations, geometry := p.geometry }
  | .b => { r with gotB := true, obsB := p.observations }

/-- R37, R38: the offset check of the observations stored, once geometry is present. -/
def ItemRecord.offsetFault (r : ItemRecord) : Bool :=
  match r.geometry with
  | none => false
  | some g => (r.obsA ++ r.obsB).any (fun o => decide (g.lengthMm < o.offsetMm))

/-- R37: the malformed checks of a part being bound. -/
def ItemRecord.checkPart (r : ItemRecord) (p : ScanPart) : ItemRecord :=
  { r with scanFault := r.scanFault || decide (p.marksFound.toNat ≠ p.observations.length) ||
      p.observations.any (fun o => Zone.illegal o.zone) || r.offsetFault }

/-- R31, R32: a part bound, its checks made and the state moved. -/
def ItemRecord.bind (r : ItemRecord) (p : ScanPart) (next : RecordState) : ItemRecord :=
  { (r.storePart p).checkPart p with tag := some p.tag, state := next }

/-- R168, R34, R35: a link error is counted and is an occurrence of LINK_ERROR. -/
def linkError (d : Device) (e : LinkError) : Device := occur (d.count ctrLinkErrors) (.linkError e)

/-- R33, R36: a late part: its tag and side are recorded, its content discarded, and it is counted. -/
def latePart (d : Device) (r : ItemRecord) (p : ScanPart) : Device :=
  (d.modify r.number (fun r => { r.gotSide p.side with tag := some p.tag })).count ctrLateParts

/-- R31: a part whose tag record `r` carries. -/
def bindTagged (d : Device) (r : ItemRecord) (p : ScanPart) : Device :=
  if r.got p.side then linkError d (.duplicatePart p.side p.tag r.number)
  else if r.state = .late then latePart d r p
  else d.modify r.number (fun r => r.bind p .ready)

/-- R32, R33: a part of a new tag, for the oldest untagged record `r`. -/
def bindUntagged (d : Device) (r : ItemRecord) (p : ScanPart) : Device :=
  if r.state = .late then latePart d r p
  else d.modify r.number (fun r => r.bind p .partial_)

/-- R31 to R34: binding in RUN and DRAIN. -/
def bindPart (d : Device) (p : ScanPart) : Device :=
  match d.track.queue.find? (fun r => decide (r.tag = some p.tag)) with
  | some r => bindTagged d r p
  | none =>
    match d.track.queue.find? (fun r => decide (r.tag = none)) with
    | some r => bindUntagged d r p
    | none => linkError d (.orphanPart p.side p.tag)

/-- R30: a complete scan part reaches the Track Unit. -/
def takePart (p : ScanPart) (d : Device) : Device :=
  if d.active then bindPart d p else d.count ctrScanDiscarded

/-! ## Mapping (R50 to R53) -/

/-- R49, R53: the kind of a mark after mapping; 5..15 are NON_POSTAGE. -/
inductive MarkKind | nonPostage | stamp | meter | indicia | label
  deriving DecidableEq, Repr

def markKindOf (n : Nat) : MarkKind :=
  match n with
  | 1 => .stamp
  | 2 => .meter
  | 3 => .indicia
  | 4 => .label
  | _ => .nonPostage

/-- R52: an observation with its side and its class. -/
structure Classed where
  side : Side
  obs : Observation
  row : ClassRow
  kind : MarkKind
  value : Nat
  priority : Nat
  group : Fin 16
  template : Nat
  deriving DecidableEq, Repr

/-- R50: the observation matches a Mark Class Table row. -/
def Device.matchesRow (d : Device) (o : Observation) (row : Nat) : Bool :=
  d.flag 1 row 0 && decide (d.cell 1 row 1 = o.signature) && decide (d.num 1 row 2 = lumCode o.lum) &&
    decide (d.num 1 row 8 ≤ o.confidence.toNat)

/-- R50, R51: the class of an observation: the lowest matching Mark Class row, else the Default Class Row of its lum
kind, NON_POSTAGE where its confidence is below that row's minimum. -/
def Device.classify (d : Device) (side : Side) (o : Observation) : Classed :=
  match (List.range 512).find? (d.matchesRow o) with
  | some row =>
    { side := side, obs := o, row := .markClass row, kind := markKindOf (d.num 1 row 3), value := d.num 1 row 4,
      priority := d.num 1 row 5, group := Fin.ofNat 16 (d.num 1 row 6), template := d.num 1 row 7 }
  | none =>
    let row := lumCode o.lum
    { side := side, obs := o, row := .default row,
      kind := if d.num 2 row 5 ≤ o.confidence.toNat then markKindOf (d.num 2 row 0) else .nonPostage,
      value := d.num 2 row 1, priority := d.num 2 row 2, group := Fin.ofNat 16 (d.num 2 row 3),
      template := d.num 2 row 4 }

/-- R53: the postage marks of a record. -/
def Device.postage (d : Device) (r : ItemRecord) : List Classed :=
  (r.obsA.map (d.classify .a) ++ r.obsB.map (d.classify .b)).filter (fun c => decide (c.kind ≠ .nonPostage))

/-- R54: the total value of the live marks, held at 65535. -/
def totalValue (live : List Classed) : Nat := min 65535 (live.map (fun c => c.value)).sum

/-! ## Choice (R55, R56) -/

/-- R55: the position code of a postage observation. -/
def positionCode (lengthMm : Nat) (c : Classed) : Fin 8 :=
  let side := match c.side with
    | .a => 0
    | .b => 4
  let edge := match c.obs.zone with
    | .top => 0
    | _ => 2
  let trail := if 2 * c.obs.offsetMm.toNat + c.obs.widthMm.toNat < lengthMm then 0 else 1
  Fin.ofNat 8 (side + edge + trail)

/-- R56 step 4: the candidate of smallest offset, the first carried among equals. -/
def leastOffset : List Classed → Option Classed
  | [] => none
  | c :: rest =>
    match leastOffset rest with
    | none => some c
    | some m => if m.obs.offsetMm < c.obs.offsetMm then some m else some c

/-- R56: the outcome of the choice among postage marks. -/
inductive Choice
  | none
  | ambiguous
  | chosen (c : Classed) (code : Fin 8)
  deriving DecidableEq, Repr

/-- R56: the greatest priority among the marks. -/
def topPriority (marks : List Classed) : Nat := (marks.map (fun c => c.priority)).foldl max 0

/-- R56: the chosen mark among `marks`: those of greatest priority share one position code, or it is AMBIGUOUS. -/
def choose (lengthMm : Nat) (marks : List Classed) : Choice :=
  let candidates := marks.filter (fun c => decide (c.priority = topPriority marks))
  match leastOffset candidates with
  | none => .none
  | some c =>
    if candidates.all (fun x => decide (positionCode lengthMm x = positionCode lengthMm c)) then
      .chosen c (positionCode lengthMm c)
    else .ambiguous

/-! ## The decision (R48, R57 to R65) -/

/-- R59: the fields a decision writes. -/
structure Decision where
  disposition : Disposition
  chosen : Option ChosenMark
  positionCode : Option (Fin 8)
  classGroup : Option (Fin 16)
  plan : Option FacingPlan
  totalValue : Option Word
  requiredValue : Option Word
  cancel : Option CancelIntent
  deriving DecidableEq, Repr

/-- R57, R58: a decision without a chosen mark. -/
def Decision.bare (x : Disposition) : Decision :=
  { disposition := x, chosen := none, positionCode := none, classGroup := none, plan := none,
    totalValue := none, requiredValue := none, cancel := none }

/-- R59: the chosen mark as recorded. -/
def Classed.recorded (c : Classed) : ChosenMark :=
  { side := c.side, zone := c.obs.zone, offsetMm := c.obs.offsetMm, widthMm := c.obs.widthMm,
    lum := c.obs.lum, row := c.row }

/-- R61: the Facing Table row of a position code. -/
def Device.facingPlan (d : Device) (code : Fin 8) : FacingPlan :=
  { twist := d.flag 4 code.val 0, turn := d.flag 4 code.val 1,
    group := if d.flag 4 code.val 2 then .trail else .lead }

/-- R60: a Rate Table row covers the letter. -/
def Device.rateCovers (d : Device) (lengthMm thickness row : Nat) : Bool :=
  d.flag 3 row 0 && decide (lengthMm ≤ d.num 3 row 1) && decide (thickness ≤ d.num 3 row 2)

/-- R60: the first valid row that covers the letter. -/
def Device.rateRow (d : Device) (lengthMm thickness : Nat) : Option Nat :=
  (List.range 16).find? (d.rateCovers lengthMm thickness)

/-- R67: the faced offset of the chosen mark; a result below 0 is taken as 0. -/
def facedOffset (lengthMm offset width : Nat) (turn : Bool) : Nat :=
  if turn then lengthMm - offset - width else offset

/-- R85: the start column of an imprint with template `t`. -/
def Device.startColumn (d : Device) (t faced : Nat) : Nat := (2 * (faced : Int) + (d.cell 8 t 1).toInt).toNat

/-- R63: the template uses clock fields: a code of DAY2, MON3, YEAR4, HOUR2 or MIN2 within its lines. -/
def Device.usesClock (d : Device) (t : Nat) : Bool :=
  (List.range (d.lineCount t)).any (fun line =>
    (List.range (d.lineChars t line)).any (fun k =>
      decide (128 ≤ d.textCode t line k) && decide (d.textCode t line k ≤ 132)))

/-- R62: the Route Table row looked up for a cancelling disposition. -/
def cancelRow (x : Disposition) (group : Fin 16) (plan : FacingPlan) : Nat :=
  match x with
  | .shortPaid => 32
  | .outOfGauge => 33
  | _ => 2 * group.val + plan.group.code

/-- R63: the template of a row that asks for a cancel. -/
def Device.templateFor (d : Device) (row : Nat) (c : Classed) : Nat :=
  if d.num 5 row 2 = 0 then c.template else d.num 5 row 2 - 1

/-- R62 to R65: cancel intent of a decision with a live chosen mark, and UNCANCELLED for want of a valid clock. -/
def Device.withCancel (d : Device) (lengthMm : Nat) (c : Classed) (plan : FacingPlan) (x : Decision) : Decision :=
  let row := cancelRow x.disposition c.group plan
  if d.flag 5 row 1 = false then x
  else
    let t := d.templateFor row c
    if d.usesClock t = true ∧ d.clock.valid = false then { x with disposition := .uncancelled }
    else
      let faced := facedOffset lengthMm c.obs.offsetMm.toNat c.obs.widthMm.toNat plan.turn
      { x with cancel := some { template := t, startColumn := d.startColumn t faced } }

/-- R56 to R61: the decision of a chosen live mark. -/
def Device.decideLive (d : Device) (g : Geometry) (live : List Classed) (c : Classed) (code : Fin 8) : Decision :=
  let plan := d.facingPlan code
  let total := totalValue live
  let rate := d.rateRow g.lengthMm.toNat g.thickness.toNat
  let required := rate.map (fun row => d.num 3 row 3)
  let x := match required with
    | none => Disposition.outOfGauge
    | some v => if total < v then .shortPaid else .facedPaid
  d.withCancel g.lengthMm.toNat c plan
    { disposition := x, chosen := some c.recorded, positionCode := some code, classGroup := some c.group,
      plan := some plan, totalValue := some (word total), requiredValue := required.map word, cancel := none }

/-- R57: the decision of a chosen prior-cancelled mark. -/
def Device.decideReused (d : Device) (c : Classed) (code : Fin 8) : Decision :=
  { disposition := .reused, chosen := some c.recorded, positionCode := some code, classGroup := some c.group,
    plan := some (d.facingPlan code), totalValue := none, requiredValue := none, cancel := none }

/-- R48: the classification operation. -/
def Device.decision (d : Device) (r : ItemRecord) : Decision :=
  if r.scanFault then .bare .scanFault
  else
    let g := r.geometry.getD { lengthMm := 0, thickness := 0 }
    let marks := d.postage r
    let live := marks.filter (fun c => !c.obs.inkOver)
    match choose g.lengthMm.toNat live with
    | .ambiguous => .bare .ambiguous
    | .chosen c code => d.decideLive g live c code
    | .none =>
      match choose g.lengthMm.toNat (marks.filter (fun c => c.obs.inkOver)) with
      | .ambiguous => .bare .ambiguous
      | .chosen c code => d.decideReused c code
      | .none => .bare .noMark

/-- R47 step 1 and step 3: the decision written; with cancel intent the record joins the Build Queue. -/
def ItemRecord.decided (r : ItemRecord) (x : Decision) : ItemRecord :=
  { r with
    state := .decided, disposition := some x.disposition, chosen := x.chosen, positionCode := x.positionCode,
    classGroup := x.classGroup, plan := x.plan, totalValue := x.totalValue, requiredValue := x.requiredValue,
    cancel := x.cancel, imprint := if x.cancel.isSome then .queued else r.imprint }

/-- R42: a decision that qualifies for the scan-suspect counter. -/
def qualifyingDecision (r : ItemRecord) (x : Decision) : Bool :=
  decide (x.disposition = .scanFault) || (r.obsA.isEmpty && r.obsB.isEmpty)

/-- R42, R43: the scan-suspect counter at a decision, and the threshold test. -/
def suspectDecision (d : Device) (n : RecNo) (qualifying : Bool) : Device :=
  let t := d.suspectThreshold
  let set (v : Nat) (d : Device) : Device := { d with classifier := { d.classifier with suspect := v } }
  if t = 0 ∨ qualifying = false then set 0 d
  else if t ≤ d.classifier.suspect + 1 then
    let d := occur d (.scanSuspect n t)
    let d := if d.scanLockEnable then { d with line := { d.line with scanLock := true } } else d
    set 0 d
  else set (d.classifier.suspect + 1) d

/-- R39, R45: the oldest READY record, where the Classifier is free in RUN or DRAIN. -/
def Device.takeReady (d : Device) : Option RecNo :=
  if d.active = true ∧ d.classifier.busy = none then
    (d.track.queue.find? (fun r => decide (r.state = .ready))).map (fun r => r.number)
  else none

/-- CLASSIFIER_TAKE (R39): the free Classifier takes the oldest READY record. -/
def classifierTake (d : Device) : Device :=
  match d.takeReady with
  | none => d
  | some n =>
    let d := d.modify n (fun r => { r with state := .classifying })
    { d with classifier := { d.classifier with busy := some n } }

/-- DECISION_COMPLETE (R47, R192): the classification of record `n` ends, and the apply point is tested. It is void
where the Classifier does not hold the record or the record is not CLASSIFYING (R8). -/
def decisionComplete (n : RecNo) (d : Device) : Device :=
  match d.find n with
  | none => d
  | some r =>
    if d.classifier.busy = some n ∧ r.state = .classifying then
      let x := d.decision r
      let d := d.modify n (fun r => r.decided x)
      applyPoint (freeClassifier (suspectDecision d n (qualifyingDecision r x)))
    else d

def execClassifierTake (s : State) : Host.Outcome State Fault Refusal := s.stepDevice classifierTake

def execDecisionComplete (n : RecNo) (s : State) : Host.Outcome State Fault Refusal :=
  s.stepDevice (decisionComplete n)

end Sys2Proof.Machine
end

