-- ==== Sys2Proof/Machine/Commands.lean ====
section
/-! DEFINITION. The Command Unit's commands: what each does and answers (R170 to R175), as a function from the part to
the part after it and its answer. SELECT WINDOW, READ WINDOW, READ CONTINUE and COMPARE WRITE are in Window, SET CLOCK
and ADJUST CLOCK in Clock. -/

namespace Sys2Proof.Machine

/-- A refusal with its result words. -/
def Answer.refuse (code : ResultCode) (words : List Word) : Answer := { code := code, detail := 0, words := words }

/-! ## Modes (R148) -/

/-- R148: the mode after the command and the number of records after it. -/
def Device.modeWords (d : Device) : List Word := [word d.line.mode.code, word d.track.queue.length]

/-- ENTER RUN (R12, R148, R149). -/
def cmdEnterRun (d : Device) : Device × Answer :=
  match d.line.mode with
  | .idle =>
    match d.badRow with
    | some row => (d, { code := .badStations, detail := row, words := d.modeWords })
    | none => (enterRun d, .done (enterRun d).modeWords)
  | .run => (d, .done d.modeWords)
  | .drain => (d, .refuse .refusedMode d.modeWords)
  | .halted => (d, .refuse .refusedMode d.modeWords)

/-- R150: DRAIN taken in RUN, with its test for the drain completion. -/
def beginDrain (d : Device) : Device := drainTest (setMode d .drain)

/-- DRAIN (R148, R150). -/
def cmdDrain (d : Device) : Device × Answer :=
  match d.line.mode with
  | .run => (beginDrain d, .done (beginDrain d).modeWords)
  | .drain => (d, .done d.modeWords)
  | .idle => (d, .refuse .refusedMode d.modeWords)
  | .halted => (d, .refuse .refusedMode d.modeWords)

/-- HALT (R148, R151). -/
def cmdHalt (d : Device) : Device × Answer :=
  match d.line.mode with
  | .halted => (d, .done d.modeWords)
  | .idle => (enterHalted d, .done (enterHalted d).modeWords)
  | .run => (enterHalted d, .done (enterHalted d).modeWords)
  | .drain => (enterHalted d, .done (enterHalted d).modeWords)

/-- R152: the entry to IDLE by RESUME. -/
def leaveHalted (d : Device) : Device := reportConditions (setMode (clearCells d) .idle)

/-- RESUME (R148, R152). -/
def cmdResume (d : Device) : Device × Answer :=
  match d.line.mode with
  | .halted =>
    if d.track.queue.isEmpty then (leaveHalted d, .done (leaveHalted d).modeWords)
    else (d, .refuse .queueNotEmpty d.modeWords)
  | .idle => (d, .refuse .refusedMode d.modeWords)
  | .run => (d, .refuse .refusedMode d.modeWords)
  | .drain => (d, .refuse .refusedMode d.modeWords)

/-- PURGE TRACK (R24, R148). -/
def cmdPurgeTrack (d : Device) : Device × Answer :=
  match d.line.mode with
  | .halted => (purgeAll d, .done [word d.track.queue.length])
  | .idle => (d, .refuse .refusedMode [0])
  | .run => (d, .refuse .refusedMode [0])
  | .drain => (d, .refuse .refusedMode [0])

/-- R153 steps 2 to 7, the queue having been purged. -/
def softClear (d : Device) : Device :=
  let d := clearCells (releaseActuators d)
  reportConditions { d with
    window := .reset
    imprint := { d.imprint with
      builder := none, ring := [], alloc := 0, printFault := false, printing := none, printCol := 0 }
    classifier := { busy := none, suspect := 0 }
    line := { d.line with mode := .idle, holdFeed := false, scanLock := false }
    attention := { AttentionUnit.reset with mask := d.attention.mask } }

/-- SOFT RESET (R153). -/
def cmdSoftReset (d : Device) : Device × Answer :=
  (softClear (purgeAll d), .done [word d.track.queue.length])

/-! ## Feed hold (R155), scan lock (R44) -/

def setHoldFeed (d : Device) (b : Bool) : Device := { d with line := { d.line with holdFeed := b } }

/-- HOLD FEED (R155). -/
def cmdHoldFeed (d : Device) : Device × Answer :=
  (setHoldFeed d true, .done [word (setHoldFeed d true).feedStopCauses])

/-- RELEASE FEED (R155). -/
def cmdReleaseFeed (d : Device) : Device × Answer :=
  (setHoldFeed d false, .done [word (setHoldFeed d false).feedStopCauses])

/-- CLEAR SCAN LOCK (R44). -/
def cmdClearScanLock (d : Device) : Device × Answer :=
  ({ d with line := { d.line with scanLock := false } }, .done [word (bit d.line.scanLock)])

/-! ## READ STATUS (R175, 12.4) -/

/-- READ STATUS word 6. -/
def Device.statusBits (d : Device) : Nat :=
  d.classifier.suspect + 16 * bit d.line.scanLock + 32 * bit d.imprint.printFault +
    64 * bit d.inputs.printReady + 128 * bit d.inputs.reportHold + 256 * bit d.feed.busy

/-- READ STATUS word 15. -/
def Device.closeBits (d : Device) : Nat :=
  bit d.tally.page.isSome + 2 * bit d.tally.deferred.isSome +
    match d.tally.deferred with
    | some c => 4 * bit c.command + 8 * bit c.autoClose
    | none => 0

/-- READ STATUS word 16: bit n for a set latch of the event cause of priority n. -/
def Device.latchBits (d : Device) : Nat :=
  (allCauses.map (fun c => bit (d.attention.latch c).isSome * 2 ^ c.priority)).sum

/-- READ STATUS word 22. -/
def Device.buildBits (d : Device) : Nat :=
  d.buildQueue.length + 32 * (if d.imprint.builder ≠ none then 1 else if d.buildWaiting then 2 else 0)

/-- The 24 result words of READ STATUS. -/
def Device.statusWords (d : Device) : List Word :=
  [word (16384 * d.line.mode.code + 4096 * d.handshake + d.feedStopCauses),
    word (32768 * bit d.classifier.busy.isSome + d.track.queue.length),
    d.classifier.busy.getD 0] ++ posWords d.track.encoder ++
  [d.track.admission,
    word d.statusBits,
    word d.clock.date.year,
    word (256 * d.clock.date.month + d.clock.date.day),
    word (256 * d.clock.hour + d.clock.minute),
    word (d.clock.second + 256 * bit d.clock.valid + 512 * bit d.clock.clamped +
      1024 * bit d.clock.adjust.isSome),
    d.clock.adjustWord,
    word (d.imprint.sequence / 65536), word (d.imprint.sequence % 65536),
    d.tally.period,
    word d.closeBits,
    word d.latchBits,
    word (d.attention.rejectFull.code + 4 * d.attention.binFull.code + 16 * d.attention.printFault.code),
    d.attention.mask.setWidth 16,
    word d.feed.fifo.length,
    word d.report.queue.length,
    word (d.pendingCells + 512 * d.pendingGroups + 32768 * bit d.window.selection.isSome),
    word d.buildBits,
    word d.ringFree]

/-- READ STATUS (R175): no state changes. -/
def cmdReadStatus (d : Device) : Device × Answer := (d, .done d.statusWords)

/-! ## Tally (R135, R140) -/

/-- EXCHANGE COUNTER (R140). -/
def cmdExchangeCounter (number upper lower : Word) (d : Device) : Device × Answer :=
  if h : number.toNat < 56 then
    let i : Fin 56 := ⟨number.toNat, h⟩
    let new : Count := BitVec.ofNat 32 (upper.toNat * 65536 + lower.toNat)
    ({ d with tally := { d.tally with counters := upd d.tally.counters i new } },
      .done (countWords d.tally.counters[i]))
  else (d, { code := .badParameter, detail := 1, words := [0, 0] })

/-- CLOSE TALLY (R135). The page of a close taken at once is tested behind the response, at the end of the same event
(R177; log 15). -/
def cmdCloseTally (d : Device) : Device × Answer :=
  (requestClose d { command := true, autoClose := false },
    if d.tally.page.isNone then .done [d.tally.period] else .refuse .deferred [d.tally.period])

/-! ## Attention (R161, R162) -/

/-- R160, 12.4: the detail words a cause is returned with. -/
def Device.causeWords (d : Device) (c : Cause) : List Word :=
  match c with
  | .rejectFull => [word (d.bin 0).fill, d.cell 6 0 1]
  | .binFull =>
    [word (((List.finRange 16).map (fun k =>
      bit (decide (k.val ≠ 0) && decide ((d.bin k).state = .full)) * 2 ^ k.val)).sum)]
  | .printFault => [word (bit d.imprint.printFault), word (bit d.inputs.printReady)]
  | c =>
    match d.attention.latch c with
    | some l => l.detail.words
    | none => []

/-- R172: a detail as four words, 0 after it. -/
def fourWords (ws : List Word) : List Word := (ws ++ [0, 0, 0, 0]).take 4

/-- R162: the repeat count returned: 0 for a condition. -/
def AttentionUnit.repeatCount (a : AttentionUnit) (c : Cause) : Nat :=
  match a.latch c with
  | some l => l.repeats
  | none => 0

/-- ACK ATTENTION (R162): the qualifying cause of highest priority is returned, its latch cleared or its condition
marked seen; NONE is 12. -/
def cmdAckAttention (d : Device) : Device × Answer :=
  match allCauses.find? d.attention.qualifies with
  | none => (d, .done (12 :: 0 :: [0, 0, 0, 0]))
  | some c =>
    ({ d with attention := (d.attention.setLatch c none).markSeen c },
      .done (word c.priority :: word (d.attention.repeatCount c) :: fourWords (d.causeWords c)))

/-- SET ATTENTION MASK (R161): bits 12..15 are ignored and JAM is held unmasked. -/
def cmdSetAttentionMask (mask : Word) (d : Device) : Device × Answer :=
  let m : BitVec 12 := mask.setWidth 12 &&& 0xFFE#12
  ({ d with attention := { d.attention with mask := m } }, .done [m.setWidth 16])

/-! ## Bins (R128) -/

/-- R128: the bin's state, fill and committed count. -/
def Device.binWords (d : Device) (k : Fin 16) : List Word :=
  [word (d.bin k).state.code, word (d.bin k).fill, word (d.bin k).committed]

/-- R122 to R124: an out request with the conditions it changes. -/
def takeOut (d : Device) (k : Fin 16) : Device := reportConditions (outRequest d k)

/-- R126: a return request with the conditions it changes. -/
def takeBack (d : Device) (k : Fin 16) : Device := reportConditions (returnRequest d k)

/-- BIN OUT (R125, R128). -/
def cmdBinOut (bin : Word) (d : Device) : Device × Answer :=
  if h : bin.toNat < 16 then
    let k : Fin 16 := ⟨bin.toNat, h⟩
    if d.outBarred k then (d, .refuse .refusedMode (d.binWords k))
    else (takeOut d k, .done ((takeOut d k).binWords k))
  else (d, { code := .badParameter, detail := 1, words := [0, 0, 0] })

/-- BIN RETURN (R128). -/
def cmdBinReturn (bin : Word) (d : Device) : Device × Answer :=
  if h : bin.toNat < 16 then
    let k : Fin 16 := ⟨bin.toNat, h⟩
    if (d.bin k).held then (d, .refuse .switchHeld (d.binWords k))
    else (takeBack d k, .done ((takeBack d k).binWords k))
  else (d, { code := .badParameter, detail := 1, words := [0, 0, 0] })

/-! ## The command of a complete fixed frame (R170, R172) -/

/-- R170: what a fixed command frame with these parameter words does and answers. The delimiter hands on a frame only
with the number of words of R172; the open-ended kinds do not come here. -/
def runCommand (kind : CommandKind) (body : List Word) (d : Device) : Device × Answer :=
  match kind, body with
  | .readStatus, [] => cmdReadStatus d
  | .enterRun, [] => cmdEnterRun d
  | .drain, [] => cmdDrain d
  | .halt, [] => cmdHalt d
  | .resume, [] => cmdResume d
  | .purgeTrack, [] => cmdPurgeTrack d
  | .softReset, [] => cmdSoftReset d
  | .holdFeed, [] => cmdHoldFeed d
  | .releaseFeed, [] => cmdReleaseFeed d
  | .closeTally, [] => cmdCloseTally d
  | .ackAttention, [] => cmdAckAttention d
  | .clearScanLock, [] => cmdClearScanLock d
  | .selectWindow, [t, r1, r2, f1, f2, x] =>
    selectWindow t.toNat r1.toNat r2.toNat f1.toNat f2.toNat x.toNat d
  | .readWindow, [n] => readWindow false n.toNat d
  | .readContinue, [n] => readWindow true n.toNat d
  | .compareWrite, [t, r, f, e, v] => compareWrite t.toNat r.toNat f.toNat e v d
  | .exchangeCounter, [n, u, l] => cmdExchangeCounter n u l d
  | .setClock, [y, mo, da, h, mi, s] => setClock y.toNat mo.toNat da.toNat h.toNat mi.toNat s.toNat d
  | .adjustClock, [v] => adjustClock v d
  | .setAttentionMask, [m] => cmdSetAttentionMask m d
  | .binOut, [k] => cmdBinOut k d
  | .binReturn, [k] => cmdBinReturn k d
  | _, _ => (d, .done [])

/-- R170, R171: a command takes effect and is answered in one event, which ends with the arbiter's test of its response
and, behind it, of a page that waits, that of its own close among them (R177; log 15). -/
def execute (kind : CommandKind) (tag : BitVec 8) (f : Device → Device × Answer) (d : Device) : Device :=
  respond (f d).1 kind tag (f d).2

/-- R110: CLOSE TALLY served first of two that arrive together, a SECOND pulse standing next. Where that pulse requests
a close, its response alone is tested, and its page is tested at that request, which finds the page buffer holding it
(log 32). -/
def serveCloseTally (tag : BitVec 8) (d : Device) : Device :=
  let e := buildResponse (cmdCloseTally d).1 .closeTally tag (cmdCloseTally d).2
  if e.pulseCloses then placeResponse e else arbiter e

end Sys2Proof.Machine
end

