-- ==== Sys2Proof/Machine/Link.lean ====
section
/-! DEFINITION. The Feed Link (R164 to R169): the Feed Input FIFO, the frame delimiter, the framing errors, and the
steps in which a scan part or a command frame is taken. -/

namespace Sys2Proof.Machine

/-! ## The Feed Input FIFO (R164, R165) -/

/-- R164, R165: a word is placed at the FIFO's tail; LINK-BUSY is asserted when it brings the FIFO to 480. -/
def acceptWord (d : Device) (w : LinkWord) : Device :=
  let fifo := d.feed.fifo ++ [w]
  { d with feed := { d.feed with fifo := fifo, busy := d.feed.busy || decide (fifo.length = Config.busyAt) } }

/-- FEED_LINK_WORD (R164): a presented word is taken when the FIFO has room and none waits before it; otherwise it
stays presented. A word presented while RESET is asserted is not taken. -/
def feedLinkWord (w : LinkWord) (d : Device) : Device :=
  if d.inputs.resetLine then d
  else if d.feed.presented = [] ∧ d.feed.fifo.length < Config.fifoWords then acceptWord d w
  else { d with feed := { d.feed with presented := d.feed.presented ++ [w] } }

/-- R164, R165: the head word leaves the FIFO; LINK-BUSY is released at 448, and a word presented is then taken. -/
def popWord (d : Device) : Device :=
  let fifo := d.feed.fifo.tail
  let d := { d with feed := { d.feed with
    fifo := fifo, busy := d.feed.busy && decide (fifo.length ≠ Config.releaseAt) } }
  match d.feed.presented with
  | [] => d
  | w :: rest => acceptWord { d with feed := { d.feed with presented := rest } } w

/-! ## The frame delimiter (R167, R168) -/

def setDelim (d : Device) (x : Delimiter) : Device := { d with feed := { d.feed with delim := x } }

/-- R168: an excess word after a command frame is counted, holding at 65535. -/
def countExcess (d : Device) (kind : FrameKind) : Device :=
  match kind with
  | .command _ => { d with feed := { d.feed with excess := min 65535 (d.feed.excess + 1) } }
  | .scan _ => d

/-- R167, R168: what a head word ends: a fixed frame short of its body is a SHORT_FRAME; an open-ended frame is
closed by the Command Unit. -/
def endOpen (d : Device) : Device :=
  match d.feed.delim with
  | .opened kind q body =>
    linkError (setDelim d .discard) (.shortFrame kind body.length ((bodyLength kind q).getD 0))
  | .openEnded kind q => closeFrame (setDelim d (.complete kind q))
  | .noFrame => d
  | .stray => d
  | .complete _ _ => d
  | .excess _ _ => d
  | .discard => d

/-- R169: a complete frame handed on, a SECOND pulse standing next in the queue or not (`pulse`, R110). -/
def handOn (pulse : Bool) (d : Device) (kind : FrameKind) (q : BitVec 8) (body : List Word) : Device :=
  match kind with
  | .scan side => takePart (scanPartOf side body) d
  | .command c =>
    if pulse = true ∧ c = .closeTally then serveCloseTally q d else execute c q (runCommand c body) d

/-- R167: a head word opens its frame. -/
def openHead (pulse : Bool) (d : Device) (w : Word) : Device :=
  let q := headQualifier w
  match frameKindOf (headKind w) with
  | none => linkError (setDelim d .discard) (.unknownKind w)
  | some (.scan side) =>
    if Config.maxObservations < q.toNat then linkError (setDelim d .discard) (.badCount side q.toNat)
    else setDelim d (.opened (.scan side) q [])
  | some (.command c) =>
    match bodyLength (.command c) q with
    | none => openFrame (setDelim d (.openEnded (.command c) q)) c q
    | some 0 => handOn pulse (setDelim d (.complete (.command c) q)) (.command c) q []
    | some (_ + 1) => setDelim d (.opened (.command c) q [])

/-- R167: a body word, by the delimiter's state. -/
def takeBody (pulse : Bool) (d : Device) (v : Word) : Device :=
  match d.feed.delim with
  | .noFrame => linkError (setDelim d .stray) .strayBody
  | .stray => d
  | .opened kind q body =>
    let body := body ++ [v]
    if (bodyLength kind q).getD 0 ≤ body.length then handOn pulse (setDelim d (.complete kind q)) kind q body
    else setDelim d (.opened kind q body)
  | .complete kind q => linkError (countExcess (setDelim d (.excess kind q)) kind) (.excessBody kind q)
  | .excess kind _ => countExcess d kind
  | .openEnded _ _ => openFrameWord d v
  | .discard => d

/-- FRAME_DELIMITER_TAKE (R164, R167, R169): the FIFO's head word is taken while the Command Unit is not WAITING. A
head word that ends an open-ended frame stays at the head until that frame is answered. -/
def frameDelimiterTake (pulse : Bool) (d : Device) : Device :=
  match d.feed.fifo with
  | [] => d
  | w :: _ =>
    if d.responseWaiting then d
    else if w.head then
      let d := endOpen d
      if d.responseWaiting then d else openHead pulse (popWord d) w.data
    else takeBody pulse (popWord d) w.data

/-! ## A whole frame taken at once -/

/-- R164, R169: no word of the link is before a frame that comes: the FIFO holds none, none is presented, and no
response waits. -/
def Device.linkClear (d : Device) : Bool :=
  decide (d.feed.fifo = []) && decide (d.feed.presented = []) && !d.responseWaiting

/-- R164: the words of a frame enter the Feed Input FIFO, in order. -/
def queueFrame (ws : List LinkWord) (d : Device) : Device := ws.foldl (fun d w => feedLinkWord w d) d

/-- R167, R169, R178: the frame of a row of the table comes with the words `frameWords kind q body`. While RESET is
asserted it is lost (R164). With no word of the link before it, it is taken word by word as it comes: what its head word
ends is ended, and then `f` acts with the delimiter COMPLETE for the frame. Otherwise its words wait in the Feed Input
FIFO behind the words before them, to be taken from there (FRAME_DELIMITER_TAKE) in link order. -/
def takeFrame (kind : FrameKind) (q : BitVec 8) (body : List Word) (f : Device → Device) (d : Device) : Device :=
  if d.inputs.resetLine then d
  else if d.linkClear then
    let d := endOpen d
    if d.responseWaiting then queueFrame (frameWords kind q body) d else f (setDelim d (.complete kind q))
  else queueFrame (frameWords kind q body) d

/-- R170: a fixed command frame comes; when it is taken it is executed and answered. -/
def deliver (kind : CommandKind) (tag : BitVec 8) (body : List Word) (d : Device) : Device :=
  takeFrame (.command kind) tag body (execute kind tag (runCommand kind body)) d

/-- R110, R135: CLOSE TALLY comes, a SECOND pulse standing next in the queue or not. -/
def deliverCloseTally (pulse : Bool) (tag : BitVec 8) (d : Device) : Device :=
  takeFrame (.command .closeTally) tag [] (fun d => handOn pulse d (.command .closeTally) tag []) d

/-- R169, R170, R174, R184: an open-ended frame opens, takes its body words in order, and is closed and answered. -/
def runOpenFrame (kind : CommandKind) (tag : BitVec 8) (words : List Word) (d : Device) : Device :=
  endOpen (words.foldl openFrameWord (openFrame (setDelim d (.openEnded (.command kind) tag)) kind tag))

/-- An open-ended command frame comes; taken as it comes it is closed as well. One whose words wait in the FIFO is
closed by the next head word behind it (log 5). -/
def deliverOpen (kind : CommandKind) (tag : BitVec 8) (words : List Word) (d : Device) : Device :=
  takeFrame (.command kind) tag words (runOpenFrame kind tag words) d

/-- The observation count a part's head word carries, 8 bits (R27). -/
def partCount (p : ScanPart) : BitVec 8 := BitVec.ofNat 8 p.observations.length

/-- SCAN_PART (R27, R30, R168): a complete scan part comes; one of more than 8 observations is a BAD_COUNT (log 22). -/
def deliverPart (p : ScanPart) (d : Device) : Device :=
  takeFrame (.scan p.side) (partCount p) (scanPartWords p)
    (fun d =>
      if Config.maxObservations < p.observations.length then
        linkError (setDelim d .discard) (.badCount p.side p.observations.length)
      else takePart p d) d

/-! ## Meanings -/

def execFeedLinkWord (w : LinkWord) (s : State) : Host.Outcome State Fault Refusal := s.stepDevice (feedLinkWord w)

def execFrameDelimiterTake (s : State) : Host.Outcome State Fault Refusal :=
  s.stepDevice (frameDelimiterTake (pulseNext s.pending))

def execScanPart (p : ScanPart) (s : State) : Host.Outcome State Fault Refusal := s.stepDevice (deliverPart p)

def execNop (tag : BitVec 8) (words : List Word) (s : State) : Host.Outcome State Fault Refusal :=
  s.stepDevice (deliverOpen .nop tag words)

def execReadStatus (tag : BitVec 8) (s : State) : Host.Outcome State Fault Refusal :=
  s.stepDevice (deliver .readStatus tag [])

def execEnterRun (tag : BitVec 8) (s : State) : Host.Outcome State Fault Refusal :=
  s.stepDevice (deliver .enterRun tag [])

def execDrain (tag : BitVec 8) (s : State) : Host.Outcome State Fault Refusal :=
  s.stepDevice (deliver .drain tag [])

def execHalt (tag : BitVec 8) (s : State) : Host.Outcome State Fault Refusal :=
  s.stepDevice (deliver .halt tag [])

def execResume (tag : BitVec 8) (s : State) : Host.Outcome State Fault Refusal :=
  s.stepDevice (deliver .resume tag [])

def execPurgeTrack (tag : BitVec 8) (s : State) : Host.Outcome State Fault Refusal :=
  s.stepDevice (deliver .purgeTrack tag [])

def execSoftReset (tag : BitVec 8) (s : State) : Host.Outcome State Fault Refusal :=
  s.stepDevice (deliver .softReset tag [])

def execHoldFeed (tag : BitVec 8) (s : State) : Host.Outcome State Fault Refusal :=
  s.stepDevice (deliver .holdFeed tag [])

def execReleaseFeed (tag : BitVec 8) (s : State) : Host.Outcome State Fault Refusal :=
  s.stepDevice (deliver .releaseFeed tag [])

def execSelectWindow (tag : BitVec 8) (t r1 r2 f1 f2 x : Word) (s : State) : Host.Outcome State Fault Refusal :=
  s.stepDevice (deliver .selectWindow tag [t, r1, r2, f1, f2, x])

def execWriteWindow (tag : BitVec 8) (words : List Word) (s : State) : Host.Outcome State Fault Refusal :=
  s.stepDevice (deliverOpen .writeWindow tag words)

def execWriteContinue (tag : BitVec 8) (words : List Word) (s : State) : Host.Outcome State Fault Refusal :=
  s.stepDevice (deliverOpen .writeContinue tag words)

def execReadWindow (tag : BitVec 8) (n : Word) (s : State) : Host.Outcome State Fault Refusal :=
  s.stepDevice (deliver .readWindow tag [n])

def execReadContinue (tag : BitVec 8) (n : Word) (s : State) : Host.Outcome State Fault Refusal :=
  s.stepDevice (deliver .readContinue tag [n])

def execCompareWrite (tag : BitVec 8) (t r f e v : Word) (s : State) : Host.Outcome State Fault Refusal :=
  s.stepDevice (deliver .compareWrite tag [t, r, f, e, v])

def execExchangeCounter (tag : BitVec 8) (n u l : Word) (s : State) : Host.Outcome State Fault Refusal :=
  s.stepDevice (deliver .exchangeCounter tag [n, u, l])

def execCloseTally (tag : BitVec 8) (s : State) : Host.Outcome State Fault Refusal :=
  s.stepDevice (deliverCloseTally (pulseNext s.pending) tag)

def execSetClock (tag : BitVec 8) (y mo da h mi se : Word) (s : State) : Host.Outcome State Fault Refusal :=
  s.stepDevice (deliver .setClock tag [y, mo, da, h, mi, se])

def execAdjustClock (tag : BitVec 8) (v : Word) (s : State) : Host.Outcome State Fault Refusal :=
  s.stepDevice (deliver .adjustClock tag [v])

def execAckAttention (tag : BitVec 8) (s : State) : Host.Outcome State Fault Refusal :=
  s.stepDevice (deliver .ackAttention tag [])

def execSetAttentionMask (tag : BitVec 8) (m : Word) (s : State) : Host.Outcome State Fault Refusal :=
  s.stepDevice (deliver .setAttentionMask tag [m])

def execClearScanLock (tag : BitVec 8) (s : State) : Host.Outcome State Fault Refusal :=
  s.stepDevice (deliver .clearScanLock tag [])

def execBinOut (tag : BitVec 8) (k : Word) (s : State) : Host.Outcome State Fault Refusal :=
  s.stepDevice (deliver .binOut tag [k])

def execBinReturn (tag : BitVec 8) (k : Word) (s : State) : Host.Outcome State Fault Refusal :=
  s.stepDevice (deliver .binReturn tag [k])

end Sys2Proof.Machine
end

