-- ==== Sys2Proof/Machine/Belt.lean ====
section
/-! DEFINITION. The encoder (R9, R10): what is due at an encoder value, and the ENC pulse. -/

namespace Sys2Proof.Machine

/-- R10: the part's own events that a pulse may find untaken at the present encoder value. -/
inductive DueEvent
  | columnDue
  | endOfCheckSpan (n : RecNo)
  | printStart (n : RecNo)
  | deadline (n : RecNo)
  | windowExpiry (n : RecNo) (st : Station)
  | gapMet
  | applyPoint
  | classifierTake
  | buildBegin
  | jamExpiry (row : Fin 21)
  deriving DecidableEq, Repr

/-- Each event is the step of its name; each step does nothing where its event has not come. -/
def takeEvent (d : Device) : DueEvent → Device
  | .columnDue => printColumnDue d
  | .endOfCheckSpan n => endOfCheckSpan n d
  | .printStart n => printStart n d
  | .deadline n => deadline n d
  | .windowExpiry n st => windowExpiry n st d
  | .gapMet => gapMet d
  | .applyPoint => applyPoint d
  | .classifierTake => classifierTake d
  | .buildBegin => buildBegin d
  | .jamExpiry row => jamExpiry row d

/-- The order in which a pulse takes what was left untaken (log 2): the column due, each record's end of check span and
print start, the column a new print has due, deadlines, window expiries, the blocks' own takes, jams. -/
def Device.candidates (d : Device) : List DueEvent :=
  let numbers := d.track.queue.map (fun r => r.number)
  [.columnDue] ++ numbers.flatMap (fun n => [.endOfCheckSpan n, .printStart n]) ++ [.columnDue] ++
    numbers.map .deadline ++ numbers.flatMap (fun n => allStations.map (.windowExpiry n)) ++
    [.gapMet, .applyPoint, .classifierTake, .buildBegin] ++ (List.finRange 21).map .jamExpiry

/-- R10: every event still due at the present encoder value is taken. -/
def takeDue (d : Device) : Device := d.candidates.foldl takeEvent d

/-- R9: the encoder position advances by one, from 16777215 to 0. -/
def advance (d : Device) : Device := { d with track := { d.track with encoder := d.track.encoder + 1 } }

/-- ENC_PULSE (R9, R10): what is still due at the present value is taken, since every position is reached once (log 2);
the encoder then advances by one, in every mode. -/
def encPulse (d : Device) : Device := advance (takeDue d)

def execEncPulse (s : State) : Host.Outcome State Fault Refusal := s.stepDevice encPulse

end Sys2Proof.Machine
end

