-- ==== Sys2Proof/Machine/Resets.lean ====
section
/-! DEFINITION. The power-on reset, the line reset and its release (R26, R101, R102, R127, R130, R146, R158, R180). -/

namespace Sys2Proof.Machine

/-- POWER_ON_RESET: every block at its power-on values; the input lines keep their levels. -/
def powerOnReset (d : Device) : Device := .reset d.inputs

/-- R80, R82, R101: the cells a line reset keeps: the Text Store, Month Names, Font Store and Bar Patterns. -/
def keptByLineReset (e : Nat × Word) : Bool := decide (cellKey 9 0 0 ≤ e.1)

/-- LINE_RESET: RESET is asserted: every block at its line-reset values. The artwork stores, the date, the time and
Clock Valid are kept, and so are the counts of pulses given, the column last strobed and the word last sent (log 8). -/
def lineReset (d : Device) : Device :=
  { Device.reset { d.inputs with resetLine := true } with
    tables := d.tables.filter keptByLineReset
    clock := { d.clock with adjust := none, clamped := false }
    imprint := { ImprintUnit.reset with printStrobes := d.imprint.printStrobes, strobed := d.imprint.strobed }
    report := { d.report with queue := [], begun := false }
    line := { mode := .idle, holdFeed := false, scanLock := false, gapPulses := d.line.gapPulses } }

/-- RESET_RELEASE (R127): RESET is released: each switch held field takes the level of its BIN-OUT line. -/
def resetRelease (d : Device) : Device :=
  if d.inputs.resetLine then
    { d with
      inputs := { d.inputs with resetLine := false }
      stacker := { d.stacker with
        bins := Vector.ofFn (fun k : Fin 16 => { d.stacker.bins[k] with held := d.inputs.binOut[k] }) } }
  else d

def execPowerOnReset (s : State) : Host.Outcome State Fault Refusal := s.stepDevice powerOnReset

def execLineReset (s : State) : Host.Outcome State Fault Refusal := s.stepDevice lineReset

def execResetRelease (s : State) : Host.Outcome State Fault Refusal := s.stepDevice resetRelease

end Sys2Proof.Machine
end

