-- ==== Sys2Proof/Machine/Dispatch.lean ====
section
/-! DEFINITION. One arm for each command: its meaning. -/

namespace Sys2Proof.Machine

def exec (i : Instr) (s : State) : Host.Outcome State Fault Refusal :=
  match i with
  | .powerOnReset => Sys2Proof.Machine.execPowerOnReset s
  | .lineReset => Sys2Proof.Machine.execLineReset s
  | .encPulse => Sys2Proof.Machine.execEncPulse s
  | .scanCellLeadEdge => Sys2Proof.Machine.execScanCellLeadEdge s
  | .scanCellTrailingEdge => Sys2Proof.Machine.execScanCellTrailingEdge s
  | .stationLeadEdge st => Sys2Proof.Machine.execStationLeadEdge st s
  | .stationTrailingEdge st => Sys2Proof.Machine.execStationTrailingEdge st s
  | .deadline n => Sys2Proof.Machine.execDeadline n s
  | .windowExpiry n st => Sys2Proof.Machine.execWindowExpiry n st s
  | .jamExpiry vrow => Sys2Proof.Machine.execJamExpiry vrow s
  | .endOfCheckSpan n => Sys2Proof.Machine.execEndOfCheckSpan n s
  | .fchkAssertion line level => Sys2Proof.Machine.execFchkAssertion line level s
  | .printStart n => Sys2Proof.Machine.execPrintStart n s
  | .printColumnDue => Sys2Proof.Machine.execPrintColumnDue s
  | .printReadyDeasserted => Sys2Proof.Machine.execPrintReadyDeasserted s
  | .printReadyAsserted => Sys2Proof.Machine.execPrintReadyAsserted s
  | .classifierTake => Sys2Proof.Machine.execClassifierTake s
  | .decisionComplete n => Sys2Proof.Machine.execDecisionComplete n s
  | .buildBegin => Sys2Proof.Machine.execBuildBegin s
  | .buildComplete n => Sys2Proof.Machine.execBuildComplete n s
  | .secondPulse => Sys2Proof.Machine.execSecondPulse s
  | .deferredClose => Sys2Proof.Machine.execDeferredClose s
  | .tallyPageQueued => Sys2Proof.Machine.execTallyPageQueued s
  | .feedHeldChange level => Sys2Proof.Machine.execFeedHeldChange level s
  | .drainCompletion => Sys2Proof.Machine.execDrainCompletion s
  | .binOutSwitchAssertion k => Sys2Proof.Machine.execBinOutSwitchAssertion k s
  | .binOutSwitchRelease k => Sys2Proof.Machine.execBinOutSwitchRelease k s
  | .feedLinkWord w => Sys2Proof.Machine.execFeedLinkWord w s
  | .frameDelimiterTake => Sys2Proof.Machine.execFrameDelimiterTake s
  | .scanPart part => Sys2Proof.Machine.execScanPart part s
  | .responsePlaced => Sys2Proof.Machine.execResponsePlaced s
  | .reportWordTransmitted => Sys2Proof.Machine.execReportWordTransmitted s
  | .reportHoldChange level => Sys2Proof.Machine.execReportHoldChange level s
  | .applyPoint => Sys2Proof.Machine.execApplyPoint s
  | .gapMet => Sys2Proof.Machine.execGapMet s
  | .nop tag words => Sys2Proof.Machine.execNop tag words s
  | .readStatus tag => Sys2Proof.Machine.execReadStatus tag s
  | .enterRun tag => Sys2Proof.Machine.execEnterRun tag s
  | .drain tag => Sys2Proof.Machine.execDrain tag s
  | .halt tag => Sys2Proof.Machine.execHalt tag s
  | .resume tag => Sys2Proof.Machine.execResume tag s
  | .purgeTrack tag => Sys2Proof.Machine.execPurgeTrack tag s
  | .softReset tag => Sys2Proof.Machine.execSoftReset tag s
  | .holdFeed tag => Sys2Proof.Machine.execHoldFeed tag s
  | .releaseFeed tag => Sys2Proof.Machine.execReleaseFeed tag s
  | .selectWindow tag vtable firstRow lastRow firstField lastField orderOverrun => Sys2Proof.Machine.execSelectWindow tag vtable firstRow lastRow firstField lastField orderOverrun s
  | .writeWindow tag words => Sys2Proof.Machine.execWriteWindow tag words s
  | .writeContinue tag words => Sys2Proof.Machine.execWriteContinue tag words s
  | .readWindow tag n => Sys2Proof.Machine.execReadWindow tag n s
  | .readContinue tag n => Sys2Proof.Machine.execReadContinue tag n s
  | .compareWrite tag vtable vrow vfield expected vnew => Sys2Proof.Machine.execCompareWrite tag vtable vrow vfield expected vnew s
  | .exchangeCounter tag number upper lower => Sys2Proof.Machine.execExchangeCounter tag number upper lower s
  | .closeTally tag => Sys2Proof.Machine.execCloseTally tag s
  | .setClock tag vyear vmonth vday vhour vminute sec => Sys2Proof.Machine.execSetClock tag vyear vmonth vday vhour vminute sec s
  | .adjustClock tag seconds => Sys2Proof.Machine.execAdjustClock tag seconds s
  | .ackAttention tag => Sys2Proof.Machine.execAckAttention tag s
  | .setAttentionMask tag mask => Sys2Proof.Machine.execSetAttentionMask tag mask s
  | .clearScanLock tag => Sys2Proof.Machine.execClearScanLock tag s
  | .binOut tag bin => Sys2Proof.Machine.execBinOut tag bin s
  | .binReturn tag bin => Sys2Proof.Machine.execBinReturn tag bin s
  | .resetRelease => Sys2Proof.Machine.execResetRelease s

end Sys2Proof.Machine
end

