-- ==== Sys2Proof/Machine/Step.lean ====
section
/-! DEFINITION. One step of the part: the command at the front of the queue is taken. -/

namespace Sys2Proof.Machine

/-- The command at the front of the queue is run on the state with the queue's rest; on an empty queue the part idles
(log 4). -/
def step (s : State) : Host.Outcome State Fault Refusal :=
  match s.pending with
  | [] => .next s
  | i :: rest => exec i { s with pending := rest }

/-- The command a word of the table's bits spells, put at the front of the queue; no row gives bits, so the state is
unchanged (log 5). -/
def State.withFetchWord (s : State) (nbits w : Nat) : State :=
  match decodeTableWord nbits w with
  | some i => { s with pending := i :: s.pending }
  | none => s

end Sys2Proof.Machine
end

