-- ==== Sys2Proof/Safety.lean ====
section
/-! DEFINITION. The invariants of the part and the conditions on a state that the statements speak of. -/

namespace Sys2Proof.Machine

/-! ## Invariants -/

/-- R22, R133: the admitted line total equals the records in the Tracking Queue plus the stacked, lost, missed and
purged line totals, counting round at 2^32. -/
abbrev Device.balanced (d : Device) : Prop :=
  d.tally.totals.admitted = BitVec.ofNat 32 d.track.queue.length + d.tally.totals.stacked + d.tally.totals.lost +
    d.tally.totals.missed + d.tally.totals.purged

/-- The store of table cells is in its canonical form. -/
abbrev Device.canonical (d : Device) : Prop := storeWf d.tables = true

/-- R1, R164, R176: the capacities: 24 records, 512 words on the way in, 256 on the way out; and R143: a report is
six words. A word waits to be taken only while the Feed Input FIFO is full. -/
abbrev Device.bounded (d : Device) : Prop :=
  d.track.queue.length ≤ Config.maxRecords ∧ d.report.queue.length ≤ Config.reportWords ∧
    (∀ r ∈ d.tally.batch, r.length = 6) ∧ d.feed.fifo.length ≤ Config.fifoWords ∧
    (d.feed.presented ≠ [] → d.feed.fifo.length = Config.fifoWords)

/-- R169: an open-ended frame is open at the Command Unit. -/
def CommandState.receives : CommandState → Bool
  | .receiving _ => true
  | .free => false
  | .waiting _ _ => false

/-- R167: the frame delimiter has an open-ended frame open. -/
def Delimiter.endless : Delimiter → Bool
  | .openEnded _ _ => true
  | .noFrame => false
  | .stray => false
  | .opened _ _ _ => false
  | .complete _ _ => false
  | .excess _ _ => false
  | .discard => false

/-- R167, R169: the Command Unit is RECEIVING only while the delimiter is OPEN_ENDED. -/
abbrev Device.linked (d : Device) : Prop := d.command.receives = true → d.feed.delim.endless = true

/-- R20, R119, R188: what the part does not do in IDLE and HALTED: no facing or gate order is held and nothing is
staged. -/
abbrev Device.resting (d : Device) : Prop :=
  d.active = false →
    d.track.twist = none ∧ d.track.turn = none ∧ d.stacker.gates = Vector.replicate 16 none ∧
      d.window.groups = [] ∧ d.openGroup = []

/-- R26: the Tracking Queue is empty in IDLE. R46, R98: nothing is classified, built or printed in HALTED. -/
abbrev Device.settledModes (d : Device) : Prop :=
  (d.line.mode = .idle → d.track.queue = []) ∧
    (d.line.mode = .halted → d.classifier.busy = none ∧ d.imprint.builder = none ∧ d.imprint.printing = none)

/-- What each mode means for what the part holds (R26, R46, R98, R119, R188). -/
abbrev Device.modal (d : Device) : Prop := d.linked ∧ d.resting ∧ d.settledModes

/-- R102: the Day Clock holds a date of its calendar, a time of day and a pending adjustment in its range. -/
abbrev DayClock.legal (c : DayClock) : Prop :=
  2000 ≤ c.date.year ∧ c.date.year ≤ 2099 ∧ 1 ≤ c.date.month ∧ c.date.month ≤ 12 ∧ 1 ≤ c.date.day ∧
    c.date.day ≤ monthLength c.date.year c.date.month ∧ c.hour ≤ 23 ∧ c.minute ≤ 59 ∧ c.second ≤ 59 ∧
    ∀ a ∈ c.adjust, -3600 ≤ a ∧ a ≤ 3600

/-- R161: JAM is held unmasked. R92: the cancel sequence counter is 0..999999. R117: bin 0 is never FULL. -/
abbrev Device.held (d : Device) : Prop :=
  d.attention.mask.getLsbD 0 = false ∧ d.imprint.sequence ≤ Config.sequenceMax ∧ (d.bin 0).state ≠ .full

/-- R183: the cursor may lie at place `c` of a window: at one of its cells or, under IGNORE, at the end. -/
abbrev Window.holds (w : Window) (c : Nat) : Prop := c < w.size ∨ c = w.size ∧ w.overrun = .ignore

/-- R186: where the open frame began lies in the window. -/
def CommandState.beganIn (w : Window) : CommandState → Bool
  | .receiving f => decide (w.holds f.start)
  | .free => true
  | .waiting _ _ => true

/-- R183: the cursor lies in its window. -/
abbrev Device.cursorHeld (d : Device) : Prop :=
  ∀ w ∈ d.window.selection, w.holds w.cursor ∧ d.command.beganIn w = true

/-- R181: a cell write names a cell of a table, and one that may be written. -/
abbrev CellWrite.inTable (w : CellWrite) : Prop :=
  w.row < tableRows w.table ∧ w.field < tableFields w.table ∧ cellReadOnly w.table w.row w.field = false

/-- R182: a window lies in its table. -/
abbrev Window.inTable (w : Window) : Prop :=
  w.firstRow ≤ w.lastRow ∧ w.lastRow < tableRows w.table ∧ w.firstField ≤ w.lastField ∧
    w.lastField < tableFields w.table

/-- R188: the Pending Write Queue holds at most 256 cell writes in at most 32 groups, the open group counted, each of a
cell that may be written. R186: the open group is that of a frame that writes and has not overflowed. R182: the window
selected lies in its table. -/
abbrev Device.staging (d : Device) : Prop :=
  d.pendingCells ≤ Config.pendingCells ∧ d.pendingGroups ≤ Config.pendingGroups ∧
    (d.openGroup = [] ∨ d.openGroups = 1) ∧ (∀ g ∈ d.window.groups, ∀ w ∈ g, w.inTable) ∧
    (∀ w ∈ d.openGroup, w.inTable) ∧ ∀ w ∈ d.window.selection, w.inTable

/-- R115: the bin of a record's route. -/
def ItemRecord.routeBin (r : ItemRecord) : Option (Fin 16) := r.route.map Route.bin

/-- R115: the records in the Tracking Queue whose route is bin `k`. -/
def Device.routedTo (d : Device) (k : Fin 16) : Nat :=
  d.track.queue.countP (fun r => decide (r.routeBin = some k))

/-- R1: no two records carry one number or one tag. R115: every bin's committed count is the number of records routed to
it. R117: fill plus committed of bins 1..15 does not exceed the capacity. -/
abbrev Device.books (d : Device) : Prop :=
  (d.track.queue.map ItemRecord.number).Nodup ∧ (d.track.queue.filterMap ItemRecord.tag).Nodup ∧
    (∀ k : Fin 16, (d.bin k).committed = d.routedTo k) ∧
    ∀ k : Fin 16, k ≠ 0 → (d.bin k).fill + (d.bin k).committed ≤ d.binCapacity k

/-- R3: no record of the queue carries the number the next record takes. -/
abbrev Device.numberFree (d : Device) : Prop := ∀ r ∈ d.track.queue, r.number ≠ d.track.admission

/-! ## The outcome of a command -/

/-- The outcome in which the device has become `d` and the queue of commands is as it was. -/
abbrev State.after (s : State) (d : Device) : Host.Outcome State Fault Refusal := .next { s with dev := d }

/-- The device with the level of one cell changed, as every cell edge changes it. -/
abbrev Device.cellLevel (d : Device) (row : Fin 21) (level : Bool) : Device :=
  { d with inputs := { d.inputs with blocked := upd d.inputs.blocked row level } }

/-- R18: where the jam timing of a cell that starts now comes to its expiry; none for a jam span of 0. -/
abbrev Device.jamFrom (d : Device) (row : Fin 21) : Option Pos :=
  if d.jamSpan row.val = 0 then none else some (d.track.encoder + counts (d.jamSpan row.val) + 1)

/-- R15: a lead edge at the station that is matched: RUN or DRAIN, RESET released, the cell watched. -/
abbrev Device.matching (d : Device) (st : Station) : Prop :=
  d.inputs.resetLine = false ∧ d.active = true ∧ d.watched st = true

/-- R15: the station's first expected record, and the encoder within its window. -/
abbrev Device.sees (d : Device) (st : Station) (r : ItemRecord) : Prop :=
  d.matching st ∧ d.firstDue st = some r ∧
    atOrAfter d.track.encoder (d.expected r st - counts (d.halfWidth (stationRow st).val)) = true ∧
    atOrAfter (d.expected r st + counts (d.halfWidth (stationRow st).val)) d.track.encoder = true

/-- R15: the records after record `n` is SEEN at a station at position `p`, with what the station writes there. -/
abbrev seenNow (st : Station) (p : Pos) (n : RecNo) (f : ItemRecord → ItemRecord) (q : List ItemRecord) :
    List ItemRecord :=
  q.map (fun r => if r.number = n then f { r with seen := { station := st, pos := p } :: r.seen } else r)

/-- R15, fourth case: from `d` to `d'` the records of the list, each in its turn the first the station expects and its
window closed behind it, are removed LOST and latched. -/
def lostInTurn (st : Station) : List ItemRecord → Device → Device → Prop
  | [], d, d' => d' = d
  | r :: rest, d, d' =>
    d.firstDue st = some r ∧
      atOrAfter d.track.encoder (d.expected r st - counts (d.halfWidth (stationRow st).val)) = true ∧
      atOrAfter (d.expected r st + counts (d.halfWidth (stationRow st).val)) d.track.encoder = false ∧
      lostInTurn st rest
        (occur (removeRecord d r.number .lost) (.lost r.number (stationRow st).val (d.expected r st))) d'

/-! ## Writes taken by the tables -/

/-- The last value the writes of the list give to a cell, as the cell holds it, or what it held. -/
abbrev lastWritten (ws : List CellWrite) (t r f : Nat) (hold : Word → Word) (old : Word) : Word :=
  ws.foldl (fun v w => if w.table = t ∧ w.row = r ∧ w.field = f then hold w.value else v) old

/-- R117: the state of a bin that is neither OUT_PENDING nor OUT, from its configuration and its counts. -/
abbrev Device.settledSpelled (d : Device) (k : Fin 16) (fill committed : Nat) : BinState :=
  if d.num 6 k.val 0 = 0 then .disabled
  else if k = 0 then .active
  else if fill + committed < d.num 6 k.val 1 then .active
  else .full

/-- R100, R122, R123, R160: the conditions of `d` reported as the part `x` stands. -/
abbrev AttentionUnit.reported (a : AttentionUnit) (x : Device) : AttentionUnit :=
  { a with
    rejectFull := a.rejectFull.on x.rejectFullActive
    binFull := a.binFull.on x.binFullActive
    printFault := a.printFault.on x.printFaultActive }

/-- R144, R145: the batch buffer of `d` is offered and fits. -/
abbrev Device.batchFits (d : Device) : Bool :=
  !d.responseWaiting && decide (d.tally.page = none ∧ 1 + 6 * d.tally.batch.length ≤ d.reportRoom)

/-- From `d` to `d'` the tables have taken the writes `ws` in order (R185, R193): every cell holds the last value
written to it, a capacity clamped (R118), within its field (log 17); a written bin has settled (R117), and after a Settings
write, as the tables then stand, a scan-suspect threshold of 0 holds the counter at 0 (R42), the batch is offered as R144
has it and the gap is met where the distance allows (R191); the conditions are reported; nothing else has changed but the
count of GAP pulses. -/
structure Device.TakesWrites (d : Device) (ws : List CellWrite) (d' : Device) : Prop where
  cells : ∀ t r f : Nat, r < 512 → f < 32 → ¬ (t = 6 ∧ f = 1) → d'.cell t r f = lastWritten ws t r f id (d.cell t r f)
  capacities : ∀ k : Fin 16, d'.cell 6 k.val 1 = lastWritten ws 6 k.val 1
    (fun v => word (min 65535 (max v.toNat ((d.bin k).fill + (d.bin k).committed)))) (d.cell 6 k.val 1)
  bins : ∀ k : Fin 16, d'.bin k =
    { d.bin k with
      state :=
        if (d.bin k).state = .outPending ∨ (d.bin k).state = .out ∨
            ws.any (fun w => decide (w.table = 6 ∧ w.row = k.val ∧ w.field < 2)) = false then (d.bin k).state
        else d'.settledSpelled k (d.bin k).fill (d.bin k).committed }
  gates : d'.stacker.gates = d.stacker.gates
  classifier : d'.classifier =
    { d.classifier with
      suspect :=
        if ws.any (fun w => decide (w.table = 0)) = true ∧ d'.num 0 0 2 = 0 then 0 else d.classifier.suspect }
  offer : ∀ offered : Bool, offered = (ws.any (fun w => decide (w.table = 0)) && decide (d.tally.batch ≠ []) &&
      decide (d'.num 0 0 0 = 0 ∨ max 1 (min 8 (d'.num 0 0 1)) ≤ d.tally.batch.length)) →
    d'.tally.batch = (if offered then [] else d.tally.batch) ∧
    d'.report =
      { d.report with
        queue := d.report.queue ++
          (if offered && d.batchFits then linkFrame (headWord 0x81 d.tally.batch.length :: d.tally.batch.flatten)
          else []) } ∧
    ∀ i : Fin 56, d'.tally.counters[i] = d.tally.counters[i] +
      if i.val = 54 ∧ offered = true ∧ d.batchFits = false then BitVec.ofNat 32 d.tally.batch.length else 0
  tally : d'.tally = { d.tally with counters := d'.tally.counters, batch := d'.tally.batch }
  window : d'.window =
    { d.window with
      gap := match d.window.gap with
        | .opened p =>
          if ws.any (fun w => decide (w.table = 0)) = true ∧ d.active = true ∧
            d'.num 0 0 7 ≤ (d.track.encoder - p).toNat then .met
          else .opened p
        | .closed => .closed
        | .met => .met }
  attention : d'.attention = d.attention.reported d'
  line : d'.line = { d.line with gapPulses := d'.line.gapPulses }
  others : d'.inputs = d.inputs ∧ d'.track = d.track ∧ d'.imprint = d.imprint ∧ d'.clock = d.clock ∧ d'.feed = d.feed ∧
    d'.command = d.command

/-- R185: from `d` to `d'` the writes of the list are taken by the tables one after the other, each at once. -/
def takesInTurn : List CellWrite → Device → Device → Prop
  | [], d, d' => d' = d
  | w :: rest, d, d' => ∃ m, d.TakesWrites [w] m ∧ takesInTurn rest m d'

/-! ## The route point -/

/-- R111 to R115: from `d` to `d'` the record's route point is taken, the record being `r` in `d'` and its route
before it `old`: a record routed already, or with no Route Table row, is left; otherwise its route is the bin chosen
from its row's primary bin (R114), whose committed count rises and which settles again (R117). A record with no
disposition has no row (log 25). -/
abbrev Device.takesRoutePoint (d d' : Device) (old : Option Route) (r : ItemRecord) : Prop :=
  (old ≠ none → r.route = old) ∧
  (old = none → routeRow r = none → r.route = none) ∧
  (∀ row, old = none → routeRow r = some row → r.route = d.chooseBin (Fin.ofNat 16 (d.num 5 row 0))) ∧
  (r.route = old → d'.stacker = d.stacker) ∧
  (∀ t, old = none → r.route = some t → d'.stacker =
    { d.stacker with
      bins := upd d.stacker.bins t.bin
        { d.bin t.bin with
          committed := (d.bin t.bin).committed + 1
          state := d.settledSpelled t.bin (d.bin t.bin).fill ((d.bin t.bin).committed + 1) } })

/-! ## When a command frame is taken and answered at once -/

/-- R27, R166, R169: the frame a row of the table stands for: its kind, its qualifier and its body words. -/
def rowFrame : Instr → Option (FrameKind × BitVec 8 × List Word)
  | .scanPart p => some (.scan p.side, partCount p, scanPartWords p)
  | .nop tag ws => some (.command .nop, tag, ws)
  | .readStatus tag => some (.command .readStatus, tag, [])
  | .enterRun tag => some (.command .enterRun, tag, [])
  | .drain tag => some (.command .drain, tag, [])
  | .halt tag => some (.command .halt, tag, [])
  | .resume tag => some (.command .resume, tag, [])
  | .purgeTrack tag => some (.command .purgeTrack, tag, [])
  | .softReset tag => some (.command .softReset, tag, [])
  | .holdFeed tag => some (.command .holdFeed, tag, [])
  | .releaseFeed tag => some (.command .releaseFeed, tag, [])
  | .selectWindow tag t r1 r2 f1 f2 x => some (.command .selectWindow, tag, [t, r1, r2, f1, f2, x])
  | .writeWindow tag ws => some (.command .writeWindow, tag, ws)
  | .writeContinue tag ws => some (.command .writeContinue, tag, ws)
  | .readWindow tag n => some (.command .readWindow, tag, [n])
  | .readContinue tag n => some (.command .readContinue, tag, [n])
  | .compareWrite tag t r f e v => some (.command .compareWrite, tag, [t, r, f, e, v])
  | .exchangeCounter tag n u l => some (.command .exchangeCounter, tag, [n, u, l])
  | .closeTally tag => some (.command .closeTally, tag, [])
  | .setClock tag y mo da h mi s => some (.command .setClock, tag, [y, mo, da, h, mi, s])
  | .adjustClock tag v => some (.command .adjustClock, tag, [v])
  | .ackAttention tag => some (.command .ackAttention, tag, [])
  | .setAttentionMask tag m => some (.command .setAttentionMask, tag, [m])
  | .clearScanLock tag => some (.command .clearScanLock, tag, [])
  | .binOut tag k => some (.command .binOut, tag, [k])
  | .binReturn tag k => some (.command .binReturn, tag, [k])
  | _ => none

/-- R167: no frame is open at the delimiter. -/
def Delimiter.settled : Delimiter → Bool
  | .noFrame => true
  | .stray => true
  | .complete _ _ => true
  | .excess _ _ => true
  | .discard => true
  | .opened _ _ _ => false
  | .openEnded _ _ => false

/-- RESET is released, the Command Unit is FREE and no frame is open: a word of the link is taken. -/
abbrev Device.listening (d : Device) : Prop :=
  d.inputs.resetLine = false ∧ d.command = .free ∧ d.feed.delim.settled = true

/-- The part is listening and no word of the link is before a frame that comes now: it is taken as it comes. -/
abbrev Device.ready (d : Device) : Prop := d.listening ∧ d.feed.fifo = [] ∧ d.feed.presented = []

/-- The part is ready, no page and no deferred close waits, and the Report Queue has room for `n` words. -/
abbrev Device.clear (d : Device) (n : Nat) : Prop :=
  d.ready ∧ d.tally.page = none ∧ d.tally.deferred = none ∧ n ≤ d.reportRoom

/-- R103, R105: with Clock Valid and auto close on and RESET released, a SECOND pulse taken now rolls over and requests a
close. -/
abbrev Device.rollsOver (d : Device) : Prop :=
  d.inputs.resetLine = false ∧ d.clock.valid = true ∧ d.num 0 0 4 ≠ 0 ∧
    (86400 : Int) ≤ d.clock.hour * 3600 + d.clock.minute * 60 + d.clock.second + 1 + d.clock.adjust.getD 0

/-- R168: the excess word count after it has gone into a response, and the delimiter after the frame. -/
def Device.taken (d : Device) (kind : CommandKind) (tag : BitVec 8) : Device :=
  { d with feed := { d.feed with delim := .complete (.command kind) tag, excess := 0 } }

/-- R171, R177: the part `d`, in which a command's effect is made, with the command's frame taken and its response
placed at the tail of the Report Queue. -/
def Device.answered (d : Device) (kind : CommandKind) (tag : BitVec 8) (a : Answer) : Device :=
  (d.taken kind tag).enqueue (linkFrame (responseWords kind tag d.feed.excess a))

/-! ## The Feed Link word by word -/

/-- R168, R34, R35: a link error counted, and LINK_ERROR latched with it as its detail. -/
abbrev Device.erred (d : Device) (e : LinkError) : Device :=
  { d with
    tally := { d.tally with counters := upd d.tally.counters 55 (d.tally.counters[(55 : Fin 56)] + 1) }
    attention := { d.attention with linkError := some (latchOn d.attention.linkError (.linkError e)) } }

/-- R167: the delimiter COMPLETE for a scan part that has been handed on. -/
abbrev Device.received (d : Device) (p : ScanPart) : Device :=
  { d with feed := { d.feed with delim := .complete (.scan p.side) (partCount p) } }

/-- R164, R165: the FIFO down to `rest`, LINK-BUSY released where that brought it to 448 words. -/
abbrev Device.shrunk (d : Device) (rest : List LinkWord) : Device :=
  { d with feed := { d.feed with
      fifo := rest
      busy := d.feed.busy && !(decide (rest.length ≤ 448) && decide (448 < d.feed.fifo.length)) } }

/-- Commands run one after the other; every command answers a next state. -/
def State.run (s : State) : List Instr → State
  | [] => s
  | c :: rest =>
    match exec c s with
    | .next t => t.run rest
    | .fault _ => s
    | .refused _ => s

/-- R169, R170: the row of the table that stands for a complete fixed frame with this body. -/
def frameRow : FrameKind → BitVec 8 → List Word → Option Instr
  | .scan side, _, body => some (.scanPart (scanPartOf side body))
  | .command .readStatus, tag, [] => some (.readStatus tag)
  | .command .enterRun, tag, [] => some (.enterRun tag)
  | .command .drain, tag, [] => some (.drain tag)
  | .command .halt, tag, [] => some (.halt tag)
  | .command .resume, tag, [] => some (.resume tag)
  | .command .purgeTrack, tag, [] => some (.purgeTrack tag)
  | .command .softReset, tag, [] => some (.softReset tag)
  | .command .holdFeed, tag, [] => some (.holdFeed tag)
  | .command .releaseFeed, tag, [] => some (.releaseFeed tag)
  | .command .closeTally, tag, [] => some (.closeTally tag)
  | .command .ackAttention, tag, [] => some (.ackAttention tag)
  | .command .clearScanLock, tag, [] => some (.clearScanLock tag)
  | .command .selectWindow, tag, [t, r1, r2, f1, f2, x] => some (.selectWindow tag t r1 r2 f1 f2 x)
  | .command .readWindow, tag, [n] => some (.readWindow tag n)
  | .command .readContinue, tag, [n] => some (.readContinue tag n)
  | .command .compareWrite, tag, [t, r, f, e, v] => some (.compareWrite tag t r f e v)
  | .command .exchangeCounter, tag, [n, u, l] => some (.exchangeCounter tag n u l)
  | .command .setClock, tag, [y, mo, da, h, mi, s] => some (.setClock tag y mo da h mi s)
  | .command .adjustClock, tag, [v] => some (.adjustClock tag v)
  | .command .setAttentionMask, tag, [m] => some (.setAttentionMask tag m)
  | .command .binOut, tag, [k] => some (.binOut tag k)
  | .command .binReturn, tag, [k] => some (.binReturn tag k)
  | _, _, _ => none

end Sys2Proof.Machine
end

