-- ==== Sys2Proof/Certificates/Slice0/Obligations.lean ====
section
/-! DEFINITION. The statements for the provers. A statement about a command says what `exec` answers for it; a frame is
said by equating the whole state, or by naming what is unchanged. -/

open Sys2Proof Sys2Proof.Machine

/-! ## The step, the invariants and the resets -/

/-- A step runs the command at the front of the queue on the state with the queue's rest; an empty queue idles (log 4:
the model's own choice). -/
def Obligations.StepRunsTheFrontCommand : Prop :=
  (∀ (c : Instr) (rest : List Instr) (d : Device),
    step { pending := c :: rest, dev := d } = exec c { pending := rest, dev := d }) ∧
  (∀ d : Device, step { pending := [], dev := d } = .next { pending := [], dev := d })

/-- Every command answers a next state and leaves the queue of commands alone. -/
def Obligations.EveryCommandAnswersANextState : Prop :=
  ∀ (c : Instr) (s : State), ∃ d, exec c s = s.after d

/-- The invariants hold after a power-on reset with the input lines at any levels, and at `State.reset`. -/
def Obligations.InvariantsHoldAtReset : Prop :=
  (∀ inp : Inputs, (Device.reset inp).balanced ∧ (Device.reset inp).canonical ∧ (Device.reset inp).bounded ∧
    (Device.reset inp).modal ∧ (Device.reset inp).cursorHeld ∧ (Device.reset inp).clock.legal ∧
    (Device.reset inp).held ∧ (Device.reset inp).staging ∧ (Device.reset inp).books ∧ (Device.reset inp).numberFree) ∧
  State.reset.dev = Device.reset .reset ∧ State.reset.pending = []

/-- R22, R133. -/
def Obligations.EveryStepKeepsTheBalance : Prop :=
  ∀ s s' : State, s.dev.balanced → step s = .next s' → s'.dev.balanced

/-- The store of table cells stays in its canonical form. -/
def Obligations.EveryStepKeepsTheTableStoreCanonical : Prop :=
  ∀ s s' : State, s.dev.canonical → step s = .next s' → s'.dev.canonical

/-- R1, R143, R164, R176. -/
def Obligations.EveryStepKeepsTheCapacities : Prop :=
  ∀ s s' : State, s.dev.bounded → step s = .next s' → s'.dev.bounded

/-- R20, R26, R46, R98, R119, R169, R188, R194. -/
def Obligations.EveryStepKeepsTheModeInvariant : Prop :=
  ∀ s s' : State, s.dev.modal → step s = .next s' → s'.dev.modal

/-- R183: in a part whose modes hold what they may, the cursor stays in its window. -/
def Obligations.EveryStepKeepsTheCursorInItsWindow : Prop :=
  ∀ s s' : State, s.dev.modal ∧ s.dev.cursorHeld → step s = .next s' → s'.dev.modal ∧ s'.dev.cursorHeld

/-- R102: the Day Clock holds a date of its calendar, a time of day and an adjustment in its range. R92, R117, R161: the
cancel sequence counter in its range, bin 0 never FULL, JAM unmasked. -/
def Obligations.EveryStepKeepsTheClockLegalAndTheHeldRanges : Prop :=
  (∀ s s' : State, s.dev.clock.legal → step s = .next s' → s'.dev.clock.legal) ∧
  (∀ s s' : State, s.dev.held → step s = .next s' → s'.dev.held)

/-- POWER_ON_RESET: the values of R26, R101, R102, R130, R146, R147, R158, R180, R182, R188, R191, R196; the input
lines keep their levels (log 6), and the counts of pulses and what was last put on the lines begin anew (log 8). -/
def Obligations.PowerOnResetValues : Prop :=
  ∀ s : State, ∃ d, exec .powerOnReset s = s.after d ∧ d.inputs = s.dev.inputs ∧
    d.line.mode = .idle ∧ d.line.holdFeed = false ∧ d.line.scanLock = false ∧
    d.track.queue = [] ∧ d.track.admission = 0 ∧ d.track.encoder = 0 ∧
    (∀ k : Fin 16, d.track.inService[k] = false) ∧
    (∀ row : Fin 21, d.track.occupants[row] = .nobody ∧ d.track.jam[row] = none) ∧
    d.twistLine = false ∧ d.turnLine = false ∧ (∀ k : Fin 16, d.gateLine k = false) ∧
    (∀ t r f : Nat, r < 512 → f < 32 → d.cell t r f =
      if t = 0 ∧ r = 0 ∧ f = 1 then 1 else if t = 0 ∧ r = 0 ∧ f = 6 then 48
      else if t = 0 ∧ r = 0 ∧ f = 7 then 64 else 0) ∧
    d.classifier = { busy := none, suspect := 0 } ∧
    d.imprint.builder = none ∧ d.imprint.ring = [] ∧ d.imprint.alloc = 0 ∧ d.imprint.sequence = 0 ∧
    d.imprint.printFault = false ∧ d.imprint.printing = none ∧ d.imprint.printCol = 0 ∧
    d.imprint.printStrobes = 0 ∧ d.imprint.strobed = none ∧ d.line.gapPulses = 0 ∧ d.report.strobes = 0 ∧
    d.report.sent = none ∧ d.report.begun = false ∧
    d.clock = { date := { year := 2000, month := 1, day := 1 }, hour := 0, minute := 0, second := 0, valid := false,
                adjust := none, clamped := false } ∧
    (∀ k : Fin 16, d.bin k = { fill := 0, committed := 0, state := .disabled, held := s.dev.inputs.binOut[k] }) ∧
    (∀ i : Fin 56, d.tally.counters[i] = 0) ∧
    d.tally.totals = { admitted := 0, stacked := 0, lost := 0, missed := 0, purged := 0, untracked := 0 } ∧
    d.tally.period = 0 ∧ d.tally.page = none ∧ d.tally.deferred = none ∧ d.tally.batch = [] ∧
    d.feed.fifo = [] ∧ d.feed.busy = false ∧ d.feed.delim = .noFrame ∧ d.feed.excess = 0 ∧ d.command = .free ∧
    d.window = { selection := none, groups := [], gap := .closed } ∧ d.report.queue = [] ∧
    (∀ c : Cause, d.attention.latch c = none ∧ d.attention.condition c = .inactive) ∧ d.attention.mask = 0

/-- LINE_RESET: RESET is asserted; the artwork stores (tables 9 to 12), the date, the time and Clock Valid are kept,
everything else is as after a power-on reset; the other input lines keep their levels (log 6), and the counts of
pulses and what was last put on the lines stay (log 8). RESET_RELEASE (R127): the switch held fields take the levels
of their lines, nothing else changes; without RESET asserted the command changes nothing (log 1). -/
def Obligations.LineResetAndItsRelease : Prop :=
  (∀ s : State, ∃ d, exec .lineReset s = s.after d ∧ d.inputs = { s.dev.inputs with resetLine := true } ∧
     d.line.mode = .idle ∧ d.line.holdFeed = false ∧ d.line.scanLock = false ∧
     d.track.queue = [] ∧ d.track.admission = 0 ∧ d.track.encoder = 0 ∧
     (∀ k : Fin 16, d.track.inService[k] = false) ∧
     (∀ row : Fin 21, d.track.occupants[row] = .nobody ∧ d.track.jam[row] = none) ∧
     d.twistLine = false ∧ d.turnLine = false ∧ (∀ k : Fin 16, d.gateLine k = false) ∧
     (∀ t r f : Nat, r < 512 → f < 32 → d.cell t r f =
       if 9 ≤ t then s.dev.cell t r f else if t = 0 ∧ r = 0 ∧ f = 1 then 1 else if t = 0 ∧ r = 0 ∧ f = 6 then 48
       else if t = 0 ∧ r = 0 ∧ f = 7 then 64 else 0) ∧
     d.classifier = { busy := none, suspect := 0 } ∧
     d.imprint.builder = none ∧ d.imprint.ring = [] ∧ d.imprint.alloc = 0 ∧ d.imprint.sequence = 0 ∧
     d.imprint.printFault = false ∧ d.imprint.printing = none ∧ d.imprint.printCol = 0 ∧
     d.imprint.printStrobes = s.dev.imprint.printStrobes ∧ d.imprint.strobed = s.dev.imprint.strobed ∧
     d.line.gapPulses = s.dev.line.gapPulses ∧ d.report.strobes = s.dev.report.strobes ∧
     d.report.sent = s.dev.report.sent ∧ d.report.begun = false ∧
     d.clock = { s.dev.clock with adjust := none, clamped := false } ∧
     (∀ k : Fin 16, d.bin k = { fill := 0, committed := 0, state := .disabled, held := s.dev.inputs.binOut[k] }) ∧
     (∀ i : Fin 56, d.tally.counters[i] = 0) ∧
     d.tally.totals = { admitted := 0, stacked := 0, lost := 0, missed := 0, purged := 0, untracked := 0 } ∧
     d.tally.period = 0 ∧ d.tally.page = none ∧ d.tally.deferred = none ∧ d.tally.batch = [] ∧
     d.feed.fifo = [] ∧ d.feed.busy = false ∧ d.feed.delim = .noFrame ∧ d.feed.excess = 0 ∧ d.command = .free ∧
     d.window = { selection := none, groups := [], gap := .closed } ∧ d.report.queue = [] ∧
     (∀ c : Cause, d.attention.latch c = none ∧ d.attention.condition c = .inactive) ∧ d.attention.mask = 0) ∧
  (∀ s : State,
     (s.dev.inputs.resetLine = true → ∃ d, exec .resetRelease s = s.after d ∧
       d = { s.dev with inputs := { s.dev.inputs with resetLine := false }
                        stacker := { s.dev.stacker with bins := d.stacker.bins } } ∧
       ∀ k : Fin 16, d.bin k = { s.dev.bin k with held := s.dev.inputs.binOut[k] }) ∧
     (s.dev.inputs.resetLine = false → exec .resetRelease s = s.after s.dev))

/-- ENC_PULSE (R9, R10): the encoder advances by one in every mode. The rows of the events that the present position may
still have due are run first, in the order of log 2 (the model's choice); in IDLE and HALTED none is due. With none of
them due nothing but the encoder changes. -/
def Obligations.EncPulseAdvancesTheEncoder : Prop :=
  ∀ s : State,
    let numbers := s.dev.track.queue.map ItemRecord.number
    let stations : List Station := [.twist, .turn, .cancel, .exit] ++ (List.finRange 16).map Station.gate
    let rows : List Instr := [.printColumnDue] ++
      numbers.flatMap (fun n => [.endOfCheckSpan n, .printStart n]) ++ [.printColumnDue] ++
      numbers.map .deadline ++ numbers.flatMap (fun n => stations.map (.windowExpiry n)) ++
      [.gapMet, .applyPoint, .classifierTake, .buildBegin] ++ (List.finRange 21).map .jamExpiry
    let due := (s.run rows).dev
    exec .encPulse s = s.after { due with track := { due.track with encoder := due.track.encoder + 1 } } ∧
    ((∀ c ∈ rows, exec c s = s.after s.dev) → exec .encPulse s =
      s.after { s.dev with track := { s.dev.track with encoder := s.dev.track.encoder + 1 } }) ∧
    (∃ d, exec .encPulse s = s.after d ∧ d.track.encoder = s.dev.track.encoder + 1) ∧
    (s.dev.active = false → exec .encPulse s =
      s.after { s.dev with track := { s.dev.track with encoder := s.dev.track.encoder + 1 } })

/-! ## The cells and the records -/

/-- SCAN_CELL_LEAD_EDGE: admission (R4), an untracked letter (R5), and HALTED. While RESET is asserted the edge is not
taken (log 10). R2: what a record holds at its admission. -/
def Obligations.ScanLeadEdge : Prop :=
  (∀ s : State, let d := s.dev; let e := d.cellLevel 0 true
    (d.inputs.resetLine = false → d.active = true → d.track.queue.length < 24 → exec .scanCellLeadEdge s = s.after
      { e with
        track := { d.track with
          queue := d.track.queue ++ [newRecord d.track.admission d.track.encoder]
          admission := d.track.admission + 1
          occupants := upd d.track.occupants 0 (.record d.track.admission)
          jam := upd d.track.jam 0 (d.jamFrom 0) }
        window := { d.window with gap := .closed }
        tally := { d.tally with
          counters := upd d.tally.counters 42 (d.tally.counters[(42 : Fin 56)] + 1)
          totals := { d.tally.totals with admitted := d.tally.totals.admitted + 1 } } }) ∧
    (d.inputs.resetLine = false → d.active = true → ¬ d.track.queue.length < 24 → exec .scanCellLeadEdge s = s.after
      { e with
        track := { d.track with
          occupants := upd d.track.occupants 0 .untracked
          jam := upd d.track.jam 0 (d.jamFrom 0) }
        window := { d.window with gap := .closed }
        tally := { d.tally with
          counters := upd d.tally.counters 43 (d.tally.counters[(43 : Fin 56)] + 1)
          totals := { d.tally.totals with untracked := d.tally.totals.untracked + 1 } }
        attention := { d.attention with
          queueFull := some (latchOn d.attention.queueFull (.queueFull d.track.encoder)) } }) ∧
    (d.inputs.resetLine = false → d.line.mode = .idle → exec .scanCellLeadEdge s = s.after
      { e with
        track := { d.track with occupants := upd d.track.occupants 0 .untracked }
        tally := { d.tally with
          counters := upd d.tally.counters 43 (d.tally.counters[(43 : Fin 56)] + 1)
          totals := { d.tally.totals with untracked := d.tally.totals.untracked + 1 } } }) ∧
    (d.inputs.resetLine = true ∨ d.line.mode = .halted → exec .scanCellLeadEdge s = s.after e)) ∧
  (∀ (n : RecNo) (lead : Pos), newRecord n lead =
    { number := n, lead := lead, state := .awaitScan, tag := none, length := none, gotA := false, gotB := false
      scanFault := false, geometry := none, obsA := [], obsB := [], disposition := none, positionCode := none
      chosen := none, totalValue := none, requiredValue := none, classGroup := none, plan := none, cancel := none
      imprint := .none, sequence := none, buildDate := none, faceCheck := none, seen := [], route := none
      gateSeen := false, checkEnd := none, openCheck := none, printStart := none, clip := none })

/-- SCAN_CELL_TRAILING_EDGE (R6, R191): a record that occupies the cell gets its length; whoever occupies it, the cell
is left to nobody and its jam timing ends (R18). A gap of distance 0 is met at once, and the apply point is then tested
(R192). While RESET is asserted the edge is not taken (log 10). -/
def Obligations.ScanTrailingEdge : Prop :=
  ∀ s : State, let d := s.dev; let e := d.cellLevel 0 false
    (d.inputs.resetLine = false → d.active = true →
      let x : Device := { e with
        track := { d.track with
          queue := d.track.queue.map (fun r =>
            if d.track.occupants[(0 : Fin 21)] = .record r.number then
              { r with length := some (d.track.encoder - r.lead) }
            else r)
          occupants := upd d.track.occupants 0 .nobody
          jam := upd d.track.jam 0 none }
        window := { d.window with gap := if d.gapDistance = 0 then .met else .opened d.track.encoder } }
      exec .scanCellTrailingEdge s = s.after (if d.gapDistance = 0 then applyPoint x else x)) ∧
    (d.inputs.resetLine = false → d.line.mode = .idle → exec .scanCellTrailingEdge s = s.after
      { e with
        track := { d.track with
          occupants := upd d.track.occupants 0 .nobody
          jam := upd d.track.jam 0 none } }) ∧
    (d.inputs.resetLine = true ∨ d.line.mode = .halted → exec .scanCellTrailingEdge s = s.after e) ∧
    (∀ n p, (newRecord n p).length = none)

/-- STATION_LEAD_EDGE, STATION_TRAILING_EDGE: a STRAY edge (R15), and edges that are ignored (R14, R15; while RESET is
asserted, log 10). R15, fourth case: the records whose windows have closed are lost in turn and the edge is then a STRAY
or a SEEN of the first record expected after them; what their removal calls for is tested at the end (log 3, log 29).
R13: a record is due at TWIST, TURN and CANCEL until SEEN there; at EXIT until SEEN at its routed gate; at a gate in
service until SEEN there, while it has no route, or while its routed gate lies no nearer, is in service and has not seen
it. That a record whose routed gate is not in service is due at no gate at all is the model's reading (log 30). The
first record due, in queue order, is the one expected, at its lead position plus the station's offset. R14: the cell of
a gate out of service is not watched; every other one is. R9: one position is at or after another where their difference
modulo 2^24 is below 2^23. -/
def Obligations.StationEdgesStrayOrIgnored : Prop :=
  (∀ x y : Pos, atOrAfter x y = decide ((x - y).toNat < 2 ^ 23)) ∧
  ∀ (st : Station) (s : State), let d := s.dev; let row := stationRow st
    (d.matching st →
      (∀ r, d.firstDue st = some r →
        atOrAfter d.track.encoder (d.expected r st - counts (d.halfWidth row.val)) = false) →
      exec (.stationLeadEdge st) s = s.after
        { d.cellLevel row true with
          track := { d.track with
            occupants := upd d.track.occupants row .stray
            jam := upd d.track.jam row (d.jamFrom row) }
          tally := { d.tally with counters := upd d.tally.counters 47 (d.tally.counters[(47 : Fin 56)] + 1) }
          attention := { d.attention with
            stray := some (latchOn d.attention.stray (.stray row.val d.track.encoder)) } }) ∧
    (¬ d.matching st → exec (.stationLeadEdge st) s = s.after (d.cellLevel row true)) ∧
    (¬ d.matching st → exec (.stationTrailingEdge st) s = s.after (d.cellLevel row false)) ∧
    (∀ (lost : List ItemRecord) (y : Device), d.matching st →
      lostInTurn st lost
        { d.cellLevel row true with track := { d.track with jam := upd d.track.jam row (d.jamFrom row) } } y →
      ((∀ r, y.firstDue st = some r →
          atOrAfter d.track.encoder (y.expected r st - counts (y.halfWidth row.val)) = false) →
        exec (.stationLeadEdge st) s = s.after (afterRemovals d
          { y with
            track := { y.track with occupants := upd y.track.occupants row .stray }
            tally := { y.tally with counters := upd y.tally.counters 47 (y.tally.counters[(47 : Fin 56)] + 1) }
            attention := { y.attention with
              stray := some (latchOn y.attention.stray (.stray row.val d.track.encoder)) } })) ∧
      (∀ r, y.firstDue st = some r →
        atOrAfter d.track.encoder (y.expected r st - counts (y.halfWidth row.val)) = true →
        atOrAfter (y.expected r st + counts (y.halfWidth row.val)) d.track.encoder = true →
        exec (.stationLeadEdge st) s = s.after (afterRemovals d (seeRecord y st r)))) ∧
    (d.watched st = true ↔ ∀ k : Fin 16, st = .gate k → d.track.inService[k] = true) ∧
    d.halfWidth row.val = max 4 (d.num 7 row.val 1) ∧
    (∀ r : ItemRecord,
      let seen (x : Station) : Prop := ∃ e ∈ r.seen, e.station = x
      d.expected r st = r.lead + counts (d.num 7 row.val 0) ∧
      (st = .twist ∨ st = .turn ∨ st = .cancel → (d.due r st = true ↔ ¬ seen st)) ∧
      (st = .exit → (d.due r st = true ↔ r.gateSeen = false)) ∧
      (∀ k : Fin 16, st = .gate k → (d.due r st = true ↔ d.track.inService[k] = true ∧ ¬ seen st ∧
        ∀ t, r.route = some t → d.num 7 (5 + k.val) 0 ≤ d.num 7 (5 + t.bin.val) 0 ∧ ¬ seen (.gate t.bin) ∧
          d.track.inService[t.bin] = true)) ∧
      (d.firstDue st = some r ↔ ∃ before after, d.track.queue = before ++ r :: after ∧ d.due r st = true ∧
        ∀ q ∈ before, d.due q st = false))

/-- STATION_LEAD_EDGE at TWIST and TURN (R15, R19): the record is SEEN and becomes the occupant; a DECIDED record whose
plan asks for the action takes the line's order. At a gate and at EXIT (R15, R23, R119): at its routed gate the record
takes the gate's order; at another gate it is only SEEN; at EXIT it is removed MISSED and MISSED latched. -/
def Obligations.FacingGateAndExitSeen : Prop :=
  (∀ (s : State) (r : ItemRecord), let d := s.dev
     (d.sees .twist r → exec (.stationLeadEdge .twist) s = s.after
       { d.cellLevel 1 true with
         track := { d.track with
           queue := seenNow .twist d.track.encoder r.number id d.track.queue
           occupants := upd d.track.occupants 1 (.record r.number)
           jam := upd d.track.jam 1 (d.jamFrom 1)
           twist := if r.state = .decided ∧ r.plan.any FacingPlan.twist then some r.number else d.track.twist } }) ∧
     (d.sees .turn r → exec (.stationLeadEdge .turn) s = s.after
       { d.cellLevel 2 true with
         track := { d.track with
           queue := seenNow .turn d.track.encoder r.number id d.track.queue
           occupants := upd d.track.occupants 2 (.record r.number)
           jam := upd d.track.jam 2 (d.jamFrom 2)
           turn := if r.state = .decided ∧ r.plan.any FacingPlan.turn then some r.number else d.track.turn } })) ∧
  (∀ (s : State) (r : ItemRecord) (k : Fin 16), let d := s.dev; let row := stationRow (.gate k)
     let x := { d.cellLevel 4 true with
       track := { d.track with
         queue := seenNow .exit d.track.encoder r.number id d.track.queue
         occupants := upd d.track.occupants 4 (.record r.number)
         jam := upd d.track.jam 4 (d.jamFrom 4) } }
     (d.sees (.gate k) r → r.route.map Route.bin = some k → exec (.stationLeadEdge (.gate k)) s = s.after
       { d.cellLevel row true with
         track := { d.track with
           queue := seenNow (.gate k) d.track.encoder r.number (fun q => { q with gateSeen := true }) d.track.queue
           occupants := upd d.track.occupants row (.record r.number)
           jam := upd d.track.jam row (d.jamFrom row) }
         stacker := { d.stacker with gates := upd d.stacker.gates k (some r.number) } }) ∧
     (d.sees (.gate k) r → r.route.map Route.bin ≠ some k → exec (.stationLeadEdge (.gate k)) s = s.after
       { d.cellLevel row true with
         track := { d.track with
           queue := seenNow (.gate k) d.track.encoder r.number id d.track.queue
           occupants := upd d.track.occupants row (.record r.number)
           jam := upd d.track.jam row (d.jamFrom row) } }) ∧
     (d.sees .exit r → exec (.stationLeadEdge .exit) s =
       s.after (afterRemovals d (occur (removeRecord x r.number .missed) (.missed r.number r.route)))))

/-- STATION_LEAD_EDGE at CANCEL (R21, R71, R72, R86, R87): at CANCEL SEEN at S the end of the check span, the open
check, the print start and the clip position are fixed; a check span of 0 then ends at once (log 13), and with it a
print start that equals its end (R21). -/
def Obligations.CancelStationSeen : Prop :=
  ∀ (s : State) (r : ItemRecord), let d := s.dev; let p := d.track.encoder
    let spanEnd := p + counts d.checkSpan
    let seen := { d.cellLevel 3 true with
      track := { d.track with
        queue := seenNow .cancel p r.number (fun q => { q with
          checkEnd := some spanEnd
          openCheck := match q.plan, q.chosen with
            | some plan, some mark =>
              if mark.lum = .none then none
              else if plan.group = .lead then some { sensor := .lead, assertedSeen := d.inputs.fchkL }
              else some { sensor := .trail, assertedSeen := d.inputs.fchkT }
            | _, _ => none
          printStart := q.cancel.map (fun c =>
            let start := p + counts d.headOffset + counts c.startColumn
            if atOrAfter start spanEnd then start else spanEnd)
          clip := q.cancel.bind (fun _ => q.length.map (fun len => p + counts d.headOffset + len)) }) d.track.queue
        occupants := upd d.track.occupants 3 (.record r.number)
        jam := upd d.track.jam 3 (d.jamFrom 3) } }
    d.sees .cancel r → exec (.stationLeadEdge .cancel) s =
      s.after (if d.checkSpan = 0 then endOfCheckSpan r.number seen else seen)

/-- STATION_TRAILING_EDGE (R13, R17, R23, R87, R129): the occupant's trailing edge releases its facing order, fixes its
clip position at CANCEL, or removes it STACKED at its routed gate; the cell is then left to nobody. A record that was
SEEN at the gate before its route was fixed is not stacked there (log 12). -/
def Obligations.StationTrailingEdges : Prop :=
  ∀ (s : State), let d := s.dev
    let vacant (row : Fin 21) (x : Device) : Device := { x with track := { x.track with
      occupants := upd x.track.occupants row .nobody
      jam := upd x.track.jam row none } }
    (∀ n, d.matching .twist → d.track.occupants[(1 : Fin 21)] = .record n →
      exec (.stationTrailingEdge .twist) s = s.after (vacant 1
        { d.cellLevel 1 false with track := { d.track with
            twist := if d.track.twist = some n then none else d.track.twist } })) ∧
    (∀ n, d.matching .turn → d.track.occupants[(2 : Fin 21)] = .record n →
      exec (.stationTrailingEdge .turn) s = s.after (vacant 2
        { d.cellLevel 2 false with track := { d.track with
            turn := if d.track.turn = some n then none else d.track.turn } })) ∧
    (∀ n, d.matching .cancel → d.track.occupants[(3 : Fin 21)] = .record n →
      exec (.stationTrailingEdge .cancel) s = s.after (vacant 3
        { d.cellLevel 3 false with track := { d.track with
            queue := d.track.queue.map (fun r =>
              let c := d.track.encoder + counts d.headOffset
              if r.number = n ∧ r.cancel.isSome = true ∧ r.clip.all (fun old => !atOrAfter c old) = true then
                { r with clip := some c }
              else r) } })) ∧
    (∀ k n r, d.matching (.gate k) → d.track.occupants[stationRow (.gate k)] = .record n → d.find n = some r →
      r.route.map Route.bin = some k → r.gateSeen = true →
      exec (.stationTrailingEdge (.gate k)) s = s.after (afterRemovals d
        (vacant (stationRow (.gate k)) (removeRecord (d.cellLevel (stationRow (.gate k)) false) n .stacked)))) ∧
    (∀ k n r, d.matching (.gate k) → d.track.occupants[stationRow (.gate k)] = .record n → d.find n = some r →
      r.route.map Route.bin ≠ some k ∨ r.gateSeen = false →
      exec (.stationTrailingEdge (.gate k)) s = s.after
        (vacant (stationRow (.gate k)) (d.cellLevel (stationRow (.gate k)) false))) ∧
    (∀ st, d.matching st → (∀ n, d.track.occupants[stationRow st] ≠ .record n) ∨ st = .exit →
      exec (.stationTrailingEdge st) s = s.after (vacant (stationRow st) (d.cellLevel (stationRow st) false)))

/-- Removal (R22, R99, R120, R121, R131 to R133, R143 to R145, 12.5) of a tracked record, by every exit kind: what it
changes and what it leaves: of the Imprint Unit the columns, the builder and the print of that record alone, PRINT-COL
keeping the dots it had (log 16). `q` is the record as its imprint's end leaves it, as it is counted and reported.
12.5: the codes of the exit kinds. -/
def Obligations.RemovalEffects : Prop :=
  [ExitKind.stacked, .lost, .missed, .purged].map ExitKind.code = [0, 1, 2, 3] ∧
  ∀ (d : Device) (n : RecNo) (e : ExitKind) (r : ItemRecord), d.find n = some r →
    let d' := removeRecord d n e
    let q : ItemRecord := match r.imprint with
      | .queued => { r with imprint := .none }
      | .building => { r with imprint := .aborted }
      | .built => { r with imprint := .aborted }
      | .printing =>
        if e = .stacked then { r with imprint := .printed }
        else { r with imprint := .aborted, disposition := some .uncancelled, cancel := none }
      | _ => r
    let batch := if d.num 0 0 0 ≠ 0 then d.tally.batch ++ [itemReport q e] else d.tally.batch
    let offered : Bool := decide (batch ≠ []) &&
      (decide (d'.track.queue = []) || decide (d.num 0 0 0 ≠ 0 ∧ max 1 (min 8 (d.num 0 0 1)) ≤ batch.length))
    let fits : Bool := !d.responseWaiting && decide (d.tally.page = none ∧ 1 + 6 * batch.length ≤ d.reportRoom)
    let one (b : Bool) : Count := if b then 1 else 0
    d'.track = { d.track with
      queue := d.track.queue.eraseP (fun q => decide (q.number = n))
      occupants := d.track.occupants.map (fun o => if o = .record n then .stray else o)
      twist := if d.track.twist = some n then none else d.track.twist
      turn := if d.track.turn = some n then none else d.track.turn } ∧
    d'.stacker.gates = d.stacker.gates.map (fun o => if o = some n then none else o) ∧
    d'.classifier = { d.classifier with busy := if d.classifier.busy = some n then none else d.classifier.busy } ∧
    d'.tally.totals = (match e with
      | .stacked => { d.tally.totals with stacked := d.tally.totals.stacked + 1 }
      | .lost => { d.tally.totals with lost := d.tally.totals.lost + 1 }
      | .missed => { d.tally.totals with missed := d.tally.totals.missed + 1 }
      | .purged => { d.tally.totals with purged := d.tally.totals.purged + 1 }) ∧
    (∀ i : Fin 56, d'.tally.counters[i] = d.tally.counters[i] +
      one (decide (r.imprint = .printing ∧ i.val = if e = .stacked then 48 else 49)) +
      one (q.disposition.any (fun x => decide (i.val = 15 + dispositionCode (some x)))) +
      one (decide (e = .stacked) && q.route.any (fun t => decide (i.val = 26 + t.bin.val))) +
      one (decide (e = .stacked) && q.classGroup.any (fun g => decide (i.val = g.val))) +
      one (decide (e = .lost ∧ i.val = 44 ∨ e = .missed ∧ i.val = 45 ∨ e = .purged ∧ i.val = 46)) +
      (if i.val = 54 ∧ offered = true ∧ fits = false then BitVec.ofNat 32 batch.length else 0)) ∧
    d'.tally.batch = (if offered then [] else batch) ∧
    d'.report = { d.report with queue := d.report.queue ++
      (if offered && fits then linkFrame (headWord 0x81 batch.length :: batch.flatten) else []) } ∧
    itemReport q e =
      [ q.number,
        q.tag.getD 0,
        word (32768 * bit q.tag.isSome + 8192 * e.code + 512 * dispositionCode q.disposition +
          128 * (bit q.gotA + 2 * bit q.gotB) + 64 * bit q.scanFault + 16 * faceCheckCode q.faceCheck +
          2 * q.imprint.code),
        word (4096 * (q.route.map (fun t => t.bin.val)).getD 0 + 1024 * viaCode q.route +
          64 * (q.positionCode.map Fin.val).getD 8 + q.sequence.getD 0 / 65536),
        word ((q.plan.map (fun p => 32768 + 16384 * bit p.twist + 8192 * bit p.turn +
            4096 * (if p.group = .trail then 1 else 0))).getD 0 +
          (q.classGroup.map (fun g => 2048 + 128 * g.val)).getD 0 +
          (q.seen.head?.map (fun x => (stationRow x.station).val)).getD 0),
        word (q.sequence.getD 0 % 65536) ] ∧
    (∀ t, r.route = some t → let b := d.bin t.bin; let b' := d'.bin t.bin
      b'.committed = b.committed - 1 ∧ b'.held = b.held ∧
      b'.fill = (if e = .stacked then min 65535 (b.fill + 1) else b.fill) ∧
      b'.state = (if b.state = .outPending then if b.committed - 1 = 0 then .out else .outPending
        else if b.state = .out then .out
        else if d.num 6 t.bin.val 0 = 0 then .disabled
        else if t.bin = 0 then .active
        else if b'.fill + b'.committed < d.num 6 t.bin.val 1 then .active
        else .full)) ∧
    (∀ k : Fin 16, r.route.map Route.bin ≠ some k → d'.bin k = d.bin k) ∧
    (r.imprint = .building ∨ r.imprint = .built ∨ r.imprint = .printing →
      d'.imprint.ring = d.imprint.ring.filter (fun h => decide (h.number ≠ n))) ∧
    (r.imprint = .building ∨ r.imprint = .built →
      d'.imprint.builder = if d.imprint.builder = some n then none else d.imprint.builder) ∧
    (r.imprint = .printing → d'.imprint.printing = none ∧ d'.imprint.builder = d.imprint.builder) ∧
    (r.imprint ≠ .printing → d'.imprint.printing = d.imprint.printing) ∧
    d'.imprint = { d.imprint with
      ring := d'.imprint.ring, builder := d'.imprint.builder, printing := d'.imprint.printing } ∧
    (r.imprint ≠ .building → r.imprint ≠ .built → r.imprint ≠ .printing → d'.imprint = d.imprint) ∧
    d'.inputs = d.inputs ∧ d'.tables = d.tables ∧ d'.clock = d.clock ∧ d'.feed = d.feed ∧ d'.command = d.command ∧
    d'.window = d.window ∧ d'.line = d.line ∧ d'.tally.period = d.tally.period ∧ d'.tally.page = d.tally.page ∧
    d'.tally.deferred = d.tally.deferred ∧
    d'.attention = { d.attention with
      rejectFull := d.attention.rejectFull.on d'.rejectFullActive
      binFull := d.attention.binFull.on d'.binFullActive
      printFault := d.attention.printFault.on d'.printFaultActive }

/-- DEADLINE (R8, R192): an undecided record becomes LATE with disposition LATE and its classification is abandoned,
upon which the apply point is tested; otherwise nothing changes.
WINDOW_EXPIRY (R16): a record still due one count past its window is removed LOST, and LOST latched with the record, the
station row and the expected position; otherwise the expiry is dropped.
What a step that may have removed records tests at its end (R150, R192; log 3, log 29): in DRAIN the drain completion,
where the last record has left the queue and FEED-HELD is asserted; then the apply point, where a classification or a
build at work before the step has ended or was abandoned. -/
def Obligations.DeadlineAndWindowExpiry : Prop :=
  (∀ (s : State) (n : RecNo), let d := s.dev
     (∀ r, d.find n = some r → d.active = true →
       d.track.encoder = r.lead + counts (d.stationOffset 1) - counts d.armLead →
       r.state ≠ .decided → r.state ≠ .late →
       let x : Device := { d with
         track := { d.track with queue := d.track.queue.map (fun q =>
           if q.number = n then { q with state := .late, disposition := some .late } else q) }
         classifier := { d.classifier with
           busy := if d.classifier.busy = some n then none else d.classifier.busy } }
       exec (.deadline n) s = s.after (if d.classifier.busy = some n then applyPoint x else x)) ∧
     ((∀ r, d.find n = some r → d.active = false ∨
         d.track.encoder ≠ r.lead + counts (d.stationOffset 1) - counts d.armLead ∨
         r.state = .decided ∨ r.state = .late) → exec (.deadline n) s = s.after d)) ∧
  (∀ (s : State) (n : RecNo) (st : Station), let d := s.dev
     let e (r : ItemRecord) : Pos := r.lead + counts (d.stationOffset (stationRow st).val)
     let expiry (r : ItemRecord) : Pos := e r + counts (max 4 (d.num 7 (stationRow st).val 1)) + 1
     (∀ r, d.find n = some r → d.active = true → d.due r st = true → d.track.encoder = expiry r →
       exec (.windowExpiry n st) s = s.after
         (afterRemovals d (occur (removeRecord d n .lost) (.lost n (stationRow st).val (e r))))) ∧
     ((∀ r, d.find n = some r → d.active = false ∨ d.due r st = false ∨ d.track.encoder ≠ expiry r) →
       exec (.windowExpiry n st) s = s.after d)) ∧
  (∀ before after : Device, afterRemovals before after =
     let x := if before.track.queue ≠ [] ∧ after.track.queue = [] ∧ after.line.mode = .drain ∧
         after.inputs.feedHeld = true then completeDrain after else after
     if (before.classifier.busy ≠ none ∧ x.classifier.busy = none) ∨
         (before.imprint.builder ≠ none ∧ x.imprint.builder = none) then applyPoint x else x)

/-- JAM_EXPIRY (R18) and the entry to HALTED (R151): the jam latches JAM with its row and occupant, and the line enters
HALTED; the entry releases every actuator, abandons what is classified, printed and built, with what R98 writes in the
records, and applies every staged write (R194), leaving the Pending Write Queue empty. That a capacity clamped by such a
write stops at 65535 is the model's reading (log 17), and so is that what a change of Settings calls for is tested once,
after the application (log 19, log 20). -/
def Obligations.EntryToHalted : Prop :=
  (∀ (s : State) (row : Fin 21), let d := s.dev
    (d.active = true → d.track.jam[row] = some d.track.encoder → d.inputs.blocked[row] = true →
      exec (.jamExpiry row) s = s.after (enterHalted { d with attention := { d.attention with
        jam := some (latchOn d.attention.jam (.jam row.val (match d.track.occupants[row] with
          | .record n => some n
          | _ => none))) } })) ∧
    (d.active = false ∨ d.track.jam[row] ≠ some d.track.encoder ∨ d.inputs.blocked[row] = false →
      exec (.jamExpiry row) s = s.after d)) ∧
  (∀ d : Device, let d' := enterHalted d
    let printing := d.imprint.printing.map Printing.number
    let staged := d.window.groups.flatten ++ d.openGroup
    let h : Device := { d with
      track := { d.track with
        twist := none
        turn := none
        queue := d.track.queue.map (fun r =>
          if printing = some r.number then
            { r with imprint := .aborted, disposition := some .uncancelled, cancel := none }
          else if d.imprint.builder = some r.number then { r with imprint := .aborted }
          else r) }
      classifier := { d.classifier with busy := none }
      imprint := { d.imprint with
        builder := none
        printing := none
        printFault := d.imprint.printFault || printing.isSome
        printCol := if printing.isSome then 0 else d.imprint.printCol
        ring := d.imprint.ring.filter (fun c =>
          decide (printing ≠ some c.number) && decide (d.imprint.builder ≠ some c.number)) }
      stacker := { d.stacker with gates := Vector.replicate 16 none }
      tally := { d.tally with counters :=
        if printing.isSome then upd d.tally.counters 49 (d.tally.counters[(49 : Fin 56)] + 1)
        else d.tally.counters }
      window := { d.window with groups := [] }
      command := match d.command with
        | .receiving f => .receiving { f with group := [] }
        | .free => .free
        | .waiting rest begun => .waiting rest begun
      line := { d.line with mode := .halted } }
    d'.line.mode = .halted ∧ d'.stop = true ∧ d'.twistLine = false ∧ d'.turnLine = false ∧
    (∀ k : Fin 16, d'.gateLine k = false) ∧ d'.classifier.busy = none ∧ d'.window.groups = [] ∧ d'.openGroup = [] ∧
    d'.track = h.track ∧ d'.imprint = h.imprint ∧ d'.stacker.gates = h.stacker.gates ∧ d'.command = h.command ∧
    d'.inputs = d.inputs ∧ d'.clock = d.clock ∧ d'.feed = d.feed ∧ d'.tally.totals = d.tally.totals ∧
    d'.tally.period = d.tally.period ∧ d'.window.selection = d.window.selection ∧
    (∀ c, d'.attention.latch c = d.attention.latch c) ∧ d'.attention.mask = d.attention.mask ∧
    (d.canonical → (∀ w ∈ staged, w.inTable) → h.TakesWrites staged d' ∧
      d'.line.gapPulses = d.line.gapPulses + if staged ≠ [] ∧ d'.num 0 0 8 ≠ 0 then 1 else 0))

/-! ## The face check, the print, the Classifier and the build -/

/-- END_OF_CHECK_SPAN (R21, R73 to R76, R111 to R115): the open check is concluded PASS or FAIL, a FAIL takes the
disposition, the cancel intent and the imprint, and a record then without cancel intent takes its route point. A record
with it takes its route point at its print start: where that equals the end of the check span, at once, and the two rows
are one event (what it then does is said in PrintStartDecides; which row it comes by: log 13); otherwise the event ends
there. A record with no disposition there has no Route Table row and gets no route (log 25: the model's reading). The
apply point is tested if a build was abandoned (R192), after the route point (log 29). The record's other fields, its class group, plan, chosen mark and values among them, stay as recorded (R75), and so do the
other records, the occupants and the other blocks. The four steps of the bin choice (R114) and the Route Table row of
every outcome (R111, R112). FCHK_ASSERTION (R72): the level of the line; in RUN and DRAIN an assertion sets
asserted-seen in every open check that samples the line, a deassertion nothing. -/
def Obligations.FaceCheck : Prop :=
  (∀ (s : State) (n : RecNo), let d := s.dev
     (∀ r, d.find n = some r → d.active = true → r.checkEnd = some d.track.encoder →
       ∃ e r', let x := if d.imprint.builder ≠ none ∧ e.imprint.builder = none then applyPoint e else e
         concludeSpan n d = x ∧ exec (.endOfCheckSpan n) s = exec (.printStart n) s ∧
         (r'.printStart ≠ some d.track.encoder → exec (.endOfCheckSpan n) s = s.after x) ∧
         e.find n = some r' ∧ r'.checkEnd = none ∧ r'.openCheck = none ∧
         r' = { r with
           checkEnd := none, openCheck := none, faceCheck := r'.faceCheck, disposition := r'.disposition,
           cancel := r'.cancel, imprint := r'.imprint, printStart := r'.printStart, route := r'.route } ∧
         (r.openCheck = none → r'.faceCheck = r.faceCheck ∧ r'.disposition = r.disposition ∧ r'.cancel = r.cancel ∧
           r'.imprint = r.imprint ∧ r'.printStart = r.printStart) ∧
         (∀ c, r.openCheck = some c → c.assertedSeen = true → r'.faceCheck = some .pass ∧
           r'.disposition = r.disposition ∧ r'.cancel = r.cancel ∧ r'.imprint = r.imprint ∧
           r'.printStart = r.printStart) ∧
         (∀ c, r.openCheck = some c → c.assertedSeen = false → r'.faceCheck = some .fail ∧
           r'.disposition = some .faceFault ∧ r'.cancel = none ∧ r'.printStart = none ∧
           r'.imprint = (match r.imprint with
             | .queued => .none
             | .building => .aborted
             | .built => .aborted
             | other => other)) ∧
         (let failed := r.openCheck.any (fun c => !c.assertedSeen)
          e.imprint = if failed = true ∧ (r.imprint = .building ∨ r.imprint = .built) then
              { d.imprint with
                ring := d.imprint.ring.filter (fun h => decide (h.number ≠ n))
                builder := if d.imprint.builder = some n then none else d.imprint.builder }
            else d.imprint) ∧
         (r'.cancel.isSome = true → r'.route = r.route ∧ e.stacker = d.stacker) ∧
         (r'.cancel = none → d.takesRoutePoint e r.route r') ∧
         e.attention = (if r'.route = r.route then d.attention else d.attention.reported e) ∧
         (∀ m, m ≠ n → e.find m = d.find m) ∧ e.track = { d.track with queue := e.track.queue } ∧
         e.inputs = d.inputs ∧ e.tables = d.tables ∧ e.classifier = d.classifier ∧ e.clock = d.clock ∧
         e.tally = d.tally ∧ e.feed = d.feed ∧ e.command = d.command ∧ e.window = d.window ∧
         e.report = d.report ∧ e.line = d.line ∧ e.stacker.gates = d.stacker.gates) ∧
     ((∀ r, d.find n = some r → d.active = false ∨ r.checkEnd ≠ some d.track.encoder) →
       exec (.endOfCheckSpan n) s = s.after d)) ∧
  (∀ (d : Device) (p : Fin 16),
     let accepts (k : Fin 16) : Prop :=
       (d.bin k).state = .active ∧ (k ≠ 0 → (d.bin k).fill + (d.bin k).committed < d.num 6 k.val 1)
     let a := Fin.ofNat 16 (d.num 6 p.val 2)
     let zero : Prop := (d.bin 0).state = .active ∨ (d.bin 0).state = .disabled
     (accepts p → d.chooseBin p = some { bin := p, via := .primary }) ∧
     (¬ accepts p → a ≠ p → accepts a → d.chooseBin p = some { bin := a, via := .alternate }) ∧
     (¬ accepts p → a = p ∨ ¬ accepts a → zero → d.chooseBin p = some { bin := 0, via := .reject }) ∧
     (¬ accepts p → a = p ∨ ¬ accepts a → ¬ zero → d.chooseBin p = none)) ∧
  (∀ r : ItemRecord, routeRow r = (match r.disposition with
     | none => none
     | some .facedPaid => r.classGroup.bind (fun g => r.plan.map (fun p =>
         2 * g.val + if p.group = .trail then 1 else 0))
     | some .shortPaid => some 32
     | some .outOfGauge => some 33
     | some .reused => some 34
     | some .noMark => some 35
     | some .ambiguous => some 36
     | some .scanFault => some 37
     | some .late => some 38
     | some .faceFault => some 39
     | some .uncancelled => some 40)) ∧
  (∀ (s : State) (line : Sensor) (level : Bool), let d := s.dev
     exec (.fchkAssertion line level) s = s.after
       { d with
         inputs := match line with
           | .lead => { d.inputs with fchkL := level }
           | .trail => { d.inputs with fchkT := level }
         track := { d.track with
           queue := if level = true ∧ d.active = true then
               d.track.queue.map (fun r => { r with
                 openCheck := r.openCheck.map (fun c =>
                   if c.sensor = line then { c with assertedSeen := true } else c) })
             else d.track.queue } })

/-- PRINT_START (R94, R96, R97, R21, R111 to R115): the decision by imprint status and PRINT-READY, taken after the end
of the check span where that falls on the same value, and then the record's route point, the conditions being reported;
the apply point is tested if a build was abandoned (R192), after the route point (log 29). The columns of a print missed
for PRINT-READY, of a build abandoned and of a print preempted are released, those of a print begun kept; PRINT-COL
keeps the dots it had (log 16). A record with no disposition gets no route (log 25: the model's reading). A row met at
the end of the record's check span, its print start not due there, takes that end alone (log 1, log 13); where both fall
on one value they are one event (R21), whichever of the two rows it comes by. -/
def Obligations.PrintStartDecides : Prop :=
  ∀ (s : State) (n : RecNo), let x := concludeSpan n s.dev
    (∀ r, x.find n = some r → x.active = true → r.printStart = some x.track.encoder →
      ∃ e r', exec (.printStart n) s = s.after
          (if x.imprint.builder ≠ none ∧ e.imprint.builder = none then applyPoint e else e) ∧
        e.find n = some r' ∧ r'.printStart = none ∧
        r' = { r with
          printStart := none, imprint := r'.imprint, disposition := r'.disposition, cancel := r'.cancel,
          route := r'.route } ∧
        e.imprint = { x.imprint with
          builder := if r.imprint = .building ∧ x.imprint.builder = some n then none else x.imprint.builder
          ring := x.imprint.ring.filter (fun h =>
            decide (¬ (x.imprint.printing.map Printing.number = some h.number ∨
              h.number = n ∧ (r.imprint = .building ∨ r.imprint = .built ∧ x.inputs.printReady = false))))
          printing := e.imprint.printing, printFault := e.imprint.printFault } ∧
        (r.imprint = .built → x.inputs.printReady = true →
          r'.imprint = .printing ∧ r'.disposition = r.disposition ∧ r'.cancel = r.cancel ∧
          e.imprint.printing = some { number := n, start := x.track.encoder, column := 0 } ∧
          e.imprint.printFault = x.imprint.printFault) ∧
        (r.imprint = .built → x.inputs.printReady = false →
          r'.imprint = .aborted ∧ r'.disposition = some .uncancelled ∧ r'.cancel = none ∧
          e.imprint.printFault = true ∧ e.imprint.printing = none ∧
          e.tally.counters[(49 : Fin 56)] = x.tally.counters[(49 : Fin 56)] + 1) ∧
        (r.imprint = .building ∨ r.imprint = .queued →
          r'.imprint = .underrun ∧ r'.disposition = some .uncancelled ∧ r'.cancel = none ∧
          e.imprint.printing = none ∧
          e.attention.underrun = some (latchOn x.attention.underrun (.underrun n (decide (r.imprint = .building)))) ∧
          e.tally.counters[(50 : Fin 56)] = x.tally.counters[(50 : Fin 56)] + 1) ∧
        (r.imprint = .building → e.imprint.builder ≠ some n ∧ ∀ h ∈ e.imprint.ring, h.number ≠ n) ∧
        (∀ p q, x.imprint.printing = some p → p.number ≠ n → x.find p.number = some q →
          e.find p.number = some { q with imprint := .printed } ∧
          e.tally.counters[(48 : Fin 56)] = x.tally.counters[(48 : Fin 56)] + 1) ∧
        x.takesRoutePoint e r.route r' ∧
        e.attention = AttentionUnit.reported { x.attention with underrun := e.attention.underrun } e ∧
        e.track = { x.track with queue := e.track.queue } ∧ e.tally.totals = x.tally.totals ∧
        e.inputs = x.inputs ∧ e.tables = x.tables ∧ e.classifier = x.classifier ∧ e.clock = x.clock ∧
        e.feed = x.feed ∧ e.command = x.command ∧ e.window = x.window ∧ e.report = x.report ∧ e.line = x.line) ∧
    ((∀ r, x.find n = some r → x.active = false ∨ r.printStart ≠ some x.track.encoder) →
      exec (.printStart n) s = s.after x)

/-- PRINT_COLUMN_DUE (R95): the column due is sent unless it lies at or after the clip position, and is released; the
last one makes the imprint PRINTED and leaves PRINT-COL with no dots. A column sent is the one last strobed (log 8), the
last column among them; at a column not sent PRINT-COL keeps the dots last set (log 16: the model's choice). -/
def Obligations.PrintColumnDue : Prop :=
  ∀ (s : State), let d := s.dev
    (∀ p, d.imprint.printing = some p → d.active = true → d.track.encoder = p.start + counts p.column →
      let clipped : Prop := ∃ r c, d.find p.number = some r ∧ r.clip = some c ∧ atOrAfter d.track.encoder c = true
      ∃ d', exec .printColumnDue s = s.after d' ∧ d'.heldColumns p.number = (d.heldColumns p.number).tail ∧
        (∀ dots rest, d.heldColumns p.number = dots :: rest → ¬ clipped →
          d'.imprint.printStrobes = d.imprint.printStrobes + 1 ∧ d'.imprint.strobed = some dots ∧
          (rest ≠ [] → d'.imprint.printCol = dots)) ∧
        (clipped → d'.imprint.printStrobes = d.imprint.printStrobes ∧ d'.imprint.strobed = d.imprint.strobed ∧
          (1 < (d.heldColumns p.number).length → d'.imprint.printCol = d.imprint.printCol)) ∧
        (1 < (d.heldColumns p.number).length → d'.imprint.printing = some { p with column := p.column + 1 } ∧
          d'.track = d.track ∧ d'.tally = d.tally) ∧
        ((d.heldColumns p.number).length ≤ 1 → d'.imprint.printing = none ∧ d'.imprint.printCol = 0 ∧
          d'.track = { d.track with queue := d.track.queue.map (fun r =>
            if r.number = p.number then { r with imprint := .printed } else r) } ∧
          d'.tally = { d.tally with
            counters := upd d.tally.counters 48 (d.tally.counters[(48 : Fin 56)] + 1) }) ∧
        d'.inputs = d.inputs ∧ d'.tables = d.tables ∧ d'.classifier = d.classifier ∧ d'.clock = d.clock ∧
        d'.stacker = d.stacker ∧ d'.feed = d.feed ∧ d'.command = d.command ∧ d'.window = d.window ∧
        d'.report = d.report ∧ d'.line = d.line ∧ d'.attention = d.attention ∧
        d'.imprint.builder = d.imprint.builder ∧ d'.imprint.sequence = d.imprint.sequence ∧
        d'.imprint.printFault = d.imprint.printFault ∧ d'.imprint.alloc = d.imprint.alloc ∧
        (∀ m, m ≠ p.number → d'.heldColumns m = d.heldColumns m)) ∧
    ((∀ p, d.imprint.printing = some p → d.active = false ∨ d.track.encoder ≠ p.start + counts p.column) →
      exec .printColumnDue s = s.after d)

/-- PRINT_READY_DEASSERTED, PRINT_READY_ASSERTED (R97, R100): a print in progress is aborted, PRINT-COL keeping the
column it had (log 16: the model's choice); an assertion clears the print-fault latch in RUN and DRAIN; the conditions
are reported as they then stand. -/
def Obligations.PrintReadyEdges : Prop :=
  ∀ (s : State), let d := s.dev
    let low := { d with inputs := { d.inputs with printReady := false } }
    (d.imprint.printing = none → exec .printReadyDeasserted s = s.after (reportConditions low)) ∧
    (∀ p, d.imprint.printing = some p → exec .printReadyDeasserted s = s.after (reportConditions
      { low with
        track := { d.track with queue := d.track.queue.map (fun r =>
          if r.number = p.number then
            { r with imprint := .aborted, disposition := some .uncancelled, cancel := none }
          else r) }
        imprint := { d.imprint with
          ring := d.imprint.ring.filter (fun h => decide (h.number ≠ p.number))
          printing := none
          printFault := true }
        tally := { d.tally with
          counters := upd d.tally.counters 49 (d.tally.counters[(49 : Fin 56)] + 1) } })) ∧
    exec .printReadyAsserted s = s.after (reportConditions
      { d with
        inputs := { d.inputs with printReady := true }
        imprint := { d.imprint with printFault := d.imprint.printFault && !d.active } })

/-- CLASSIFIER_TAKE (R7, R39): the free Classifier takes the oldest READY record, in RUN and DRAIN. DECISION_COMPLETE
(R8, R42, R43, R47, R58, R192): the decision is written into the record the Classifier holds, a record of scan fault is
decided SCAN_FAULT with nothing chosen, the scan-suspect counter follows, and the apply point is tested; a decision of
any other record is void. That the tables read are those that stand at the decision, where R45, R61 and R85 have them as
applied when the record was taken, is the model's reading (log 11).
The class of an observation (R50 to R52), and the decision (R48, R53, R54, R57, R59 to R65, R67, R85) from the choices
among the live marks and among those cancelled before. -/
def Obligations.ClassifierTakesAndDecides : Prop :=
  (∀ (s : State), let d := s.dev
     (∀ older r rest, d.active = true → d.classifier.busy = none → d.track.queue = older ++ r :: rest →
       (∀ q ∈ older, q.state ≠ .ready) → r.state = .ready → exec .classifierTake s = s.after
         { d with
           track := { d.track with queue := d.track.queue.map (fun q =>
             if q.number = r.number then { q with state := .classifying } else q) }
           classifier := { d.classifier with busy := some r.number } }) ∧
     (d.active = false ∨ d.classifier.busy ≠ none ∨ (∀ q ∈ d.track.queue, q.state ≠ .ready) →
       exec .classifierTake s = s.after d)) ∧
  (∀ (s : State) (n : RecNo), let d := s.dev
     (∀ r, d.find n = some r → d.classifier.busy = some n → r.state = .classifying →
       let x := d.decision r
       let t := d.num 0 0 2
       let q : Prop := x.disposition = .scanFault ∨ (r.obsA = [] ∧ r.obsB = [])
       let reached : Prop := t ≠ 0 ∧ q ∧ t ≤ d.classifier.suspect + 1
       ∃ e, exec (.decisionComplete n) s = s.after (applyPoint e) ∧
         e.find n = some { r with
           state := .decided, disposition := some x.disposition, chosen := x.chosen, positionCode := x.positionCode,
           classGroup := x.classGroup, plan := x.plan, totalValue := x.totalValue, requiredValue := x.requiredValue,
           cancel := x.cancel, imprint := if x.cancel.isSome then .queued else r.imprint } ∧
         e.classifier.busy = none ∧
         (t ≠ 0 → q → ¬ reached → e.classifier.suspect = d.classifier.suspect + 1) ∧
         (t = 0 ∨ ¬ q ∨ reached → e.classifier.suspect = 0) ∧
         (reached → e.attention =
             { d.attention with scanSuspect := some (latchOn d.attention.scanSuspect (.scanSuspect n t)) } ∧
           e.line = { d.line with scanLock := d.line.scanLock || d.flag 0 0 3 }) ∧
         (¬ reached → e.attention = d.attention ∧ e.line = d.line) ∧
         (r.scanFault = true → x =
           { disposition := .scanFault, chosen := none, positionCode := none, classGroup := none, plan := none,
             totalValue := none, requiredValue := none, cancel := none }) ∧
         (∀ m, m ≠ n → e.find m = d.find m) ∧ e.track = { d.track with queue := e.track.queue } ∧
         e.inputs = d.inputs ∧ e.tables = d.tables ∧ e.imprint = d.imprint ∧ e.clock = d.clock ∧
         e.stacker = d.stacker ∧ e.tally = d.tally ∧ e.feed = d.feed ∧ e.command = d.command ∧
         e.window = d.window ∧ e.report = d.report) ∧
     ((∀ r, d.find n = some r → d.classifier.busy ≠ some n ∨ r.state ≠ .classifying) →
       exec (.decisionComplete n) s = s.after d)) ∧
  (∀ (d : Device) (side : Side) (o : Observation),
     let lum : Nat := match o.lum with
       | .none => 0
       | .phosphor => 1
       | .fluor => 2
       | .both => 3
     let kind (n : Nat) : MarkKind :=
       if n = 1 then .stamp else if n = 2 then .meter else if n = 3 then .indicia else if n = 4 then .label
       else .nonPostage
     let fits (row : Nat) : Prop :=
       d.num 1 row 0 ≠ 0 ∧ d.cell 1 row 1 = o.signature ∧ d.num 1 row 2 = lum ∧ d.num 1 row 8 ≤ o.confidence.toNat
     (∀ row, row < 512 → fits row → (∀ j, j < row → ¬ fits j) → d.classify side o =
       { side := side, obs := o, row := .markClass row, kind := kind (d.num 1 row 3), value := d.num 1 row 4,
         priority := d.num 1 row 5, group := Fin.ofNat 16 (d.num 1 row 6), template := d.num 1 row 7 }) ∧
     ((∀ row, row < 512 → ¬ fits row) → d.classify side o =
       { side := side, obs := o, row := .default lum,
         kind := if o.confidence.toNat < d.num 2 lum 5 then .nonPostage else kind (d.num 2 lum 0),
         value := d.num 2 lum 1, priority := d.num 2 lum 2, group := Fin.ofNat 16 (d.num 2 lum 3),
         template := d.num 2 lum 4 })) ∧
  (∀ (d : Device) (r : ItemRecord) (g : Geometry), r.scanFault = false → r.geometry = some g →
     let length := g.lengthMm.toNat
     let marks := (r.obsA.map (d.classify .a) ++ r.obsB.map (d.classify .b)).filter
       (fun c => decide (c.kind ≠ .nonPostage))
     let live := marks.filter (fun c => !c.obs.inkOver)
     let used := marks.filter (fun c => c.obs.inkOver)
     let bare (y : Disposition) : Decision :=
       { disposition := y, chosen := none, positionCode := none, classGroup := none, plan := none,
         totalValue := none, requiredValue := none, cancel := none }
     let plan (k : Fin 8) : FacingPlan :=
       { twist := decide (d.num 4 k.val 0 ≠ 0), turn := decide (d.num 4 k.val 1 ≠ 0),
         group := if d.num 4 k.val 2 ≠ 0 then .trail else .lead }
     let faced (y : Disposition) (c : Classed) (k : Fin 8) : Decision :=
       { bare y with
         chosen := some { side := c.side, zone := c.obs.zone, offsetMm := c.obs.offsetMm, widthMm := c.obs.widthMm,
                          lum := c.obs.lum, row := c.row }
         positionCode := some k, classGroup := some c.group, plan := some (plan k) }
     let covers (i : Nat) : Prop := d.num 3 i 0 ≠ 0 ∧ length ≤ d.num 3 i 1 ∧ g.thickness.toNat ≤ d.num 3 i 2
     (choose length live = .ambiguous → d.decision r = bare .ambiguous) ∧
     (choose length live = .none → choose length used = .ambiguous → d.decision r = bare .ambiguous) ∧
     (choose length live = .none → choose length used = .none → d.decision r = bare .noMark) ∧
     (∀ c k, choose length live = .none → choose length used = .chosen c k → d.decision r = faced .reused c k) ∧
     (∀ c k required, choose length live = .chosen c k →
       ((required = none ∧ ∀ i, i < 16 → ¬ covers i) ∨
         ∃ i, i < 16 ∧ covers i ∧ (∀ j, j < i → ¬ covers j) ∧ required = some (d.num 3 i 3)) →
       let total := min 65535 (live.map Classed.value).sum
       let y : Disposition := match required with
         | none => .outOfGauge
         | some v => if total < v then .shortPaid else .facedPaid
       let row : Nat := match required with
         | none => 33
         | some v => if total < v then 32 else 2 * c.group.val + if (plan k).group = .trail then 1 else 0
       let paid : Decision := { faced y c k with totalValue := some (word total), requiredValue := required.map word }
       let t := if d.num 5 row 2 = 0 then c.template else d.num 5 row 2 - 1
       let dated : Prop := ∃ line place, line < d.num 8 t 5 ∧ place < d.num 8 t (8 + 6 * line) ∧
         128 ≤ d.num 9 (4 * t + line) place ∧ d.num 9 (4 * t + line) place ≤ 132
       let offset := if (plan k).turn then length - c.obs.offsetMm.toNat - c.obs.widthMm.toNat else c.obs.offsetMm.toNat
       (d.num 5 row 1 = 0 → d.decision r = paid) ∧
       (d.num 5 row 1 ≠ 0 → dated → d.clock.valid = false → d.decision r = { paid with disposition := .uncancelled }) ∧
       (d.num 5 row 1 ≠ 0 → ¬ dated ∨ d.clock.valid = true → d.decision r =
         { paid with
           cancel := some { template := t, startColumn := (2 * (offset : Int) + (d.cell 8 t 1).toInt).toNat } })))

/-- R55: the position code of a mark of a legal zone, from its side, its edge and its end; R56: the choice among marks:
none, AMBIGUOUS, or a mark of greatest priority and, among those, of least offset, the first carried among equals. -/
def Obligations.PositionCodeAndChoice : Prop :=
  (∀ (lengthMm : Nat) (c : Classed), c.obs.zone = .top ∨ c.obs.zone = .bottom →
    (positionCode lengthMm c).val =
      (if c.side = .b then 4 else 0) + (if c.obs.zone = .bottom then 2 else 0) +
        (if 2 * c.obs.offsetMm.toNat + c.obs.widthMm.toNat < lengthMm then 0 else 1)) ∧
  (∀ (lengthMm : Nat) (marks : List Classed),
    let top : Classed → Prop := fun c => c ∈ marks ∧ ∀ m ∈ marks, m.priority ≤ c.priority
    (marks = [] → choose lengthMm marks = .none) ∧
    ((∃ a b, top a ∧ top b ∧ positionCode lengthMm a ≠ positionCode lengthMm b) →
      choose lengthMm marks = .ambiguous) ∧
    (marks ≠ [] → (∀ a b, top a → top b → positionCode lengthMm a = positionCode lengthMm b) →
      ∃ c before after, choose lengthMm marks = .chosen c (positionCode lengthMm c) ∧ top c ∧
        marks = before ++ c :: after ∧ (∀ m, top m → c.obs.offsetMm ≤ m.obs.offsetMm) ∧
        ∀ m ∈ before, top m → c.obs.offsetMm < m.obs.offsetMm))

/-- BUILD_BEGIN, BUILD_COMPLETE (R90 to R93, R192): the build takes the head of the Build Queue when the mode, the
builder and the ring allow: its record gets the next number and the build date, its columns are held from the
allocation point; the completion makes the record BUILT and frees the builder, and the apply point is then tested. The
columns composed (R79 to R84): the dots of every column, bar, line images, doubling and shadows, and the glyph
positions of every code. The Column Ring has room for a width (R89, R90) when each of the columns from the allocation
point onward, in ring order, lies beyond those that any imprint holds, counted from that imprint's first column in
ring order. -/
def Obligations.BuildBeginAndComplete : Prop :=
  (∀ (s : State), let d := s.dev
    (∀ r rest c, d.active = true → d.imprint.builder = none →
      d.track.queue.filter (fun q => decide (q.imprint = .queued)) = r :: rest → r.cancel = some c →
      d.ringRoom (max 1 (d.num 8 c.template 0)) = true →
      let seq := if d.imprint.sequence < 999999 then d.imprint.sequence + 1 else 1
      exec .buildBegin s = s.after
        { d with
          track := { d.track with queue := d.track.queue.map (fun q =>
            if q.number = r.number then
              { q with
                imprint := .building
                sequence := some seq
                buildDate := if d.clock.valid then some d.clock.date else none }
            else q) }
          imprint := { d.imprint with
            builder := some r.number
            ring := d.imprint.ring ++
              [{ number := r.number, start := d.imprint.alloc, columns := d.compose c.template seq }]
            alloc := (d.imprint.alloc + max 1 (d.num 8 c.template 0)) % 1024
            sequence := seq }
          tally := { d.tally with
            counters := upd d.tally.counters 51 (d.tally.counters[(51 : Fin 56)] + 1) } }) ∧
    (d.active = false ∨ d.imprint.builder ≠ none ∨ (∀ q ∈ d.track.queue, q.imprint ≠ .queued) ∨
        (∃ r rest c, d.track.queue.filter (fun q => decide (q.imprint = .queued)) = r :: rest ∧ r.cancel = some c ∧
          d.ringRoom (max 1 (d.num 8 c.template 0)) = false) →
      exec .buildBegin s = s.after d) ∧
    (∀ n, d.imprint.builder = some n → exec (.buildComplete n) s = s.after (applyPoint
      { d with
        track := { d.track with queue := d.track.queue.map (fun q =>
          if q.number = n then { q with imprint := .built } else q) }
        imprint := { d.imprint with builder := none } })) ∧
    (∀ n, d.imprint.builder ≠ some n → exec (.buildComplete n) s = s.after d)) ∧
  (∀ (d : Device) (t seq : Nat),
    let width := max 1 (d.num 8 t 0)
    let glyphs (line : Nat) : List (Option Nat) :=
      (List.range (d.num 8 t (8 + 6 * line))).flatMap (fun k => d.renderCode seq (d.num 9 (4 * t + line) k))
    let image (line c n : Nat) : Prop :=
      let start := d.num 8 t (6 + 6 * line)
      let offset := d.num 8 t (7 + 6 * line)
      start ≤ c ∧ ∃ g r, (glyphs line)[(c - start) / 12]? = some (some g) ∧ r < 16 ∧
        (d.cell 11 g ((c - start) % 12)).getLsbD r = true ∧
        (d.num 8 t (9 + 6 * line) = 0 → n = offset + r) ∧
        (d.num 8 t (9 + 6 * line) ≠ 0 → n = offset + 2 * r ∨ n = offset + 2 * r + 1)
    let bar (c n : Nat) : Prop :=
      d.num 8 t 2 ≤ 3 ∧ d.num 8 t 4 ≠ 0 ∧ d.num 8 t 3 ≤ c ∧ c < d.num 8 t 3 + d.num 8 t 4 ∧
        (d.cell 12 (64 * d.num 8 t 2 + (c - d.num 8 t 3) % 64) (n / 16)).getLsbD (n % 16) = true
    (d.compose t seq).length = width ∧
    ∀ c n dots, n < 32 → (d.compose t seq)[c]? = some dots →
      (dots.getLsbD n = true ↔ bar c n ∨ ∃ line, line < d.num 8 t 5 ∧
        (image line c n ∨ (d.num 8 t (10 + 6 * line) ≠ 0 ∧ 0 < c ∧ image line (c - 1) n) ∨
          (d.num 8 t (11 + 6 * line) ≠ 0 ∧ 0 < n ∧ image line c (n - 1))))) ∧
  (∀ (d : Device) (seq code : Nat),
    let digit (x : Nat) : Option Nat := if d.num 0 0 6 + x % 10 ≤ 127 then some (d.num 0 0 6 + x % 10) else none
    let two (x : Nat) : List (Option Nat) := if d.clock.valid then [digit (x / 10), digit x] else [none, none]
    let month (j : Nat) : Option Nat :=
      if d.num 10 (d.clock.date.month - 1) j ≤ 127 then some (d.num 10 (d.clock.date.month - 1) j) else none
    (code ≤ 127 → d.renderCode seq code = [some code]) ∧ (134 < code → d.renderCode seq code = [none]) ∧
    d.renderCode seq 128 = two d.clock.date.day ∧
    d.renderCode seq 129 = (if d.clock.valid then [month 0, month 1, month 2] else [none, none, none]) ∧
    d.renderCode seq 130 = (if d.clock.valid then
      [digit (d.clock.date.year / 1000), digit (d.clock.date.year / 100), digit (d.clock.date.year / 10),
        digit d.clock.date.year] else [none, none, none, none]) ∧
    d.renderCode seq 131 = two d.clock.hour ∧ d.renderCode seq 132 = two d.clock.minute ∧
    d.renderCode seq 133 = [digit (seq / 100000), digit (seq / 10000), digit (seq / 1000), digit (seq / 100),
      digit (seq / 10), digit seq] ∧
    d.renderCode seq 134 = [digit (d.num 0 0 5 / 100), digit (d.num 0 0 5 / 10), digit (d.num 0 0 5)]) ∧
  (∀ (d : Device) (w : Nat), d.ringRoom w = true ↔ ∀ k, k < w → ∀ h ∈ d.imprint.ring,
    h.columns.length ≤ ((d.imprint.alloc + k) % 1024 + 1024 - h.start) % 1024)

/-! ## The Day Clock, the closes, the Report Link, Line Control and the bins -/

/-- SECOND_PULSE (R103, R104, R105, R108): a pulse that arrives while RESET is asserted is not taken, and one taken with
Clock Valid off changes nothing (R103 states both). With Clock Valid on the clock moves by one second and by the pending
adjustment: within the day, past midnight with a rollover, or stopped at midnight and clamped. R105, R135 to R138, R177:
with auto close on a rollover closes the period and the page is offered in the same step: it enters the Report Queue, or
stands in the page buffer where it finds no room or a response waits; behind a page the close is deferred, or joins the
close deferred. R110: with a CLOSE TALLY standing next in the queue, the two requests arriving together (log 32), the
page just frozen stays in the page buffer for it; and a pulse behind such a CLOSE TALLY finds its page there, and both
pages leave as they fit. When a CLOSE TALLY stands next, by its row or by its word in the Feed Input FIFO. R103: the
next date, the lengths of the months and the leap years. -/
def Obligations.SecondPulseMovesTheClock : Prop :=
  ∀ (s : State), let d := s.dev; let c := d.clock
    let t : Int := c.hour * 3600 + c.minute * 60 + c.second + 1 + c.adjust.getD 0
    (d.inputs.resetLine = true ∨ c.valid = false → exec .secondPulse s = s.after d) ∧
    (d.inputs.resetLine = false → c.valid = true → 0 ≤ t → t < 86400 → ∀ n : Nat, t = n →
      exec .secondPulse s = s.after { d with clock := { c with
        hour := n / 3600, minute := n / 60 % 60, second := n % 60, adjust := none } }) ∧
    (d.inputs.resetLine = false → c.valid = true → t < 0 →
      exec .secondPulse s = s.after { d with clock := { c with
        hour := 0, minute := 0, second := 0, adjust := none, clamped := true } }) ∧
    (d.inputs.resetLine = false → c.valid = true → ∀ n : Nat, t = 86400 + n →
      let x := { d with
        clock := { c with
          date := nextDate c.date, hour := n / 3600, minute := n / 60 % 60, second := n % 60, adjust := none }
        imprint := { d.imprint with sequence := 0 }
        attention := { d.attention with
          rollover := some (latchOn d.attention.rollover (.rollover (nextDate c.date))) } }
      let tested (z : Device) : Device := if d.closeTallyNext s.pending then z else arbiter z
      let full (rest : List LinkWord) : Prop :=
        d.command = .waiting rest false ∧ d.reportRoom < rest.length ∧ (rest.length ≤ 256 ∨ d.report.queue ≠ [])
      let page : TallyPage :=
        { period := d.tally.period, causes := { command := false, autoClose := true }, deferred := false
          clockValid := true, date := nextDate c.date, hour := n / 3600, minute := n / 60 % 60
          second := n % 60, admission := d.track.admission, counters := d.tally.counters }
      let closed : Device := { x with tally := { d.tally with
        page := some page, counters := Vector.replicate 56 0, period := d.tally.period + 1 } }
      (d.num 0 0 4 = 0 → exec .secondPulse s = s.after x) ∧
      (d.num 0 0 4 ≠ 0 → d.tally.page = none → d.tally.deferred = none →
        exec .secondPulse s = s.after (tested closed) ∧
        (d.responseWaiting = false → 120 ≤ d.reportRoom → arbiter closed =
          { closed with
            tally := { closed.tally with page := none }
            report := { d.report with queue := d.report.queue ++ linkFrame page.words } }) ∧
        (d.responseWaiting = false → d.reportRoom < 120 → arbiter closed = closed) ∧
        (∀ rest, full rest → arbiter closed = closed)) ∧
      (∀ p, d.num 0 0 4 ≠ 0 → d.tally.page = some p →
        let causes : CloseCauses := match d.tally.deferred with
          | none => { command := false, autoClose := true }
          | some c => { c with autoClose := true }
        let z := { x with tally := { d.tally with deferred := some causes } }
        let behind : TallyPage := { page with causes := causes, deferred := true }
        exec .secondPulse s = s.after (tested z) ∧ (d.responseWaiting = false → d.reportRoom < 120 → arbiter z = z) ∧
        (∀ rest, full rest → arbiter z = z) ∧
        (d.responseWaiting = false → 120 ≤ d.reportRoom → arbiter z =
          { x with
            tally := { d.tally with
              page := if d.reportRoom < 240 then some behind else none, deferred := none
              counters := Vector.replicate 56 0, period := d.tally.period + 1 }
            report := { d.report with
              queue := d.report.queue ++ linkFrame p.words ++
                (if d.reportRoom < 240 then [] else linkFrame behind.words) } })) ∧
      (∀ causes, d.num 0 0 4 ≠ 0 → d.tally.page = none → d.tally.deferred = some causes →
        exec .secondPulse s = s.after
          (tested { x with tally := { d.tally with deferred := some { causes with autoClose := true } } }))) ∧
    (∀ rest,
      (∀ tag, d.closeTallyNext (.closeTally tag :: rest) = true ↔
        d.command = .free ∧ d.feed.fifo = [] ∧ d.feed.presented = []) ∧
      (d.closeTallyNext (.frameDelimiterTake :: rest) = true ↔ d.command = .free ∧
        ∃ w ws, d.feed.fifo = w :: ws ∧ w.head = true ∧
          frameKindOf (headKind w.data) = some (.command .closeTally)) ∧
      ∀ i, (∀ tag, i ≠ .closeTally tag) → i ≠ .frameDelimiterTake → d.closeTallyNext (i :: rest) = false) ∧
    d.closeTallyNext [] = false ∧
    (∀ y m, monthLength y m = if m = 2 then if y % 4 = 0 then 29 else 28
      else if m = 4 ∨ m = 6 ∨ m = 9 ∨ m = 11 then 30 else 31) ∧
    (∀ y m dd, nextDate { year := y, month := m, day := dd } =
      if dd < monthLength y m then { year := y, month := m, day := dd + 1 }
      else if m < 12 then { year := y, month := m + 1, day := 1 }
      else { year := if y < 2099 then y + 1 else 2000, month := 1, day := 1 })

/-- DEFERRED_CLOSE, TALLY_PAGE_QUEUED (R136 to R138): a deferred close is taken when the page buffer is empty; a page
enters the Report Queue whole when it fits and no response waits, and the close deferred behind it is then taken, as
part of one step (log 3). R139, 12.6: the 120 words of a page. R177: what the arbiter's test leaves waiting does not fit:
a response longer than the room, a page behind a response or without its 120 places, and no close is deferred but behind
a page. -/
def Obligations.ClosesAndPages : Prop :=
  (∀ (s : State), let d := s.dev
    let pageOf (causes : CloseCauses) : TallyPage :=
      { period := d.tally.period, causes := causes, deferred := true, clockValid := d.clock.valid,
        date := d.clock.date, hour := d.clock.hour, minute := d.clock.minute, second := d.clock.second,
        admission := d.track.admission, counters := d.tally.counters }
    (∀ causes, d.tally.page = none → d.tally.deferred = some causes →
      let x := { d with tally := { d.tally with
        deferred := none, page := some (pageOf causes), counters := Vector.replicate 56 0
        period := d.tally.period + 1 } }
      exec .deferredClose s = s.after (arbiter x) ∧
      (d.responseWaiting = false → 120 ≤ d.reportRoom → arbiter x =
        { x with
          tally := { x.tally with page := none }
          report := { d.report with queue := d.report.queue ++ linkFrame (pageOf causes).words } }) ∧
      (d.responseWaiting = false → d.reportRoom < 120 → arbiter x = x)) ∧
    (d.tally.page ≠ none ∨ d.tally.deferred = none → exec .deferredClose s = s.after d) ∧
    (∀ p, d.tally.page = some p → d.tally.deferred = none → d.responseWaiting = false → 120 ≤ d.reportRoom →
      exec .tallyPageQueued s = s.after
        { d with
          tally := { d.tally with page := none }
          report := { d.report with queue := d.report.queue ++ linkFrame p.words } }) ∧
    (∀ p causes, d.tally.page = some p → d.tally.deferred = some causes → d.responseWaiting = false →
      120 ≤ d.reportRoom → d.reportRoom < 240 → exec .tallyPageQueued s = s.after
        { d with
          tally := { d.tally with
            deferred := none, page := some (pageOf causes), counters := Vector.replicate 56 0
            period := d.tally.period + 1 }
          report := { d.report with queue := d.report.queue ++ linkFrame p.words } }) ∧
    (∀ p causes, d.tally.page = some p → d.tally.deferred = some causes → d.responseWaiting = false →
      240 ≤ d.reportRoom → exec .tallyPageQueued s = s.after
        { d with
          tally := { d.tally with
            deferred := none, page := none, counters := Vector.replicate 56 0, period := d.tally.period + 1 }
          report := { d.report with
            queue := d.report.queue ++ linkFrame p.words ++ linkFrame (pageOf causes).words } }) ∧
    (∀ p, d.tally.page = some p → d.responseWaiting = true ∨ d.reportRoom < 120 →
      exec .tallyPageQueued s = s.after d)) ∧
  (∀ p : TallyPage, p.words.length = 120 ∧
    p.words.take 8 =
      [0x8200, p.period,
        word ((if p.causes.command then 1 else 0) + (if p.causes.autoClose then 2 else 0) +
          (if p.deferred then 4 else 0) + (if p.clockValid then 8 else 0)),
        word p.date.year, word (256 * p.date.month + p.date.day), word (256 * p.hour + p.minute), word p.second,
        p.admission] ∧
    ∀ k : Fin 56, p.words[8 + 2 * k.val]? = some ((p.counters[k]).extractLsb' 16 16) ∧
      p.words[9 + 2 * k.val]? = some ((p.counters[k]).extractLsb' 0 16)) ∧
  (∀ d : Device, let e := arbiter d
    (∀ rest begun, e.command = .waiting rest begun → e.reportRoom < rest.length) ∧
    (e.tally.page ≠ none → e.responseWaiting = true ∨ e.reportRoom < 120) ∧
    (e.tally.deferred ≠ none → e.tally.page ≠ none))

/-- RESPONSE_PLACED, REPORT_WORD_TRANSMITTED, REPORT_HOLD_CHANGE (R176 to R179): a waiting response enters the Report
Queue when it fits, and one of more than 256 words enters word by word from an empty queue; the head word leaves with
one strobe while REPORT-HOLD is deasserted or where the word was begun before REPORT-HOLD was asserted, and none is
begun behind it. The two outcomes of the last row of R179: an assertion that finds the head word begun lets it be
completed and the next is not begun; one that finds none begun lets no word leave. That the command says whether the
head word had been begun is the model's choice (log 28). -/
def Obligations.ReportQueueWords : Prop :=
  ∀ (s : State), let d := s.dev
    (∀ rest begun, d.command = .waiting rest begun → d.tally.page = none → d.tally.deferred = none →
      rest.length ≤ d.reportRoom → exec .responsePlaced s = s.after
        { d with command := .free, report := { d.report with queue := d.report.queue ++ rest } }) ∧
    (∀ rest begun p, d.command = .waiting rest begun → d.tally.page = some p → d.tally.deferred = none →
      rest.length ≤ d.reportRoom → exec .responsePlaced s = s.after
        (if rest.length + 120 ≤ d.reportRoom then
          { d with
            command := .free
            tally := { d.tally with page := none }
            report := { d.report with queue := d.report.queue ++ rest ++ linkFrame p.words } }
        else { d with command := .free, report := { d.report with queue := d.report.queue ++ rest } })) ∧
    (∀ rest begun, d.command = .waiting rest begun → d.tally.page ≠ none ∨ d.tally.deferred = none →
      d.reportRoom < rest.length → begun = true ∨ 256 < rest.length ∧ d.report.queue = [] →
      exec .responsePlaced s = s.after
        { d with
          command := .waiting (rest.drop d.reportRoom) true
          report := { d.report with queue := d.report.queue ++ rest.take d.reportRoom } }) ∧
    (∀ rest, d.command = .waiting rest false → d.tally.page ≠ none ∨ d.tally.deferred = none →
      d.reportRoom < rest.length → rest.length ≤ 256 ∨ d.report.queue ≠ [] →
      exec .responsePlaced s = s.after d) ∧
    (∀ w rest, d.report.queue = w :: rest → d.inputs.reportHold = false ∨ d.report.begun = true →
      let x := { d with report := { queue := rest, begun := false, sent := some w, strobes := d.report.strobes + 1 } }
      exec .reportWordTransmitted s = s.after (arbiter x) ∧
      (d.command = .free → d.tally.page = none → d.tally.deferred = none → arbiter x = x)) ∧
    (d.report.queue = [] ∨ d.inputs.reportHold = true ∧ d.report.begun = false →
      exec .reportWordTransmitted s = s.after d) ∧
    exec (.reportHoldChange .deasserted) s = s.after
      { d with inputs := { d.inputs with reportHold := false }, report := { d.report with begun := false } } ∧
    (∀ begun, d.inputs.reportHold = false → exec (.reportHoldChange (.asserted begun)) s = s.after
      { d with
        inputs := { d.inputs with reportHold := true }
        report := { d.report with begun := begun && decide (d.report.queue ≠ []) } }) ∧
    (∀ begun, d.inputs.reportHold = true → d.report.queue ≠ [] →
      exec (.reportHoldChange (.asserted begun)) s = s.after d) ∧
    (∀ begun, d.inputs.reportHold = true → d.report.queue = [] →
      exec (.reportHoldChange (.asserted begun)) s = s.after
      { d with report := { d.report with begun := false } }) ∧
    (d.inputs.reportHold = false →
      let one := s.run [.reportHoldChange (.asserted true), .reportWordTransmitted]
      (∀ w rest, d.report.queue = w :: rest →
        one.dev.report.sent = some w ∧ one.dev.report.strobes = d.report.strobes + 1) ∧
      s.run [.reportHoldChange (.asserted true), .reportWordTransmitted, .reportWordTransmitted] = one ∧
      s.run [.reportHoldChange (.asserted false), .reportWordTransmitted] = s.run [.reportHoldChange (.asserted false)])

/-- FEED_HELD_CHANGE, DRAIN_COMPLETION (R150, R156, R194): the level of the line; in DRAIN with the queue empty and
FEED-HELD asserted the mode becomes IDLE, the cells are left to nobody and every staged write is applied, leaving the
Pending Write Queue empty. That a capacity clamped by such a write stops at 65535 is the model's reading (log 17), and so
is that what a change of Settings calls for is tested once, after the application (log 19, log 20). -/
def Obligations.FeedHeldAndDrainCompletion : Prop :=
  (∀ (s : State) (level : Bool), let d := s.dev
    let x := { d with inputs := { d.inputs with feedHeld := level } }
    (level = true → d.line.mode = .drain → d.track.queue = [] →
      exec (.feedHeldChange level) s = s.after (completeDrain x)) ∧
    (level = false ∨ d.line.mode ≠ .drain ∨ d.track.queue ≠ [] →
      exec (.feedHeldChange level) s = s.after x) ∧
    (d.line.mode = .drain → d.track.queue = [] → d.inputs.feedHeld = true →
      exec .drainCompletion s = s.after (completeDrain d)) ∧
    (d.line.mode ≠ .drain ∨ d.track.queue ≠ [] ∨ d.inputs.feedHeld = false →
      exec .drainCompletion s = s.after d)) ∧
  (∀ d : Device, let d' := completeDrain d
    let staged := d.window.groups.flatten ++ d.openGroup
    let i : Device := { d with
      track := { d.track with
        occupants := Vector.replicate 21 .nobody
        jam := Vector.replicate 21 none
        twist := none
        turn := none }
      stacker := { d.stacker with gates := Vector.replicate 16 none }
      window := { d.window with groups := [] }
      command := match d.command with
        | .receiving f => .receiving { f with group := [] }
        | .free => .free
        | .waiting rest begun => .waiting rest begun
      line := { d.line with mode := .idle } }
    d'.line.mode = .idle ∧ (∀ row : Fin 21, d'.track.occupants[row] = .nobody ∧ d'.track.jam[row] = none) ∧
    d'.twistLine = false ∧ d'.turnLine = false ∧ (∀ k : Fin 16, d'.gateLine k = false) ∧
    d'.window.groups = [] ∧ d'.openGroup = [] ∧ d'.track = i.track ∧ d'.command = i.command ∧
    d'.inputs = d.inputs ∧ d'.clock = d.clock ∧ d'.feed = d.feed ∧
    d'.imprint = d.imprint ∧ d'.tally.totals = d.tally.totals ∧ d'.tally.period = d.tally.period ∧
    d'.window.selection = d.window.selection ∧ (∀ c, d'.attention.latch c = d.attention.latch c) ∧
    d'.attention.mask = d.attention.mask ∧
    (d.canonical → (∀ w ∈ staged, w.inTable) → i.TakesWrites staged d' ∧
      d'.line.gapPulses = d.line.gapPulses + if staged ≠ [] ∧ d'.num 0 0 8 ≠ 0 then 1 else 0))

/-- BIN_OUT_SWITCH_ASSERTION, BIN_OUT_SWITCH_RELEASE (R117, R124 to R127): the switch held field, and the out request or
return request made by the edge, by the bin's state and committed count. -/
def Obligations.BinOutSwitches : Prop :=
  ∀ (s : State) (k : Fin 16), let d := s.dev; let b := d.bin k
    let lined (level : Bool) : Device := { d with inputs := { d.inputs with binOut := upd d.inputs.binOut k level } }
    (d.inputs.resetLine = true → exec (.binOutSwitchAssertion k) s = s.after (lined true) ∧
      exec (.binOutSwitchRelease k) s = s.after (lined false)) ∧
    (d.inputs.resetLine = false → k = 0 → d.active = true →
      exec (.binOutSwitchAssertion k) s = s.after ((lined true).setBin k { b with held := true })) ∧
    (d.inputs.resetLine = false → k ≠ 0 ∨ d.active = false →
      exec (.binOutSwitchAssertion k) s = s.after (reportConditions ((lined true).setBin k
        { b with
          held := true
          state := if b.state = .out ∨ b.state = .outPending then b.state
            else if b.committed = 0 then .out else .outPending }))) ∧
    (d.inputs.resetLine = false →
      let fill := if b.state = .outPending then b.fill else 0
      exec (.binOutSwitchRelease k) s = s.after (reportConditions ((lined false).setBin k
        { b with
          held := false
          fill := fill
          state := if d.binEnable k = false then .disabled
            else if k = 0 then .active
            else if fill + b.committed < d.binCapacity k then .active
            else .full })))

/-! ## The Feed Link and the scan parts -/

/-- FEED_LINK_WORD (R164, R165): a word presented while RESET is asserted is lost; it is taken while the FIFO has room,
LINK-BUSY rising at 480 words, and otherwise stays presented, to be taken when a word leaves the FIFO. -/
def Obligations.FeedLinkWordTaken : Prop :=
  ∀ (s : State) (w : LinkWord), let d := s.dev
    (d.inputs.resetLine = true → exec (.feedLinkWord w) s = s.after d) ∧
    (d.inputs.resetLine = false → d.feed.presented = [] → d.feed.fifo.length < 512 →
      exec (.feedLinkWord w) s = s.after { d with feed := { d.feed with
        fifo := d.feed.fifo ++ [w], busy := d.feed.busy || decide (d.feed.fifo.length = 479) } }) ∧
    (d.inputs.resetLine = false → d.feed.presented ≠ [] ∨ 512 ≤ d.feed.fifo.length →
      exec (.feedLinkWord w) s = s.after { d with feed := { d.feed with presented := d.feed.presented ++ [w] } }) ∧
    (∀ v rest ps, d.command = .free → d.feed.delim = .discard → v.head = false → d.feed.fifo = v :: rest →
      rest.length = 511 → d.feed.presented = w :: ps →
      exec .frameDelimiterTake s = s.after { d with feed := { d.feed with fifo := rest ++ [w], presented := ps } })

/-- FRAME_DELIMITER_TAKE (R164, R167 to R169, R184 to R186): nothing on an empty FIFO or while a response waits; body
words by the delimiter's state, those of an open-ended frame going to the Command Unit; head words of an unknown kind,
of a bad count, of a frame that opens or is complete; a frame cut short, whatever head word cuts it; an open-ended frame
closed by the head word behind it, which is taken only once that frame is answered. That a body word after an overflow
still adds to the frame's body words is the model's reading (log 27), and so is that the closing frame's answer is
placed before the apply point is tested (log 29), that a capacity clamped by a word written at once stops at 65535 (log
17), and when what a change of Settings calls for is tested (log 19, log 20). -/
def Obligations.DelimiterTakesWords : Prop :=
  ∀ (s : State), let d := s.dev
    (d.feed.fifo = [] ∨ d.responseWaiting = true → exec .frameDelimiterTake s = s.after d) ∧
    (∀ w rest, d.feed.fifo = w :: rest → d.feed.presented = [] → d.command = .free →
      let moved (y : Delimiter) : Device :=
        { d.shrunk rest with feed := { (d.shrunk rest).feed with delim := y } }
      let counted (kind : FrameKind) (q : BitVec 8) : Device :=
        { d.shrunk rest with feed := { (d.shrunk rest).feed with
          delim := .excess kind q
          excess := match kind with
            | .command _ => min 65535 (d.feed.excess + 1)
            | .scan _ => d.feed.excess } }
      (w.head = false →
        (d.feed.delim = .noFrame → exec .frameDelimiterTake s = s.after ((moved .stray).erred .strayBody)) ∧
        (d.feed.delim = .stray ∨ d.feed.delim = .discard →
          exec .frameDelimiterTake s = s.after (d.shrunk rest)) ∧
        (∀ kind q, d.feed.delim = .complete kind q →
          exec .frameDelimiterTake s = s.after ((counted kind q).erred (.excessBody kind q))) ∧
        (∀ kind q, d.feed.delim = .excess kind q → exec .frameDelimiterTake s = s.after (counted kind q)) ∧
        (∀ kind q body n, d.feed.delim = .opened kind q body → bodyLength kind q = some n → body.length + 1 < n →
          exec .frameDelimiterTake s = s.after (moved (.opened kind q (body ++ [w.data]))))) ∧
      (w.head = true → d.feed.delim.settled = true →
        (frameKindOf (headKind w.data) = none →
          exec .frameDelimiterTake s = s.after ((moved .discard).erred (.unknownKind w.data))) ∧
        (∀ side, frameKindOf (headKind w.data) = some (.scan side) → 8 < (headQualifier w.data).toNat →
          exec .frameDelimiterTake s = s.after
            ((moved .discard).erred (.badCount side (headQualifier w.data).toNat))) ∧
        (∀ side, frameKindOf (headKind w.data) = some (.scan side) → (headQualifier w.data).toNat ≤ 8 →
          exec .frameDelimiterTake s = s.after (moved (.opened (.scan side) (headQualifier w.data) []))) ∧
        (∀ c n, frameKindOf (headKind w.data) = some (.command c) →
          bodyLength (.command c) (headQualifier w.data) = some (n + 1) →
          exec .frameDelimiterTake s = s.after (moved (.opened (.command c) (headQualifier w.data) [])))) ∧
      (w.head = true → ∀ kind q body n c m, d.feed.delim = .opened kind q body → bodyLength kind q = some n →
        frameKindOf (headKind w.data) = some (.command c) →
        bodyLength (.command c) (headQualifier w.data) = some (m + 1) →
        exec .frameDelimiterTake s = s.after
          ((moved (.opened (.command c) (headQualifier w.data) [])).erred (.shortFrame kind body.length n))) ∧
      (w.head = false → ∀ kind q body, d.feed.delim = .opened kind q body →
        bodyLength kind q = some (body.length + 1) →
        exec .frameDelimiterTake s = s.after
          (handOn (pulseNext s.pending) (moved (.complete kind q)) kind q (body ++ [w.data]))) ∧
      (w.head = true → d.feed.delim.settled = true → ∀ c, frameKindOf (headKind w.data) = some (.command c) →
        let q := headQualifier w.data
        let opened (r : Option ResultCode) (place : Nat) : CommandState := .receiving
          { kind := c, tag := q, bodyWords := 0, refusal := r, start := place, overflowed := false, group := [],
            written := 0, pastEnd := 0, readOnly := 0 }
        let x := moved (.openEnded (.command c) q)
        (bodyLength (.command c) q = some 0 →
          exec .frameDelimiterTake s = s.after
            (handOn (pulseNext s.pending) (moved (.complete (.command c) q)) (.command c) q [])) ∧
        (c = .nop → exec .frameDelimiterTake s = s.after { x with command := opened none 0 }) ∧
        (c = .writeWindow ∨ c = .writeContinue →
          (d.window.selection = none →
            exec .frameDelimiterTake s = s.after { x with command := opened (some .noWindow) 0 }) ∧
          (∀ v, d.window.selection = some v →
            (v.table = 13 ∨ v.table = 14 →
              exec .frameDelimiterTake s = s.after { x with command := opened (some .readOnly) 0 }) ∧
            (v.table = 7 → d.line.mode ≠ .idle →
              exec .frameDelimiterTake s = s.after { x with command := opened (some .refusedMode) 0 }) ∧
            (v.table ≠ 13 → v.table ≠ 14 → (v.table = 7 → d.line.mode = .idle) →
              (d.active = true → 32 ≤ d.window.groups.length →
                exec .frameDelimiterTake s = s.after { x with command := opened (some .pendingFull) 0 }) ∧
              (d.active = false ∨ d.window.groups.length < 32 →
                let place := if c = .writeWindow then 0 else v.cursor
                exec .frameDelimiterTake s = s.after
                  { x with
                    command := opened none place
                    window := { d.window with selection := some { v with cursor := place } } })))))) ∧
    (∀ w rest kind q f, d.feed.fifo = w :: rest → d.feed.presented = [] → d.feed.delim = .openEnded kind q →
      d.command = .receiving f →
      let g := { f with bodyWords := f.bodyWords + 1 }
      let placed (f : OpenFrame) (v : Window) : Device :=
        { d.shrunk rest with command := .receiving f, window := { d.window with selection := some v } }
      (w.head = false → f.kind = .nop ∨ f.refusal ≠ none ∨ f.overflowed = true →
        exec .frameDelimiterTake s = s.after { d.shrunk rest with command := .receiving g }) ∧
      (w.head = false → f.kind ≠ .nop → f.refusal = none → f.overflowed = false → ∀ v, d.window.selection = some v →
        let place := v.place v.cursor
        let cell : CellWrite :=
          { table := v.table, row := place.1, field := place.2, value := heldValue v.table place.2 w.data }
        let cells := d.window.groups.flatten.length + f.group.length
        (v.size ≤ v.cursor →
          exec .frameDelimiterTake s = s.after (placed { g with pastEnd := f.pastEnd + 1 } v)) ∧
        (v.cursor < v.size → cellReadOnly v.table place.1 place.2 = true →
          exec .frameDelimiterTake s = s.after (placed { g with readOnly := f.readOnly + 1 } v.advance)) ∧
        (v.cursor < v.size → cellReadOnly v.table place.1 place.2 = false → d.active = true → cells < 256 →
          exec .frameDelimiterTake s = s.after
            (placed { g with group := f.group ++ [cell], written := f.written + 1 } v.advance)) ∧
        (v.cursor < v.size → cellReadOnly v.table place.1 place.2 = false → d.active = true → 256 ≤ cells →
          exec .frameDelimiterTake s = s.after
            (placed { g with group := [], overflowed := true } { v with cursor := f.start })) ∧
        (v.cursor < v.size → cellReadOnly v.table place.1 place.2 = false → d.active = false → d.canonical →
          v.inTable → ∃ y, exec .frameDelimiterTake s = s.after y ∧
            Device.TakesWrites (placed { g with written := f.written + 1 } v.advance) [cell] y)) ∧
      (w.head = true →
        let e := closeFrame { d with feed := { d.feed with delim := .complete kind q } }
        (e.responseWaiting = true → exec .frameDelimiterTake s = s.after e) ∧
        (e.responseWaiting = false → exec .frameDelimiterTake s = exec .frameDelimiterTake { s with dev := e }) ∧
        (d.tally.page = none → d.tally.deferred = none → 5 + (frameAnswer f).words.length ≤ d.reportRoom →
          let z : Device :=
            { d with
              command := .free
              feed := { d.feed with delim := .complete kind q, excess := 0 }
              window := { d.window with
                groups := if f.group = [] then d.window.groups else d.window.groups ++ [f.group] }
              report := { d.report with
                queue := d.report.queue ++ linkFrame (responseWords f.kind f.tag d.feed.excess (frameAnswer f)) } }
          e = if f.group = [] then z else applyPoint z))) ∧
    (∀ w rest kind q body n, d.feed.fifo = w :: rest → d.responseWaiting = false → w.head = true →
      d.feed.delim = .opened kind q body → bodyLength kind q = some n →
      exec .frameDelimiterTake s = exec .frameDelimiterTake
        { s with
          dev := ({ d with feed := { d.feed with delim := .discard } } : Device).erred
            (.shortFrame kind body.length n) })

/-- R167, R169, R170: a fixed frame whose words stand at the head of the FIFO is handed on by the take of its last word,
the words after it left in the FIFO; a part with no word of the link before it hands on the frame of a row of the table
in the same way, as that row comes. What is handed on is executed, but for a CLOSE TALLY that a SECOND pulse standing
next in the queue may arrive together with (R110, log 32; CloseTallyAnswered). With nothing behind the frame the takes
and the row leave one and the same part. -/
def Obligations.FixedFrameWordByWordIsItsRow : Prop :=
  (∀ (s : State) (w : LinkWord) (kind : FrameKind) (body : List Word) (rest : List LinkWord) (row : Instr),
    let d := s.dev
    let q := headQualifier w.data
    let takes := s.run (List.replicate (body.length + 1) .frameDelimiterTake)
    d.listening → d.feed.presented = [] → w.head = true → frameKindOf (headKind w.data) = some kind →
    (∀ side, kind = .scan side → q.toNat ≤ 8) → bodyLength kind q = some body.length →
    d.feed.fifo = w :: body.map (fun v => { head := false, data := v }) ++ rest →
    takes =
      { s with
        dev := handOn (pulseNext s.pending)
          { d.shrunk rest with feed := { (d.shrunk rest).feed with delim := .complete kind q } } kind q body } ∧
    (frameRow kind q body = some row → ∀ t : State, t.dev.ready → exec row t = t.after (handOn (pulseNext t.pending)
      { t.dev with feed := { t.dev.feed with delim := .complete kind q } } kind q body)) ∧
    (frameRow kind q body = some row → rest = [] →
      exec row { s with dev := d.shrunk [] } = .next takes)) ∧
  (∀ (pulse : Bool) (d : Device) (c : CommandKind) (q : BitVec 8) (body : List Word), pulse = false ∨ c ≠ .closeTally →
    handOn pulse d (.command c) q body = execute c q (runCommand c body) d) ∧
  (∀ q : BitVec 8, bodyLength (.scan .a) q = some (3 + 3 * q.toNat) ∧
    bodyLength (.scan .b) q = some (2 + 3 * q.toNat))

/-- 12.2: a scan part is read back from its words, whatever the bits that are not read. -/
def Obligations.ScanPartWordsReadBack : Prop :=
  let zoneBits (z : Zone) : BitVec 2 := match z with
    | .top => 0 | .bottom => 1 | .illegal2 => 2 | .illegal3 => 3
  let lumBits (l : Lum) : BitVec 2 := match l with
    | .none => 0 | .phosphor => 1 | .fluor => 2 | .both => 3
  let words (o : Observation) (x y : BitVec 1) (height : BitVec 6) : List Word :=
    [o.signature, zoneBits o.zone ++ lumBits o.lum ++ BitVec.ofBool o.inkOver ++ o.confidence ++ o.widthMm ++ x,
      o.offsetMm ++ height ++ y]
  (∀ (tag : Word) (marks : BitVec 8) (g : Geometry) (obs : List (Observation × BitVec 1 × BitVec 1 × BitVec 6))
      (x : BitVec 5) (y : BitVec 7),
    scanPartOf .a (tag :: (marks ++ x ++ g.thickness) :: (y ++ g.lengthMm) ::
        obs.flatMap (fun o => words o.1 o.2.1 o.2.2.1 o.2.2.2)) =
      { side := .a, tag := tag, marksFound := marks, geometry := some g, observations := obs.map (fun o => o.1) }) ∧
  (∀ (tag : Word) (marks : BitVec 8) (obs : List (Observation × BitVec 1 × BitVec 1 × BitVec 6)) (x : BitVec 8),
    scanPartOf .b (tag :: (marks ++ x) :: obs.flatMap (fun o => words o.1 o.2.1 o.2.2.1 o.2.2.2)) =
      { side := .b, tag := tag, marksFound := marks, geometry := none, observations := obs.map (fun o => o.1) })

/-- SCAN_PART (R30, R168): a part of more than 8 observations is a BAD_COUNT (that the row of a whole part meets the
check of its head word is log 22); in IDLE and HALTED a part is discarded and counted.
SCAN_PART (R33, R36): a part for a LATE record, of a new tag or of a side not yet received, gives it the tag and the
side; its content is discarded and one late part counted. -/
def Obligations.ScanPartsNotStored : Prop :=
  (∀ (s : State) (p : ScanPart), let d := s.dev
     (d.ready → 8 < p.observations.length → exec (.scanPart p) s = s.after
       (Device.erred { d with feed := { d.feed with delim := .discard } }
         (.badCount p.side p.observations.length))) ∧
     (d.ready → p.observations.length ≤ 8 → d.active = false → exec (.scanPart p) s = s.after
       { d.received p with tally := { d.tally with
         counters := upd d.tally.counters 53 (d.tally.counters[(53 : Fin 56)] + 1) } })) ∧
  (∀ (s : State) (p : ScanPart) (older rest : List ItemRecord) (r : ItemRecord), let d := s.dev
     d.ready → d.active = true → p.observations.length ≤ 8 → d.track.queue = older ++ r :: rest → r.state = .late →
     ((∀ q ∈ older, q.tag ≠ some p.tag) ∧ r.tag = some p.tag ∧ r.got p.side = false ∨
       (∀ q ∈ d.track.queue, q.tag ≠ some p.tag) ∧ (∀ q ∈ older, q.tag ≠ none) ∧ r.tag = none) →
     exec (.scanPart p) s = s.after
       { d.received p with
         track := { d.track with queue := d.track.queue.map (fun q =>
           if q.number = r.number then
             { q with
               tag := some p.tag
               gotA := q.gotA || decide (p.side = .a)
               gotB := q.gotB || decide (p.side = .b) }
           else q) }
         tally := { d.tally with
           counters := upd d.tally.counters 52 (d.tally.counters[(52 : Fin 56)] + 1) } })

/-- SCAN_PART (R31, R32, R37, R38): the second part of the record whose tag it carries makes it READY; a part of a new
tag goes to the oldest untagged record and makes it PARTIAL; the malformed checks of the part and of the offsets. -/
def Obligations.ScanPartBinds : Prop :=
  ∀ (s : State) (p : ScanPart) (older rest : List ItemRecord) (r : ItemRecord), let d := s.dev
    let stored (q : ItemRecord) : ItemRecord := match p.side with
      | .a => { q with gotA := true, obsA := p.observations, geometry := p.geometry }
      | .b => { q with gotB := true, obsB := p.observations }
    let bound (next : RecordState) (q : ItemRecord) : ItemRecord :=
      { stored q with
        tag := some p.tag
        state := next
        scanFault := q.scanFault || decide (p.marksFound.toNat ≠ p.observations.length) ||
          p.observations.any (fun o => decide (o.zone = .illegal2 ∨ o.zone = .illegal3)) ||
          (match (stored q).geometry with
            | some g => ((stored q).obsA ++ (stored q).obsB).any (fun o => decide (g.lengthMm < o.offsetMm))
            | none => false) }
    let after (next : RecordState) : Device :=
      { d.received p with track := { d.track with queue := d.track.queue.map (fun q =>
        if q.number = r.number then bound next q else q) } }
    d.ready → d.active = true → p.observations.length ≤ 8 → d.track.queue = older ++ r :: rest →
      ((∀ q ∈ older, q.tag ≠ some p.tag) → r.tag = some p.tag → r.got p.side = false → r.state ≠ .late →
        exec (.scanPart p) s = s.after (after .ready)) ∧
      ((∀ q ∈ d.track.queue, q.tag ≠ some p.tag) → (∀ q ∈ older, q.tag ≠ none) → r.tag = none → r.state ≠ .late →
        exec (.scanPart p) s = s.after (after .partial_))

/-- R34: a part whose tag no record carries, with every record tagged. R35: a part of a side its record has received
already, whatever the record's state. -/
def Obligations.OrphanAndDuplicateParts : Prop :=
  (∀ (s : State) (p : ScanPart), let d := s.dev
     d.ready → d.active = true → p.observations.length ≤ 8 → (∀ q ∈ d.track.queue, q.tag ≠ some p.tag) →
     (∀ q ∈ d.track.queue, q.tag ≠ none) →
     exec (.scanPart p) s = s.after ((d.received p).erred (.orphanPart p.side p.tag))) ∧
  (∀ (s : State) (p : ScanPart) (older rest : List ItemRecord) (r : ItemRecord), let d := s.dev
     d.ready → d.active = true → p.observations.length ≤ 8 → d.track.queue = older ++ r :: rest →
     (∀ q ∈ older, q.tag ≠ some p.tag) → r.tag = some p.tag → r.got p.side = true →
     exec (.scanPart p) s = s.after ((d.received p).erred (.duplicatePart p.side p.tag r.number)))

/-- R164, R169, R178: a frame that comes while RESET is asserted is not taken, and is lost (log 5). A frame that comes
while a response waits, or behind other words of the link, or that finds the response of the open-ended frame it ends
left waiting, is not taken as it comes: its words wait in the Feed Input FIFO in link order, as if presented one after
the other.
R167, R169: a frame that comes with no word before it, and that ends an open one whose response does not wait, is the
row taken by the part in which that frame has ended; what the end of a frame is: a fixed one short of its body is a
SHORT_FRAME, an open-ended one is closed and answered.
R170, R171, R178: a command whose response finds no room has its effect, and the response, built whole, waits: a fixed
command's, and an open-ended frame's at its end (R186). That the answer of an open-ended frame is placed, or waits,
before the apply point is tested (R192) is the model's reading (log 29). -/
def Obligations.ResponsesWaitAndFramesWithThem : Prop :=
  (∀ (i : Instr) (s : State) (kind : FrameKind) (q : BitVec 8) (body : List Word), rowFrame i = some (kind, q, body) →
     let d := s.dev
     let words := (frameWords kind q body).map Instr.feedLinkWord
     (d.inputs.resetLine = true → exec i s = s.after d) ∧
     (d.inputs.resetLine = false → d.responseWaiting = true ∨ d.feed.fifo ≠ [] ∨ d.feed.presented ≠ [] →
       exec i s = .next (s.run words)) ∧
     (d.inputs.resetLine = false → d.responseWaiting = false → d.feed.fifo = [] → d.feed.presented = [] →
       (endOpen d).responseWaiting = true → exec i s = .next (({ s with dev := endOpen d } : State).run words)) ∧
     (d.inputs.resetLine = false → d.responseWaiting = false → d.feed.fifo = [] → d.feed.presented = [] →
       (endOpen d).responseWaiting = false → exec i s = exec i { s with dev := endOpen d })) ∧
  (∀ d : Device,
     (d.feed.delim.settled = true → endOpen d = d) ∧
     (∀ kind q body n, d.feed.delim = .opened kind q body → bodyLength kind q = some n →
       endOpen d = ({ d with feed := { d.feed with delim := .discard } } : Device).erred
         (.shortFrame kind body.length n)) ∧
     (∀ kind q f, d.feed.delim = .openEnded kind q → d.command = .receiving f → d.tally.page = none →
       d.tally.deferred = none → 5 + (frameAnswer f).words.length ≤ d.reportRoom →
       let z : Device :=
         { d with
           command := .free
           feed := { d.feed with delim := .complete kind q, excess := 0 }
           window := { d.window with
             groups := if f.group = [] then d.window.groups else d.window.groups ++ [f.group] }
           report := { d.report with
             queue := d.report.queue ++ linkFrame (responseWords f.kind f.tag d.feed.excess (frameAnswer f)) } }
       endOpen d = if f.group = [] then z else applyPoint z)) ∧
  (∀ (kind : FrameKind) (q : BitVec 8) (body : List Word), ∃ h : Word,
     frameWords kind q body = { head := true, data := h } :: body.map (fun v => { head := false, data := v }) ∧
     frameKindOf (headKind h) = some kind ∧ headQualifier h = q) ∧
  (∀ (i : Instr) (s : State) (c : CommandKind) (tag : BitVec 8) (body : List Word) (e : Device) (a : Answer),
     let d := s.dev
     rowFrame i = some (.command c, tag, body) → bodyLength (.command c) tag ≠ none → d.ready →
     runCommand c body { d with feed := { d.feed with delim := .complete (.command c) tag } } = (e, a) →
     e.tally.page ≠ none ∨ e.tally.deferred = none → e.reportRoom < 5 + a.words.length → 5 + a.words.length ≤ 256 →
     exec i s = s.after
       { e with
         command := .waiting (linkFrame (responseWords c tag e.feed.excess a)) false
         feed := { e.feed with excess := 0 } }) ∧
  (∀ (d : Device) (kind : FrameKind) (q : BitVec 8) (f : OpenFrame),
     d.feed.delim = .openEnded kind q → d.command = .receiving f → d.tally.page ≠ none ∨ d.tally.deferred = none →
     d.reportRoom < 5 + (frameAnswer f).words.length →
     let z : Device :=
       { d with
         command := .waiting (linkFrame (responseWords f.kind f.tag d.feed.excess (frameAnswer f))) false
         feed := { d.feed with delim := .complete kind q, excess := 0 }
         window := { d.window with
           groups := if f.group = [] then d.window.groups else d.window.groups ++ [f.group] } }
     endOpen d = if f.group = [] then z else applyPoint z) ∧
  (∀ (s : State) (tag : BitVec 8), let d := s.dev
     d.ready → d.tally.page = none → d.tally.deferred = none → d.reportRoom < 6 →
     let x := { d.taken .holdFeed tag with line := { d.line with holdFeed := true } }
     exec (.holdFeed tag) s = s.after { x with
       command := .waiting (linkFrame
         [headWord 0x80 tag.toNat, headWord 0x28 0, word 1, word d.feed.excess, word 0,
           word x.feedStopCauses]) false }) ∧
  (∀ (s : State) (tag : BitVec 8) (words : List Word), let d := s.dev
     d.ready → d.tally.page ≠ none ∨ d.tally.deferred = none → d.reportRoom < 6 →
     exec (.nop tag words) s = s.after { d.taken .nop tag with
       command := .waiting (linkFrame
         [headWord 0x80 tag.toNat, headWord 0x20 0, word 1, word d.feed.excess, word 0, word (min 65535 words.length)])
         false })

/-! ## The modes -/

/-- ENTER_RUN (R12, R18, R42, R100, R148, R149, R191): in IDLE the Station Table check, and with every condition held
the entry to RUN; in RUN nothing, in DRAIN and HALTED a refusal. -/
def Obligations.EnterRunAnswered : Prop :=
  ∀ (s : State) (tag : BitVec 8), let d := s.dev
    let off (row : Nat) : Int := (d.num 7 row 0 : Nat)
    let lead : Int := (d.num 7 1 3 : Nat)
    let width : Int := (max 4 (d.num 7 3 1) : Nat)
    let enabled (k : Nat) : Prop := k < 16 ∧ d.num 6 k 0 ≠ 0
    let named (row : Nat) : Prop :=
      (row = 1 ∧ ¬ 0 < off 1 - lead) ∨ (row = 2 ∧ ¬ off 1 < off 2) ∨
      (row = 3 ∧ (¬ off 2 < off 3 ∨ ¬ off 1 - lead < off 3 - width)) ∨
      (row = 4 ∧ (¬ off 3 < off 4 ∨ ∃ k, enabled k ∧ ¬ off (5 + k) < off 4)) ∨
      (∃ k, row = 5 + k ∧ enabled k ∧ ¬ off 3 < off (5 + k))
    let watched (row : Fin 21) : Prop := row.val < 5 ∨ d.num 6 (row.val - 5) 0 ≠ 0
    d.clear 7 →
    (d.line.mode = .idle → (∀ row, ¬ named row) →
      ∃ e, exec (.enterRun tag) s = s.after (e.answered .enterRun tag (.done [1, word d.track.queue.length])) ∧
        e = reportConditions { d with
          track := { d.track with inService := e.track.inService, occupants := e.track.occupants, jam := e.track.jam }
          classifier := { d.classifier with suspect := 0 }
          imprint := { d.imprint with printFault := d.imprint.printFault && !d.inputs.printReady }
          line := { d.line with mode := .run }
          window := { d.window with
            gap := if d.inputs.blocked[(0 : Fin 21)] then .closed
              else if d.num 0 0 7 = 0 then .met
              else .opened d.track.encoder } } ∧
        (∀ k : Fin 16, e.track.inService[k] = decide (d.num 6 k.val 0 ≠ 0)) ∧
        (∀ row : Fin 21, d.inputs.blocked[row] = true → watched row →
          e.track.occupants[row] = .stray ∧ (d.num 7 row.val 2 ≠ 0 →
            e.track.jam[row] = some (d.track.encoder + counts (d.num 7 row.val 2) + 1))) ∧
        (∀ row : Fin 21, d.inputs.blocked[row] = false ∨ ¬ watched row →
          e.track.occupants[row] = d.track.occupants[row] ∧ e.track.jam[row] = d.track.jam[row])) ∧
    (d.line.mode = .idle → ∀ row, named row → (∀ other, named other → row ≤ other) →
      exec (.enterRun tag) s = s.after (d.answered .enterRun tag
        { code := .badStations, detail := row, words := [0, word d.track.queue.length] })) ∧
    (d.line.mode = .run → exec (.enterRun tag) s = s.after (d.answered .enterRun tag
      (.done [1, word d.track.queue.length]))) ∧
    (d.line.mode = .drain → exec (.enterRun tag) s = s.after (d.answered .enterRun tag
      { code := .refusedMode, detail := 0, words := [2, word d.track.queue.length] })) ∧
    (d.line.mode = .halted → exec (.enterRun tag) s = s.after (d.answered .enterRun tag
      { code := .refusedMode, detail := 0, words := [3, word d.track.queue.length] }))

/-- DRAIN, HALT, RESUME (R148, R150, R151, R152), each by the mode in force, with its two result words.
HALT in IDLE, RUN and DRAIN, and DRAIN in RUN that completes at once (R150, R151): the part after it is the part entered
to HALTED, as `EntryToHalted` has it, or drained to IDLE, as `FeedHeldAndDrainCompletion` has it, with the frame taken
and its answer at the tail of the Report Queue. The room asked for holds the answer and the batch of item reports, which
an applied Settings write may have offered before it (R144). Where a page or a response waits the entry is the same and
the answer follows R177. -/
def Obligations.DrainHaltResume : Prop :=
  (∀ (s : State) (tag : BitVec 8), let d := s.dev
     let n := word d.track.queue.length
     d.clear 7 →
     (d.line.mode = .run → d.track.queue ≠ [] ∨ d.inputs.feedHeld = false → exec (.drain tag) s = s.after
       (Device.answered { d with line := { d.line with mode := .drain } } .drain tag (.done [2, n]))) ∧
     (d.line.mode = .drain → exec (.drain tag) s = s.after (d.answered .drain tag (.done [2, n]))) ∧
     (d.line.mode = .idle ∨ d.line.mode = .halted → exec (.drain tag) s = s.after (d.answered .drain tag
       { code := .refusedMode, detail := 0, words := [word d.line.mode.code, n] })) ∧
     (d.line.mode = .halted → exec (.halt tag) s = s.after (d.answered .halt tag (.done [3, n]))) ∧
     (d.line.mode = .halted → d.track.queue = [] → exec (.resume tag) s = s.after
       ((reportConditions { d with
         line := { d.line with mode := .idle }
         track := { d.track with
           occupants := Vector.replicate 21 .nobody
           jam := Vector.replicate 21 none } }).answered .resume tag (.done [0, 0]))) ∧
     (d.line.mode = .halted → d.track.queue ≠ [] → exec (.resume tag) s = s.after (d.answered .resume tag
       { code := .queueNotEmpty, detail := 0, words := [3, n] })) ∧
     (d.line.mode ≠ .halted → exec (.resume tag) s = s.after (d.answered .resume tag
       { code := .refusedMode, detail := 0, words := [word d.line.mode.code, n] }))) ∧
  (∀ (s : State) (tag : BitVec 8), let d := s.dev
     let n := word d.track.queue.length
     let taken (k : CommandKind) : Device := { d with feed := { d.feed with delim := .complete (.command k) tag } }
     let halt := enterHalted (taken .halt)
     let drain := completeDrain { taken .drain with line := { d.line with mode := .drain } }
     let kept (x : Device) : Prop :=
       x.track.encoder = d.track.encoder ∧ x.inputs = d.inputs ∧ x.clock = d.clock ∧
       x.tally.totals = d.tally.totals ∧ x.feed.fifo = d.feed.fifo
     let halted (x : Device) : Prop :=
       x.line.mode = .halted ∧ x.stop = true ∧ x.track.twist = none ∧ x.track.turn = none ∧
       x.stacker.gates = Vector.replicate 16 none ∧ x.classifier.busy = none ∧ x.imprint.printing = none ∧
       x.imprint.builder = none ∧ x.window.groups = [] ∧ x.track.occupants = d.track.occupants ∧
       x.track.queue.map (fun r => (r.number, r.state, r.route, r.seen, r.faceCheck)) =
         d.track.queue.map (fun r => (r.number, r.state, r.route, r.seen, r.faceCheck)) ∧ kept x
     let drained (x : Device) : Prop :=
       x.line.mode = .idle ∧ x.window.groups = [] ∧ x.imprint = d.imprint ∧
       (∀ row : Fin 21, x.track.occupants[row] = .nobody ∧ x.track.jam[row] = none) ∧ kept x
     let room : Prop := d.clear (7 + 7 * d.tally.batch.length) ∧ ∀ r ∈ d.tally.batch, r.length = 6
     (room → d.line.mode ≠ .halted → exec (.halt tag) s = s.after (halt.answered .halt tag (.done [3, n]))) ∧
     (room → d.line.mode = .run → d.track.queue = [] → d.inputs.feedHeld = true →
       exec (.drain tag) s = s.after (drain.answered .drain tag (.done [0, n]))) ∧
     (d.ready → d.line.mode ≠ .halted → halted halt ∧ ∃ d', exec (.halt tag) s = s.after d' ∧ halted d') ∧
     (d.ready → d.line.mode = .run → d.track.queue = [] → d.inputs.feedHeld = true →
       drained drain ∧ ∃ d', exec (.drain tag) s = s.after d' ∧ drained d'))

/-- PURGE_TRACK, SOFT_RESET (R24, R148, R153): every record, in queue order, is removed PURGED as `RemovalEffects` has
it; what a purge and a soft reset clear and keep; the part after the command is the part so purged and cleared, with the
frame taken and its answer at the tail of the Report Queue; PURGE TRACK outside HALTED. The room asked for holds the
answer and the item reports of the records removed (R143 to R145). Where a page or a response waits the effect is the
same and the answer follows R177. -/
def Obligations.PurgeTrackAndSoftReset : Prop :=
  ∀ (s : State) (tag : BitVec 8), let d := s.dev
    let n := d.track.queue.length
    let taken (k : CommandKind) : Device := { d with feed := { d.feed with delim := .complete (.command k) tag } }
    let removed (k : CommandKind) : Device :=
      (d.track.queue.map ItemRecord.number).foldl (fun x m => removeRecord x m .purged) (taken k)
    let purged := removed .purgeTrack
    let cleared := softClear (removed .softReset)
    let emptied (e : Device) : Prop :=
      e.track.queue = [] ∧
      e.tally.totals = { d.tally.totals with purged := d.tally.totals.purged + BitVec.ofNat 32 n } ∧
      e.inputs = d.inputs ∧ e.clock = d.clock ∧ e.track.encoder = d.track.encoder ∧
      e.track.admission = d.track.admission ∧ e.attention.mask = d.attention.mask ∧ e.feed.fifo = d.feed.fifo
    let purgedOnly (e : Device) : Prop :=
      emptied e ∧ e.line = d.line ∧ e.window = d.window ∧ ∀ c, e.attention.latch c = d.attention.latch c
    let softened (e : Device) : Prop :=
      emptied e ∧ e.line = { mode := .idle, holdFeed := false, scanLock := false, gapPulses := d.line.gapPulses } ∧
      e.track.twist = none ∧ e.track.turn = none ∧ e.stacker.gates = Vector.replicate 16 none ∧
      (∀ row : Fin 21, e.track.occupants[row] = .nobody ∧ e.track.jam[row] = none) ∧
      e.window = { selection := none, groups := [], gap := .closed } ∧
      e.classifier = { busy := none, suspect := 0 } ∧
      e.imprint = { builder := none, ring := [], alloc := 0, sequence := d.imprint.sequence, printFault := false,
                    printing := none, printCol := 0, printStrobes := d.imprint.printStrobes,
                    strobed := d.imprint.strobed } ∧
      (∀ c, e.attention.latch c = none ∧ e.attention.condition c ≠ .activeSeen) ∧
      e.track.inService = d.track.inService ∧
      ∀ k : Fin 16, (e.bin k).fill = (d.bin k).fill ∧ (e.bin k).held = (d.bin k).held
    let room : Prop := d.clear (6 + 7 * (d.tally.batch.length + n)) ∧ ∀ r ∈ d.tally.batch, r.length = 6
    (room → d.line.mode = .halted →
      exec (.purgeTrack tag) s = s.after (purged.answered .purgeTrack tag (.done [word n]))) ∧
    (room → exec (.softReset tag) s = s.after (cleared.answered .softReset tag (.done [word n]))) ∧
    (d.ready → d.line.mode = .halted →
      purgedOnly purged ∧ purged.tables = d.tables ∧ purged.tally.period = d.tally.period ∧
      purged.tally.page = d.tally.page ∧ purged.tally.deferred = d.tally.deferred ∧
      ∃ d', exec (.purgeTrack tag) s = s.after d' ∧ purgedOnly d') ∧
    (d.ready →
      softened cleared ∧ cleared.tables = d.tables ∧ cleared.tally.period = d.tally.period ∧
      cleared.tally.page = d.tally.page ∧ cleared.tally.deferred = d.tally.deferred ∧
      ∃ d', exec (.softReset tag) s = s.after d' ∧ softened d') ∧
    (d.clear 6 → d.line.mode ≠ .halted → exec (.purgeTrack tag) s = s.after (d.answered .purgeTrack tag
      { code := .refusedMode, detail := 0, words := [0] }))

/-- HOLD_FEED, RELEASE_FEED, CLEAR_SCAN_LOCK (R44, R155). -/
def Obligations.FeedHoldAndScanLock : Prop :=
  ∀ (s : State) (tag : BitVec 8), let d := s.dev
    let hold (b : Bool) : Device := { d with line := { d.line with holdFeed := b } }
    d.clear 6 →
    exec (.holdFeed tag) s =
      s.after ((hold true).answered .holdFeed tag (.done [word (hold true).feedStopCauses])) ∧
    exec (.releaseFeed tag) s =
      s.after ((hold false).answered .releaseFeed tag (.done [word (hold false).feedStopCauses])) ∧
    exec (.clearScanLock tag) s =
      s.after (Device.answered { d with line := { d.line with scanLock := false } } .clearScanLock tag
        (.done [if d.line.scanLock then 1 else 0]))

/-- R19, R20, R119, R151, R155, R156, R161: the lines that follow other state: TWIST, TURN and the GATE lines, each
asserted while a record holds its order, STOP, FEED-STOP with its set of causes, the feeder handshake and ATTN.
R100, R122, R123, R160: when the sources report their conditions active, and what a report makes of a condition. -/
def Obligations.LinesFollowTheirState : Prop :=
  (∀ d : Device,
    (d.twistLine = true ↔ ∃ n, d.track.twist = some n) ∧ (d.turnLine = true ↔ ∃ n, d.track.turn = some n) ∧
    (∀ k : Fin 16, d.gateLine k = true ↔ ∃ n, d.stacker.gates[k] = some n) ∧
    (d.stop = true ↔ d.line.mode = .halted) ∧
    (d.feedStop = true ↔ d.line.mode ≠ .run ∨ 20 ≤ d.track.queue.length ∨
      (d.num 6 0 0 ≠ 0 ∧ d.num 6 0 1 ≤ (d.bin 0).fill) ∨ d.line.holdFeed = true ∨ d.line.scanLock = true) ∧
    (d.feedStopCauses.testBit 0 = true ↔ d.line.mode ≠ .run) ∧
    (d.feedStopCauses.testBit 1 = true ↔ 20 ≤ d.track.queue.length) ∧
    (d.feedStopCauses.testBit 2 = true ↔ d.num 6 0 0 ≠ 0 ∧ d.num 6 0 1 ≤ (d.bin 0).fill) ∧
    d.feedStopCauses.testBit 3 = d.line.holdFeed ∧ d.feedStopCauses.testBit 4 = d.line.scanLock ∧
    d.handshake = (if d.feedStop then (if d.inputs.feedHeld then 2 else 1)
      else if d.inputs.feedHeld then 3 else 0) ∧
    (d.attn = true ↔ d.attention.jam ≠ none ∨
      ∃ c : Cause, d.attention.mask.getLsbD c.priority = false ∧
        (d.attention.latch c ≠ none ∨ d.attention.condition c = .activeNew))) ∧
  (∀ d : Device,
    (d.rejectFullActive = true ↔ d.num 6 0 0 ≠ 0 ∧ d.num 6 0 1 ≤ (d.bin 0).fill) ∧
    (d.binFullActive = true ↔ ∃ k : Fin 16, k ≠ 0 ∧ (d.bin k).state = .full) ∧
    (d.printFaultActive = true ↔ d.imprint.printFault = true ∨
      d.inputs.printReady = false ∧ (d.line.mode = .run ∨ d.line.mode = .drain)) ∧
    reportConditions d =
      { d with
        attention := { d.attention with
          rejectFull := d.attention.rejectFull.on d.rejectFullActive
          binFull := d.attention.binFull.on d.binFullActive
          printFault := d.attention.printFault.on d.printFaultActive } }) ∧
  (∀ (c : Condition) (active : Bool),
    c.on active = if active = false then .inactive else if c = .inactive then .activeNew else c)

/-! ## The windows and the staged writes -/

/-- SELECT_WINDOW (R182): the six checks in order, and the window selected with its cursor at 0. R181: the rows and the
fields of the fifteen tables and the cells that are read-only. The greatest value of each field that may be written, a
value above it being held as it (R11, R49, R51, R60, R68, R79, R80, R82, R111, R116, R196), and the anchor, held at the
nearer limit of -320..+320 (R79). -/
def Obligations.SelectWindowAnswered : Prop :=
  (∀ (s : State) (tag : BitVec 8) (t r1 r2 f1 f2 x : Word), let d := s.dev
    let place : Nat :=
      if 14 < t.toNat then 1
      else if tableRows t.toNat ≤ r1.toNat then 2
      else if tableRows t.toNat ≤ r2.toNat ∨ r2.toNat < r1.toNat then 3
      else if tableFields t.toNat ≤ f1.toNat then 4
      else if tableFields t.toNat ≤ f2.toNat ∨ f2.toNat < f1.toNat then 5
      else if 3 < x.toNat then 6
      else 0
    let chosen : Window :=
      { table := t.toNat, firstRow := r1.toNat, lastRow := r2.toNat, firstField := f1.toNat, lastField := f2.toNat,
        order := if x.getLsbD 0 then .fieldFirst else .rowFirst,
        overrun := if x.getLsbD 1 then .wrap else .ignore, cursor := 0 }
    d.clear 6 →
    (place ≠ 0 → exec (.selectWindow tag t r1 r2 f1 f2 x) s = s.after (d.answered .selectWindow tag
      { code := .badParameter, detail := place, words := [0] })) ∧
    (place = 0 → exec (.selectWindow tag t r1 r2 f1 f2 x) s = s.after (Device.answered
      { d with window := { d.window with selection := some chosen } }
      .selectWindow tag (.done [word ((r2.toNat - r1.toNat + 1) * (f2.toNat - f1.toNat + 1))])))) ∧
  (List.range 15).map tableRows = [1, 512, 4, 16, 8, 41, 16, 21, 4, 16, 12, 128, 256, 62, 24] ∧
  (List.range 15).map tableFields = [9, 9, 6, 4, 3, 3, 7, 6, 30, 20, 3, 12, 2, 2, 23] ∧
  (∀ t r f : Nat, cellReadOnly t r f = true ↔
    (t = 6 ∧ 3 ≤ f) ∨
      (t = 7 ∧ ((r = 0 ∧ f < 2) ∨ (f = 3 ∧ r ≠ 1) ∨ ((f = 4 ∨ f = 5) ∧ r ≠ 3))) ∨ t = 13 ∨ t = 14) ∧
  (∀ (t f top : Nat) (v : Word),
    let line : List Nat := [319, 16, 20, 1, 1, 1]
    let tops : List (List Nat) :=
      [[1, 65535, 15, 1, 1, 999, 127, 65535, 1], [1, 65535, 3, 15, 65535, 15, 15, 3, 15], [15, 65535, 15, 15, 3, 15],
        [1, 511, 7, 65535], [1, 1, 1], [15, 1, 4], [1, 65535, 15], [65535, 255, 65535, 65535, 65535, 65535],
        [320, 0, 4, 319, 320, 4] ++ line ++ line ++ line ++ line, List.replicate 20 65535, List.replicate 3 65535,
        List.replicate 12 65535, List.replicate 2 65535]
    (¬ (t = 8 ∧ f = 1) → tops[t]?.bind (fun l => l[f]?) = some top →
      heldValue t f v = if top < v.toNat then word top else v) ∧
    heldValue 8 1 v =
      (if v.toInt < -320 then BitVec.ofInt 16 (-320) else if 320 < v.toInt then BitVec.ofInt 16 320 else v))

/-- READ_WINDOW, READ_CONTINUE (R183, R187): the two refusals, and the words read from the cursor on, with what a read
past the end gives under IGNORE and under WRAP and where the cursor is left.
R178: the response of a read of 251 words and more is longer than the Report Queue: on an empty queue its first 256
words enter and the rest waits to enter word by word; behind other words all of it waits.
The value of a cell: as applied (R187), but for the Bin Table's fields 3 to 6 (R116), the Tally Counters (R142) and the
23 fields of the Tracking Queue view, rows beyond the queue reading 0 (R25). -/
def Obligations.ReadsAnswered : Prop :=
  (∀ (s : State) (tag : BitVec 8) (n : Word), let d := s.dev
    d.clear 5 →
    (n.toNat < 1 ∨ 255 < n.toNat →
      exec (.readWindow tag n) s =
        s.after (d.answered .readWindow tag { code := .badParameter, detail := 1, words := [] }) ∧
      exec (.readContinue tag n) s =
        s.after (d.answered .readContinue tag { code := .badParameter, detail := 1, words := [] })) ∧
    (1 ≤ n.toNat → n.toNat ≤ 255 → d.window.selection = none →
      exec (.readWindow tag n) s =
        s.after (d.answered .readWindow tag { code := .noWindow, detail := 0, words := [] }) ∧
      exec (.readContinue tag n) s =
        s.after (d.answered .readContinue tag { code := .noWindow, detail := 0, words := [] }))) ∧
  (∀ (s : State) (tag : BitVec 8) (n : Word) (w : Window), let d := s.dev
    let size := (w.lastRow - w.firstRow + 1) * (w.lastField - w.firstField + 1)
    let value (k : Nat) : Word := match w.order with
      | .rowFirst => d.readCell w.table (w.firstRow + k / (w.lastField - w.firstField + 1))
          (w.firstField + k % (w.lastField - w.firstField + 1))
      | .fieldFirst => d.readCell w.table (w.firstRow + k % (w.lastRow - w.firstRow + 1))
          (w.firstField + k / (w.lastRow - w.firstRow + 1))
    let moved (c : Nat) : Device := { d with window := { d.window with selection := some { w with cursor := c } } }
    let ignored (c : Nat) : Answer := .done (word (n.toNat - (size - c)) ::
      (List.range n.toNat).map (fun k => if c + k < size then value (c + k) else 0))
    let wrapped (c : Nat) : Answer := .done (0 :: (List.range n.toNat).map (fun k => value ((c + k) % size)))
    let reads (answered : CommandKind → Device → Answer → Device) : Prop :=
      (w.overrun = .ignore →
        exec (.readWindow tag n) s = s.after (answered .readWindow (moved (min size n.toNat)) (ignored 0)) ∧
        exec (.readContinue tag n) s =
          s.after (answered .readContinue (moved (min size (w.cursor + n.toNat))) (ignored w.cursor))) ∧
      (w.overrun = .wrap →
        exec (.readWindow tag n) s = s.after (answered .readWindow (moved (n.toNat % size)) (wrapped 0)) ∧
        exec (.readContinue tag n) s =
          s.after (answered .readContinue (moved ((w.cursor + n.toNat) % size)) (wrapped w.cursor)))
    let long (k : CommandKind) (e : Device) (a : Answer) : Device :=
      let words := linkFrame (responseWords k tag d.feed.excess a)
      if d.report.queue = [] then
        { e.taken k tag with
          report := { d.report with queue := words.take 256 }
          command := .waiting (words.drop 256) true }
      else { e.taken k tag with command := .waiting words false }
    1 ≤ n.toNat → n.toNat ≤ 255 → d.window.selection = some w → d.cursorHeld →
    (d.clear (6 + n.toNat) → reads (fun k e a => e.answered k tag a)) ∧
    (251 ≤ n.toNat → d.ready → d.tally.page ≠ none ∨ d.tally.deferred = none → reads long)) ∧
  (∀ (d : Device) (t r f : Nat), t ≤ 12 → ¬ (t = 6 ∧ 3 ≤ f) → d.readCell t r f = d.cell t r f) ∧
  (∀ (d : Device) (k : Fin 16),
    d.readCell 6 k.val 3 = word (d.bin k).fill ∧ d.readCell 6 k.val 4 = word (d.bin k).committed ∧
    d.readCell 6 k.val 5 = (match (d.bin k).state with
      | .active => 0 | .full => 1 | .outPending => 2 | .out => 3 | .disabled => 4) ∧
    d.readCell 6 k.val 6 = if (d.bin k).held then 1 else 0) ∧
  (∀ (d : Device),
    let shows (row : Nat) (c : Count) : Prop :=
      d.readCell 13 row 0 = c.extractLsb' 16 16 ∧ d.readCell 13 row 1 = c.extractLsb' 0 16
    (∀ i : Fin 56, shows i.val d.tally.counters[i]) ∧ shows 56 d.tally.totals.admitted ∧
    shows 57 d.tally.totals.stacked ∧ shows 58 d.tally.totals.lost ∧ shows 59 d.tally.totals.missed ∧
    shows 60 d.tally.totals.purged ∧ shows 61 d.tally.totals.untracked) ∧
  (∀ (d : Device) (row f : Nat), d.track.queue.length ≤ row → d.readCell 14 row f = 0) ∧
  (∀ (d : Device) (row : Nat) (r : ItemRecord), d.track.queue[row]? = some r →
    let yes (b : Bool) : Word := if b then 1 else 0
    let shown : List Word :=
      [1, r.number, yes r.tag.isSome, r.tag.getD 0,
        (match r.state with
          | .awaitScan => 0 | .partial_ => 1 | .ready => 2 | .classifying => 3 | .decided => 4 | .late => 5),
        (match r.gotA, r.gotB with
          | false, false => 0 | true, false => 1 | false, true => 2 | true, true => 3),
        yes r.scanFault, (r.lead.extractLsb' 16 8).setWidth 16, r.lead.extractLsb' 0 16,
        (match r.length with
          | none => 0
          | some n => if n.toNat < 65536 then word n.toNat else 65535),
        yes r.length.isSome,
        (match r.disposition with
          | none => 0 | some .facedPaid => 1 | some .shortPaid => 2 | some .outOfGauge => 3 | some .reused => 4
          | some .noMark => 5 | some .ambiguous => 6 | some .scanFault => 7 | some .late => 8
          | some .faceFault => 9 | some .uncancelled => 10),
        (match r.positionCode with | none => 8 | some c => word c.val),
        (match r.route with | none => 16 | some t => word t.bin.val),
        (match r.route.map Route.via with
          | some .primary => 0 | some .alternate => 1 | some .reject => 2 | none => 3),
        (match r.imprint with
          | .none => 0 | .queued => 1 | .building => 2 | .built => 3 | .printing => 4 | .printed => 5
          | .underrun => 6 | .aborted => 7),
        (match r.faceCheck with | none => 0 | some .pass => 1 | some .fail => 2),
        (match r.seen.head?.map SeenAt.station with
          | none => 0 | some .twist => 1 | some .turn => 2 | some .cancel => 3 | some .exit => 4
          | some (.gate k) => word (5 + k.val)),
        (match r.chosen.map ChosenMark.row with
          | none => 65535 | some (.markClass n) => word n | some (.default n) => word (512 + n)),
        r.totalValue.getD 0, r.requiredValue.getD 0,
        (match r.buildDate with | none => 0 | some x => word x.year),
        (match r.buildDate with | none => 0 | some x => word (256 * x.month + x.day))]
    ∀ f v, shown[f]? = some v → d.readCell 14 row f = v)

/-- WRITE_WINDOW, WRITE_CONTINUE refused at opening (R184): the first check that applies; nothing changes, and the
response counts the words carried.
WRITE_WINDOW, WRITE_CONTINUE in RUN and DRAIN, over a window of one field that may be written, from a place with
room for the words (R183, R184, R186): the cells are staged as one group, the frame is answered and the apply point is
then tested (R192; the answer before the test: log 29); or, where the Pending Write Queue has no room for them, none is
staged and the cursor is put back.
Result word 1 of an overflowed frame counts every word carried (log 27). -/
def Obligations.WriteFrames : Prop :=
  (∀ (s : State) (tag : BitVec 8) (words : List Word) (code : ResultCode), let d := s.dev
     let answer : Answer := { code := code, detail := 0, words := [word (min 65535 words.length), 0, 0, 0] }
     d.clear 9 →
     (code = .noWindow ∧ d.window.selection = none) ∨
       (∃ w, d.window.selection = some w ∧
         ((code = .readOnly ∧ (w.table = 13 ∨ w.table = 14)) ∨
           (code = .refusedMode ∧ w.table = 7 ∧ d.line.mode ≠ .idle) ∨
           (code = .pendingFull ∧ w.table ≠ 13 ∧ w.table ≠ 14 ∧ w.table ≠ 7 ∧ d.active = true ∧
             32 ≤ d.window.groups.length))) →
     exec (.writeWindow tag words) s = s.after (d.answered .writeWindow tag answer) ∧
     exec (.writeContinue tag words) s = s.after (d.answered .writeContinue tag answer)) ∧
  (∀ (s : State) (tag : BitVec 8) (words : List Word) (w : Window), let d := s.dev
     let cells (c : Nat) : List CellWrite := (List.range words.length).map (fun k =>
       { table := w.table, row := w.firstRow + (c + k), field := w.firstField,
         value := heldValue w.table w.firstField (words.getD k 0) })
     let staged (c : Nat) : Device := { d with window := { d.window with
       selection := some { w with cursor := c + words.length }
       groups := if words = [] then d.window.groups else d.window.groups ++ [cells c] } }
     let putBack (c : Nat) : Device := { d with window := { d.window with selection := some { w with cursor := c } } }
     let done : Answer := .done [word (min 65535 words.length), word words.length, 0, 0]
     let full : Answer :=
       { code := .pendingFull, detail := 0, words := [word (min 65535 words.length), 0, 0, 0] }
     let tested (x : Device) : Device := if words = [] then x else applyPoint x
     d.clear 9 → d.active = true → d.window.selection = some w → w.firstField = w.lastField → w.order = .rowFirst →
     w.overrun = .ignore → (∀ row, cellReadOnly w.table row w.firstField = false) → w.table ≠ 7 →
     d.window.groups.length < 32 →
     (words.length ≤ w.lastRow - w.firstRow + 1 →
       (d.window.groups.flatten.length + words.length ≤ 256 →
         exec (.writeWindow tag words) s = s.after (tested ((staged 0).answered .writeWindow tag done))) ∧
       (words ≠ [] → 256 < d.window.groups.flatten.length + words.length →
         exec (.writeWindow tag words) s = s.after ((putBack 0).answered .writeWindow tag full))) ∧
     (w.cursor + words.length ≤ w.lastRow - w.firstRow + 1 →
       (d.window.groups.flatten.length + words.length ≤ 256 →
         exec (.writeContinue tag words) s = s.after (tested ((staged w.cursor).answered .writeContinue tag done))) ∧
       (words ≠ [] → 256 < d.window.groups.flatten.length + words.length →
         exec (.writeContinue tag words) s = s.after ((putBack w.cursor).answered .writeContinue tag full))))

/-- WRITE_WINDOW, WRITE_CONTINUE, COMPARE_WRITE in IDLE and HALTED (R185, R190): a word written at a cell of an artwork
table is in force at once, held by the field's range; every other cell keeps its value.
Any words written in any order of places through any window of tables 0 to 12, table 7 in IDLE alone, each at a cell
that may be written and none past the end (R183, R184, R185): the tables take them one after the other, each with all
that its table's rule makes of it, the cursor is moved on, and the frame is answered; and so the value of a COMPARE
WRITE (R190). The room asked for holds the answer and the batch of item reports, which a Settings write may have offered
before it (R144). The count of cells written answers round modulo 65536 (log 31: the model's choice), a capacity
clamped stops at 65535 (log 17), and what a change of Settings calls for is tested after each cell write (log 19, log
20). -/
def Obligations.WritesTakeEffectAtOnce : Prop :=
  (∀ (s : State) (tag : BitVec 8) (v : Word) (w : Window), let d := s.dev
    let row := w.firstRow
    let field := w.firstField
    let written (d' : Device) (c : Nat) : Prop :=
      d'.cell w.table row field = heldValue w.table field v ∧
      (∀ t r f : Nat, r < 512 → f < 32 → ¬ (t = w.table ∧ r = row ∧ f = field) → d'.cell t r f = d.cell t r f) ∧
      d'.window = { d.window with selection := some { w with cursor := c } } ∧ d'.track = d.track ∧
      d'.inputs = d.inputs ∧ d'.imprint = d.imprint ∧ d'.clock = d.clock ∧ d'.stacker = d.stacker ∧
      d'.line = d.line ∧ d'.command = .free ∧ d'.tally = d.tally ∧ d'.classifier = d.classifier
    d.clear 9 → d.active = false → d.canonical → d.window.selection = some w → w.lastRow = w.firstRow →
    w.lastField = w.firstField → w.overrun = .ignore → 8 ≤ w.table → w.table ≤ 12 → row < tableRows w.table →
    field < tableFields w.table →
    (∃ d', exec (.writeWindow tag [v]) s = s.after d' ∧ written d' 1 ∧
      d'.report.queue = d.report.queue ++ linkFrame
        (responseWords .writeWindow tag d.feed.excess (.done [1, 1, 0, 0]))) ∧
    (w.cursor = 0 → ∃ d', exec (.writeContinue tag [v]) s = s.after d' ∧ written d' 1 ∧
      d'.report.queue = d.report.queue ++ linkFrame
        (responseWords .writeContinue tag d.feed.excess (.done [1, 1, 0, 0]))) ∧
    (∀ x, d.stagedValue w.table row field = x → ∃ d',
      exec (.compareWrite tag (word w.table) (word row) (word field) x v) s = s.after d' ∧ written d' w.cursor ∧
      d'.report.queue = d.report.queue ++ linkFrame
        (responseWords .compareWrite tag d.feed.excess (.done [x])))) ∧
  (∀ (s : State) (tag : BitVec 8) (words : List Word) (w : Window), let d := s.dev
    let rows := w.lastRow - w.firstRow + 1
    let fields := w.lastField - w.firstField + 1
    let place (k : Nat) : Nat × Nat := match w.order with
      | .rowFirst => (w.firstRow + k / fields, w.firstField + k % fields)
      | .fieldFirst => (w.firstRow + k % rows, w.firstField + k / rows)
    let cells (c : Nat) : List CellWrite := (List.range words.length).map (fun k =>
      { table := w.table, row := (place ((c + k) % (rows * fields))).1, field := (place ((c + k) % (rows * fields))).2,
        value := heldValue w.table (place ((c + k) % (rows * fields))).2 (words.getD k 0) })
    let next (c : Nat) : Nat := match w.overrun with
      | .ignore => c + words.length
      | .wrap => (c + words.length) % (rows * fields)
    let moved (c : Nat) : Device :=
      { d with window := { d.window with selection := some { w with cursor := next c } } }
    let done : Answer := .done [word (min 65535 words.length), word words.length, 0, 0]
    let open_ (c : Nat) : Prop :=
      (w.overrun = .ignore → c + words.length ≤ rows * fields) ∧
        ∀ x ∈ cells c, cellReadOnly x.table x.row x.field = false
    d.clear (9 + 7 * d.tally.batch.length) → (∀ r ∈ d.tally.batch, r.length = 6) → d.active = false → d.canonical →
    d.window.selection = some w → d.cursorHeld → w.inTable → w.table ≤ 12 → (w.table = 7 → d.line.mode = .idle) →
    (open_ 0 → ∃ e, takesInTurn (cells 0) (moved 0) e ∧
      exec (.writeWindow tag words) s = s.after (e.answered .writeWindow tag done)) ∧
    (open_ w.cursor → ∃ e, takesInTurn (cells w.cursor) (moved w.cursor) e ∧
      exec (.writeContinue tag words) s = s.after (e.answered .writeContinue tag done))) ∧
  (∀ (s : State) (tag : BitVec 8) (t r f e v : Word), let d := s.dev
    let cell : CellWrite :=
      { table := t.toNat, row := r.toNat, field := f.toNat, value := heldValue t.toNat f.toNat v }
    let staged : Word := d.window.groups.flatten.foldl
      (fun x w => if w.table = t.toNat ∧ w.row = r.toNat ∧ w.field = f.toNat then w.value else x)
      (d.readCell t.toNat r.toNat f.toNat)
    d.clear (9 + 7 * d.tally.batch.length) → (∀ r ∈ d.tally.batch, r.length = 6) → d.active = false → d.canonical →
    cell.inTable → (t.toNat = 7 → d.line.mode = .idle) → staged = e →
    ∃ x, d.TakesWrites [cell] x ∧
      exec (.compareWrite tag t r f e v) s = s.after (x.answered .compareWrite tag (.done [e])))

/-- COMPARE_WRITE (R189, R190): the cases that change nothing, and the value staged in RUN and DRAIN as a group of its
own; the apply point is then tested (R192), and the response goes into the Report Queue after the batch of item reports
which an application may offer (R144, log 29): for both there must be room. -/
def Obligations.CompareWriteAnswered : Prop :=
  ∀ (s : State) (tag : BitVec 8) (t r f e v : Word), let d := s.dev
    let place : Nat := if 14 < t.toNat then 1 else if tableRows t.toNat ≤ r.toNat then 2
      else if tableFields t.toNat ≤ f.toNat then 3 else 0
    let staged : Word := d.window.groups.flatten.foldl
      (fun x w => if w.table = t.toNat ∧ w.row = r.toNat ∧ w.field = f.toNat then w.value else x)
      (d.readCell t.toNat r.toNat f.toNat)
    let readOnly := cellReadOnly t.toNat r.toNat f.toNat
    let refused (code : ResultCode) (x : Word) : Prop := exec (.compareWrite tag t r f e v) s =
      s.after (d.answered .compareWrite tag { code := code, detail := 0, words := [x] })
    let barred : Prop := t.toNat = 7 ∧ d.line.mode ≠ .idle
    let full : Prop := 32 ≤ d.window.groups.length ∨ 256 ≤ d.window.groups.flatten.length
    let queued : Device :=
      { d with
        feed := { d.feed with delim := .complete (.command .compareWrite) tag }
        window := { d.window with groups := d.window.groups ++
          [[{ table := t.toNat, row := r.toNat, field := f.toNat, value := heldValue t.toNat f.toNat v }]] } }
    d.clear 6 →
    (place ≠ 0 → exec (.compareWrite tag t r f e v) s =
      s.after (d.answered .compareWrite tag { code := .badParameter, detail := place, words := [0] })) ∧
    (place = 0 → readOnly = true → refused .readOnly 0) ∧
    (place = 0 → readOnly = false → barred → refused .refusedMode 0) ∧
    (place = 0 → readOnly = false → ¬ barred → staged ≠ e → refused .mismatch staged) ∧
    (place = 0 → readOnly = false → ¬ barred → staged = e → d.active = true → full → refused .pendingFull staged) ∧
    (place = 0 → readOnly = false → ¬ barred → staged = e → d.active = true → ¬ full →
      (d.window.gap ≠ .met ∨ d.classifier.busy ≠ none ∨ d.imprint.builder ≠ none →
        exec (.compareWrite tag t r f e v) s = s.after (queued.answered .compareWrite tag (.done [staged]))) ∧
      (d.clear (6 + 7 * d.tally.batch.length) → (∀ r ∈ d.tally.batch, r.length = 6) →
        exec (.compareWrite tag t r f e v) s = s.after
          ((applyPoint queued).answered .compareWrite tag (.done [staged]))))

/-- APPLY_POINT (R157, R192, R193): not taken unless its four terms hold; taken, every complete group is applied in
order as one event, with one GAP pulse if GAP sync is then on.
GAP_MET (R191, R192): an open gap becomes met when the encoder has run the gap distance, and the apply point is then
tested. A capacity is clamped as it is written, within the field (R118; that a clamp stops at 65535 is log 17); what a
change of Settings calls for is tested once, after the application (R193; log 19, log 20). -/
def Obligations.GapAndApplyPoint : Prop :=
  (∀ (s : State), let d := s.dev
     let terms : Prop := d.active = true ∧ d.window.groups ≠ [] ∧ d.window.gap = .met ∧ d.classifier.busy = none ∧
       d.imprint.builder = none
     (¬ terms → exec .applyPoint s = s.after d) ∧
     (terms → d.canonical → d.window.groups.flatten ≠ [] → (∀ w ∈ d.window.groups.flatten, w.inTable) →
       ∃ d', exec .applyPoint s = s.after d' ∧
         Device.TakesWrites { d with window := { d.window with groups := [] } } d.window.groups.flatten d' ∧
         d'.line.gapPulses = d.line.gapPulses + if d'.num 0 0 8 ≠ 0 then 1 else 0)) ∧
  (∀ (s : State), let d := s.dev
     (∀ p, d.window.gap = .opened p → d.active = true → d.num 0 0 7 ≤ (d.track.encoder - p).toNat →
       exec .gapMet s = s.after (applyPoint { d with window := { d.window with gap := .met } })) ∧
     ((∀ p, d.window.gap = .opened p → d.active = false ∨ (d.track.encoder - p).toNat < d.num 0 0 7) →
       exec .gapMet s = s.after (applyPoint d)) ∧
     ((∀ p, d.window.gap = .opened p → d.active = false ∨ (d.track.encoder - p).toNat < d.num 0 0 7) →
       d.window.gap ≠ .met → exec .gapMet s = s.after d)) ∧
  (∀ d : Device, d.applyReady = decide (d.active = true ∧ d.window.groups ≠ [] ∧ d.window.gap = .met ∧
      d.classifier.busy = none ∧ d.imprint.builder = none) ∧
    (d.applyReady = false → applyPoint d = d))

/-! ## Status, tallies, the clock, attention and the bins by command -/

/-- NOP, READ_STATUS (R174, R175, 12.4): no state changes; all 24 words of the status, composed at the taking, with
no page waiting; and behind a page that still waits, word 15 with its close causes; word 19 as it stands whenever the
command is taken. That the builder waits for ring room in RUN and DRAIN alone is the model's reading (log 23); when the
ring has room for a width is spelled in BuildBeginAndComplete. -/
def Obligations.NopAndReadStatus : Prop :=
  (∀ (s : State) (tag : BitVec 8) (words : List Word), s.dev.clear 6 →
    exec (.nop tag words) s = s.after (s.dev.answered .nop tag (.done [word (min 65535 words.length)]))) ∧
  (∀ (s : State) (tag : BitVec 8) (latches : Word) (waiting : Bool), let d := s.dev
    let one (p : Prop) [Decidable p] (weight : Nat) : Nat := if p then weight else 0
    let mode : Nat := match d.line.mode with
      | .idle => 0
      | .run => 1
      | .drain => 2
      | .halted => 3
    let condition (c : Condition) : Nat := match c with
      | .inactive => 0
      | .activeNew => 1
      | .activeSeen => 2
    let builds := d.track.queue.filter (fun r => decide (r.imprint = .queued))
    let halves (p : Pos) : List Word := [p.extractLsb' 16 8 |>.setWidth 16, p.extractLsb' 0 16]
    d.clear 29 →
    (∀ n, latches.getLsbD n = true ↔ ∃ c : Cause, c.priority = n ∧ d.attention.latch c ≠ none) →
    (waiting = true ↔ (d.line.mode = .run ∨ d.line.mode = .drain) ∧ d.imprint.builder = none ∧
      ∃ r rest, builds = r :: rest ∧
        ∀ c, r.cancel = some c → d.ringRoom (max 1 (d.num 8 c.template 0)) = false) →
    exec (.readStatus tag) s = s.after (d.answered .readStatus tag (.done (
      [word (16384 * mode + 4096 * d.handshake + d.feedStopCauses),
        word (one (d.classifier.busy ≠ none) 32768 + d.track.queue.length),
        d.classifier.busy.getD 0] ++ halves d.track.encoder ++
      [d.track.admission,
        word (d.classifier.suspect + one (d.line.scanLock = true) 16 + one (d.imprint.printFault = true) 32 +
          one (d.inputs.printReady = true) 64 + one (d.inputs.reportHold = true) 128 + one (d.feed.busy = true) 256),
        word d.clock.date.year,
        word (256 * d.clock.date.month + d.clock.date.day),
        word (256 * d.clock.hour + d.clock.minute),
        word (d.clock.second + one (d.clock.valid = true) 256 + one (d.clock.clamped = true) 512 +
          one (d.clock.adjust ≠ none) 1024),
        BitVec.ofInt 16 (d.clock.adjust.getD 0),
        word (d.imprint.sequence / 65536), word (d.imprint.sequence % 65536),
        d.tally.period,
        word 0,
        latches,
        word (condition d.attention.rejectFull + 4 * condition d.attention.binFull +
          16 * condition d.attention.printFault),
        d.attention.mask.setWidth 16,
        0,
        word d.report.queue.length,
        word (d.window.groups.flatten.length + 512 * d.window.groups.length +
          one (d.window.selection ≠ none) 32768),
        word (builds.length + 32 * (if d.imprint.builder ≠ none then 1 else if waiting then 2 else 0)),
        word (1024 - (d.imprint.ring.map (fun h => h.columns.length)).sum)])))) ∧
  (∀ (s : State) (tag : BitVec 8), let d := s.dev
    d.ready → d.tally.page ≠ none → 29 ≤ d.reportRoom → d.reportRoom < 149 →
    exec (.readStatus tag) s = s.after (d.answered .readStatus tag (.done d.statusWords))) ∧
  (∀ d : Device, d.statusWords.length = 24 ∧
    d.statusWords[15]? = some (word (
      (if d.tally.page ≠ none then 1 else 0) + (if d.tally.deferred ≠ none then 2 else 0) +
        match d.tally.deferred with
        | none => 0
        | some c => (if c.command then 4 else 0) + (if c.autoClose then 8 else 0))) ∧
    d.statusWords[19]? = some (word d.feed.fifo.length))

/-- R140: EXCHANGE_COUNTER, with no page waiting and behind a page that waits, which is not touched; a number above 55,
those of the line totals among them, changes nothing. A deferred close taken later freezes the counters as it then finds
them. -/
def Obligations.ExchangeCounter : Prop :=
  (∀ (s : State) (tag : BitVec 8) (number upper lower : Word), let d := s.dev
    d.clear 7 ∨ d.ready ∧ d.tally.page ≠ none ∧ 7 ≤ d.reportRoom ∧ d.reportRoom < 127 →
    (∀ i : Fin 56, number.toNat = i.val → exec (.exchangeCounter tag number upper lower) s = s.after (Device.answered
      { d with tally := { d.tally with counters := upd d.tally.counters i (upper ++ lower) } }
      .exchangeCounter tag (.done [(d.tally.counters[i]).extractLsb' 16 16, (d.tally.counters[i]).extractLsb' 0 16]))) ∧
    (55 < number.toNat → exec (.exchangeCounter tag number upper lower) s = s.after (d.answered .exchangeCounter tag
      { code := .badParameter, detail := 1, words := [0, 0] }))) ∧
  (∀ (d : Device) (causes : CloseCauses), d.tally.page = none → d.tally.deferred = some causes →
    ∃ p, (takeDeferred d).tally.page = some p ∧ p.counters = d.tally.counters ∧ p.period = d.tally.period)

/-- CLOSE_TALLY (R135 to R139, R177): with the page buffer empty the period closes, and the response and the page are
tested in the same step, the response first (log 15): both enter the Report Queue where both fit, the page
stands in the page buffer where the response alone fits, and behind the response where that waits too. Behind a page the
close is deferred, or joins the close already deferred; where that page now fits behind the response, it is placed and
the deferred close taken, its own page placed in turn or left (log 3). R110: with a SECOND pulse standing next in the
queue that rolls over with auto close on (log 32) the response alone is tested, and the page stays in the page buffer.
The last row of R110, each of the two taken first: the second finds the page buffer holding the page just frozen and is
deferred behind it; its step ends with the test, and with room for all the response and both pages leave. -/
def Obligations.CloseTallyAnswered : Prop :=
  (∀ (s : State) (tag : BitVec 8), let d := s.dev
    let beside : Prop := (∃ rest, s.pending = .secondPulse :: rest) ∧ d.rollsOver
    let page : TallyPage :=
      { period := d.tally.period, causes := { command := true, autoClose := false }, deferred := false,
        clockValid := d.clock.valid, date := d.clock.date, hour := d.clock.hour, minute := d.clock.minute,
        second := d.clock.second, admission := d.track.admission, counters := d.tally.counters }
    let closed : TallyUnit := { d.tally with
      page := some page, counters := Vector.replicate 56 0, period := d.tally.period + 1 }
    (d.clear 126 → ¬ beside →
      let a := Device.answered { d with tally := { closed with page := none } } .closeTally tag (.done [d.tally.period])
      exec (.closeTally tag) s = s.after
        { a with report := { a.report with queue := a.report.queue ++ linkFrame page.words } }) ∧
    (d.clear 6 → d.reportRoom < 126 ∨ beside → exec (.closeTally tag) s = s.after
      (Device.answered { d with tally := closed } .closeTally tag (.done [d.tally.period]))) ∧
    (d.ready → d.tally.page = none → d.tally.deferred = none → d.reportRoom < 6 →
      exec (.closeTally tag) s = s.after
        { d.taken .closeTally tag with
          command := .waiting
            (linkFrame (responseWords .closeTally tag d.feed.excess (.done [d.tally.period]))) false
          tally := closed }) ∧
    (∀ p, d.ready → d.tally.page = some p → 6 ≤ d.reportRoom → d.reportRoom < 126 ∨ beside →
      exec (.closeTally tag) s = s.after (Device.answered
        { d with tally := { d.tally with deferred := some (match d.tally.deferred with
          | none => { command := true, autoClose := false }
          | some c => { c with command := true }) } }
        .closeTally tag { code := .deferred, detail := 0, words := [d.tally.period] })) ∧
    (∀ p, d.ready → d.tally.page = some p → 126 ≤ d.reportRoom → ¬ beside →
      let causes : CloseCauses := match d.tally.deferred with
        | none => { command := true, autoClose := false }
        | some c => { c with command := true }
      let behind : TallyPage := { page with causes := causes, deferred := true }
      let a := Device.answered
        { d with tally := { d.tally with
          page := if d.reportRoom < 246 then some behind else none, deferred := none
          counters := Vector.replicate 56 0, period := d.tally.period + 1 } }
        .closeTally tag { code := .deferred, detail := 0, words := [d.tally.period] }
      exec (.closeTally tag) s = s.after
        { a with report := { a.report with
          queue := a.report.queue ++ linkFrame p.words ++
            (if d.reportRoom < 246 then [] else linkFrame behind.words) } })) ∧
  (∀ (d : Device) (tag : BitVec 8), d.clear 246 → d.rollsOver →
    let shift : CloseCauses := { command := true, autoClose := false }
    let day : CloseCauses := { command := false, autoClose := true }
    let said (a : Answer) : List LinkWord := linkFrame (responseWords .closeTally tag d.feed.excess a)
    let both (first second : Instr) (a : Answer) (d₁ d₂ : Device) (p q : TallyPage) : Prop :=
      step { pending := [first, second], dev := d } = .next { pending := [second], dev := d₁ } ∧
      step { pending := [second], dev := d₁ } = .next { pending := [], dev := d₂ } ∧
      d₁.tally.page = some p ∧ d₁.tally.deferred = none ∧ p.deferred = false ∧ p.period = d.tally.period ∧
      q.deferred = true ∧ q.period = d.tally.period + 1 ∧ d₂.tally.page = none ∧ d₂.tally.deferred = none ∧
      d₂.report.queue = d.report.queue ++ said a ++ linkFrame p.words ++ linkFrame q.words
    (∃ d₁ d₂ p q, both .secondPulse (.closeTally tag)
      { code := .deferred, detail := 0, words := [d.tally.period + 1] } d₁ d₂ p q ∧ d₁.report = d.report ∧
      p.causes = day ∧ q.causes = shift) ∧
    (∃ d₁ d₂ p q, both (.closeTally tag) .secondPulse (.done [d.tally.period]) d₁ d₂ p q ∧
      d₁.report.queue = d.report.queue ++ said (.done [d.tally.period]) ∧ p.causes = shift ∧ q.causes = day))

/-- SET_CLOCK, ADJUST_CLOCK (R92, R104, R106, R107). -/
def Obligations.ClockCommandsAnswered : Prop :=
  (∀ (s : State) (tag : BitVec 8) (y mo da h mi se : Word), let d := s.dev
    let place : Nat :=
      if y.toNat < 2000 ∨ 2099 < y.toNat then 1
      else if mo.toNat < 1 ∨ 12 < mo.toNat then 2
      else if da.toNat < 1 ∨ monthLength y.toNat mo.toNat < da.toNat then 3
      else if 23 < h.toNat then 4
      else if 59 < mi.toNat then 5
      else if 59 < se.toNat then 6
      else 0
    let date : Date := { year := y.toNat, month := mo.toNat, day := da.toNat }
    let changed : Prop := d.clock.valid = false ∨ d.clock.date ≠ date
    let x : Device := { d with clock :=
      { date := date, hour := h.toNat, minute := mi.toNat, second := se.toNat, valid := true, adjust := none,
        clamped := false } }
    let bits (b : Nat) : Word :=
      word (b + (if d.clock.adjust = none then 0 else 2) + (if d.clock.valid then 0 else 4))
    d.clear 6 →
    (place ≠ 0 → exec (.setClock tag y mo da h mi se) s = s.after (d.answered .setClock tag
      { code := .badParameter, detail := place, words := [0] })) ∧
    (place = 0 → changed → exec (.setClock tag y mo da h mi se) s = s.after (Device.answered
      { x with imprint := { d.imprint with sequence := 0 } } .setClock tag (.done [bits 1]))) ∧
    (place = 0 → ¬ changed →
      exec (.setClock tag y mo da h mi se) s = s.after (x.answered .setClock tag (.done [bits 0])))) ∧
  (∀ (s : State) (tag : BitVec 8) (v : Word), let d := s.dev
    let held : Word := BitVec.ofInt 16 (d.clock.adjust.getD 0)
    d.clear 6 →
    (v.toInt < -3600 ∨ 3600 < v.toInt → exec (.adjustClock tag v) s = s.after (d.answered .adjustClock tag
      { code := .badParameter, detail := 1, words := [held] })) ∧
    (-3600 ≤ v.toInt → v.toInt ≤ 3600 → d.clock.adjust ≠ none → exec (.adjustClock tag v) s =
      s.after (d.answered .adjustClock tag { code := .pendingFull, detail := 0, words := [held] })) ∧
    (-3600 ≤ v.toInt → v.toInt ≤ 3600 → d.clock.adjust = none → exec (.adjustClock tag v) s =
      s.after (Device.answered { d with clock := { d.clock with adjust := some v.toInt, clamped := false } }
        .adjustClock tag (.done [v]))))

/-- ACK_ATTENTION (R162): the qualifying cause of highest priority is returned with its repeat count and detail, its
latch cleared or its condition marked seen; NONE where none qualifies. SET_ATTENTION_MASK (R161): JAM stays unmasked.
12.4: the detail words of every cause, 0 after them: a jam with no record has 0 in its place (log 26), and in a link
error a kind alone is its code, a kind with its qualifier a head word, a BAD_COUNT's kind and count two words (log 14).
12.1: the codes of the frame kinds. 12.4: the codes of the results.
R158: the causes in their order, JAM 0 to ROLLOVER 11, each with its number. R159: what an occurrence makes of a latch:
one that is clear is set with the detail and a repeat count of 0; one that is set keeps its detail, and its repeat count
goes up by one, holding at 255; the cause of every occurrence, and that nothing else changes. -/
def Obligations.AttentionCommandsAnswered : Prop :=
  (∀ (s : State) (tag : BitVec 8), let d := s.dev
    let qualifies (c : Cause) : Prop := (c = .jam ∨ d.attention.mask.getLsbD c.priority = false) ∧
      (d.attention.latch c ≠ none ∨ d.attention.condition c = .activeNew)
    d.clear 11 →
    ((∀ c, ¬ qualifies c) → exec (.ackAttention tag) s =
      s.after (d.answered .ackAttention tag (.done [12, 0, 0, 0, 0, 0]))) ∧
    (∀ c, qualifies c → (∀ c', qualifies c' → c.priority ≤ c'.priority) →
      ∃ a, exec (.ackAttention tag) s = s.after (Device.answered { d with attention := a } .ackAttention tag
          (.done (word c.priority :: word (d.attention.repeatCount c) :: fourWords (d.causeWords c)))) ∧
        a.latch c = none ∧ a.condition c ≠ .activeNew ∧
        (d.attention.condition c = .activeNew → a.condition c = .activeSeen) ∧ a.mask = d.attention.mask ∧
        ∀ c', c' ≠ c → a.latch c' = d.attention.latch c' ∧ a.condition c' = d.attention.condition c')) ∧
  (∀ (s : State) (tag : BitVec 8) (m : Word), let d := s.dev
    d.clear 6 → ∃ mask : BitVec 12, (∀ i, mask.getLsbD i = (decide (0 < i ∧ i < 12) && m.getLsbD i)) ∧
      exec (.setAttentionMask tag m) s = s.after (Device.answered
        { d with attention := { d.attention with mask := mask } } .setAttentionMask tag
        (.done [mask.setWidth 16]))) ∧
  (∀ (d : Device) (c : Cause),
    (∀ l, d.attention.latch c = some l →
      d.causeWords c = l.detail.words ∧ d.attention.repeatCount c = l.repeats) ∧
    (d.attention.latch c = none → d.attention.repeatCount c = 0)) ∧
  (∀ d : Device,
    d.causeWords .rejectFull = [word (d.bin 0).fill, d.cell 6 0 1] ∧
    d.causeWords .printFault = [if d.imprint.printFault then 1 else 0, if d.inputs.printReady then 1 else 0] ∧
    ∃ full : Word, d.causeWords .binFull = [full] ∧
      ∀ k : Fin 16, full.getLsbD k.val = decide (k ≠ 0 ∧ (d.bin k).state = .full)) ∧
  (∀ (n number : Word) (row count m : Nat) (p : Pos) (route : Route) (q : BitVec 8) (kind : FrameKind) (x : Date)
      (side : Side) (head : Word),
    let four (o : Occurrence) : List Word := fourWords o.words
    let upper : Word := (p.extractLsb' 16 8).setWidth 16
    let lower : Word := p.extractLsb' 0 16
    let via : Word := match route.via with | .primary => 0 | .alternate => 1 | .reject => 2
    let part : Word := match side with | .a => 1 | .b => 2
    four (.jam row (some number)) = [word row, number, 1, 0] ∧ four (.jam row none) = [word row, 0, 0, 0] ∧
    four (.lost number row p) = [number, word row, upper, lower] ∧
    four (.stray row p) = [word row, upper, lower, 0] ∧
    four (.missed number (some route)) = [number, word route.bin.val, via, 0] ∧
    four (.missed number none) = [number, 16, 3, 0] ∧ four (.queueFull p) = [upper, lower, 0, 0] ∧
    four (.scanSuspect number m) = [number, word m, 0, 0] ∧ four (.underrun number false) = [number, 0, 0, 0] ∧
    four (.underrun number true) = [number, 1, 0, 0] ∧
    four (.rollover x) = [word x.year, word x.month, word x.day, 0] ∧
    four (.linkError (.shortFrame kind count m)) = [0, word (frameCode kind), word count, word m] ∧
    four (.linkError (.excessBody kind q)) = [1, word (256 * frameCode kind + q.toNat), 0, 0] ∧
    four (.linkError .strayBody) = [2, 0, 0, 0] ∧ four (.linkError (.unknownKind head)) = [3, head, 0, 0] ∧
    four (.linkError (.badCount side count)) = [4, part, word count, 0] ∧
    four (.linkError (.duplicatePart side n number)) = [5, part, n, number] ∧
    four (.linkError (.orphanPart side n)) = [6, part, n, 0]) ∧
  frameCode (.scan .a) = 1 ∧ frameCode (.scan .b) = 2 ∧
  [CommandKind.nop, .readStatus, .enterRun, .drain, .halt, .resume, .purgeTrack, .softReset, .holdFeed, .releaseFeed,
    .selectWindow, .writeWindow, .writeContinue, .readWindow, .readContinue, .compareWrite, .exchangeCounter,
    .closeTally, .setClock, .adjustClock, .ackAttention, .setAttentionMask, .clearScanLock, .binOut,
    .binReturn].map (fun c => frameCode (.command c)) = List.range' 32 25 ∧
  [ResultCode.done, .refusedMode, .badParameter, .noWindow, .pendingFull, .queueNotEmpty, .mismatch, .deferred,
    .switchHeld, .badStations, .readOnly].map ResultCode.code = [0, 1, 2, 3, 4, 5, 6, 7, 8, 9, 10] ∧
  (let order : List Cause :=
    [.jam, .lost, .stray, .missed, .queueFull, .rejectFull, .binFull, .scanSuspect, .underrun, .printFault, .linkError,
      .rollover]
   order.map Cause.priority = [0, 1, 2, 3, 4, 5, 6, 7, 8, 9, 10, 11] ∧ ∀ c : Cause, c ∈ order) ∧
  (∀ o : Occurrence,
    latchOn none o = { detail := o, repeats := 0 } ∧
    (∀ l : Latch, latchOn (some l) o =
      { detail := l.detail, repeats := if l.repeats < 255 then l.repeats + 1 else 255 }) ∧
    o.cause = (match o with
      | .jam _ _ => .jam
      | .lost _ _ _ => .lost
      | .stray _ _ => .stray
      | .missed _ _ => .missed
      | .queueFull _ => .queueFull
      | .scanSuspect _ _ => .scanSuspect
      | .underrun _ _ => .underrun
      | .linkError _ => .linkError
      | .rollover _ => .rollover)) ∧
  (∀ (d : Device) (o : Occurrence), let a := (occur d o).attention
    occur d o = { d with attention := a } ∧
    a.latch o.cause = some (latchOn (d.attention.latch o.cause) o) ∧
    (∀ c, c ≠ o.cause → a.latch c = d.attention.latch c) ∧ (∀ c, a.condition c = d.attention.condition c) ∧
    a.mask = d.attention.mask)

/-- BIN_OUT, BIN_RETURN (R117, R124, R125, R126, R128). -/
def Obligations.BinCommandsAnswered : Prop :=
  (∀ (s : State) (tag : BitVec 8) (n : Word), let d := s.dev
    d.clear 8 → 15 < n.toNat →
      exec (.binOut tag n) s =
        s.after (d.answered .binOut tag { code := .badParameter, detail := 1, words := [0, 0, 0] }) ∧
      exec (.binReturn tag n) s =
        s.after (d.answered .binReturn tag { code := .badParameter, detail := 1, words := [0, 0, 0] })) ∧
  (∀ (s : State) (tag : BitVec 8) (n : Word) (k : Fin 16), let d := s.dev; let b := d.bin k
    let stateAfterOut : BinState := if b.state = .out ∨ b.state = .outPending then b.state
      else if b.committed = 0 then .out else .outPending
    let fill := if b.state = .outPending then b.fill else 0
    let stateAfterReturn : BinState := if d.num 6 k.val 0 = 0 then .disabled
      else if k = 0 then .active
      else if fill + b.committed < d.num 6 k.val 1 then .active
      else .full
    d.clear 8 → n.toNat = k.val →
    (k = 0 → d.active = true → exec (.binOut tag n) s = s.after (d.answered .binOut tag
      { code := .refusedMode, detail := 0, words := [word b.state.code, word b.fill, word b.committed] })) ∧
    (k ≠ 0 ∨ d.active = false → exec (.binOut tag n) s = s.after
      ((reportConditions (d.setBin k { b with state := stateAfterOut })).answered .binOut tag
        (.done [word stateAfterOut.code, word b.fill, word b.committed]))) ∧
    (b.held = true → exec (.binReturn tag n) s = s.after (d.answered .binReturn tag
      { code := .switchHeld, detail := 0, words := [word b.state.code, word b.fill, word b.committed] })) ∧
    (b.held = false → exec (.binReturn tag n) s = s.after
      ((reportConditions (d.setBin k { b with fill := fill, state := stateAfterReturn })).answered .binReturn tag
        (.done [word stateAfterReturn.code, word fill, word b.committed]))))

/-! ## Invariants of the staged writes and of the books -/

/-- R182, R186, R188: in a part whose modes hold what they may, the staged writes stay in their room and in their
tables: at most 256 cells in at most 32 groups, the open group counted, each cell one that may be written. -/
def Obligations.EveryStepKeepsTheStagedWritesInTheirRoom : Prop :=
  ∀ s s' : State, s.dev.modal ∧ s.dev.staging → step s = .next s' → s'.dev.modal ∧ s'.dev.staging

/-- R1, R115, R117: no two records share a number or a tag, every bin's committed count is the number of records routed
to it, and fill plus committed of bins 1..15 stays within the capacity. The numbers count round (R3), so the next number
is taken to be free: no record of the queue still carries it. -/
def Obligations.EveryStepKeepsTheBooks : Prop :=
  ∀ s s' : State, s.dev.modal → s.dev.canonical → s.dev.staging → s.dev.books → s.dev.numberFree →
    step s = .next s' → s'.dev.books
end

