-- ==== Sys2Proof/Laws/State.lean ====
section
/-! SUPPORT. What each plain update of the part does to each block of it: one lemma for each block and update, true by
`rfl`, so that no proof unfolds a record update. -/

namespace Sys2Proof.Machine

/-! ### `Device.setCell` -/

@[simp] theorem Device.setCell_inputs (d : Device) (t r f : Nat) (v : Word) :
    (d.setCell t r f v).inputs = d.inputs := rfl
@[simp] theorem Device.setCell_tables (d : Device) (t r f : Nat) (v : Word) :
    (d.setCell t r f v).tables = storeSet d.tables (cellKey t r f) v := rfl
@[simp] theorem Device.setCell_track (d : Device) (t r f : Nat) (v : Word) :
    (d.setCell t r f v).track = d.track := rfl
@[simp] theorem Device.setCell_classifier (d : Device) (t r f : Nat) (v : Word) :
    (d.setCell t r f v).classifier = d.classifier := rfl
@[simp] theorem Device.setCell_imprint (d : Device) (t r f : Nat) (v : Word) :
    (d.setCell t r f v).imprint = d.imprint := rfl
@[simp] theorem Device.setCell_clock (d : Device) (t r f : Nat) (v : Word) :
    (d.setCell t r f v).clock = d.clock := rfl
@[simp] theorem Device.setCell_stacker (d : Device) (t r f : Nat) (v : Word) :
    (d.setCell t r f v).stacker = d.stacker := rfl
@[simp] theorem Device.setCell_tally (d : Device) (t r f : Nat) (v : Word) :
    (d.setCell t r f v).tally = d.tally := rfl
@[simp] theorem Device.setCell_feed (d : Device) (t r f : Nat) (v : Word) : (d.setCell t r f v).feed = d.feed := rfl
@[simp] theorem Device.setCell_command (d : Device) (t r f : Nat) (v : Word) :
    (d.setCell t r f v).command = d.command := rfl
@[simp] theorem Device.setCell_window (d : Device) (t r f : Nat) (v : Word) :
    (d.setCell t r f v).window = d.window := rfl
@[simp] theorem Device.setCell_report (d : Device) (t r f : Nat) (v : Word) :
    (d.setCell t r f v).report = d.report := rfl
@[simp] theorem Device.setCell_line (d : Device) (t r f : Nat) (v : Word) : (d.setCell t r f v).line = d.line := rfl
@[simp] theorem Device.setCell_attention (d : Device) (t r f : Nat) (v : Word) :
    (d.setCell t r f v).attention = d.attention := rfl

/-! ### `Device.modify` -/

@[simp] theorem Device.modify_inputs (d : Device) (n : RecNo) (f : ItemRecord → ItemRecord) :
    (d.modify n f).inputs = d.inputs := rfl
@[simp] theorem Device.modify_tables (d : Device) (n : RecNo) (f : ItemRecord → ItemRecord) :
    (d.modify n f).tables = d.tables := rfl
@[simp] theorem Device.modify_track (d : Device) (n : RecNo) (f : ItemRecord → ItemRecord) :
    (d.modify n f).track =
      { d.track with queue := d.track.queue.map (fun r => if r.number = n then f r else r) } := rfl
@[simp] theorem Device.modify_classifier (d : Device) (n : RecNo) (f : ItemRecord → ItemRecord) :
    (d.modify n f).classifier = d.classifier := rfl
@[simp] theorem Device.modify_imprint (d : Device) (n : RecNo) (f : ItemRecord → ItemRecord) :
    (d.modify n f).imprint = d.imprint := rfl
@[simp] theorem Device.modify_clock (d : Device) (n : RecNo) (f : ItemRecord → ItemRecord) :
    (d.modify n f).clock = d.clock := rfl
@[simp] theorem Device.modify_stacker (d : Device) (n : RecNo) (f : ItemRecord → ItemRecord) :
    (d.modify n f).stacker = d.stacker := rfl
@[simp] theorem Device.modify_tally (d : Device) (n : RecNo) (f : ItemRecord → ItemRecord) :
    (d.modify n f).tally = d.tally := rfl
@[simp] theorem Device.modify_feed (d : Device) (n : RecNo) (f : ItemRecord → ItemRecord) :
    (d.modify n f).feed = d.feed := rfl
@[simp] theorem Device.modify_command (d : Device) (n : RecNo) (f : ItemRecord → ItemRecord) :
    (d.modify n f).command = d.command := rfl
@[simp] theorem Device.modify_window (d : Device) (n : RecNo) (f : ItemRecord → ItemRecord) :
    (d.modify n f).window = d.window := rfl
@[simp] theorem Device.modify_report (d : Device) (n : RecNo) (f : ItemRecord → ItemRecord) :
    (d.modify n f).report = d.report := rfl
@[simp] theorem Device.modify_line (d : Device) (n : RecNo) (f : ItemRecord → ItemRecord) :
    (d.modify n f).line = d.line := rfl
@[simp] theorem Device.modify_attention (d : Device) (n : RecNo) (f : ItemRecord → ItemRecord) :
    (d.modify n f).attention = d.attention := rfl

/-! ### `Device.countBy` -/

@[simp] theorem Device.countBy_inputs (d : Device) (i : Fin 56) (n : Nat) : (d.countBy i n).inputs = d.inputs := rfl
@[simp] theorem Device.countBy_tables (d : Device) (i : Fin 56) (n : Nat) : (d.countBy i n).tables = d.tables := rfl
@[simp] theorem Device.countBy_track (d : Device) (i : Fin 56) (n : Nat) : (d.countBy i n).track = d.track := rfl
@[simp] theorem Device.countBy_classifier (d : Device) (i : Fin 56) (n : Nat) :
    (d.countBy i n).classifier = d.classifier := rfl
@[simp] theorem Device.countBy_imprint (d : Device) (i : Fin 56) (n : Nat) :
    (d.countBy i n).imprint = d.imprint := rfl
@[simp] theorem Device.countBy_clock (d : Device) (i : Fin 56) (n : Nat) : (d.countBy i n).clock = d.clock := rfl
@[simp] theorem Device.countBy_stacker (d : Device) (i : Fin 56) (n : Nat) :
    (d.countBy i n).stacker = d.stacker := rfl
@[simp] theorem Device.countBy_tally (d : Device) (i : Fin 56) (n : Nat) :
    (d.countBy i n).tally =
      { d.tally with counters := upd d.tally.counters i (d.tally.counters[i] + BitVec.ofNat 32 n) } := rfl
@[simp] theorem Device.countBy_feed (d : Device) (i : Fin 56) (n : Nat) : (d.countBy i n).feed = d.feed := rfl
@[simp] theorem Device.countBy_command (d : Device) (i : Fin 56) (n : Nat) :
    (d.countBy i n).command = d.command := rfl
@[simp] theorem Device.countBy_window (d : Device) (i : Fin 56) (n : Nat) : (d.countBy i n).window = d.window := rfl
@[simp] theorem Device.countBy_report (d : Device) (i : Fin 56) (n : Nat) : (d.countBy i n).report = d.report := rfl
@[simp] theorem Device.countBy_line (d : Device) (i : Fin 56) (n : Nat) : (d.countBy i n).line = d.line := rfl
@[simp] theorem Device.countBy_attention (d : Device) (i : Fin 56) (n : Nat) :
    (d.countBy i n).attention = d.attention := rfl

/-! ### `Device.count` -/

@[simp] theorem Device.count_inputs (d : Device) (i : Fin 56) : (d.count i).inputs = d.inputs := rfl
@[simp] theorem Device.count_tables (d : Device) (i : Fin 56) : (d.count i).tables = d.tables := rfl
@[simp] theorem Device.count_track (d : Device) (i : Fin 56) : (d.count i).track = d.track := rfl
@[simp] theorem Device.count_classifier (d : Device) (i : Fin 56) : (d.count i).classifier = d.classifier := rfl
@[simp] theorem Device.count_imprint (d : Device) (i : Fin 56) : (d.count i).imprint = d.imprint := rfl
@[simp] theorem Device.count_clock (d : Device) (i : Fin 56) : (d.count i).clock = d.clock := rfl
@[simp] theorem Device.count_stacker (d : Device) (i : Fin 56) : (d.count i).stacker = d.stacker := rfl
@[simp] theorem Device.count_tally (d : Device) (i : Fin 56) :
    (d.count i).tally =
      { d.tally with counters := upd d.tally.counters i (d.tally.counters[i] + BitVec.ofNat 32 1) } := rfl
@[simp] theorem Device.count_feed (d : Device) (i : Fin 56) : (d.count i).feed = d.feed := rfl
@[simp] theorem Device.count_command (d : Device) (i : Fin 56) : (d.count i).command = d.command := rfl
@[simp] theorem Device.count_window (d : Device) (i : Fin 56) : (d.count i).window = d.window := rfl
@[simp] theorem Device.count_report (d : Device) (i : Fin 56) : (d.count i).report = d.report := rfl
@[simp] theorem Device.count_line (d : Device) (i : Fin 56) : (d.count i).line = d.line := rfl
@[simp] theorem Device.count_attention (d : Device) (i : Fin 56) : (d.count i).attention = d.attention := rfl

/-! ### `Device.total` -/

@[simp] theorem Device.total_inputs (d : Device) (f : LineTotals → LineTotals) :
    (d.total f).inputs = d.inputs := rfl
@[simp] theorem Device.total_tables (d : Device) (f : LineTotals → LineTotals) :
    (d.total f).tables = d.tables := rfl
@[simp] theorem Device.total_track (d : Device) (f : LineTotals → LineTotals) : (d.total f).track = d.track := rfl
@[simp] theorem Device.total_classifier (d : Device) (f : LineTotals → LineTotals) :
    (d.total f).classifier = d.classifier := rfl
@[simp] theorem Device.total_imprint (d : Device) (f : LineTotals → LineTotals) :
    (d.total f).imprint = d.imprint := rfl
@[simp] theorem Device.total_clock (d : Device) (f : LineTotals → LineTotals) : (d.total f).clock = d.clock := rfl
@[simp] theorem Device.total_stacker (d : Device) (f : LineTotals → LineTotals) :
    (d.total f).stacker = d.stacker := rfl
@[simp] theorem Device.total_tally (d : Device) (f : LineTotals → LineTotals) :
    (d.total f).tally = { d.tally with totals := f d.tally.totals } := rfl
@[simp] theorem Device.total_feed (d : Device) (f : LineTotals → LineTotals) : (d.total f).feed = d.feed := rfl
@[simp] theorem Device.total_command (d : Device) (f : LineTotals → LineTotals) :
    (d.total f).command = d.command := rfl
@[simp] theorem Device.total_window (d : Device) (f : LineTotals → LineTotals) :
    (d.total f).window = d.window := rfl
@[simp] theorem Device.total_report (d : Device) (f : LineTotals → LineTotals) :
    (d.total f).report = d.report := rfl
@[simp] theorem Device.total_line (d : Device) (f : LineTotals → LineTotals) : (d.total f).line = d.line := rfl
@[simp] theorem Device.total_attention (d : Device) (f : LineTotals → LineTotals) :
    (d.total f).attention = d.attention := rfl

/-! ### `Device.enqueue` -/

@[simp] theorem Device.enqueue_inputs (d : Device) (ws : List LinkWord) : (d.enqueue ws).inputs = d.inputs := rfl
@[simp] theorem Device.enqueue_tables (d : Device) (ws : List LinkWord) : (d.enqueue ws).tables = d.tables := rfl
@[simp] theorem Device.enqueue_track (d : Device) (ws : List LinkWord) : (d.enqueue ws).track = d.track := rfl
@[simp] theorem Device.enqueue_classifier (d : Device) (ws : List LinkWord) :
    (d.enqueue ws).classifier = d.classifier := rfl
@[simp] theorem Device.enqueue_imprint (d : Device) (ws : List LinkWord) : (d.enqueue ws).imprint = d.imprint := rfl
@[simp] theorem Device.enqueue_clock (d : Device) (ws : List LinkWord) : (d.enqueue ws).clock = d.clock := rfl
@[simp] theorem Device.enqueue_stacker (d : Device) (ws : List LinkWord) : (d.enqueue ws).stacker = d.stacker := rfl
@[simp] theorem Device.enqueue_tally (d : Device) (ws : List LinkWord) : (d.enqueue ws).tally = d.tally := rfl
@[simp] theorem Device.enqueue_feed (d : Device) (ws : List LinkWord) : (d.enqueue ws).feed = d.feed := rfl
@[simp] theorem Device.enqueue_command (d : Device) (ws : List LinkWord) : (d.enqueue ws).command = d.command := rfl
@[simp] theorem Device.enqueue_window (d : Device) (ws : List LinkWord) : (d.enqueue ws).window = d.window := rfl
@[simp] theorem Device.enqueue_report (d : Device) (ws : List LinkWord) :
    (d.enqueue ws).report = { d.report with queue := d.report.queue ++ ws } := rfl
@[simp] theorem Device.enqueue_line (d : Device) (ws : List LinkWord) : (d.enqueue ws).line = d.line := rfl
@[simp] theorem Device.enqueue_attention (d : Device) (ws : List LinkWord) :
    (d.enqueue ws).attention = d.attention := rfl

/-! ### `Device.setBin` -/

@[simp] theorem Device.setBin_inputs (d : Device) (k : Fin 16) (b : Bin) : (d.setBin k b).inputs = d.inputs := rfl
@[simp] theorem Device.setBin_tables (d : Device) (k : Fin 16) (b : Bin) : (d.setBin k b).tables = d.tables := rfl
@[simp] theorem Device.setBin_track (d : Device) (k : Fin 16) (b : Bin) : (d.setBin k b).track = d.track := rfl
@[simp] theorem Device.setBin_classifier (d : Device) (k : Fin 16) (b : Bin) :
    (d.setBin k b).classifier = d.classifier := rfl
@[simp] theorem Device.setBin_imprint (d : Device) (k : Fin 16) (b : Bin) :
    (d.setBin k b).imprint = d.imprint := rfl
@[simp] theorem Device.setBin_clock (d : Device) (k : Fin 16) (b : Bin) : (d.setBin k b).clock = d.clock := rfl
@[simp] theorem Device.setBin_stacker (d : Device) (k : Fin 16) (b : Bin) :
    (d.setBin k b).stacker = { d.stacker with bins := upd d.stacker.bins k b } := rfl
@[simp] theorem Device.setBin_tally (d : Device) (k : Fin 16) (b : Bin) : (d.setBin k b).tally = d.tally := rfl
@[simp] theorem Device.setBin_feed (d : Device) (k : Fin 16) (b : Bin) : (d.setBin k b).feed = d.feed := rfl
@[simp] theorem Device.setBin_command (d : Device) (k : Fin 16) (b : Bin) :
    (d.setBin k b).command = d.command := rfl
@[simp] theorem Device.setBin_window (d : Device) (k : Fin 16) (b : Bin) : (d.setBin k b).window = d.window := rfl
@[simp] theorem Device.setBin_report (d : Device) (k : Fin 16) (b : Bin) : (d.setBin k b).report = d.report := rfl
@[simp] theorem Device.setBin_line (d : Device) (k : Fin 16) (b : Bin) : (d.setBin k b).line = d.line := rfl
@[simp] theorem Device.setBin_attention (d : Device) (k : Fin 16) (b : Bin) :
    (d.setBin k b).attention = d.attention := rfl

/-! ### `setBinOutLine` -/

@[simp] theorem setBinOutLine_inputs (d : Device) (k : Fin 16) (b : Bool) :
    (setBinOutLine d k b).inputs = { d.inputs with binOut := upd d.inputs.binOut k b } := rfl
@[simp] theorem setBinOutLine_tables (d : Device) (k : Fin 16) (b : Bool) :
    (setBinOutLine d k b).tables = d.tables := rfl
@[simp] theorem setBinOutLine_track (d : Device) (k : Fin 16) (b : Bool) :
    (setBinOutLine d k b).track = d.track := rfl
@[simp] theorem setBinOutLine_classifier (d : Device) (k : Fin 16) (b : Bool) :
    (setBinOutLine d k b).classifier = d.classifier := rfl
@[simp] theorem setBinOutLine_imprint (d : Device) (k : Fin 16) (b : Bool) :
    (setBinOutLine d k b).imprint = d.imprint := rfl
@[simp] theorem setBinOutLine_clock (d : Device) (k : Fin 16) (b : Bool) :
    (setBinOutLine d k b).clock = d.clock := rfl
@[simp] theorem setBinOutLine_stacker (d : Device) (k : Fin 16) (b : Bool) :
    (setBinOutLine d k b).stacker = d.stacker := rfl
@[simp] theorem setBinOutLine_tally (d : Device) (k : Fin 16) (b : Bool) :
    (setBinOutLine d k b).tally = d.tally := rfl
@[simp] theorem setBinOutLine_feed (d : Device) (k : Fin 16) (b : Bool) : (setBinOutLine d k b).feed = d.feed := rfl
@[simp] theorem setBinOutLine_command (d : Device) (k : Fin 16) (b : Bool) :
    (setBinOutLine d k b).command = d.command := rfl
@[simp] theorem setBinOutLine_window (d : Device) (k : Fin 16) (b : Bool) :
    (setBinOutLine d k b).window = d.window := rfl
@[simp] theorem setBinOutLine_report (d : Device) (k : Fin 16) (b : Bool) :
    (setBinOutLine d k b).report = d.report := rfl
@[simp] theorem setBinOutLine_line (d : Device) (k : Fin 16) (b : Bool) : (setBinOutLine d k b).line = d.line := rfl
@[simp] theorem setBinOutLine_attention (d : Device) (k : Fin 16) (b : Bool) :
    (setBinOutLine d k b).attention = d.attention := rfl

/-! ### `assertGate` -/

@[simp] theorem assertGate_inputs (d : Device) (k : Fin 16) (n : RecNo) :
    (assertGate d k n).inputs = d.inputs := rfl
@[simp] theorem assertGate_tables (d : Device) (k : Fin 16) (n : RecNo) :
    (assertGate d k n).tables = d.tables := rfl
@[simp] theorem assertGate_track (d : Device) (k : Fin 16) (n : RecNo) : (assertGate d k n).track = d.track := rfl
@[simp] theorem assertGate_classifier (d : Device) (k : Fin 16) (n : RecNo) :
    (assertGate d k n).classifier = d.classifier := rfl
@[simp] theorem assertGate_imprint (d : Device) (k : Fin 16) (n : RecNo) :
    (assertGate d k n).imprint = d.imprint := rfl
@[simp] theorem assertGate_clock (d : Device) (k : Fin 16) (n : RecNo) : (assertGate d k n).clock = d.clock := rfl
@[simp] theorem assertGate_stacker (d : Device) (k : Fin 16) (n : RecNo) :
    (assertGate d k n).stacker = { d.stacker with gates := upd d.stacker.gates k (some n) } := rfl
@[simp] theorem assertGate_tally (d : Device) (k : Fin 16) (n : RecNo) : (assertGate d k n).tally = d.tally := rfl
@[simp] theorem assertGate_feed (d : Device) (k : Fin 16) (n : RecNo) : (assertGate d k n).feed = d.feed := rfl
@[simp] theorem assertGate_command (d : Device) (k : Fin 16) (n : RecNo) :
    (assertGate d k n).command = d.command := rfl
@[simp] theorem assertGate_window (d : Device) (k : Fin 16) (n : RecNo) :
    (assertGate d k n).window = d.window := rfl
@[simp] theorem assertGate_report (d : Device) (k : Fin 16) (n : RecNo) :
    (assertGate d k n).report = d.report := rfl
@[simp] theorem assertGate_line (d : Device) (k : Fin 16) (n : RecNo) : (assertGate d k n).line = d.line := rfl
@[simp] theorem assertGate_attention (d : Device) (k : Fin 16) (n : RecNo) :
    (assertGate d k n).attention = d.attention := rfl

/-! ### `setPrintFault` -/

@[simp] theorem setPrintFault_inputs (d : Device) (b : Bool) : (setPrintFault d b).inputs = d.inputs := rfl
@[simp] theorem setPrintFault_tables (d : Device) (b : Bool) : (setPrintFault d b).tables = d.tables := rfl
@[simp] theorem setPrintFault_track (d : Device) (b : Bool) : (setPrintFault d b).track = d.track := rfl
@[simp] theorem setPrintFault_classifier (d : Device) (b : Bool) :
    (setPrintFault d b).classifier = d.classifier := rfl
@[simp] theorem setPrintFault_imprint (d : Device) (b : Bool) :
    (setPrintFault d b).imprint = { d.imprint with printFault := b } := rfl
@[simp] theorem setPrintFault_clock (d : Device) (b : Bool) : (setPrintFault d b).clock = d.clock := rfl
@[simp] theorem setPrintFault_stacker (d : Device) (b : Bool) : (setPrintFault d b).stacker = d.stacker := rfl
@[simp] theorem setPrintFault_tally (d : Device) (b : Bool) : (setPrintFault d b).tally = d.tally := rfl
@[simp] theorem setPrintFault_feed (d : Device) (b : Bool) : (setPrintFault d b).feed = d.feed := rfl
@[simp] theorem setPrintFault_command (d : Device) (b : Bool) : (setPrintFault d b).command = d.command := rfl
@[simp] theorem setPrintFault_window (d : Device) (b : Bool) : (setPrintFault d b).window = d.window := rfl
@[simp] theorem setPrintFault_report (d : Device) (b : Bool) : (setPrintFault d b).report = d.report := rfl
@[simp] theorem setPrintFault_line (d : Device) (b : Bool) : (setPrintFault d b).line = d.line := rfl
@[simp] theorem setPrintFault_attention (d : Device) (b : Bool) : (setPrintFault d b).attention = d.attention := rfl

/-! ### `setPrintCol` -/

@[simp] theorem setPrintCol_inputs (d : Device) (x : Dots) : (setPrintCol d x).inputs = d.inputs := rfl
@[simp] theorem setPrintCol_tables (d : Device) (x : Dots) : (setPrintCol d x).tables = d.tables := rfl
@[simp] theorem setPrintCol_track (d : Device) (x : Dots) : (setPrintCol d x).track = d.track := rfl
@[simp] theorem setPrintCol_classifier (d : Device) (x : Dots) : (setPrintCol d x).classifier = d.classifier := rfl
@[simp] theorem setPrintCol_imprint (d : Device) (x : Dots) :
    (setPrintCol d x).imprint = { d.imprint with printCol := x } := rfl
@[simp] theorem setPrintCol_clock (d : Device) (x : Dots) : (setPrintCol d x).clock = d.clock := rfl
@[simp] theorem setPrintCol_stacker (d : Device) (x : Dots) : (setPrintCol d x).stacker = d.stacker := rfl
@[simp] theorem setPrintCol_tally (d : Device) (x : Dots) : (setPrintCol d x).tally = d.tally := rfl
@[simp] theorem setPrintCol_feed (d : Device) (x : Dots) : (setPrintCol d x).feed = d.feed := rfl
@[simp] theorem setPrintCol_command (d : Device) (x : Dots) : (setPrintCol d x).command = d.command := rfl
@[simp] theorem setPrintCol_window (d : Device) (x : Dots) : (setPrintCol d x).window = d.window := rfl
@[simp] theorem setPrintCol_report (d : Device) (x : Dots) : (setPrintCol d x).report = d.report := rfl
@[simp] theorem setPrintCol_line (d : Device) (x : Dots) : (setPrintCol d x).line = d.line := rfl
@[simp] theorem setPrintCol_attention (d : Device) (x : Dots) : (setPrintCol d x).attention = d.attention := rfl

/-! ### `strobeColumn` -/

@[simp] theorem strobeColumn_inputs (d : Device) (x : Dots) : (strobeColumn d x).inputs = d.inputs := rfl
@[simp] theorem strobeColumn_tables (d : Device) (x : Dots) : (strobeColumn d x).tables = d.tables := rfl
@[simp] theorem strobeColumn_track (d : Device) (x : Dots) : (strobeColumn d x).track = d.track := rfl
@[simp] theorem strobeColumn_classifier (d : Device) (x : Dots) : (strobeColumn d x).classifier = d.classifier := rfl
@[simp] theorem strobeColumn_imprint (d : Device) (x : Dots) :
    (strobeColumn d x).imprint =
      { d.imprint with printCol := x, printStrobes := d.imprint.printStrobes + 1, strobed := some x } := rfl
@[simp] theorem strobeColumn_clock (d : Device) (x : Dots) : (strobeColumn d x).clock = d.clock := rfl
@[simp] theorem strobeColumn_stacker (d : Device) (x : Dots) : (strobeColumn d x).stacker = d.stacker := rfl
@[simp] theorem strobeColumn_tally (d : Device) (x : Dots) : (strobeColumn d x).tally = d.tally := rfl
@[simp] theorem strobeColumn_feed (d : Device) (x : Dots) : (strobeColumn d x).feed = d.feed := rfl
@[simp] theorem strobeColumn_command (d : Device) (x : Dots) : (strobeColumn d x).command = d.command := rfl
@[simp] theorem strobeColumn_window (d : Device) (x : Dots) : (strobeColumn d x).window = d.window := rfl
@[simp] theorem strobeColumn_report (d : Device) (x : Dots) : (strobeColumn d x).report = d.report := rfl
@[simp] theorem strobeColumn_line (d : Device) (x : Dots) : (strobeColumn d x).line = d.line := rfl
@[simp] theorem strobeColumn_attention (d : Device) (x : Dots) : (strobeColumn d x).attention = d.attention := rfl

/-! ### `freeBuilder` -/

@[simp] theorem freeBuilder_inputs (d : Device) : (freeBuilder d).inputs = d.inputs := rfl
@[simp] theorem freeBuilder_tables (d : Device) : (freeBuilder d).tables = d.tables := rfl
@[simp] theorem freeBuilder_track (d : Device) : (freeBuilder d).track = d.track := rfl
@[simp] theorem freeBuilder_classifier (d : Device) : (freeBuilder d).classifier = d.classifier := rfl
@[simp] theorem freeBuilder_imprint (d : Device) :
    (freeBuilder d).imprint = { d.imprint with builder := none } := rfl
@[simp] theorem freeBuilder_clock (d : Device) : (freeBuilder d).clock = d.clock := rfl
@[simp] theorem freeBuilder_stacker (d : Device) : (freeBuilder d).stacker = d.stacker := rfl
@[simp] theorem freeBuilder_tally (d : Device) : (freeBuilder d).tally = d.tally := rfl
@[simp] theorem freeBuilder_feed (d : Device) : (freeBuilder d).feed = d.feed := rfl
@[simp] theorem freeBuilder_command (d : Device) : (freeBuilder d).command = d.command := rfl
@[simp] theorem freeBuilder_window (d : Device) : (freeBuilder d).window = d.window := rfl
@[simp] theorem freeBuilder_report (d : Device) : (freeBuilder d).report = d.report := rfl
@[simp] theorem freeBuilder_line (d : Device) : (freeBuilder d).line = d.line := rfl
@[simp] theorem freeBuilder_attention (d : Device) : (freeBuilder d).attention = d.attention := rfl

/-! ### `setPrinting` -/

@[simp] theorem setPrinting_inputs (d : Device) (p : Option Printing) : (setPrinting d p).inputs = d.inputs := rfl
@[simp] theorem setPrinting_tables (d : Device) (p : Option Printing) : (setPrinting d p).tables = d.tables := rfl
@[simp] theorem setPrinting_track (d : Device) (p : Option Printing) : (setPrinting d p).track = d.track := rfl
@[simp] theorem setPrinting_classifier (d : Device) (p : Option Printing) :
    (setPrinting d p).classifier = d.classifier := rfl
@[simp] theorem setPrinting_imprint (d : Device) (p : Option Printing) :
    (setPrinting d p).imprint = { d.imprint with printing := p } := rfl
@[simp] theorem setPrinting_clock (d : Device) (p : Option Printing) : (setPrinting d p).clock = d.clock := rfl
@[simp] theorem setPrinting_stacker (d : Device) (p : Option Printing) :
    (setPrinting d p).stacker = d.stacker := rfl
@[simp] theorem setPrinting_tally (d : Device) (p : Option Printing) : (setPrinting d p).tally = d.tally := rfl
@[simp] theorem setPrinting_feed (d : Device) (p : Option Printing) : (setPrinting d p).feed = d.feed := rfl
@[simp] theorem setPrinting_command (d : Device) (p : Option Printing) :
    (setPrinting d p).command = d.command := rfl
@[simp] theorem setPrinting_window (d : Device) (p : Option Printing) : (setPrinting d p).window = d.window := rfl
@[simp] theorem setPrinting_report (d : Device) (p : Option Printing) : (setPrinting d p).report = d.report := rfl
@[simp] theorem setPrinting_line (d : Device) (p : Option Printing) : (setPrinting d p).line = d.line := rfl
@[simp] theorem setPrinting_attention (d : Device) (p : Option Printing) :
    (setPrinting d p).attention = d.attention := rfl

/-! ### `releaseRing` -/

@[simp] theorem releaseRing_inputs (d : Device) (n : RecNo) : (releaseRing d n).inputs = d.inputs := rfl
@[simp] theorem releaseRing_tables (d : Device) (n : RecNo) : (releaseRing d n).tables = d.tables := rfl
@[simp] theorem releaseRing_track (d : Device) (n : RecNo) : (releaseRing d n).track = d.track := rfl
@[simp] theorem releaseRing_classifier (d : Device) (n : RecNo) : (releaseRing d n).classifier = d.classifier := rfl
@[simp] theorem releaseRing_imprint (d : Device) (n : RecNo) :
    (releaseRing d n).imprint =
      { d.imprint with ring := d.imprint.ring.filter (fun h => decide (h.number ≠ n)) } := rfl
@[simp] theorem releaseRing_clock (d : Device) (n : RecNo) : (releaseRing d n).clock = d.clock := rfl
@[simp] theorem releaseRing_stacker (d : Device) (n : RecNo) : (releaseRing d n).stacker = d.stacker := rfl
@[simp] theorem releaseRing_tally (d : Device) (n : RecNo) : (releaseRing d n).tally = d.tally := rfl
@[simp] theorem releaseRing_feed (d : Device) (n : RecNo) : (releaseRing d n).feed = d.feed := rfl
@[simp] theorem releaseRing_command (d : Device) (n : RecNo) : (releaseRing d n).command = d.command := rfl
@[simp] theorem releaseRing_window (d : Device) (n : RecNo) : (releaseRing d n).window = d.window := rfl
@[simp] theorem releaseRing_report (d : Device) (n : RecNo) : (releaseRing d n).report = d.report := rfl
@[simp] theorem releaseRing_line (d : Device) (n : RecNo) : (releaseRing d n).line = d.line := rfl
@[simp] theorem releaseRing_attention (d : Device) (n : RecNo) : (releaseRing d n).attention = d.attention := rfl

/-! ### `dateChange` -/

@[simp] theorem dateChange_inputs (d : Device) : (dateChange d).inputs = d.inputs := rfl
@[simp] theorem dateChange_tables (d : Device) : (dateChange d).tables = d.tables := rfl
@[simp] theorem dateChange_track (d : Device) : (dateChange d).track = d.track := rfl
@[simp] theorem dateChange_classifier (d : Device) : (dateChange d).classifier = d.classifier := rfl
@[simp] theorem dateChange_imprint (d : Device) : (dateChange d).imprint = { d.imprint with sequence := 0 } := rfl
@[simp] theorem dateChange_clock (d : Device) : (dateChange d).clock = d.clock := rfl
@[simp] theorem dateChange_stacker (d : Device) : (dateChange d).stacker = d.stacker := rfl
@[simp] theorem dateChange_tally (d : Device) : (dateChange d).tally = d.tally := rfl
@[simp] theorem dateChange_feed (d : Device) : (dateChange d).feed = d.feed := rfl
@[simp] theorem dateChange_command (d : Device) : (dateChange d).command = d.command := rfl
@[simp] theorem dateChange_window (d : Device) : (dateChange d).window = d.window := rfl
@[simp] theorem dateChange_report (d : Device) : (dateChange d).report = d.report := rfl
@[simp] theorem dateChange_line (d : Device) : (dateChange d).line = d.line := rfl
@[simp] theorem dateChange_attention (d : Device) : (dateChange d).attention = d.attention := rfl

/-! ### `setWindow` -/

@[simp] theorem setWindow_inputs (d : Device) (w : Window) : (setWindow d w).inputs = d.inputs := rfl
@[simp] theorem setWindow_tables (d : Device) (w : Window) : (setWindow d w).tables = d.tables := rfl
@[simp] theorem setWindow_track (d : Device) (w : Window) : (setWindow d w).track = d.track := rfl
@[simp] theorem setWindow_classifier (d : Device) (w : Window) : (setWindow d w).classifier = d.classifier := rfl
@[simp] theorem setWindow_imprint (d : Device) (w : Window) : (setWindow d w).imprint = d.imprint := rfl
@[simp] theorem setWindow_clock (d : Device) (w : Window) : (setWindow d w).clock = d.clock := rfl
@[simp] theorem setWindow_stacker (d : Device) (w : Window) : (setWindow d w).stacker = d.stacker := rfl
@[simp] theorem setWindow_tally (d : Device) (w : Window) : (setWindow d w).tally = d.tally := rfl
@[simp] theorem setWindow_feed (d : Device) (w : Window) : (setWindow d w).feed = d.feed := rfl
@[simp] theorem setWindow_command (d : Device) (w : Window) : (setWindow d w).command = d.command := rfl
@[simp] theorem setWindow_window (d : Device) (w : Window) :
    (setWindow d w).window = { d.window with selection := some w } := rfl
@[simp] theorem setWindow_report (d : Device) (w : Window) : (setWindow d w).report = d.report := rfl
@[simp] theorem setWindow_line (d : Device) (w : Window) : (setWindow d w).line = d.line := rfl
@[simp] theorem setWindow_attention (d : Device) (w : Window) : (setWindow d w).attention = d.attention := rfl

/-! ### `setFrame` -/

@[simp] theorem setFrame_inputs (d : Device) (f : OpenFrame) : (setFrame d f).inputs = d.inputs := rfl
@[simp] theorem setFrame_tables (d : Device) (f : OpenFrame) : (setFrame d f).tables = d.tables := rfl
@[simp] theorem setFrame_track (d : Device) (f : OpenFrame) : (setFrame d f).track = d.track := rfl
@[simp] theorem setFrame_classifier (d : Device) (f : OpenFrame) : (setFrame d f).classifier = d.classifier := rfl
@[simp] theorem setFrame_imprint (d : Device) (f : OpenFrame) : (setFrame d f).imprint = d.imprint := rfl
@[simp] theorem setFrame_clock (d : Device) (f : OpenFrame) : (setFrame d f).clock = d.clock := rfl
@[simp] theorem setFrame_stacker (d : Device) (f : OpenFrame) : (setFrame d f).stacker = d.stacker := rfl
@[simp] theorem setFrame_tally (d : Device) (f : OpenFrame) : (setFrame d f).tally = d.tally := rfl
@[simp] theorem setFrame_feed (d : Device) (f : OpenFrame) : (setFrame d f).feed = d.feed := rfl
@[simp] theorem setFrame_command (d : Device) (f : OpenFrame) : (setFrame d f).command = .receiving f := rfl
@[simp] theorem setFrame_window (d : Device) (f : OpenFrame) : (setFrame d f).window = d.window := rfl
@[simp] theorem setFrame_report (d : Device) (f : OpenFrame) : (setFrame d f).report = d.report := rfl
@[simp] theorem setFrame_line (d : Device) (f : OpenFrame) : (setFrame d f).line = d.line := rfl
@[simp] theorem setFrame_attention (d : Device) (f : OpenFrame) : (setFrame d f).attention = d.attention := rfl

/-! ### `closeGroup` -/

@[simp] theorem closeGroup_inputs (d : Device) (f : OpenFrame) : (closeGroup d f).inputs = d.inputs := rfl
@[simp] theorem closeGroup_tables (d : Device) (f : OpenFrame) : (closeGroup d f).tables = d.tables := rfl
@[simp] theorem closeGroup_track (d : Device) (f : OpenFrame) : (closeGroup d f).track = d.track := rfl
@[simp] theorem closeGroup_classifier (d : Device) (f : OpenFrame) :
    (closeGroup d f).classifier = d.classifier := rfl
@[simp] theorem closeGroup_imprint (d : Device) (f : OpenFrame) : (closeGroup d f).imprint = d.imprint := rfl
@[simp] theorem closeGroup_clock (d : Device) (f : OpenFrame) : (closeGroup d f).clock = d.clock := rfl
@[simp] theorem closeGroup_stacker (d : Device) (f : OpenFrame) : (closeGroup d f).stacker = d.stacker := rfl
@[simp] theorem closeGroup_tally (d : Device) (f : OpenFrame) : (closeGroup d f).tally = d.tally := rfl
@[simp] theorem closeGroup_feed (d : Device) (f : OpenFrame) : (closeGroup d f).feed = d.feed := rfl
@[simp] theorem closeGroup_command (d : Device) (f : OpenFrame) : (closeGroup d f).command = d.command := rfl
@[simp] theorem closeGroup_window (d : Device) (f : OpenFrame) :
    (closeGroup d f).window =
      { d.window with groups := if f.group.isEmpty then d.window.groups else d.window.groups ++ [f.group] } := rfl
@[simp] theorem closeGroup_report (d : Device) (f : OpenFrame) : (closeGroup d f).report = d.report := rfl
@[simp] theorem closeGroup_line (d : Device) (f : OpenFrame) : (closeGroup d f).line = d.line := rfl
@[simp] theorem closeGroup_attention (d : Device) (f : OpenFrame) : (closeGroup d f).attention = d.attention := rfl

/-! ### `setGap` -/

@[simp] theorem setGap_inputs (d : Device) (g : Gap) : (setGap d g).inputs = d.inputs := rfl
@[simp] theorem setGap_tables (d : Device) (g : Gap) : (setGap d g).tables = d.tables := rfl
@[simp] theorem setGap_track (d : Device) (g : Gap) : (setGap d g).track = d.track := rfl
@[simp] theorem setGap_classifier (d : Device) (g : Gap) : (setGap d g).classifier = d.classifier := rfl
@[simp] theorem setGap_imprint (d : Device) (g : Gap) : (setGap d g).imprint = d.imprint := rfl
@[simp] theorem setGap_clock (d : Device) (g : Gap) : (setGap d g).clock = d.clock := rfl
@[simp] theorem setGap_stacker (d : Device) (g : Gap) : (setGap d g).stacker = d.stacker := rfl
@[simp] theorem setGap_tally (d : Device) (g : Gap) : (setGap d g).tally = d.tally := rfl
@[simp] theorem setGap_feed (d : Device) (g : Gap) : (setGap d g).feed = d.feed := rfl
@[simp] theorem setGap_command (d : Device) (g : Gap) : (setGap d g).command = d.command := rfl
@[simp] theorem setGap_window (d : Device) (g : Gap) : (setGap d g).window = { d.window with gap := g } := rfl
@[simp] theorem setGap_report (d : Device) (g : Gap) : (setGap d g).report = d.report := rfl
@[simp] theorem setGap_line (d : Device) (g : Gap) : (setGap d g).line = d.line := rfl
@[simp] theorem setGap_attention (d : Device) (g : Gap) : (setGap d g).attention = d.attention := rfl

/-! ### `setMode` -/

@[simp] theorem setMode_inputs (d : Device) (m : Mode) : (setMode d m).inputs = d.inputs := rfl
@[simp] theorem setMode_tables (d : Device) (m : Mode) : (setMode d m).tables = d.tables := rfl
@[simp] theorem setMode_track (d : Device) (m : Mode) : (setMode d m).track = d.track := rfl
@[simp] theorem setMode_classifier (d : Device) (m : Mode) : (setMode d m).classifier = d.classifier := rfl
@[simp] theorem setMode_imprint (d : Device) (m : Mode) : (setMode d m).imprint = d.imprint := rfl
@[simp] theorem setMode_clock (d : Device) (m : Mode) : (setMode d m).clock = d.clock := rfl
@[simp] theorem setMode_stacker (d : Device) (m : Mode) : (setMode d m).stacker = d.stacker := rfl
@[simp] theorem setMode_tally (d : Device) (m : Mode) : (setMode d m).tally = d.tally := rfl
@[simp] theorem setMode_feed (d : Device) (m : Mode) : (setMode d m).feed = d.feed := rfl
@[simp] theorem setMode_command (d : Device) (m : Mode) : (setMode d m).command = d.command := rfl
@[simp] theorem setMode_window (d : Device) (m : Mode) : (setMode d m).window = d.window := rfl
@[simp] theorem setMode_report (d : Device) (m : Mode) : (setMode d m).report = d.report := rfl
@[simp] theorem setMode_line (d : Device) (m : Mode) : (setMode d m).line = { d.line with mode := m } := rfl
@[simp] theorem setMode_attention (d : Device) (m : Mode) : (setMode d m).attention = d.attention := rfl

/-! ### `setHoldFeed` -/

@[simp] theorem setHoldFeed_inputs (d : Device) (b : Bool) : (setHoldFeed d b).inputs = d.inputs := rfl
@[simp] theorem setHoldFeed_tables (d : Device) (b : Bool) : (setHoldFeed d b).tables = d.tables := rfl
@[simp] theorem setHoldFeed_track (d : Device) (b : Bool) : (setHoldFeed d b).track = d.track := rfl
@[simp] theorem setHoldFeed_classifier (d : Device) (b : Bool) : (setHoldFeed d b).classifier = d.classifier := rfl
@[simp] theorem setHoldFeed_imprint (d : Device) (b : Bool) : (setHoldFeed d b).imprint = d.imprint := rfl
@[simp] theorem setHoldFeed_clock (d : Device) (b : Bool) : (setHoldFeed d b).clock = d.clock := rfl
@[simp] theorem setHoldFeed_stacker (d : Device) (b : Bool) : (setHoldFeed d b).stacker = d.stacker := rfl
@[simp] theorem setHoldFeed_tally (d : Device) (b : Bool) : (setHoldFeed d b).tally = d.tally := rfl
@[simp] theorem setHoldFeed_feed (d : Device) (b : Bool) : (setHoldFeed d b).feed = d.feed := rfl
@[simp] theorem setHoldFeed_command (d : Device) (b : Bool) : (setHoldFeed d b).command = d.command := rfl
@[simp] theorem setHoldFeed_window (d : Device) (b : Bool) : (setHoldFeed d b).window = d.window := rfl
@[simp] theorem setHoldFeed_report (d : Device) (b : Bool) : (setHoldFeed d b).report = d.report := rfl
@[simp] theorem setHoldFeed_line (d : Device) (b : Bool) :
    (setHoldFeed d b).line = { d.line with holdFeed := b } := rfl
@[simp] theorem setHoldFeed_attention (d : Device) (b : Bool) : (setHoldFeed d b).attention = d.attention := rfl

/-! ### `freeClassifier` -/

@[simp] theorem freeClassifier_inputs (d : Device) : (freeClassifier d).inputs = d.inputs := rfl
@[simp] theorem freeClassifier_tables (d : Device) : (freeClassifier d).tables = d.tables := rfl
@[simp] theorem freeClassifier_track (d : Device) : (freeClassifier d).track = d.track := rfl
@[simp] theorem freeClassifier_classifier (d : Device) :
    (freeClassifier d).classifier = { d.classifier with busy := none } := rfl
@[simp] theorem freeClassifier_imprint (d : Device) : (freeClassifier d).imprint = d.imprint := rfl
@[simp] theorem freeClassifier_clock (d : Device) : (freeClassifier d).clock = d.clock := rfl
@[simp] theorem freeClassifier_stacker (d : Device) : (freeClassifier d).stacker = d.stacker := rfl
@[simp] theorem freeClassifier_tally (d : Device) : (freeClassifier d).tally = d.tally := rfl
@[simp] theorem freeClassifier_feed (d : Device) : (freeClassifier d).feed = d.feed := rfl
@[simp] theorem freeClassifier_command (d : Device) : (freeClassifier d).command = d.command := rfl
@[simp] theorem freeClassifier_window (d : Device) : (freeClassifier d).window = d.window := rfl
@[simp] theorem freeClassifier_report (d : Device) : (freeClassifier d).report = d.report := rfl
@[simp] theorem freeClassifier_line (d : Device) : (freeClassifier d).line = d.line := rfl
@[simp] theorem freeClassifier_attention (d : Device) : (freeClassifier d).attention = d.attention := rfl

/-! ### `releaseActuators` -/

@[simp] theorem releaseActuators_inputs (d : Device) : (releaseActuators d).inputs = d.inputs := rfl
@[simp] theorem releaseActuators_tables (d : Device) : (releaseActuators d).tables = d.tables := rfl
@[simp] theorem releaseActuators_track (d : Device) :
    (releaseActuators d).track = { d.track with twist := none, turn := none } := rfl
@[simp] theorem releaseActuators_classifier (d : Device) : (releaseActuators d).classifier = d.classifier := rfl
@[simp] theorem releaseActuators_imprint (d : Device) : (releaseActuators d).imprint = d.imprint := rfl
@[simp] theorem releaseActuators_clock (d : Device) : (releaseActuators d).clock = d.clock := rfl
@[simp] theorem releaseActuators_stacker (d : Device) :
    (releaseActuators d).stacker = { d.stacker with gates := Vector.replicate 16 none } := rfl
@[simp] theorem releaseActuators_tally (d : Device) : (releaseActuators d).tally = d.tally := rfl
@[simp] theorem releaseActuators_feed (d : Device) : (releaseActuators d).feed = d.feed := rfl
@[simp] theorem releaseActuators_command (d : Device) : (releaseActuators d).command = d.command := rfl
@[simp] theorem releaseActuators_window (d : Device) : (releaseActuators d).window = d.window := rfl
@[simp] theorem releaseActuators_report (d : Device) : (releaseActuators d).report = d.report := rfl
@[simp] theorem releaseActuators_line (d : Device) : (releaseActuators d).line = d.line := rfl
@[simp] theorem releaseActuators_attention (d : Device) : (releaseActuators d).attention = d.attention := rfl

/-! ### `clearCells` -/

@[simp] theorem clearCells_inputs (d : Device) : (clearCells d).inputs = d.inputs := rfl
@[simp] theorem clearCells_tables (d : Device) : (clearCells d).tables = d.tables := rfl
@[simp] theorem clearCells_track (d : Device) :
    (clearCells d).track =
      { d.track with occupants := Vector.replicate 21 .nobody, jam := Vector.replicate 21 none } := rfl
@[simp] theorem clearCells_classifier (d : Device) : (clearCells d).classifier = d.classifier := rfl
@[simp] theorem clearCells_imprint (d : Device) : (clearCells d).imprint = d.imprint := rfl
@[simp] theorem clearCells_clock (d : Device) : (clearCells d).clock = d.clock := rfl
@[simp] theorem clearCells_stacker (d : Device) : (clearCells d).stacker = d.stacker := rfl
@[simp] theorem clearCells_tally (d : Device) : (clearCells d).tally = d.tally := rfl
@[simp] theorem clearCells_feed (d : Device) : (clearCells d).feed = d.feed := rfl
@[simp] theorem clearCells_command (d : Device) : (clearCells d).command = d.command := rfl
@[simp] theorem clearCells_window (d : Device) : (clearCells d).window = d.window := rfl
@[simp] theorem clearCells_report (d : Device) : (clearCells d).report = d.report := rfl
@[simp] theorem clearCells_line (d : Device) : (clearCells d).line = d.line := rfl
@[simp] theorem clearCells_attention (d : Device) : (clearCells d).attention = d.attention := rfl

/-! ### `setOccupant` -/

@[simp] theorem setOccupant_inputs (d : Device) (row : Fin 21) (o : Occupant) :
    (setOccupant d row o).inputs = d.inputs := rfl
@[simp] theorem setOccupant_tables (d : Device) (row : Fin 21) (o : Occupant) :
    (setOccupant d row o).tables = d.tables := rfl
@[simp] theorem setOccupant_track (d : Device) (row : Fin 21) (o : Occupant) :
    (setOccupant d row o).track = { d.track with occupants := upd d.track.occupants row o } := rfl
@[simp] theorem setOccupant_classifier (d : Device) (row : Fin 21) (o : Occupant) :
    (setOccupant d row o).classifier = d.classifier := rfl
@[simp] theorem setOccupant_imprint (d : Device) (row : Fin 21) (o : Occupant) :
    (setOccupant d row o).imprint = d.imprint := rfl
@[simp] theorem setOccupant_clock (d : Device) (row : Fin 21) (o : Occupant) :
    (setOccupant d row o).clock = d.clock := rfl
@[simp] theorem setOccupant_stacker (d : Device) (row : Fin 21) (o : Occupant) :
    (setOccupant d row o).stacker = d.stacker := rfl
@[simp] theorem setOccupant_tally (d : Device) (row : Fin 21) (o : Occupant) :
    (setOccupant d row o).tally = d.tally := rfl
@[simp] theorem setOccupant_feed (d : Device) (row : Fin 21) (o : Occupant) :
    (setOccupant d row o).feed = d.feed := rfl
@[simp] theorem setOccupant_command (d : Device) (row : Fin 21) (o : Occupant) :
    (setOccupant d row o).command = d.command := rfl
@[simp] theorem setOccupant_window (d : Device) (row : Fin 21) (o : Occupant) :
    (setOccupant d row o).window = d.window := rfl
@[simp] theorem setOccupant_report (d : Device) (row : Fin 21) (o : Occupant) :
    (setOccupant d row o).report = d.report := rfl
@[simp] theorem setOccupant_line (d : Device) (row : Fin 21) (o : Occupant) :
    (setOccupant d row o).line = d.line := rfl
@[simp] theorem setOccupant_attention (d : Device) (row : Fin 21) (o : Occupant) :
    (setOccupant d row o).attention = d.attention := rfl

/-! ### `setBlocked` -/

@[simp] theorem setBlocked_inputs (d : Device) (row : Fin 21) (b : Bool) :
    (setBlocked d row b).inputs = { d.inputs with blocked := upd d.inputs.blocked row b } := rfl
@[simp] theorem setBlocked_tables (d : Device) (row : Fin 21) (b : Bool) :
    (setBlocked d row b).tables = d.tables := rfl
@[simp] theorem setBlocked_track (d : Device) (row : Fin 21) (b : Bool) :
    (setBlocked d row b).track = d.track := rfl
@[simp] theorem setBlocked_classifier (d : Device) (row : Fin 21) (b : Bool) :
    (setBlocked d row b).classifier = d.classifier := rfl
@[simp] theorem setBlocked_imprint (d : Device) (row : Fin 21) (b : Bool) :
    (setBlocked d row b).imprint = d.imprint := rfl
@[simp] theorem setBlocked_clock (d : Device) (row : Fin 21) (b : Bool) :
    (setBlocked d row b).clock = d.clock := rfl
@[simp] theorem setBlocked_stacker (d : Device) (row : Fin 21) (b : Bool) :
    (setBlocked d row b).stacker = d.stacker := rfl
@[simp] theorem setBlocked_tally (d : Device) (row : Fin 21) (b : Bool) :
    (setBlocked d row b).tally = d.tally := rfl
@[simp] theorem setBlocked_feed (d : Device) (row : Fin 21) (b : Bool) : (setBlocked d row b).feed = d.feed := rfl
@[simp] theorem setBlocked_command (d : Device) (row : Fin 21) (b : Bool) :
    (setBlocked d row b).command = d.command := rfl
@[simp] theorem setBlocked_window (d : Device) (row : Fin 21) (b : Bool) :
    (setBlocked d row b).window = d.window := rfl
@[simp] theorem setBlocked_report (d : Device) (row : Fin 21) (b : Bool) :
    (setBlocked d row b).report = d.report := rfl
@[simp] theorem setBlocked_line (d : Device) (row : Fin 21) (b : Bool) : (setBlocked d row b).line = d.line := rfl
@[simp] theorem setBlocked_attention (d : Device) (row : Fin 21) (b : Bool) :
    (setBlocked d row b).attention = d.attention := rfl

/-! ### `vacate` -/

@[simp] theorem vacate_inputs (d : Device) (row : Fin 21) : (vacate d row).inputs = d.inputs := rfl
@[simp] theorem vacate_tables (d : Device) (row : Fin 21) : (vacate d row).tables = d.tables := rfl
@[simp] theorem vacate_track (d : Device) (row : Fin 21) :
    (vacate d row).track =
      { d.track with occupants := upd d.track.occupants row .nobody, jam := upd d.track.jam row none } := rfl
@[simp] theorem vacate_classifier (d : Device) (row : Fin 21) : (vacate d row).classifier = d.classifier := rfl
@[simp] theorem vacate_imprint (d : Device) (row : Fin 21) : (vacate d row).imprint = d.imprint := rfl
@[simp] theorem vacate_clock (d : Device) (row : Fin 21) : (vacate d row).clock = d.clock := rfl
@[simp] theorem vacate_stacker (d : Device) (row : Fin 21) : (vacate d row).stacker = d.stacker := rfl
@[simp] theorem vacate_tally (d : Device) (row : Fin 21) : (vacate d row).tally = d.tally := rfl
@[simp] theorem vacate_feed (d : Device) (row : Fin 21) : (vacate d row).feed = d.feed := rfl
@[simp] theorem vacate_command (d : Device) (row : Fin 21) : (vacate d row).command = d.command := rfl
@[simp] theorem vacate_window (d : Device) (row : Fin 21) : (vacate d row).window = d.window := rfl
@[simp] theorem vacate_report (d : Device) (row : Fin 21) : (vacate d row).report = d.report := rfl
@[simp] theorem vacate_line (d : Device) (row : Fin 21) : (vacate d row).line = d.line := rfl
@[simp] theorem vacate_attention (d : Device) (row : Fin 21) : (vacate d row).attention = d.attention := rfl

/-! ### `setDelim` -/

@[simp] theorem setDelim_inputs (d : Device) (x : Delimiter) : (setDelim d x).inputs = d.inputs := rfl
@[simp] theorem setDelim_tables (d : Device) (x : Delimiter) : (setDelim d x).tables = d.tables := rfl
@[simp] theorem setDelim_track (d : Device) (x : Delimiter) : (setDelim d x).track = d.track := rfl
@[simp] theorem setDelim_classifier (d : Device) (x : Delimiter) : (setDelim d x).classifier = d.classifier := rfl
@[simp] theorem setDelim_imprint (d : Device) (x : Delimiter) : (setDelim d x).imprint = d.imprint := rfl
@[simp] theorem setDelim_clock (d : Device) (x : Delimiter) : (setDelim d x).clock = d.clock := rfl
@[simp] theorem setDelim_stacker (d : Device) (x : Delimiter) : (setDelim d x).stacker = d.stacker := rfl
@[simp] theorem setDelim_tally (d : Device) (x : Delimiter) : (setDelim d x).tally = d.tally := rfl
@[simp] theorem setDelim_feed (d : Device) (x : Delimiter) : (setDelim d x).feed = { d.feed with delim := x } := rfl
@[simp] theorem setDelim_command (d : Device) (x : Delimiter) : (setDelim d x).command = d.command := rfl
@[simp] theorem setDelim_window (d : Device) (x : Delimiter) : (setDelim d x).window = d.window := rfl
@[simp] theorem setDelim_report (d : Device) (x : Delimiter) : (setDelim d x).report = d.report := rfl
@[simp] theorem setDelim_line (d : Device) (x : Delimiter) : (setDelim d x).line = d.line := rfl
@[simp] theorem setDelim_attention (d : Device) (x : Delimiter) : (setDelim d x).attention = d.attention := rfl

/-! ### `advance` -/

@[simp] theorem advance_inputs (d : Device) : (advance d).inputs = d.inputs := rfl
@[simp] theorem advance_tables (d : Device) : (advance d).tables = d.tables := rfl
@[simp] theorem advance_track (d : Device) :
    (advance d).track = { d.track with encoder := d.track.encoder + 1 } := rfl
@[simp] theorem advance_classifier (d : Device) : (advance d).classifier = d.classifier := rfl
@[simp] theorem advance_imprint (d : Device) : (advance d).imprint = d.imprint := rfl
@[simp] theorem advance_clock (d : Device) : (advance d).clock = d.clock := rfl
@[simp] theorem advance_stacker (d : Device) : (advance d).stacker = d.stacker := rfl
@[simp] theorem advance_tally (d : Device) : (advance d).tally = d.tally := rfl
@[simp] theorem advance_feed (d : Device) : (advance d).feed = d.feed := rfl
@[simp] theorem advance_command (d : Device) : (advance d).command = d.command := rfl
@[simp] theorem advance_window (d : Device) : (advance d).window = d.window := rfl
@[simp] theorem advance_report (d : Device) : (advance d).report = d.report := rfl
@[simp] theorem advance_line (d : Device) : (advance d).line = d.line := rfl
@[simp] theorem advance_attention (d : Device) : (advance d).attention = d.attention := rfl

/-! ### `startJam` -/

@[simp] theorem startJam_inputs (d : Device) (row : Fin 21) : (startJam d row).inputs = d.inputs := rfl
@[simp] theorem startJam_tables (d : Device) (row : Fin 21) : (startJam d row).tables = d.tables := rfl
@[simp] theorem startJam_classifier (d : Device) (row : Fin 21) : (startJam d row).classifier = d.classifier := rfl
@[simp] theorem startJam_imprint (d : Device) (row : Fin 21) : (startJam d row).imprint = d.imprint := rfl
@[simp] theorem startJam_clock (d : Device) (row : Fin 21) : (startJam d row).clock = d.clock := rfl
@[simp] theorem startJam_stacker (d : Device) (row : Fin 21) : (startJam d row).stacker = d.stacker := rfl
@[simp] theorem startJam_tally (d : Device) (row : Fin 21) : (startJam d row).tally = d.tally := rfl
@[simp] theorem startJam_feed (d : Device) (row : Fin 21) : (startJam d row).feed = d.feed := rfl
@[simp] theorem startJam_command (d : Device) (row : Fin 21) : (startJam d row).command = d.command := rfl
@[simp] theorem startJam_window (d : Device) (row : Fin 21) : (startJam d row).window = d.window := rfl
@[simp] theorem startJam_report (d : Device) (row : Fin 21) : (startJam d row).report = d.report := rfl
@[simp] theorem startJam_line (d : Device) (row : Fin 21) : (startJam d row).line = d.line := rfl
@[simp] theorem startJam_attention (d : Device) (row : Fin 21) : (startJam d row).attention = d.attention := rfl

/-! ### `releaseColumn` -/

@[simp] theorem releaseColumn_inputs (d : Device) (n : RecNo) : (releaseColumn d n).inputs = d.inputs := rfl
@[simp] theorem releaseColumn_tables (d : Device) (n : RecNo) : (releaseColumn d n).tables = d.tables := rfl
@[simp] theorem releaseColumn_track (d : Device) (n : RecNo) : (releaseColumn d n).track = d.track := rfl
@[simp] theorem releaseColumn_classifier (d : Device) (n : RecNo) : (releaseColumn d n).classifier = d.classifier := rfl
@[simp] theorem releaseColumn_clock (d : Device) (n : RecNo) : (releaseColumn d n).clock = d.clock := rfl
@[simp] theorem releaseColumn_stacker (d : Device) (n : RecNo) : (releaseColumn d n).stacker = d.stacker := rfl
@[simp] theorem releaseColumn_tally (d : Device) (n : RecNo) : (releaseColumn d n).tally = d.tally := rfl
@[simp] theorem releaseColumn_feed (d : Device) (n : RecNo) : (releaseColumn d n).feed = d.feed := rfl
@[simp] theorem releaseColumn_command (d : Device) (n : RecNo) : (releaseColumn d n).command = d.command := rfl
@[simp] theorem releaseColumn_window (d : Device) (n : RecNo) : (releaseColumn d n).window = d.window := rfl
@[simp] theorem releaseColumn_report (d : Device) (n : RecNo) : (releaseColumn d n).report = d.report := rfl
@[simp] theorem releaseColumn_line (d : Device) (n : RecNo) : (releaseColumn d n).line = d.line := rfl
@[simp] theorem releaseColumn_attention (d : Device) (n : RecNo) : (releaseColumn d n).attention = d.attention := rfl

/-! ### `occur` -/

@[simp] theorem occur_inputs (d : Device) (o : Occurrence) : (occur d o).inputs = d.inputs := rfl
@[simp] theorem occur_tables (d : Device) (o : Occurrence) : (occur d o).tables = d.tables := rfl
@[simp] theorem occur_track (d : Device) (o : Occurrence) : (occur d o).track = d.track := rfl
@[simp] theorem occur_classifier (d : Device) (o : Occurrence) : (occur d o).classifier = d.classifier := rfl
@[simp] theorem occur_imprint (d : Device) (o : Occurrence) : (occur d o).imprint = d.imprint := rfl
@[simp] theorem occur_clock (d : Device) (o : Occurrence) : (occur d o).clock = d.clock := rfl
@[simp] theorem occur_stacker (d : Device) (o : Occurrence) : (occur d o).stacker = d.stacker := rfl
@[simp] theorem occur_tally (d : Device) (o : Occurrence) : (occur d o).tally = d.tally := rfl
@[simp] theorem occur_feed (d : Device) (o : Occurrence) : (occur d o).feed = d.feed := rfl
@[simp] theorem occur_command (d : Device) (o : Occurrence) : (occur d o).command = d.command := rfl
@[simp] theorem occur_window (d : Device) (o : Occurrence) : (occur d o).window = d.window := rfl
@[simp] theorem occur_report (d : Device) (o : Occurrence) : (occur d o).report = d.report := rfl
@[simp] theorem occur_line (d : Device) (o : Occurrence) : (occur d o).line = d.line := rfl

/-! ### `reportConditions` -/

@[simp] theorem reportConditions_inputs (d : Device) : (reportConditions d).inputs = d.inputs := rfl
@[simp] theorem reportConditions_tables (d : Device) : (reportConditions d).tables = d.tables := rfl
@[simp] theorem reportConditions_track (d : Device) : (reportConditions d).track = d.track := rfl
@[simp] theorem reportConditions_classifier (d : Device) : (reportConditions d).classifier = d.classifier := rfl
@[simp] theorem reportConditions_imprint (d : Device) : (reportConditions d).imprint = d.imprint := rfl
@[simp] theorem reportConditions_clock (d : Device) : (reportConditions d).clock = d.clock := rfl
@[simp] theorem reportConditions_stacker (d : Device) : (reportConditions d).stacker = d.stacker := rfl
@[simp] theorem reportConditions_tally (d : Device) : (reportConditions d).tally = d.tally := rfl
@[simp] theorem reportConditions_feed (d : Device) : (reportConditions d).feed = d.feed := rfl
@[simp] theorem reportConditions_command (d : Device) : (reportConditions d).command = d.command := rfl
@[simp] theorem reportConditions_window (d : Device) : (reportConditions d).window = d.window := rfl
@[simp] theorem reportConditions_report (d : Device) : (reportConditions d).report = d.report := rfl
@[simp] theorem reportConditions_line (d : Device) : (reportConditions d).line = d.line := rfl

/-! ### `leaveTrack` -/

@[simp] theorem leaveTrack_inputs (d : Device) (n : RecNo) : (leaveTrack d n).inputs = d.inputs := rfl
@[simp] theorem leaveTrack_tables (d : Device) (n : RecNo) : (leaveTrack d n).tables = d.tables := rfl
@[simp] theorem leaveTrack_classifier (d : Device) (n : RecNo) : (leaveTrack d n).classifier = d.classifier := rfl
@[simp] theorem leaveTrack_imprint (d : Device) (n : RecNo) : (leaveTrack d n).imprint = d.imprint := rfl
@[simp] theorem leaveTrack_clock (d : Device) (n : RecNo) : (leaveTrack d n).clock = d.clock := rfl
@[simp] theorem leaveTrack_tally (d : Device) (n : RecNo) : (leaveTrack d n).tally = d.tally := rfl
@[simp] theorem leaveTrack_feed (d : Device) (n : RecNo) : (leaveTrack d n).feed = d.feed := rfl
@[simp] theorem leaveTrack_command (d : Device) (n : RecNo) : (leaveTrack d n).command = d.command := rfl
@[simp] theorem leaveTrack_window (d : Device) (n : RecNo) : (leaveTrack d n).window = d.window := rfl
@[simp] theorem leaveTrack_report (d : Device) (n : RecNo) : (leaveTrack d n).report = d.report := rfl
@[simp] theorem leaveTrack_line (d : Device) (n : RecNo) : (leaveTrack d n).line = d.line := rfl
@[simp] theorem leaveTrack_attention (d : Device) (n : RecNo) : (leaveTrack d n).attention = d.attention := rfl

/-! ### `openGapAtRun` -/

@[simp] theorem openGapAtRun_inputs (d : Device) : (openGapAtRun d).inputs = d.inputs := rfl
@[simp] theorem openGapAtRun_tables (d : Device) : (openGapAtRun d).tables = d.tables := rfl
@[simp] theorem openGapAtRun_track (d : Device) : (openGapAtRun d).track = d.track := rfl
@[simp] theorem openGapAtRun_classifier (d : Device) : (openGapAtRun d).classifier = d.classifier := rfl
@[simp] theorem openGapAtRun_imprint (d : Device) : (openGapAtRun d).imprint = d.imprint := rfl
@[simp] theorem openGapAtRun_clock (d : Device) : (openGapAtRun d).clock = d.clock := rfl
@[simp] theorem openGapAtRun_stacker (d : Device) : (openGapAtRun d).stacker = d.stacker := rfl
@[simp] theorem openGapAtRun_tally (d : Device) : (openGapAtRun d).tally = d.tally := rfl
@[simp] theorem openGapAtRun_feed (d : Device) : (openGapAtRun d).feed = d.feed := rfl
@[simp] theorem openGapAtRun_command (d : Device) : (openGapAtRun d).command = d.command := rfl
@[simp] theorem openGapAtRun_report (d : Device) : (openGapAtRun d).report = d.report := rfl
@[simp] theorem openGapAtRun_line (d : Device) : (openGapAtRun d).line = d.line := rfl
@[simp] theorem openGapAtRun_attention (d : Device) : (openGapAtRun d).attention = d.attention := rfl

/-! ### `acceptWord` -/

@[simp] theorem acceptWord_inputs (d : Device) (w : LinkWord) : (acceptWord d w).inputs = d.inputs := rfl
@[simp] theorem acceptWord_tables (d : Device) (w : LinkWord) : (acceptWord d w).tables = d.tables := rfl
@[simp] theorem acceptWord_track (d : Device) (w : LinkWord) : (acceptWord d w).track = d.track := rfl
@[simp] theorem acceptWord_classifier (d : Device) (w : LinkWord) : (acceptWord d w).classifier = d.classifier := rfl
@[simp] theorem acceptWord_imprint (d : Device) (w : LinkWord) : (acceptWord d w).imprint = d.imprint := rfl
@[simp] theorem acceptWord_clock (d : Device) (w : LinkWord) : (acceptWord d w).clock = d.clock := rfl
@[simp] theorem acceptWord_stacker (d : Device) (w : LinkWord) : (acceptWord d w).stacker = d.stacker := rfl
@[simp] theorem acceptWord_tally (d : Device) (w : LinkWord) : (acceptWord d w).tally = d.tally := rfl
@[simp] theorem acceptWord_command (d : Device) (w : LinkWord) : (acceptWord d w).command = d.command := rfl
@[simp] theorem acceptWord_window (d : Device) (w : LinkWord) : (acceptWord d w).window = d.window := rfl
@[simp] theorem acceptWord_report (d : Device) (w : LinkWord) : (acceptWord d w).report = d.report := rfl
@[simp] theorem acceptWord_line (d : Device) (w : LinkWord) : (acceptWord d w).line = d.line := rfl
@[simp] theorem acceptWord_attention (d : Device) (w : LinkWord) : (acceptWord d w).attention = d.attention := rfl

/-! ### `closePeriod` -/

@[simp] theorem closePeriod_inputs (d : Device) (c : CloseCauses) (b : Bool) : (closePeriod d c b).inputs =
    d.inputs := rfl
@[simp] theorem closePeriod_tables (d : Device) (c : CloseCauses) (b : Bool) : (closePeriod d c b).tables =
    d.tables := rfl
@[simp] theorem closePeriod_track (d : Device) (c : CloseCauses) (b : Bool) : (closePeriod d c b).track = d.track := rfl
@[simp] theorem closePeriod_classifier (d : Device) (c : CloseCauses) (b : Bool) : (closePeriod d c b).classifier =
    d.classifier := rfl
@[simp] theorem closePeriod_imprint (d : Device) (c : CloseCauses) (b : Bool) : (closePeriod d c b).imprint =
    d.imprint := rfl
@[simp] theorem closePeriod_clock (d : Device) (c : CloseCauses) (b : Bool) : (closePeriod d c b).clock = d.clock := rfl
@[simp] theorem closePeriod_stacker (d : Device) (c : CloseCauses) (b : Bool) : (closePeriod d c b).stacker =
    d.stacker := rfl
@[simp] theorem closePeriod_feed (d : Device) (c : CloseCauses) (b : Bool) : (closePeriod d c b).feed = d.feed := rfl
@[simp] theorem closePeriod_command (d : Device) (c : CloseCauses) (b : Bool) : (closePeriod d c b).command =
    d.command := rfl
@[simp] theorem closePeriod_window (d : Device) (c : CloseCauses) (b : Bool) : (closePeriod d c b).window =
    d.window := rfl
@[simp] theorem closePeriod_report (d : Device) (c : CloseCauses) (b : Bool) : (closePeriod d c b).report =
    d.report := rfl
@[simp] theorem closePeriod_line (d : Device) (c : CloseCauses) (b : Bool) : (closePeriod d c b).line = d.line := rfl
@[simp] theorem closePeriod_attention (d : Device) (c : CloseCauses) (b : Bool) : (closePeriod d c b).attention =
    d.attention := rfl

/-! ### `occupyBlocked` -/

@[simp] theorem occupyBlocked_inputs (d : Device) : (occupyBlocked d).inputs = d.inputs := by
  simp only [occupyBlocked]
@[simp] theorem occupyBlocked_tables (d : Device) : (occupyBlocked d).tables = d.tables := by
  simp only [occupyBlocked]
@[simp] theorem occupyBlocked_classifier (d : Device) : (occupyBlocked d).classifier = d.classifier := by
  simp only [occupyBlocked]
@[simp] theorem occupyBlocked_imprint (d : Device) : (occupyBlocked d).imprint = d.imprint := by
  simp only [occupyBlocked]
@[simp] theorem occupyBlocked_clock (d : Device) : (occupyBlocked d).clock = d.clock := by
  simp only [occupyBlocked]
@[simp] theorem occupyBlocked_stacker (d : Device) : (occupyBlocked d).stacker = d.stacker := by
  simp only [occupyBlocked]
@[simp] theorem occupyBlocked_tally (d : Device) : (occupyBlocked d).tally = d.tally := by
  simp only [occupyBlocked]
@[simp] theorem occupyBlocked_feed (d : Device) : (occupyBlocked d).feed = d.feed := by
  simp only [occupyBlocked]
@[simp] theorem occupyBlocked_command (d : Device) : (occupyBlocked d).command = d.command := by
  simp only [occupyBlocked]
@[simp] theorem occupyBlocked_window (d : Device) : (occupyBlocked d).window = d.window := by
  simp only [occupyBlocked]
@[simp] theorem occupyBlocked_report (d : Device) : (occupyBlocked d).report = d.report := by
  simp only [occupyBlocked]
@[simp] theorem occupyBlocked_line (d : Device) : (occupyBlocked d).line = d.line := by
  simp only [occupyBlocked]
@[simp] theorem occupyBlocked_attention (d : Device) : (occupyBlocked d).attention = d.attention := by
  simp only [occupyBlocked]

end Sys2Proof.Machine
end

