-- ==== Sys2Proof/Laws/Ops.lean ====
section
/-! SUPPORT. Laws of the shared operations of `Sys2Proof.Machine.Ops`: arrays, the store of table cells, the records of
the Tracking Queue and the Column Ring's queues. -/

namespace Sys2Proof.Machine

/-! ## Arrays -/

theorem upd_same {α : Type} {n : Nat} (v : Vector α n) (i : Fin n) (x : α) : (upd v i x)[i] = x := by
  simp [upd]

theorem upd_other {α : Type} {n : Nat} (v : Vector α n) (i j : Fin n) (x : α) (h : i ≠ j) :
    (upd v i x)[j] = v[j] := by
  have : i.val ≠ j.val := fun e => h (Fin.ext e)
  simp [upd, this]

/-! ## The store of table cells -/

/-- The keys of a store all lie above `k`. -/
def storeAbove (k : Nat) : List (Nat × Word) → Bool
  | [] => true
  | (k', _) :: _ => decide (k < k')

theorem storeWf_cons (k : Nat) (v : Word) (rest : List (Nat × Word)) :
    storeWf ((k, v) :: rest) = (decide (v ≠ cellReset k) && storeAbove k rest && storeWf rest) := by
  cases rest with
  | nil => simp [storeWf, storeAbove]
  | cons e rest => obtain ⟨k', v'⟩ := e; simp [storeWf, storeAbove]

theorem storeGet_of_above (k key : Nat) (rest : List (Nat × Word)) (hk : key ≤ k) (ha : storeAbove k rest = true)
    (hw : storeWf rest = true) : storeGet rest key = cellReset key := by
  induction rest generalizing k with
  | nil => rfl
  | cons e rest ih =>
    obtain ⟨k', v'⟩ := e
    rw [storeWf_cons] at hw
    simp only [storeAbove, decide_eq_true_eq] at ha
    simp only [Bool.and_eq_true] at hw
    rw [storeGet, if_neg (by omega)]
    exact ih k' (by omega) hw.1.2 hw.2

theorem storeCons_wf (key : Nat) (value : Word) (rest : List (Nat × Word)) (ha : storeAbove key rest = true)
    (hw : storeWf rest = true) : storeWf (storeCons key value rest) = true := by
  unfold storeCons
  split
  · exact hw
  · rw [storeWf_cons]; simp [*]

theorem storeAbove_trans (k key : Nat) (rest : List (Nat × Word)) (hk : k ≤ key) (ha : storeAbove key rest = true) :
    storeAbove k rest = true := by
  cases rest with
  | nil => rfl
  | cons e rest =>
    simp only [storeAbove, decide_eq_true_eq] at *
    omega

theorem storeAbove_storeCons (k key : Nat) (value : Word) (rest : List (Nat × Word)) (hk : k < key)
    (ha : storeAbove k rest = true) : storeAbove k (storeCons key value rest) = true := by
  unfold storeCons
  split
  · exact ha
  · simpa [storeAbove] using hk

theorem storeAbove_storeSet (k key : Nat) (value : Word) (rest : List (Nat × Word)) (hk : k < key)
    (ha : storeAbove k rest = true) (hw : storeWf rest = true) :
    storeAbove k (storeSet rest key value) = true := by
  cases rest with
  | nil => exact storeAbove_storeCons k key value [] hk rfl
  | cons e rest =>
    obtain ⟨k', v'⟩ := e
    rw [storeWf_cons] at hw
    simp only [Bool.and_eq_true] at hw
    have hk' : k < k' := by simpa [storeAbove] using ha
    unfold storeSet
    split
    · exact storeAbove_storeCons k key value _ hk ha
    · split
      · exact storeAbove_storeCons k key value _ hk (storeAbove_trans k k' rest (by omega) hw.1.2)
      · simpa [storeAbove] using hk'

/-- A write keeps the store's canonical form. -/
theorem storeSet_wf (l : List (Nat × Word)) (key : Nat) (value : Word) (h : storeWf l = true) :
    storeWf (storeSet l key value) = true := by
  induction l with
  | nil => exact storeCons_wf key value [] rfl rfl
  | cons e rest ih =>
    obtain ⟨k, v⟩ := e
    have hw := h
    rw [storeWf_cons] at hw
    simp only [Bool.and_eq_true] at hw
    unfold storeSet
    split
    · exact storeCons_wf key value _ (by simpa [storeAbove]) h
    · split
      · next e => subst e; exact storeCons_wf key value _ hw.1.2 hw.2
      · rw [storeWf_cons]
        simp only [Bool.and_eq_true]
        exact ⟨⟨hw.1.1, storeAbove_storeSet k key value rest (by omega) hw.1.2 hw.2⟩, ih hw.2⟩

theorem storeCons_get (key : Nat) (value : Word) (rest : List (Nat × Word)) (ha : storeAbove key rest = true)
    (hw : storeWf rest = true) : storeGet (storeCons key value rest) key = value := by
  unfold storeCons
  split
  · next e => rw [storeGet_of_above key key rest (Nat.le_refl _) ha hw, e]
  · simp [storeGet]

theorem storeCons_get_other (key other : Nat) (value : Word) (rest : List (Nat × Word)) (h : key ≠ other) :
    storeGet (storeCons key value rest) other = storeGet rest other := by
  unfold storeCons
  split
  · rfl
  · simp [storeGet, h]

/-- A cell written reads as written. -/
theorem storeGet_storeSet (l : List (Nat × Word)) (key : Nat) (value : Word) (h : storeWf l = true) :
    storeGet (storeSet l key value) key = value := by
  induction l with
  | nil => exact storeCons_get key value [] rfl rfl
  | cons e rest ih =>
    obtain ⟨k, v⟩ := e
    have hw := h
    rw [storeWf_cons] at hw
    simp only [Bool.and_eq_true] at hw
    unfold storeSet
    split
    · exact storeCons_get key value _ (by simpa [storeAbove]) h
    · split
      · next e => subst e; exact storeCons_get key value _ hw.1.2 hw.2
      · rw [storeGet, if_neg (by omega)]; exact ih hw.2

/-- A cell not written reads as before. -/
theorem storeGet_storeSet_other (l : List (Nat × Word)) (key other : Nat) (value : Word) (h : key ≠ other)
    (hw : storeWf l = true) : storeGet (storeSet l key value) other = storeGet l other := by
  induction l with
  | nil => exact storeCons_get_other key other value [] h
  | cons e rest ih =>
    obtain ⟨k, v⟩ := e
    rw [storeWf_cons] at hw
    simp only [Bool.and_eq_true] at hw
    unfold storeSet
    split
    · exact storeCons_get_other key other value _ h
    · split
      · next e => subst e; rw [storeCons_get_other _ _ _ _ h, storeGet, if_neg h]
      · simp only [storeGet]; split
        · rfl
        · exact ih hw.2

theorem storeAbove_filter (k : Nat) (p : Nat × Word → Bool) (l : List (Nat × Word)) (ha : storeAbove k l = true)
    (hw : storeWf l = true) : storeAbove k (l.filter p) = true := by
  induction l generalizing k with
  | nil => rfl
  | cons e rest ih =>
    obtain ⟨k', v'⟩ := e
    rw [storeWf_cons] at hw
    simp only [Bool.and_eq_true] at hw
    have hk : k < k' := by simpa [storeAbove] using ha
    rw [List.filter_cons]
    split
    · simpa [storeAbove] using hk
    · exact storeAbove_trans k k' _ (by omega) (ih k' hw.1.2 hw.2)

/-- Cells dropped from the store leave it canonical. -/
theorem storeWf_filter (p : Nat × Word → Bool) (l : List (Nat × Word)) (h : storeWf l = true) :
    storeWf (l.filter p) = true := by
  induction l with
  | nil => rfl
  | cons e rest ih =>
    obtain ⟨k, v⟩ := e
    rw [storeWf_cons] at h
    simp only [Bool.and_eq_true] at h
    rw [List.filter_cons]
    split
    · rw [storeWf_cons]
      simp only [Bool.and_eq_true]
      exact ⟨⟨h.1.1, storeAbove_filter k p rest h.1.2 h.2⟩, ih h.2⟩
    · exact ih h.2

/-- A store filtered by its keys reads as before at the keys kept and at its reset value elsewhere. -/
theorem storeGet_filter (p : Nat × Word → Bool) (hp : ∀ k v w, p (k, v) = p (k, w)) (l : List (Nat × Word))
    (key : Nat) : storeGet (l.filter p) key = if p (key, 0) then storeGet l key else cellReset key := by
  induction l with
  | nil => simp [storeGet]
  | cons e l ih =>
    obtain ⟨k, v⟩ := e
    have h0 : p (k, v) = p (k, 0) := hp k v 0
    by_cases h : p (k, v) = true
    · rw [List.filter_cons_of_pos h]
      simp only [storeGet, ih]
      by_cases hk : k = key
      · subst hk; rw [if_pos rfl, if_pos rfl, if_pos (h0 ▸ h)]
      · rw [if_neg hk, if_neg hk]
    · rw [List.filter_cons_of_neg h, ih]
      simp only [storeGet]
      by_cases hk : k = key
      · subst hk; rw [if_pos rfl, if_neg (h0 ▸ h), if_neg (h0 ▸ h)]
      · rw [if_neg hk]

/-- Two cells within 512 rows and 32 fields have one key only if they are one cell. -/
theorem cellKey_inj (t r f t' r' f' : Nat) (hr : r < 512) (hf : f < 32) (hr' : r' < 512) (hf' : f' < 32) :
    cellKey t r f = cellKey t' r' f' ↔ t = t' ∧ r = r' ∧ f = f' := by
  unfold cellKey; omega

/-! ## Records -/

theorem modify_length (d : Device) (n : RecNo) (f : ItemRecord → ItemRecord) :
    (d.modify n f).track.queue.length = d.track.queue.length := by simp

theorem find_number (d : Device) (n : RecNo) (r : ItemRecord) (h : d.find n = some r) : r.number = n := by
  have := List.find?_some h
  simpa using this

theorem find_mem (d : Device) (n : RecNo) (r : ItemRecord) (h : d.find n = some r) : r ∈ d.track.queue :=
  List.mem_of_find?_eq_some h

/-- A rewrite that keeps the number acts on the record found. -/
theorem find_modify (d : Device) (n : RecNo) (f : ItemRecord → ItemRecord) (hf : ∀ r, (f r).number = r.number) :
    (d.modify n f).find n = (d.find n).map f := by
  simp only [Device.find, Device.modify]
  induction d.track.queue with
  | nil => rfl
  | cons r rest ih =>
    by_cases h : r.number = n
    · simp [h, hf]
    · simp [h, ih]

/-- A rewrite that keeps the number leaves the other records as they are. -/
theorem find_modify_other (d : Device) (n m : RecNo) (f : ItemRecord → ItemRecord) (h : m ≠ n)
    (hf : ∀ r, (f r).number = r.number) : (d.modify n f).find m = d.find m := by
  simp only [Device.find, Device.modify]
  induction d.track.queue with
  | nil => rfl
  | cons r rest ih =>
    by_cases hr : r.number = n
    · have : r.number ≠ m := fun e => h (e ▸ hr)
      simp [hr, hf, ih, List.find?_cons]
      simp_all
    · by_cases hm : r.number = m
      · simp [hm, List.find?_cons]
        simp_all
      · simp [hr, hm, ih]

/-! ## Frames of words -/

theorem linkFrame_length (ws : List Word) : (linkFrame ws).length = ws.length := by
  cases ws <;> simp [linkFrame]

theorem responseWords_length (kind : CommandKind) (tag : BitVec 8) (excess : Nat) (a : Answer) :
    (responseWords kind tag excess a).length = 5 + a.words.length := by
  simp [responseWords]; omega

theorem countWords_length (c : Count) : (countWords c).length = 2 := rfl

theorem pageWords_length (p : TallyPage) : (linkFrame p.words).length = Config.pageWords := by
  have : ∀ l : List Count, (l.flatMap countWords).length = 2 * l.length := by
    intro l; induction l with
    | nil => rfl
    | cons c l ih => simp [List.flatMap_cons, countWords_length, ih]; omega
  rw [linkFrame_length]
  simp [TallyPage.words, this, Config.pageWords]

/-- 12.4: the two words of an encoder value. -/
theorem posWords_eq (p : Pos) : posWords p = [(p.extractLsb' 16 8).setWidth 16, p.extractLsb' 0 16] := by
  unfold posWords
  refine congrArg₂ (fun a b => [a, b]) ?_ ?_ <;> apply BitVec.eq_of_toNat_eq <;>
    simp [word, Nat.shiftRight_eq_div_pow]
  have := p.isLt
  omega

/-- R139, R142: the two words of a count. -/
theorem countWords_eq (c : Count) : countWords c = [c.extractLsb' 16 16, c.extractLsb' 0 16] := by
  unfold countWords
  refine congrArg₂ (fun a b => [a, b]) ?_ ?_ <;> apply BitVec.eq_of_toNat_eq <;>
    simp [word, Nat.shiftRight_eq_div_pow]

/-- R139: the two words of a counter, at its place among the counters. -/
theorem countWords_get (l : List Count) (k : Nat) (c : Count) (h : l[k]? = some c) :
    (l.flatMap countWords)[2 * k]? = some (c.extractLsb' 16 16) ∧
      (l.flatMap countWords)[2 * k + 1]? = some (c.extractLsb' 0 16) := by
  induction l generalizing k with
  | nil => simp at h
  | cons a l ih =>
    rw [List.flatMap_cons, countWords_eq]
    cases k with
    | zero => cases h; exact ⟨rfl, rfl⟩
    | succ k => exact ih k (by simpa using h)

/-- 12.6: the words of a page, one by one. -/
theorem pageWords_get (p : TallyPage) (k : Fin 56) :
    p.words[8 + 2 * k.val]? = some ((p.counters[k]).extractLsb' 16 16) ∧
      p.words[9 + 2 * k.val]? = some ((p.counters[k]).extractLsb' 0 16) := by
  have h := countWords_get p.counters.toList k.val p.counters[k] (by simp)
  unfold TallyPage.words
  rw [List.getElem?_append_right (by simp), List.getElem?_append_right (by simp; omega)]
  constructor
  · rw [← h.1]; simp
  · rw [← h.2]; congr 1; simp only [List.length_cons, List.length_nil]; omega

theorem batchFrame_length (reports : List (List Word)) (h : ∀ r ∈ reports, r.length = 6) :
    (batchFrame reports).length = 1 + 6 * reports.length := by
  have : reports.flatten.length = 6 * reports.length := by
    induction reports with
    | nil => rfl
    | cons r rest ih =>
      simp only [List.flatten_cons, List.length_append, List.length_cons]
      rw [h r (by simp), ih (fun r hr => h r (by simp [hr]))]; omega
  rw [batchFrame, linkFrame_length, List.length_cons, this]; omega

theorem itemReport_length (r : ItemRecord) (exit : ExitKind) : (itemReport r exit).length = 6 := rfl

end Sys2Proof.Machine
end

