-- ==== Sys2Proof/Laws/Keeps.lean ====
section
/-! SUPPORT. What an operation that leaves the mode, the encoder and the clock alone may do to the invariants of
`Sys2Proof.Safety`: `Moves n d d'` says it keeps them all, the balance of R22 moved by `n`; `Keeps` is `Moves 0`. Each
shared operation has one such law, and the laws compose. -/

namespace Sys2Proof.Machine

/-- How far the admitted line total is from the sum of R22; 0 in balance. -/
def Device.balance (d : Device) : Count :=
  BitVec.ofNat 32 d.track.queue.length + d.tally.totals.stacked + d.tally.totals.lost + d.tally.totals.missed +
    d.tally.totals.purged - d.tally.totals.admitted

theorem balanced_iff (d : Device) : d.balanced ↔ d.balance = 0 := by
  simp only [Device.balanced, Device.balance]
  constructor
  · intro h; rw [h]; simp
  · intro h
    have := congrArg (· + d.tally.totals.admitted) h
    simpa [BitVec.sub_add_cancel] using this.symm

/-- Everything of a part the invariants read, but for what is at work in it (`Device.work`). -/
structure Gist where
  mode : Mode
  encoder : Pos
  clock : DayClock
  tables : List (Nat × Word)
  records : Nat
  totals : LineTotals
  batch : List (List Word)
  words : List LinkWord
  feed : FeedLink
  command : CommandState
  groups : List (List CellWrite)
  selection : Option Window
  mask : BitVec 12
  sequence : Nat
  reject : BinState

def Device.gist (d : Device) : Gist :=
  { mode := d.line.mode, encoder := d.track.encoder, clock := d.clock, tables := d.tables,
    records := d.track.queue.length, totals := d.tally.totals, batch := d.tally.batch, words := d.report.queue,
    feed := d.feed, command := d.command, groups := d.window.groups, selection := d.window.selection, mask :=
        d.attention.mask,
    sequence := d.imprint.sequence, reject := (d.bin 0).state }

/-- What is at work: orders held, a classification, a build, a print. -/
structure Work where
  twist : Option RecNo
  turn : Option RecNo
  gates : Vector (Option RecNo) 16
  busy : Option RecNo
  builder : Option RecNo
  printing : Option Printing

def Device.work (d : Device) : Work :=
  { twist := d.track.twist, turn := d.track.turn, gates := d.stacker.gates, busy := d.classifier.busy,
    builder := d.imprint.builder, printing := d.imprint.printing }

/-- Nothing is at work in `w'` that was not in `w`. -/
structure Work.Rests (w w' : Work) : Prop where
  twist : w.twist = none → w'.twist = none
  turn : w.turn = none → w'.turn = none
  gates : w.gates = Vector.replicate 16 none → w'.gates = Vector.replicate 16 none
  busy : w.busy = none → w'.busy = none
  builder : w.builder = none → w'.builder = none
  printing : w.printing = none → w'.printing = none

theorem Work.Rests.refl (w : Work) : w.Rests w := ⟨id, id, id, id, id, id⟩

structure Moves (n : Count) (d d' : Device) : Prop where
  mode : d'.line.mode = d.line.mode
  encoder : d'.track.encoder = d.track.encoder
  balance : d'.balance = d.balance + n
  canonical : d.canonical → d'.canonical
  bounded : d.bounded → d'.bounded
  linked : d.linked → d'.linked
  resting : d.resting → d'.resting
  settled : d.settledModes → d'.settledModes
  legal : d.clock.legal → d'.clock.legal
  held : d.held → d'.held
  cursor : d.linked → d.cursorHeld → d'.cursorHeld
  staging : d.linked → d.staging → d'.staging

abbrev Keeps (d d' : Device) : Prop := Moves 0 d d'

theorem Moves.active {n : Count} {d d' : Device} (h : Moves n d d') : d'.active = d.active := by
  simp [Device.active, h.mode]

theorem Keeps.refl (d : Device) : Keeps d d := ⟨rfl, rfl, by simp, id, id, id, id, id, id, id, fun _ => id, fun _ => id⟩

theorem Moves.trans {m n : Count} {a b c : Device} (h : Moves m a b) (k : Moves n b c) : Moves (m + n) a c :=
  ⟨k.mode.trans h.mode, k.encoder.trans h.encoder, by rw [k.balance, h.balance, BitVec.add_assoc],
    fun x => k.canonical (h.canonical x), fun x => k.bounded (h.bounded x), fun x => k.linked (h.linked x),
    fun x => k.resting (h.resting x), fun x => k.settled (h.settled x), fun x => k.legal (h.legal x),
    fun x => k.held (h.held x), fun l x => k.cursor (h.linked l) (h.cursor l x),
    fun l x => k.staging (h.linked l) (h.staging l x)⟩

theorem Keeps.trans {n : Count} {a b c : Device} (h : Keeps a b) (k : Moves n b c) : Moves n a c := by
  have := Moves.trans h k; simpa using this

theorem Moves.then {n : Count} {a b c : Device} (h : Moves n a b) (k : Keeps b c) : Moves n a c := by
  have := Moves.trans h k; simpa using this

/-- R188 reads the mode, the Command Unit, the groups and the selection. -/
theorem staging_of_gist {d d' : Device} (hm : d'.line.mode = d.line.mode) (hc : d'.command = d.command)
    (hg : d'.window.groups = d.window.groups) (hs : d'.window.selection = d.window.selection) :
    d.staging → d'.staging := by
  simp only [Device.staging, Device.pendingCells, Device.pendingGroups, Device.openGroup, Device.openGroups,
    Device.active, hm, hc, hg, hs]
  exact id

theorem bit_le (b : Bool) : bit b ≤ 1 := by cases b <;> decide

theorem openGroups_le (d : Device) : d.openGroups ≤ 1 := by
  unfold Device.openGroups
  split
  · exact bit_le _
  · exact Nat.zero_le _
  · exact Nat.zero_le _

/-- R188: with nothing staged the selection alone has to lie in its table. -/
theorem staging_of_empty {d : Device} (hg : d.window.groups = []) (ho : d.openGroup = [])
    (hs : ∀ w ∈ d.window.selection, w.inTable) : d.staging := by
  have := openGroups_le d
  refine ⟨?_, ?_, .inl ho, ?_, ?_, hs⟩
  · simp [Device.pendingCells, hg, ho]
  · simp only [Device.pendingGroups, hg, List.length_nil, Config.pendingGroups]; omega
  · rw [hg]; intro g h; cases h
  · rw [ho]; intro g h; cases h

/-- An operation that changes nothing the invariants read, but may end what is at work. -/
theorem Keeps.of_rests {d d' : Device} (hg : d'.gist = d.gist) (hw : d.work.Rests d'.work) : Keeps d d' := by
  simp only [Device.gist, Gist.mk.injEq] at hg
  obtain ⟨hm, he, hc, ht, hr, hto, hb, hq, hf, hcmd, hgr, hsel, hk, hs, hz⟩ := hg
  have ha : d'.active = d.active := by simp [Device.active, hm]
  have hog : d'.openGroup = d.openGroup := by simp [Device.openGroup, hcmd]
  refine
    { mode := hm
      encoder := he
      balance := by simp [Device.balance, hr, hto]
      canonical := by simp [Device.canonical, ht]
      bounded := by simp [Device.bounded, hr, hb, hq, hf]
      linked := by simp [Device.linked, hcmd, hf]
      resting := fun h hx => ?_
      settled := fun h => ⟨fun hx => ?_, fun hx => ?_⟩
      legal := by rw [hc]; exact id
      held := by simp [Device.held, hk, hs, hz]
      cursor := fun _ => by simp only [Device.cursorHeld, hsel, hcmd]; exact id
      staging := fun _ => staging_of_gist hm hcmd hgr hsel }
  · obtain ⟨h1, h2, h3, h4, h5⟩ := h (by rw [← ha]; exact hx)
    exact ⟨hw.twist h1, hw.turn h2, hw.gates h3, by rw [hgr]; exact h4, by rw [hog]; exact h5⟩
  · have := h.1 (by rw [← hm]; exact hx)
    rw [← List.length_eq_zero_iff] at *
    omega
  · obtain ⟨h1, h2, h3⟩ := h.2 (by rw [← hm]; exact hx)
    exact ⟨hw.busy h1, hw.builder h2, hw.printing h3⟩

theorem Keeps.of_gist {d d' : Device} (hg : d'.gist = d.gist) (hw : d'.work = d.work) : Keeps d d' :=
  Keeps.of_rests hg (hw ▸ Work.Rests.refl _)

/-- In RUN and DRAIN an operation may put anything to work. -/
theorem Keeps.of_active {d d' : Device} (hg : d'.gist = d.gist) (ha : d.active = true) : Keeps d d' := by
  simp only [Device.gist, Gist.mk.injEq] at hg
  obtain ⟨hm, he, hc, ht, hr, hto, hb, hq, hf, hcmd, hgr, hsel, hk, hs, hz⟩ := hg
  have ha' : d'.active = true := by rw [← ha]; simp [Device.active, hm]
  refine
    { mode := hm
      encoder := he
      balance := by simp [Device.balance, hr, hto]
      canonical := by simp [Device.canonical, ht]
      bounded := by simp [Device.bounded, hr, hb, hq, hf]
      linked := by simp [Device.linked, hcmd, hf]
      resting := fun _ hx => ?_
      settled := fun _ => ⟨fun hx => ?_, fun hx => ?_⟩
      legal := by rw [hc]; exact id
      held := by simp [Device.held, hk, hs, hz]
      cursor := fun _ => by simp only [Device.cursorHeld, hsel, hcmd]; exact id
      staging := fun _ => staging_of_gist hm hcmd hgr hsel }
  · rw [ha'] at hx; cases hx
  all_goals simp [Device.active, hx, Mode.active] at ha'

/-- A fold of operations each of which keeps the invariants. -/
theorem Keeps.foldl {α : Type} (f : Device → α → Device) (h : ∀ d x, Keeps d (f d x)) (l : List α) (d : Device) :
    Keeps d (l.foldl f d) := by
  induction l generalizing d with
  | nil => exact Keeps.refl d
  | cons x l ih => exact (h d x).trans (ih (f d x))

/-! ## The plain updates -/

theorem keeps_modify (d : Device) (n : RecNo) (f : ItemRecord → ItemRecord) : Keeps d (d.modify n f) :=
  Keeps.of_gist (by simp [Device.gist, Device.bin]) rfl

theorem keeps_countBy (d : Device) (i : Fin 56) (n : Nat) : Keeps d (d.countBy i n) := Keeps.of_gist rfl rfl
theorem keeps_count (d : Device) (i : Fin 56) : Keeps d (d.count i) := Keeps.of_gist rfl rfl
theorem keeps_occur (d : Device) (o : Occurrence) : Keeps d (occur d o) :=
  Keeps.of_gist (by cases o <;> rfl) (by cases o <;> rfl)
theorem keeps_reportConditions (d : Device) : Keeps d (reportConditions d) := Keeps.of_gist rfl rfl
theorem keeps_setOccupant (d : Device) (row : Fin 21) (o : Occupant) : Keeps d (setOccupant d row o) :=
  Keeps.of_gist rfl rfl
theorem keeps_setBlocked (d : Device) (row : Fin 21) (b : Bool) : Keeps d (setBlocked d row b) :=
  Keeps.of_gist rfl rfl
theorem keeps_vacate (d : Device) (row : Fin 21) : Keeps d (vacate d row) := Keeps.of_gist rfl rfl
theorem keeps_startJam (d : Device) (row : Fin 21) : Keeps d (startJam d row) := Keeps.of_gist rfl rfl
theorem keeps_setGap (d : Device) (g : Gap) : Keeps d (setGap d g) := Keeps.of_gist rfl rfl
theorem keeps_setPrintFault (d : Device) (b : Bool) : Keeps d (setPrintFault d b) := Keeps.of_gist rfl rfl
theorem keeps_setBinOutLine (d : Device) (k : Fin 16) (b : Bool) : Keeps d (setBinOutLine d k b) :=
  Keeps.of_gist rfl rfl
theorem keeps_setHoldFeed (d : Device) (b : Bool) : Keeps d (setHoldFeed d b) := Keeps.of_gist rfl rfl
theorem keeps_releaseRing (d : Device) (n : RecNo) : Keeps d (releaseRing d n) := Keeps.of_gist rfl rfl
theorem keeps_releaseColumn (d : Device) (n : RecNo) : Keeps d (releaseColumn d n) := Keeps.of_gist rfl rfl
theorem keeps_clearCells (d : Device) : Keeps d (clearCells d) := Keeps.of_gist rfl rfl
theorem keeps_freeClassifier (d : Device) : Keeps d (freeClassifier d) :=
  Keeps.of_rests rfl ⟨id, id, id, fun _ => rfl, id, id⟩
theorem keeps_releaseActuators (d : Device) : Keeps d (releaseActuators d) :=
  Keeps.of_rests rfl ⟨fun _ => rfl, fun _ => rfl, fun _ => rfl, id, id, id⟩
theorem keeps_assertGate (d : Device) (k : Fin 16) (n : RecNo) (h : d.active = true) : Keeps d (assertGate d k n) :=
  Keeps.of_active rfl h

theorem keeps_setCell (d : Device) (t r f : Nat) (v : Word) : Keeps d (d.setCell t r f v) :=
  ⟨rfl, rfl, by simp [Device.balance], fun h => storeSet_wf _ _ _ h, id, id, id, id, id, id, fun _ => id, fun _ => id⟩

/-- A bin change keeps the invariants unless it makes bin 0 FULL. -/
theorem keeps_setBin (d : Device) (k : Fin 16) (b : Bin) (h : k = 0 → (d.bin 0).state ≠ .full → b.state ≠ .full) :
    Keeps d (d.setBin k b) := by
  refine ⟨rfl, rfl, by simp [Device.balance], id, id, id, id, id, id, fun hh => ⟨hh.1, hh.2.1, ?_⟩, fun _ => id,
      fun _ => id⟩
  simp only [Device.bin, Device.setBin_stacker]
  by_cases hk : k = 0
  · subst hk; rw [upd_same]; exact h rfl hh.2.2
  · rw [upd_other _ _ _ _ hk]; exact hh.2.2

/-- The window may change where its cursor and the open frame's beginning lie in it. -/
theorem keeps_setWindow (d : Device) (w : Window)
    (h : d.linked → d.cursorHeld → w.holds w.cursor ∧ d.command.beganIn w = true)
    (ht : d.staging → w.inTable) : Keeps d (setWindow d w) :=
  ⟨rfl, rfl, by simp [Device.balance, setWindow], id, id, id, id, id, id, id,
    fun hl hx v hv => by cases hv; exact h hl hx,
    fun _ x => ⟨x.1, x.2.1, x.2.2.1, x.2.2.2.1, x.2.2.2.2.1, fun v hv => by cases hv; exact ht x⟩⟩

/-- Words placed where there is room for them. -/
theorem keeps_enqueue (d : Device) (ws : List LinkWord) (h : ws.length ≤ d.reportRoom) : Keeps d (d.enqueue ws) := by
  refine ⟨rfl, rfl, by simp [Device.balance], id, fun hb => ⟨hb.1, ?_, hb.2.2⟩, id, id, id, id, id, fun _ => id,
      fun _ => id⟩
  have := hb.2.1
  simp only [Device.reportRoom] at h
  simp only [Device.enqueue_report, List.length_append]
  omega

/-- The response waiting may change or be placed. -/
theorem keeps_command (d : Device) (c : CommandState) (h : c.receives = false) :
    Keeps d { d with command := c } := by
  have ho : ({ d with command := c } : Device).openGroup = [] := by
    cases c <;> simp_all [Device.openGroup, CommandState.receives]
  have hg : ({ d with command := c } : Device).openGroups = 0 := by
    cases c <;> simp_all [Device.openGroups, CommandState.receives]
  refine ⟨rfl, rfl, by simp [Device.balance], id, id, ?_, ?_, id, id, id, fun _ hx w hw => ⟨(hx w hw).1, ?_⟩,
    fun _ x => ⟨?_, ?_, .inl ho, x.2.2.2.1, ?_, x.2.2.2.2.2⟩⟩
  · intro _; simp [Device.linked, h]
  · intro hr ha
    obtain ⟨h1, h2, h3, h4, h5⟩ := hr ha
    refine ⟨h1, h2, h3, h4, ?_⟩
    cases c <;> simp_all [Device.openGroup, CommandState.receives]
  · cases c <;> simp_all [CommandState.beganIn, CommandState.receives]
  · have := x.1
    simp only [Device.pendingCells, ho, List.length_nil] at this ⊢
    omega
  · have := x.2.1
    simp only [Device.pendingGroups, hg] at this ⊢
    omega
  · rw [ho]; intro w hw; cases hw

end Sys2Proof.Machine
end

