-- ==== Sys2Proof/Laws/Report.lean ====
section
/-! SUPPORT. Laws of the Report Link and of the closes (`Sys2Proof.Machine.Report`): each operation keeps the
invariants, and what the arbiter does with a response that fits and with the page of an auto close. -/

namespace Sys2Proof.Machine

/-- The room of the Report Queue is within its size. -/
theorem reportRoom_le (d : Device) : d.reportRoom ≤ Config.reportWords := Nat.sub_le _ _

theorem keeps_placeResponse (d : Device) : Keeps d (placeResponse d) := by
  unfold placeResponse
  cases hc : d.command with
  | free => exact Keeps.refl d
  | receiving f => exact Keeps.refl d
  | waiting rest begun =>
    simp only
    split
    · next hfit => exact (keeps_enqueue d rest hfit).trans (keeps_command _ .free rfl)
    · split
      · have hlen : (rest.take d.reportRoom).length ≤ d.reportRoom := by simp
        exact (keeps_enqueue d _ hlen).trans (keeps_command _ (.waiting _ true) rfl)
      · exact Keeps.refl d

theorem keeps_closePeriod (d : Device) (c : CloseCauses) (b : Bool) : Keeps d (closePeriod d c b) :=
  Keeps.of_gist rfl rfl

theorem keeps_takeDeferred (d : Device) : Keeps d (takeDeferred d) := by
  unfold takeDeferred
  split
  · exact Keeps.of_gist rfl rfl
  · exact Keeps.refl d
  · exact Keeps.refl d

theorem keeps_placePage (d : Device) : Keeps d (placePage d) := by
  unfold placePage
  split
  · exact Keeps.refl d
  · next p _ =>
    split
    · next h =>
      exact (keeps_enqueue d _ (by rw [pageWords_length]; exact h.2)).trans (Keeps.of_gist rfl rfl)
    · exact Keeps.refl d

theorem keeps_settlePage (d : Device) : Keeps d (settlePage d) :=
  ((keeps_placePage d).trans (keeps_takeDeferred _)).trans (keeps_placePage _)

theorem keeps_arbiter (d : Device) : Keeps d (arbiter d) := (keeps_placeResponse d).trans (keeps_settlePage _)

theorem keeps_requestClose (d : Device) (c : CloseCauses) : Keeps d (requestClose d c) := by
  unfold requestClose
  split
  · exact keeps_closePeriod d c false
  · exact Keeps.of_gist rfl rfl
  · exact Keeps.of_gist rfl rfl

theorem keeps_requestAutoClose (b : Bool) (d : Device) : Keeps d (requestAutoClose b d) := by
  unfold requestAutoClose
  simp only
  split
  · exact keeps_requestClose d _
  · exact (keeps_requestClose d _).trans (keeps_arbiter _)

/-- R136: with the page buffer empty a request closes the period at once, and its page stands in the buffer. -/
theorem requestClose_taken (d : Device) (c : CloseCauses) (hp : d.tally.page = none) (hd : d.tally.deferred = none) :
    requestClose d c = closePeriod d c false := by
  unfold requestClose
  rw [hp, hd]

/-- R137: behind a page a request is deferred. -/
theorem requestClose_deferred (d : Device) (c : CloseCauses) (p : TallyPage) (hp : d.tally.page = some p)
    (hd : d.tally.deferred = none) :
    requestClose d c = { d with tally := { d.tally with deferred := some c } } := by
  unfold requestClose
  rw [hp, hd]

/-- R137: a request joins the close deferred. -/
theorem requestClose_joined (d : Device) (c b : CloseCauses) (hd : d.tally.deferred = some b) :
    requestClose d c = { d with tally := { d.tally with
      deferred := some { command := b.command || c.command, autoClose := b.autoClose || c.autoClose } } } := by
  unfold requestClose
  rw [hd]
  cases d.tally.page <;> rfl

/-- The batch buffer emptied, or holding reports of six words. -/
theorem keeps_batch (d : Device) (b : List (List Word))
    (h : (∀ r ∈ d.tally.batch, r.length = 6) → ∀ r ∈ b, r.length = 6) :
    Keeps d { d with tally := { d.tally with batch := b } } :=
  ⟨rfl, rfl, by simp [Device.balance], id, fun hb => ⟨hb.1, hb.2.1, h hb.2.2.1, hb.2.2.2⟩, id, id, id, id, id,
      fun _ => id, fun _ => id⟩

theorem keeps_offerBatch (d : Device) : Keeps d (offerBatch d) := by
  unfold offerBatch
  split
  · exact Keeps.refl d
  · split
    · next h =>
      refine ⟨rfl, rfl, by simp [Device.balance], id, fun hb => ⟨hb.1, ?_, ?_, hb.2.2.2⟩, id, id, id, id, id,
          fun _ => id, fun _ => id⟩
      · have h1 := hb.2.1
        have h2 := batchFrame_length _ hb.2.2.1
        have h3 := h.2.2
        simp only [Device.reportRoom] at h3
        simp only [Device.enqueue_report, List.length_append]
        omega
      · simp
    · exact (keeps_batch d [] (by simp)).trans (keeps_countBy _ _ _)

theorem keeps_offerOnSettings (d : Device) : Keeps d (offerOnSettings d) := by
  unfold offerOnSettings
  split
  · exact keeps_offerBatch d
  · exact Keeps.refl d

theorem keeps_deferredClose (d : Device) : Keeps d (deferredClose d) := by
  unfold deferredClose
  split
  · exact (keeps_takeDeferred d).trans (keeps_arbiter _)
  · exact Keeps.refl d
  · exact Keeps.refl d

theorem keeps_transmitWord (d : Device) : Keeps d (transmitWord d) := by
  unfold transmitWord
  split
  · exact Keeps.refl d
  · next w rest hq =>
    split
    · refine Keeps.trans ?_ (keeps_arbiter _)
      refine ⟨rfl, rfl, by simp [Device.balance], id, fun hb => ⟨hb.1, ?_, hb.2.2⟩, id, id, id, id, id, fun _ => id,
          fun _ => id⟩
      have := hb.2.1
      rw [hq] at this
      simp only [List.length_cons] at this ⊢
      omega
    · exact Keeps.refl d

theorem keeps_reportHoldChange (level : HoldLevel) (d : Device) : Keeps d (reportHoldChange level d) := by
  cases level <;> exact Keeps.of_gist rfl rfl

/-! ## Where a response goes -/

theorem responseWaiting_free (d : Device) (h : d.command = .free) : d.responseWaiting = false := by
  simp [Device.responseWaiting, h]

/-- No page and no deferred close: nothing is placed. -/
theorem settlePage_idle (d : Device) (hp : d.tally.page = none) (hd : d.tally.deferred = none) :
    settlePage d = d := by
  have h1 : placePage d = d := by unfold placePage; rw [hp]
  have h2 : takeDeferred d = d := by unfold takeDeferred; rw [hp, hd]
  rw [settlePage, h1, h2, h1]

/-- R135, R177: an auto close taken at once freezes its page, which is offered in the same step. -/
theorem requestAutoClose_taken (d : Device) (hp : d.tally.page = none) (hd : d.tally.deferred = none) :
    requestAutoClose false d = arbiter (closePeriod d { command := false, autoClose := true } false) := by
  rw [requestAutoClose, requestClose_taken d _ hp hd]
  rfl

/-- R110: with a CLOSE TALLY beside it an auto close is a request alone. -/
theorem requestAutoClose_beside (d : Device) :
    requestAutoClose true d = requestClose d { command := false, autoClose := true } := rfl

theorem placeResponse_fits (d : Device) (rest : List LinkWord) (b : Bool) (hc : d.command = .waiting rest b)
    (h : rest.length ≤ d.reportRoom) : placeResponse d = { d.enqueue rest with command := .free } := by
  unfold placeResponse
  rw [hc]
  exact if_pos h

theorem placeResponse_waits (d : Device) (rest : List LinkWord) (hc : d.command = .waiting rest false)
    (h : d.reportRoom < rest.length) (h' : rest.length ≤ Config.reportWords) : placeResponse d = d := by
  unfold placeResponse
  rw [hc]
  have h1 : ¬ rest.length ≤ d.reportRoom := by omega
  have h2 : ¬ Config.reportWords < rest.length := by omega
  simp [h1, h2]

theorem responseFrame_length (kind : CommandKind) (tag : BitVec 8) (excess : Nat) (a : Answer) :
    (linkFrame (responseWords kind tag excess a)).length = 5 + a.words.length := by
  rw [linkFrame_length, responseWords_length]

/-- R177: a response that fits is placed whole and leaves the Command Unit FREE. -/
theorem respond_fits (d : Device) (kind : CommandKind) (tag : BitVec 8) (a : Answer)
    (h : 5 + a.words.length ≤ d.reportRoom) :
    respond d kind tag a = settlePage
      ({ d with command := .free, feed := { d.feed with excess := 0 } }.enqueue
        (linkFrame (responseWords kind tag d.feed.excess a))) := by
  rw [respond, arbiter, placeResponse_fits _ _ _ rfl (by rw [responseFrame_length]; exact h)]
  rfl

/-- R178: a response of at most 256 words that does not fit waits whole. -/
theorem respond_waits (d : Device) (kind : CommandKind) (tag : BitVec 8) (a : Answer)
    (h : d.reportRoom < 5 + a.words.length) (h' : 5 + a.words.length ≤ Config.reportWords) :
    respond d kind tag a = settlePage { d with
      command := .waiting (linkFrame (responseWords kind tag d.feed.excess a)) false
      feed := { d.feed with excess := 0 } } := by
  rw [respond, arbiter, placeResponse_waits _ _ rfl (by rw [responseFrame_length]; exact h)
    (by rw [responseFrame_length]; exact h')]
  rfl

/-- A command's response placed at once on a part whose buffers hold nothing else. -/
theorem respond_answered (e : Device) (kind : CommandKind) (tag : BitVec 8) (a : Answer) (hc : e.command = .free)
    (hp : e.tally.page = none) (hd : e.tally.deferred = none) (hr : 5 + a.words.length ≤ e.reportRoom) :
    respond (setDelim e (.complete (.command kind) tag)) kind tag a = e.answered kind tag a := by
  rw [respond_fits (setDelim e (.complete (.command kind) tag)) kind tag a hr, settlePage_idle]
  · cases e
    simp only at hc
    subst hc
    rfl
  · exact hp
  · exact hd

end Sys2Proof.Machine
end

