-- ==== Sys2Proof/Laws/Transport.lean ====
section
/-! SUPPORT. Laws of the Stacker Unit, the Imprint Unit and the Track Unit: each operation keeps the invariants of
`Sys2Proof.Safety`. -/

namespace Sys2Proof.Machine

/-! ## Bins -/

/-- R117: bin 0 never settles FULL. -/
theorem settledState_zero (enable : Bool) (load capacity : Nat) : settledState 0 enable load capacity ≠ .full := by
  unfold settledState; cases enable <;> simp

theorem resettle_zero (d : Device) (b : Bin) (h : b.state ≠ .full) : (d.resettle 0 b).state ≠ .full := by
  unfold Device.resettle
  split
  · exact h
  · exact h
  · exact settledState_zero _ _ _
  · exact settledState_zero _ _ _
  · exact settledState_zero _ _ _

theorem afterRelease_zero (d : Device) (b : Bin) (h : b.state ≠ .full) : (d.afterRelease 0 b).state ≠ .full := by
  unfold Device.afterRelease
  split
  · simp
  · exact resettle_zero d b h

theorem keeps_settleBin (d : Device) (k : Fin 16) : Keeps d (settleBin d k) :=
  keeps_setBin d k _ (fun h hb => by subst h; exact resettle_zero d _ hb)

theorem keeps_stackBin (d : Device) (k : Fin 16) : Keeps d (stackBin d k) :=
  keeps_setBin d k _ (fun h hb => by subst h; exact afterRelease_zero d _ hb)

theorem keeps_releaseBin (d : Device) (k : Fin 16) : Keeps d (releaseBin d k) :=
  keeps_setBin d k _ (fun h hb => by subst h; exact afterRelease_zero d _ hb)

theorem keeps_outRequest (d : Device) (k : Fin 16) : Keeps d (outRequest d k) := by
  have key : ∀ c : Prop, [Decidable c] → (if c then BinState.out else .outPending) ≠ .full := by
    intro c _; split <;> simp
  unfold outRequest
  simp only
  split
  · exact Keeps.refl d
  · exact Keeps.refl d
  · exact keeps_setBin d k _ (fun _ _ => key _)
  · exact keeps_setBin d k _ (fun _ _ => key _)
  · exact keeps_setBin d k _ (fun _ _ => key _)

theorem keeps_returnRequest (d : Device) (k : Fin 16) : Keeps d (returnRequest d k) :=
  keeps_setBin d k _ (fun h _ => by subst h; exact settledState_zero _ _ _)

theorem keeps_setHeld (d : Device) (k : Fin 16) (b : Bool) : Keeps d (setHeld d k b) :=
  keeps_setBin d k _ (fun h hb => by subst h; exact hb)

theorem keeps_fixRoute (d : Device) (n : RecNo) (r : Route) : Keeps d (fixRoute d n r) := by
  refine Keeps.trans ?_ (keeps_modify _ n _)
  refine keeps_setBin d r.bin _ (fun h hb => ?_)
  rw [h]
  exact resettle_zero d _ hb

theorem keeps_routePoint (d : Device) (n : RecNo) : Keeps d (routePoint d n) := by
  unfold routePoint
  split
  · exact Keeps.refl d
  · split
    · split
      · exact (keeps_fixRoute d n _).trans (keeps_reportConditions _)
      · exact Keeps.refl d
    · exact Keeps.refl d
    · exact Keeps.refl d

theorem keeps_binSwitchAssertion (k : Fin 16) (d : Device) : Keeps d (binSwitchAssertion k d) := by
  unfold binSwitchAssertion
  simp only
  split
  · exact keeps_setBinOutLine d k true
  · refine (keeps_setBinOutLine d k true).trans ?_
    refine (keeps_setHeld _ k true).trans ?_
    split
    · exact Keeps.refl _
    · exact (keeps_outRequest _ k).trans (keeps_reportConditions _)

theorem keeps_binSwitchRelease (k : Fin 16) (d : Device) : Keeps d (binSwitchRelease k d) := by
  unfold binSwitchRelease
  simp only
  split
  · exact keeps_setBinOutLine d k false
  · exact (keeps_setBinOutLine d k false).trans
      (((keeps_setHeld _ k false).trans (keeps_returnRequest _ k)).trans (keeps_reportConditions _))

/-! ## Imprints -/

theorem keeps_freeBuilder (d : Device) : Keeps d (freeBuilder d) :=
  Keeps.of_rests rfl ⟨id, id, id, id, fun _ => rfl, id⟩

theorem keeps_endPrint (d : Device) : Keeps d (setPrinting d none) :=
  Keeps.of_rests rfl ⟨id, id, id, id, id, fun _ => rfl⟩

theorem keeps_setPrinting (d : Device) (p : Option Printing) (h : d.active = true) : Keeps d (setPrinting d p) :=
  Keeps.of_active rfl h

theorem keeps_setPrintCol (d : Device) (x : Dots) : Keeps d (setPrintCol d x) := Keeps.of_gist rfl rfl

theorem keeps_dropImprint (d : Device) (n : RecNo) : Keeps d (dropImprint d n) := by
  unfold dropImprint
  simp only
  split
  · exact (keeps_releaseRing d n).trans (keeps_freeBuilder _)
  · exact keeps_releaseRing d n

theorem keeps_endPrinted (d : Device) (n : RecNo) : Keeps d (endPrinted d n) :=
  (((keeps_modify d n _).trans (keeps_releaseRing _ n)).trans (keeps_endPrint _)).trans (keeps_count _ _)

theorem keeps_abortPrint (d : Device) : Keeps d (abortPrint d) := by
  unfold abortPrint
  split
  · exact Keeps.refl d
  · exact ((((keeps_modify d _ _).trans (keeps_releaseRing _ _)).trans (keeps_endPrint _)).trans
      (keeps_setPrintFault _ true)).trans (keeps_count _ _)

theorem keeps_preemptPrint (d : Device) : Keeps d (preemptPrint d) := by
  unfold preemptPrint
  split
  · exact Keeps.refl d
  · exact keeps_endPrinted d _

theorem nextSequence_le (n : Nat) : nextSequence n ≤ Config.sequenceMax := by
  unfold nextSequence; split
  · simp [Config.sequenceMax]
  · omega

theorem keeps_holdColumns (d : Device) (n : RecNo) (seq : Nat) (cs : List Dots) (h : d.active = true)
    (hs : seq ≤ Config.sequenceMax) : Keeps d (holdColumns d n seq cs) := by
  refine ⟨rfl, rfl, by simp [Device.balance, holdColumns], id, id, id, ?_, ?_, id, fun hh => ⟨hh.1, hs, hh.2.2⟩,
      fun _ => id, fun _ => id⟩
  · intro _ hx
    rw [show Device.active (holdColumns d n seq cs) = d.active from rfl, h] at hx
    cases hx
  · intro _
    refine ⟨fun hx => ?_, fun hx => ?_⟩ <;>
      (have hx' : d.line.mode = _ := hx; simp [Device.active, hx', Mode.active] at h)

theorem keeps_beginBuild (d : Device) (n : RecNo) (t : Nat) (h : d.active = true) : Keeps d (beginBuild d n t) :=
  ((keeps_modify d n _).trans (keeps_holdColumns _ n _ _ h (nextSequence_le _))).trans (keeps_count _ _)

theorem buildReady_active (d : Device) (x : RecNo × Nat) (h : d.buildReady = some x) : d.active = true := by
  unfold Device.buildReady at h
  split at h
  · cases h
  · next hh => simp only [not_or] at hh; exact Bool.eq_true_of_not_eq_false hh.1

theorem keeps_buildBegin (d : Device) : Keeps d (buildBegin d) := by
  unfold buildBegin
  split
  · next n t h => exact keeps_beginBuild d n t (buildReady_active d _ h)
  · exact Keeps.refl d

theorem keeps_printDecision (d : Device) (n : RecNo) (p : Pos) (s : ImprintStatus) (h : d.active = true) :
    Keeps d (printDecision d n p s) := by
  unfold printDecision
  split
  · simp only
    split
    · exact (keeps_modify d n _).trans (keeps_setPrinting _ _ h)
    · exact (((keeps_modify d n _).trans (keeps_releaseRing _ n)).trans (keeps_setPrintFault _ true)).trans
        (keeps_count _ _)
  · exact (((keeps_modify d n _).trans (keeps_dropImprint _ n)).trans (keeps_occur _ _)).trans (keeps_count _ _)
  · exact ((keeps_modify d n _).trans (keeps_occur _ _)).trans (keeps_count _ _)
  all_goals exact Keeps.refl d

theorem keeps_sendColumn (d : Device) (p : Printing) : Keeps d (sendColumn d p) := by
  unfold sendColumn
  simp only
  split
  · exact Keeps.of_gist rfl rfl
  · exact Keeps.refl d
  · exact Keeps.refl d

theorem keeps_printColumnDue (d : Device) : Keeps d (printColumnDue d) := by
  unfold printColumnDue
  split
  · exact Keeps.refl d
  · next p hp =>
    split
    · next h =>
      simp only
      have k := (keeps_sendColumn d p).trans (keeps_releaseColumn _ p.number)
      split
      · exact (k.trans (keeps_endPrinted _ _)).trans (keeps_setPrintCol _ 0)
      · exact k.trans (keeps_setPrinting _ _ (by rw [k.active]; exact h.1))
    · exact Keeps.refl d

theorem keeps_printReadyLine (d : Device) (b : Bool) : Keeps d { d with inputs := { d.inputs with printReady := b } } :=
  Keeps.of_gist rfl rfl

theorem keeps_printReadyDeasserted (d : Device) : Keeps d (printReadyDeasserted d) :=
  ((keeps_printReadyLine d false).trans (keeps_abortPrint _)).trans (keeps_reportConditions _)

theorem keeps_printReadyAsserted (d : Device) : Keeps d (printReadyAsserted d) := by
  unfold printReadyAsserted
  refine Keeps.trans (keeps_printReadyLine d true) (Keeps.trans ?_ (keeps_reportConditions _))
  split
  · exact keeps_setPrintFault _ false
  · exact Keeps.refl _

theorem keeps_settleImprint (d : Device) (r : ItemRecord) (b : Bool) : Keeps d (settleImprint d r b).1 := by
  unfold settleImprint
  cases r.imprint with
  | queued => exact Keeps.refl d
  | building => exact keeps_dropImprint d _
  | built => exact keeps_dropImprint d _
  | printing =>
    have k := (keeps_endPrint d).trans (keeps_releaseRing _ r.number)
    cases b <;> exact k.trans (keeps_count _ _)
  | none => exact Keeps.refl d
  | printed => exact Keeps.refl d
  | underrun => exact Keeps.refl d
  | aborted => exact Keeps.refl d

theorem keeps_haltImprint (d : Device) : Keeps d (haltImprint d) := by
  refine Keeps.trans (b := haltPrint d) ?_ ?_
  · unfold haltPrint
    split
    · exact Keeps.refl d
    · exact (keeps_abortPrint d).trans (keeps_setPrintCol _ 0)
  · unfold haltImprint haltBuild
    split
    · exact Keeps.refl _
    · exact (keeps_modify _ _ _).trans (keeps_dropImprint _ _)

/-! ## Removal -/

theorem eraseP_length_of_mem {α : Type} (p : α → Bool) (l : List α) (x : α) (hx : x ∈ l) (hp : p x = true) :
    (l.eraseP p).length + 1 = l.length := by
  have h := List.length_eraseP_of_mem hx hp
  have : 0 < l.length := List.length_pos_of_mem hx
  omega

theorem releaseOrder_none (n : RecNo) : releaseOrder n none = none := by simp [releaseOrder]

theorem releaseOrder_gates (n : RecNo) (g : Vector (Option RecNo) 16) (h : g = Vector.replicate 16 none) :
    g.map (releaseOrder n) = Vector.replicate 16 none := by
  subst h; simp [releaseOrder_none]

/-- R22 step 1: one record fewer. -/
theorem moves_leaveTrack (d : Device) (n : RecNo) (r : ItemRecord) (h : d.find n = some r) :
    Moves (-1) d (leaveTrack d n) := by
  have hl : (leaveTrack d n).track.queue.length + 1 = d.track.queue.length :=
    eraseP_length_of_mem _ _ r (find_mem d n r h) (by simp [find_number d n r h])
  refine ⟨rfl, rfl, ?_, id, fun hb => ⟨?_, hb.2⟩, id, ?_, ?_, id, id, fun _ => id, fun _ => id⟩
  · simp only [Device.balance, leaveTrack_tally]
    rw [← hl, BitVec.ofNat_add]
    generalize BitVec.ofNat 32 (leaveTrack d n).track.queue.length = q
    bv_omega
  · have := hb.1; omega
  · intro hr ha
    obtain ⟨h1, h2, h3, h4, h5⟩ := hr ha
    exact ⟨by simp [leaveTrack, h1, releaseOrder_none], by simp [leaveTrack, h2, releaseOrder_none],
      releaseOrder_gates n _ h3, h4, h5⟩
  · intro hs
    refine ⟨fun hx => ?_, hs.2⟩
    have := hs.1 hx
    simp [leaveTrack, this]

theorem keeps_abandonClassification (d : Device) (n : RecNo) : Keeps d (abandonClassification d n) := by
  unfold abandonClassification
  split
  · exact keeps_freeClassifier d
  · exact Keeps.refl d

theorem keeps_settleRoute (d : Device) (r : ItemRecord) (e : ExitKind) : Keeps d (settleRoute d r e) := by
  unfold settleRoute
  split
  · exact Keeps.refl d
  · split
    · exact keeps_stackBin d _
    · exact keeps_releaseBin d _

theorem keeps_countDisposition (d : Device) (r : ItemRecord) : Keeps d (countDisposition d r) := by
  unfold countDisposition
  split
  · exact Keeps.refl d
  · exact keeps_count d _

/-- A line total of the sum of R22 one higher. -/
theorem moves_total (d : Device) (f : LineTotals → LineTotals)
    (h : ∀ t, (f t).stacked + (f t).lost + (f t).missed + (f t).purged = t.stacked + t.lost + t.missed + t.purged + 1)
    (ha : ∀ t, (f t).admitted = t.admitted) : Moves 1 d (d.total f) := by
  refine ⟨rfl, rfl, ?_, id, id, id, id, id, id, id, fun _ => id, fun _ => id⟩
  have h1 := h d.tally.totals
  simp only [Device.balance, Device.total_tally, Device.total_track, ha]
  generalize BitVec.ofNat 32 d.track.queue.length = q at *
  generalize (f d.tally.totals).stacked = a at *
  generalize (f d.tally.totals).lost = b at *
  generalize (f d.tally.totals).missed = c at *
  generalize (f d.tally.totals).purged = e at *
  bv_omega

theorem keeps_countBin (d : Device) (r : ItemRecord) : Keeps d (countBin d r) := by
  unfold countBin
  split
  · exact Keeps.refl d
  · exact keeps_count d _

theorem keeps_countGroup (d : Device) (r : ItemRecord) : Keeps d (countGroup d r) := by
  unfold countGroup
  split
  · exact Keeps.refl d
  · exact keeps_count d _

theorem moves_countRemoval (d : Device) (r : ItemRecord) (e : ExitKind) : Moves 1 d (countRemoval d r e) := by
  refine Keeps.trans (keeps_countDisposition d r) ?_
  have hs : Moves 1 (countDisposition d r) ((countDisposition d r).total
      (fun t => { t with stacked := t.stacked + 1 })) :=
    moves_total _ _ (by intro t; simp only; bv_omega) (by intro t; rfl)
  cases e with
  | stacked => exact (hs.then (keeps_countBin _ r)).then (keeps_countGroup _ r)
  | lost => exact Moves.then (moves_total _ _ (by intro t; simp only; bv_omega) (by intro t; rfl)) (keeps_count _ _)
  | missed => exact Moves.then (moves_total _ _ (by intro t; simp only; bv_omega) (by intro t; rfl)) (keeps_count _ _)
  | purged => exact Moves.then (moves_total _ _ (by intro t; simp only; bv_omega) (by intro t; rfl)) (keeps_count _ _)

theorem keeps_appendReport (d : Device) (r : ItemRecord) (e : ExitKind) : Keeps d (appendReport d r e) := by
  unfold appendReport
  split
  · refine keeps_batch d _ (fun h x hx => ?_)
    rcases List.mem_append.mp hx with h' | h'
    · exact h x h'
    · rw [List.mem_singleton.mp h']; exact itemReport_length r e
  · exact Keeps.refl d

theorem keeps_reportRemoval (d : Device) (r : ItemRecord) (e : ExitKind) : Keeps d (reportRemoval d r e) := by
  refine Keeps.trans (keeps_appendReport d r e) ?_
  unfold reportRemoval
  simp only
  split
  · exact keeps_offerBatch _
  · exact Keeps.refl _

theorem moves_settleRemoval (d : Device) (r : ItemRecord) (e : ExitKind) : Moves 1 d (settleRemoval d r e) :=
  (Keeps.trans (keeps_settleRoute d r e) (moves_countRemoval _ r e)).then (keeps_reportRemoval _ r e)

/-- R22: a removal keeps the sum of the line totals. -/
theorem keeps_removeRecord (d : Device) (n : RecNo) (e : ExitKind) : Keeps d (removeRecord d n e) := by
  unfold removeRecord
  cases h : d.find n with
  | none => exact Keeps.refl d
  | some r =>
    have k := ((moves_leaveTrack d n r h).then (keeps_abandonClassification _ n)).then
      (keeps_settleImprint _ r (decide (e = .stacked)))
    have k' := k.trans (moves_settleRemoval _
      (settleImprint (abandonClassification (leaveTrack d n) n) r (decide (e = .stacked))).2 e)
    have : (-1 + 1 : Count) = 0 := by decide
    rw [this] at k'
    exact k'.trans (keeps_reportConditions _)

theorem keeps_purgeAll (d : Device) : Keeps d (purgeAll d) :=
  Keeps.foldl _ (fun d n => keeps_removeRecord d n .purged) _ d

theorem keeps_loseRecord (d : Device) (r : ItemRecord) (st : Station) : Keeps d (loseRecord d r st) :=
  (keeps_removeRecord d _ .lost).trans (keeps_occur _ _)

end Sys2Proof.Machine
end

