-- ==== Sys2Proof/Laws/Lines.lean ====
section
/-! SUPPORT. Laws of the Window Unit's writes, of Line Control and of the Day Clock, and the relation `Safe`: an
operation that keeps every invariant of `Sys2Proof.Safety`, the mode being free to change. -/

namespace Sys2Proof.Machine

/-! ## Writes -/

theorem keeps_clearSuspect (d : Device) :
    Keeps d { d with classifier := { d.classifier with suspect := 0 } } := Keeps.of_gist rfl rfl

theorem keeps_holdSuspect (d : Device) : Keeps d (holdSuspect d) := by
  unfold holdSuspect; split
  · exact Keeps.of_gist rfl rfl
  · exact Keeps.refl d

theorem keeps_writeCell (d : Device) (w : CellWrite) : Keeps d (writeCell d w) := by
  unfold writeCell
  split
  · exact Keeps.refl d
  · split
    · exact (keeps_setCell d _ _ _ _).trans (keeps_settleBin _ _)
    · exact (keeps_setCell d _ _ _ _).trans (keeps_settleBin _ _)
    · exact keeps_setCell d _ _ _ _

theorem keeps_gapCheck (d : Device) : Keeps d (gapCheck d) := by
  unfold gapCheck
  split
  · split
    · exact Keeps.of_gist rfl rfl
    · exact Keeps.refl d
  · exact Keeps.refl d
  · exact Keeps.refl d

theorem keeps_afterWrites (d : Device) (ws : List CellWrite) : Keeps d (afterWrites d ws) := by
  unfold afterWrites
  refine Keeps.trans ?_ (keeps_reportConditions _)
  split
  · exact ((keeps_offerOnSettings d).trans (keeps_gapCheck _)).trans (keeps_holdSuspect _)
  · exact Keeps.refl d

theorem keeps_writeNow (d : Device) (w : CellWrite) : Keeps d (writeNow d w) :=
  (keeps_writeCell d w).trans (keeps_afterWrites _ _)

theorem keeps_gapPulse (d : Device) :
    Keeps d { d with line := { d.line with gapPulses := d.line.gapPulses + 1 } } := Keeps.of_gist rfl rfl

theorem keeps_applyWrites (d : Device) (ws : List CellWrite) : Keeps d (applyWrites d ws) := by
  unfold applyWrites
  split
  · exact Keeps.refl d
  · simp only
    have k := (Keeps.foldl writeCell keeps_writeCell ws d).trans (keeps_afterWrites _ ws)
    split
    · exact k.trans (keeps_gapPulse _)
    · exact k

/-- The complete groups leave the Pending Write Queue. -/
theorem keeps_clearGroups (d : Device) : Keeps d { d with window := { d.window with groups := [] } } := by
  refine ⟨rfl, rfl, by simp [Device.balance], id, id, id, fun hr ha => ?_, id, id, id, fun _ => id, fun _ x => ?_⟩
  · obtain ⟨h1, h2, h3, _, h5⟩ := hr ha
    exact ⟨h1, h2, h3, rfl, h5⟩
  · have h1 : d.window.groups.flatten.length + d.openGroup.length ≤ Config.pendingCells := x.1
    have h2 : d.window.groups.length + d.openGroups ≤ Config.pendingGroups := x.2.1
    refine ⟨?_, ?_, x.2.2.1, (fun g h => by cases h), x.2.2.2.2⟩
    · show 0 + d.openGroup.length ≤ _; omega
    · show 0 + d.openGroups ≤ _; omega

theorem keeps_applyPoint (d : Device) : Keeps d (applyPoint d) := by
  unfold applyPoint
  split
  · exact (keeps_clearGroups d).trans (keeps_applyWrites _ _)
  · exact Keeps.refl d

theorem keeps_gapMet (d : Device) : Keeps d (gapMet d) := (keeps_gapCheck d).trans (keeps_applyPoint _)

theorem keeps_applyIfFreed (b a : Device) : Keeps a (applyIfFreed b a) := by
  unfold applyIfFreed
  split
  · exact keeps_applyPoint a
  · exact Keeps.refl a

/-- R192: a step that leaves the Classifier and the builder as they were tests no apply point. -/
theorem applyIfFreed_of_same (b a : Device) (hc : a.classifier.busy = b.classifier.busy)
    (hb : a.imprint.builder = b.imprint.builder) : applyIfFreed b a = a := by
  unfold applyIfFreed
  rw [hc, hb]
  cases b.classifier.busy <;> cases b.imprint.builder <;> rfl

/-- R192: the apply point is not taken unless its four terms hold. -/
theorem applyPoint_of_not (d : Device) (h : d.applyReady = false) : applyPoint d = d := by
  simp [applyPoint, h]

/-- R192: outside RUN and DRAIN no apply point is taken. -/
theorem applyPoint_inactive (d : Device) (h : d.active = false) : applyPoint d = d :=
  applyPoint_of_not d (by simp [Device.applyReady, h])

/-- The Pending Write Queue emptied, the open group included. -/
theorem clearPending_spec (d : Device) : (clearPending d).window.groups = [] ∧ (clearPending d).openGroup = [] ∧
    (clearPending d).command.receives = d.command.receives := by
  unfold clearPending
  cases d.command <;> simp [Device.openGroup, CommandState.receives]

theorem keeps_clearPending (d : Device) : Keeps d (clearPending d) := by
  obtain ⟨hg, ho, hr⟩ := clearPending_spec d
  refine ⟨rfl, rfl, ?_, id, id, fun h hh => h (by rw [← hr]; exact hh), fun h ha => ?_, id, id, id,
    fun _ hx w hw => ⟨(hx w hw).1, ?_⟩, fun _ x => staging_of_empty hg ho x.2.2.2.2.2⟩
  · simp [Device.balance, clearPending]
  · obtain ⟨h1, h2, h3, _, _⟩ := h ha
    exact ⟨h1, h2, h3, hg, ho⟩
  · have := (hx w hw).2
    revert this
    unfold clearPending
    cases d.command <;> exact id

theorem keeps_applyAll (d : Device) : Keeps d (applyAll d) :=
  (keeps_clearPending d).trans (keeps_applyWrites _ _)

/-! ## What applying writes leaves alone -/

/-- What the writes of cells, and what the other blocks do on them (R185, R193), leave as it was. -/
structure Applied (d d' : Device) : Prop where
  inputs : d'.inputs = d.inputs
  track : d'.track = d.track
  classifier : d'.classifier.busy = d.classifier.busy
  imprint : d'.imprint = d.imprint
  clock : d'.clock = d.clock
  gates : d'.stacker.gates = d.stacker.gates
  totals : d'.tally.totals = d.tally.totals
  period : d'.tally.period = d.tally.period
  feed : d'.feed = d.feed
  command : d'.command = d.command
  groups : d'.window.groups = d.window.groups
  selection : d'.window.selection = d.window.selection
  mode : d'.line.mode = d.line.mode
  latch : ∀ c, d'.attention.latch c = d.attention.latch c
  mask : d'.attention.mask = d.attention.mask

theorem Applied.refl (d : Device) : Applied d d := by constructor <;> intros <;> rfl

theorem Applied.trans {a b c : Device} (h : Applied a b) (k : Applied b c) : Applied a c := by
  cases h; cases k; constructor <;> simp_all

theorem applied_setCell (d : Device) (t r f : Nat) (v : Word) : Applied d (d.setCell t r f v) :=
  by constructor <;> intros <;> rfl

theorem applied_settleBin (d : Device) (k : Fin 16) : Applied d (settleBin d k) := by constructor <;> intros <;> rfl

theorem applied_writeCell (d : Device) (w : CellWrite) : Applied d (writeCell d w) := by
  unfold writeCell
  split
  · exact Applied.refl d
  · split
    · exact (applied_setCell d _ _ _ _).trans (applied_settleBin _ _)
    · exact (applied_setCell d _ _ _ _).trans (applied_settleBin _ _)
    · exact applied_setCell d _ _ _ _

theorem applied_offerBatch (d : Device) : Applied d (offerBatch d) := by
  unfold offerBatch; split
  · exact Applied.refl d
  · split <;> constructor <;> intros <;> rfl

theorem applied_gapCheck (d : Device) : Applied d (gapCheck d) := by
  unfold gapCheck; split
  · split
    · constructor <;> intros <;> rfl
    · exact Applied.refl d
  all_goals exact Applied.refl d

theorem applied_holdSuspect (d : Device) : Applied d (holdSuspect d) := by
  unfold holdSuspect; split
  · constructor <;> intros <;> rfl
  · exact Applied.refl d

theorem applied_reportConditions (d : Device) : Applied d (reportConditions d) :=
    by constructor <;> first | rfl | (intro c; cases c <;> rfl)

theorem applied_afterWrites (d : Device) (ws : List CellWrite) : Applied d (afterWrites d ws) := by
  unfold afterWrites; simp only; split
  · refine Applied.trans ?_ (applied_reportConditions _)
    refine Applied.trans (Applied.trans ?_ (applied_gapCheck _)) (applied_holdSuspect _)
    unfold offerOnSettings; split
    · exact applied_offerBatch d
    · exact Applied.refl d
  · exact applied_reportConditions d

theorem applied_foldWrites (ws : List CellWrite) (d : Device) : Applied d (ws.foldl writeCell d) := by
  induction ws generalizing d with
  | nil => exact Applied.refl d
  | cons w ws ih => exact (applied_writeCell d w).trans (ih _)

/-- R157, R193: what an application of staged writes leaves alone. -/
theorem applied_applyWrites (d : Device) (ws : List CellWrite) : Applied d (applyWrites d ws) := by
  unfold applyWrites; split
  · exact Applied.refl d
  · simp only; split
    · refine Applied.trans ((applied_foldWrites ws d).trans (applied_afterWrites _ ws))
          (by constructor <;> intros <;> rfl)
    · exact (applied_foldWrites ws d).trans (applied_afterWrites _ ws)

/-- R192, R193: what a test of the apply point leaves alone, whether it is taken or not. -/
theorem applied_applyPoint (d : Device) :
    Applied { d with window := { d.window with groups := (applyPoint d).window.groups } } (applyPoint d) := by
  unfold applyPoint
  split
  · have h := applied_applyWrites { d with window := { d.window with groups := [] } } d.window.groups.flatten
    have hg : (applyWrites { d with window := { d.window with groups := [] } }
        d.window.groups.flatten).window.groups = [] := h.groups
    rw [hg]; exact h
  · exact Applied.refl d

theorem applyPoint_command (d : Device) : (applyPoint d).command = d.command := (applied_applyPoint d).command
theorem applyPoint_feed (d : Device) : (applyPoint d).feed = d.feed := (applied_applyPoint d).feed
theorem applyPoint_track (d : Device) : (applyPoint d).track = d.track := (applied_applyPoint d).track

theorem applyIfFreed_track (b a : Device) : (applyIfFreed b a).track = a.track := by
  unfold applyIfFreed
  split
  · exact applyPoint_track a
  · rfl

/-! ## Any step -/

/-- An operation that keeps every invariant; the mode may change. -/
structure Sound (d d' : Device) : Prop where
  balanced : d.balanced → d'.balanced
  canonical : d.canonical → d'.canonical
  bounded : d.bounded → d'.bounded
  modal : d.modal → d'.modal
  legal : d.clock.legal → d'.clock.legal
  held : d.held → d'.held
  cursor : d.modal → d.cursorHeld → d'.cursorHeld
  staging : d.modal → d.staging → d'.staging

/-- The same, with the encoder left alone. -/
structure Safe (d d' : Device) : Prop extends Sound d d' where
  encoder : d'.track.encoder = d.track.encoder

theorem Sound.refl (d : Device) : Sound d d := ⟨id, id, id, id, id, id, fun _ => id, fun _ => id⟩

theorem Sound.trans {a b c : Device} (h : Sound a b) (k : Sound b c) : Sound a c :=
  ⟨fun x => k.balanced (h.balanced x), fun x => k.canonical (h.canonical x), fun x => k.bounded (h.bounded x),
    fun x => k.modal (h.modal x), fun x => k.legal (h.legal x), fun x => k.held (h.held x),
    fun m x => k.cursor (h.modal m) (h.cursor m x), fun m x => k.staging (h.modal m) (h.staging m x)⟩

theorem Safe.refl (d : Device) : Safe d d := ⟨Sound.refl d, rfl⟩

theorem Safe.trans {a b c : Device} (h : Safe a b) (k : Safe b c) : Safe a c :=
  ⟨h.toSound.trans k.toSound, k.encoder.trans h.encoder⟩

theorem Moves.safe {d d' : Device} (h : Keeps d d') : Safe d d' := by
  refine ⟨⟨?_, h.canonical, h.bounded, fun m => ⟨h.linked m.1, h.resting m.2.1, h.settled m.2.2⟩, h.legal, h.held,
    fun m => h.cursor m.1, fun m => h.staging m.1⟩, h.encoder⟩
  rw [balanced_iff, balanced_iff, h.balance]
  simp

theorem Safe.foldl {α : Type} (f : Device → α → Device) (h : ∀ d x, Safe d (f d x)) (l : List α) (d : Device) :
    Safe d (l.foldl f d) := by
  induction l generalizing d with
  | nil => exact Safe.refl d
  | cons x l ih => exact (h d x).trans (ih (f d x))

/-! ## Entries to the modes -/

theorem setMode_safe_active (d : Device) (m : Mode) (h : m.active = true) : Safe d (setMode d m) := by
  refine ⟨⟨id, id, id, fun hm => ⟨hm.1, ?_, ?_⟩, id, id, fun _ => id, fun hm hs => ?_⟩, rfl⟩
  · intro ha
    have : (setMode d m).active = true := h
    rw [this] at ha; cases ha
  · refine ⟨fun hx => ?_, fun hx => ?_⟩ <;> (have hx' : m = _ := hx; subst hx'; simp [Mode.active] at h)
  · cases ha : d.active with
    | false =>
      obtain ⟨_, _, _, hg, ho⟩ := hm.2.1 ha
      exact staging_of_empty hg ho hs.2.2.2.2.2
    | true =>
      have : (setMode d m).openGroups = d.openGroups := by
        unfold Device.openGroups
        rw [show (setMode d m).active = d.active from h.trans ha.symm]
        rfl
      exact ⟨hs.1, by rw [Device.pendingGroups, this]; exact hs.2.1, by rw [this]; exact hs.2.2.1, hs.2.2.2⟩

/-- R98: after the halt nothing is built or printed, and nothing else is put to work. -/
theorem haltImprint_spec (d : Device) :
    (haltImprint d).imprint.builder = none ∧ (haltImprint d).imprint.printing = none ∧
      (haltImprint d).track.twist = d.track.twist ∧ (haltImprint d).track.turn = d.track.turn ∧
      (haltImprint d).stacker = d.stacker ∧ (haltImprint d).classifier = d.classifier := by
  have hp : (haltPrint d).imprint.printing = none ∧ (haltPrint d).track.twist = d.track.twist ∧
      (haltPrint d).track.turn = d.track.turn ∧ (haltPrint d).stacker = d.stacker ∧
      (haltPrint d).classifier = d.classifier := by
    unfold haltPrint abortPrint
    cases h : d.imprint.printing <;> simp [h]
  obtain ⟨h1, h2, h3, h4, h5⟩ := hp
  unfold haltImprint haltBuild
  cases h : (haltPrint d).imprint.builder with
  | none => exact ⟨h, h1, h2, h3, h4, h5⟩
  | some n => simp [dropImprint, h, h1, h2, h3, h4, h5]

/-- The state of a part in which nothing is at work and nothing staged, in IDLE or HALTED. -/
theorem modal_of_rest (d : Device) (hl : d.linked) (hq : d.line.mode = .idle → d.track.queue = [])
    (ht : d.track.twist = none) (hu : d.track.turn = none) (hg : d.stacker.gates = Vector.replicate 16 none)
    (hw : d.window.groups = []) (ho : d.openGroup = [])
    (hh : d.line.mode = .halted → d.classifier.busy = none ∧ d.imprint.builder = none ∧ d.imprint.printing = none) :
    d.modal := ⟨hl, fun _ => ⟨ht, hu, hg, hw, ho⟩, hq, hh⟩

/-- A change of mode before the Pending Write Queue is applied. -/
theorem setMode_applyAll (d : Device) (m : Mode) (ht : d.track.twist = none) (hu : d.track.turn = none)
    (hg : d.stacker.gates = Vector.replicate 16 none) (hq : m = .idle → d.track.queue = [])
    (hh : m = .halted → d.classifier.busy = none ∧ d.imprint.builder = none ∧ d.imprint.printing = none) :
    Safe d (applyAll (setMode d m)) := by
  have k := keeps_applyWrites (clearPending (setMode d m)) ((setMode d m).window.groups.flatten ++
      (setMode d m).openGroup)
  obtain ⟨cg, co, cr⟩ := clearPending_spec (setMode d m)
  have s := Moves.safe k
  have r : d.modal → (clearPending (setMode d m)).modal := fun h =>
    modal_of_rest _ (fun hx => h.1 (by rw [cr] at hx; exact hx)) hq ht hu hg cg co hh
  exact ⟨⟨fun h => s.balanced h, fun h => s.canonical h, fun h => s.bounded h, fun h => s.modal (r h),
    fun h => s.legal h, fun h => s.held h,
    fun h hx => s.cursor (r h) ((keeps_clearPending (setMode d m)).cursor h.1 hx),
    fun h hx => s.staging (r h) (staging_of_empty cg co hx.2.2.2.2.2)⟩, s.encoder⟩

theorem safe_enterHalted (d : Device) : Safe d (enterHalted d) := by
  have k := ((keeps_releaseActuators d).trans (keeps_freeClassifier _)).trans (keeps_haltImprint _)
  obtain ⟨h1, h2, h3, h4, h5, h6⟩ := haltImprint_spec (freeClassifier (releaseActuators d))
  refine ((Moves.safe k).trans ?_).trans (Moves.safe (keeps_reportConditions _))
  exact setMode_applyAll _ .halted (by rw [h3]; rfl) (by rw [h4]; rfl) (by rw [h5]; rfl) (fun hx => by cases hx)
    (fun _ => ⟨by rw [h6]; rfl, h1, h2⟩)

theorem safe_completeDrain (d : Device) (h : d.track.queue = []) : Safe d (completeDrain d) := by
  have k := (keeps_releaseActuators d).trans (keeps_clearCells _)
  refine ((Moves.safe k).trans ?_).trans (Moves.safe (keeps_reportConditions _))
  exact setMode_applyAll _ .idle rfl rfl rfl (fun _ => h) (fun hx => by cases hx)

theorem safe_drainTest (d : Device) : Safe d (drainTest d) := by
  unfold drainTest
  split
  · next h =>
    refine safe_completeDrain d ?_
    simp only [Device.drainDone, Bool.and_eq_true] at h
    exact List.isEmpty_iff.mp h.1.2
  · exact Safe.refl d

theorem safe_afterRemovals (b a : Device) : Safe a (afterRemovals b a) := by
  refine Safe.trans ?_ (Moves.safe (keeps_applyIfFreed b _))
  split
  · exact safe_drainTest a
  · exact Safe.refl a

theorem keeps_occupyBlocked (d : Device) : Keeps d (occupyBlocked d) :=
  Keeps.of_gist (by simp [Device.gist, Device.bin, occupyBlocked]) (by simp [Device.work, occupyBlocked])

theorem safe_enterRun (d : Device) : Safe d (enterRun d) := by
  have k1 : Keeps d { d with track := { d.track with inService := d.enabledGates } } := Keeps.of_gist rfl rfl
  have k2 := (k1.trans (keeps_occupyBlocked _)).trans (keeps_clearSuspect _)
  have k3 : ∀ x : Device, Keeps x (if x.inputs.printReady then setPrintFault x false else x) := by
    intro x; split
    · exact keeps_setPrintFault x false
    · exact Keeps.refl x
  have k4 : ∀ x : Device, Keeps x (openGapAtRun x) := fun x => Keeps.of_gist rfl rfl
  have s := (Moves.safe (k2.trans (k3 _))).trans (setMode_safe_active _ .run rfl)
  exact s.trans (Moves.safe (((k4 _).trans (keeps_gapCheck _)).trans (keeps_reportConditions _)))

theorem safe_feedHeldChange (b : Bool) (d : Device) : Safe d (feedHeldChange b d) := by
  have k : Keeps d { d with inputs := { d.inputs with feedHeld := b } } := Keeps.of_gist rfl rfl
  unfold feedHeldChange
  simp only
  split
  · exact (Moves.safe k).trans (safe_drainTest _)
  · exact Moves.safe k

/-! ## The Day Clock -/

theorem monthLength_ge (y m : Nat) : 28 ≤ monthLength y m := by
  unfold monthLength
  split <;> (try split) <;> decide

/-- R103: the next date is a date of the calendar. -/
theorem nextDate_legal (t : Date) (h1 : 2000 ≤ t.year) (h2 : t.year ≤ 2099) (h3 : 1 ≤ t.month) (h4 : t.month ≤ 12)
    (h5 : 1 ≤ t.day) :
    2000 ≤ (nextDate t).year ∧ (nextDate t).year ≤ 2099 ∧ 1 ≤ (nextDate t).month ∧ (nextDate t).month ≤ 12 ∧
      1 ≤ (nextDate t).day ∧ (nextDate t).day ≤ monthLength (nextDate t).year (nextDate t).month := by
  unfold nextDate
  split
  · exact ⟨h1, h2, h3, h4, by simp only; omega, by simp only; omega⟩
  · split
    · exact ⟨h1, h2, by simp only; omega, by simp only; omega, Nat.le_refl 1, by
        have := monthLength_ge t.year (t.month + 1); simp only; omega⟩
    · refine ⟨?_, ?_, Nat.le_refl 1, by simp, Nat.le_refl 1, by simp [monthLength]⟩ <;> (simp only; split <;> omega)

/-- R102: what a pending adjustment and the clamp do not touch stays legal. -/
theorem DayClock.legal_adjust (c : DayClock) (a : Option Int) (b : Bool) (h : c.legal)
    (ha : ∀ x ∈ a, -3600 ≤ x ∧ x ≤ 3600) : ({ c with adjust := a, clamped := b } : DayClock).legal := by
  simp only [DayClock.legal] at h ⊢
  and_intros <;> omega

theorem atSecond_legal (c : DayClock) (n : Nat) (hn : n < 86400) (h : c.legal) : (c.atSecond n).legal := by
  simp only [DayClock.legal, DayClock.atSecond] at h ⊢
  and_intros <;> first | omega | exact h.2.2.2.2.2.2.2.2.2

theorem keeps_dateChange (d : Device) : Keeps d (dateChange d) :=
  ⟨rfl, rfl, by simp [Device.balance], id, id, id, id, id, id, fun h => ⟨h.1, Nat.zero_le _, h.2.2⟩, fun _ => id,
      fun _ => id⟩

/-- The clock set. -/
theorem safe_setClock (d : Device) (c : DayClock) (h : d.clock.legal → c.legal) : Safe d { d with clock := c } :=
  ⟨⟨id, id, id, id, h, id, fun _ => id, fun _ => id⟩, rfl⟩

theorem safe_rollover (b : Bool) (d : Device) (c : DayClock) (h : d.clock.legal → c.legal) :
    Safe d (rollover b d c) := by
  have k : ∀ x : Device, Keeps x (if x.autoClose then requestAutoClose b x else x) := by
    intro x; split
    · exact keeps_requestAutoClose b x
    · exact Keeps.refl x
  exact (safe_setClock d c h).trans (Moves.safe (((keeps_dateChange _).trans (keeps_occur _ _)).trans (k _)))

theorem safe_moveClock (b : Bool) (d : Device) (delta : Int) (hd : d.clock.legal → delta ≤ 3601) :
    Safe d (moveClock b d delta) := by
  have base : d.clock.legal → ({ d.clock with adjust := none } : DayClock).legal :=
    fun h => d.clock.legal_adjust none _ h (by simp)
  unfold moveClock
  simp only
  split
  · refine safe_rollover b d _ (fun h => ?_)
    obtain ⟨h1, h2, h3, h4, h5, h6, h7, h8, h9, h10⟩ := base h
    have := hd h
    have ht : (DayClock.secondOfDay { d.clock with adjust := none } + delta - 86400).toNat < 86400 := by
      simp only [DayClock.secondOfDay] at *; omega
    obtain ⟨g1, g2, g3, g4, g5, g6, g7, g8, g9, g10⟩ := atSecond_legal _ _ ht (base h)
    obtain ⟨n1, n2, n3, n4, n5, n6⟩ := nextDate_legal _ h1 h2 h3 h4 h5
    exact ⟨n1, n2, n3, n4, n5, n6, g7, g8, g9, g10⟩
  · split
    · refine safe_setClock d _ (fun h => ?_)
      exact (atSecond_legal { d.clock with adjust := none } 0 (by decide) (base h) :)
    · refine safe_setClock d _ (fun h => atSecond_legal _ _ ?_ (base h))
      omega

theorem safe_secondPulse (b : Bool) (d : Device) : Safe d (secondPulse b d) := by
  unfold secondPulse
  split
  · exact Safe.refl d
  · refine safe_moveClock b d _ (fun h => ?_)
    obtain ⟨_, _, _, _, _, _, _, _, _, h10⟩ := h
    unfold DayClock.pulseSeconds
    cases ha : d.clock.adjust with
    | none => simp
    | some a => have := h10 a (by simp [ha]); simp; omega

end Sys2Proof.Machine
end

