-- ==== Sys2Proof/Laws/Events.lean ====
section
/-! SUPPORT. Laws of the Track Unit's events, of binding, of the Mark Classifier and of the encoder: each operation
keeps every invariant of `Sys2Proof.Safety`. -/

namespace Sys2Proof.Machine

/-! ## Purging -/

theorem settleImprint_track (d : Device) (r : ItemRecord) (b : Bool) : (settleImprint d r b).1.track = d.track := by
  have hd : ∀ x : Device, ∀ n, (dropImprint x n).track = x.track := by
    intro x n; unfold dropImprint; simp only; split <;> simp
  unfold settleImprint
  cases r.imprint <;> simp [hd]
  cases b <;> simp

theorem settleRoute_track (d : Device) (r : ItemRecord) (e : ExitKind) : (settleRoute d r e).track = d.track := by
  unfold settleRoute
  cases r.route with
  | none => rfl
  | some t => simp only; split <;> rfl

theorem countRemoval_track (d : Device) (r : ItemRecord) (e : ExitKind) : (countRemoval d r e).track = d.track := by
  have h1 : ∀ x : Device, (countDisposition x r).track = x.track := by
    intro x; unfold countDisposition; split <;> rfl
  have h2 : ∀ x : Device, (countBin x r).track = x.track := by
    intro x; unfold countBin; split <;> rfl
  have h3 : ∀ x : Device, (countGroup x r).track = x.track := by
    intro x; unfold countGroup; split <;> rfl
  unfold countRemoval
  cases e <;> simp [h1, h2, h3]

theorem offerBatch_track (d : Device) : (offerBatch d).track = d.track := by
  unfold offerBatch
  split
  · rfl
  · split <;> rfl

theorem reportRemoval_track (d : Device) (r : ItemRecord) (e : ExitKind) : (reportRemoval d r e).track = d.track := by
  have h : (appendReport d r e).track = d.track := by unfold appendReport; split <;> rfl
  unfold reportRemoval
  simp only
  split
  · rw [offerBatch_track, h]
  · exact h

/-- R22: what a removal leaves of the Track Unit: the record gone, its cells strays, its orders released. -/
theorem removeRecord_track (d : Device) (n : RecNo) (e : ExitKind) (r : ItemRecord) (h : d.find n = some r) :
    (removeRecord d n e).track = (leaveTrack d n).track := by
  have ha : ∀ x : Device, (abandonClassification x n).track = x.track := by
    intro x; unfold abandonClassification; split <;> rfl
  unfold removeRecord
  simp only [h]
  simp only [reportConditions_track, settleRemoval, reportRemoval_track, countRemoval_track, settleRoute_track,
    settleImprint_track, ha]

theorem removeRecord_none (d : Device) (n : RecNo) (e : ExitKind) (h : d.find n = none) : removeRecord d n e = d := by
  unfold removeRecord; rw [h]

theorem purge_fold (q : List ItemRecord) (d : Device) (h : d.track.queue = q) :
    ((q.map (fun r => r.number)).foldl (fun d n => removeRecord d n .purged) d).track.queue = [] := by
  induction q generalizing d with
  | nil => exact h
  | cons r rest ih =>
    have hf : d.find r.number = some r := by simp [Device.find, h]
    refine ih _ ?_
    rw [removeRecord_track d r.number .purged r hf]
    simp [leaveTrack, h]

/-- R24: a purge empties the Tracking Queue. -/
theorem purgeAll_queue (d : Device) : (purgeAll d).track.queue = [] := purge_fold _ d rfl

/-! ## The build complete -/

theorem keeps_buildComplete (n : RecNo) (d : Device) : Keeps d (buildComplete n d) := by
  unfold buildComplete
  split
  · exact ((keeps_modify d n _).trans (keeps_freeBuilder _)).trans (keeps_applyPoint _)
  · exact Keeps.refl d

/-! ## Admission -/

theorem admitItem_balance (d : Device) : (admitItem d).balance = d.balance := by
  have hl : (admitItem d).track.queue.length = d.track.queue.length + 1 := by simp [admitItem]
  have ht : (admitItem d).tally.totals = { d.tally.totals with admitted := d.tally.totals.admitted + 1 } := rfl
  simp only [Device.balance, hl, ht, BitVec.ofNat_add]
  generalize BitVec.ofNat 32 d.track.queue.length = q
  bv_omega

/-- R4: an admission in RUN or DRAIN with room for the record. -/
theorem keeps_admit (d : Device) (ha : d.active = true) (h : d.track.queue.length < Config.maxRecords) :
    Keeps d (admitItem d) := by
  have hl : (admitItem d).track.queue.length = d.track.queue.length + 1 := by simp [admitItem]
  have ha' : (admitItem d).active = true := ha
  refine ⟨rfl, rfl, ?_, id, fun hb => ⟨?_, hb.2⟩, id, ?_, ?_, id, id, fun _ => id, fun _ => id⟩
  · rw [admitItem_balance]; simp
  · rw [hl]; exact h
  · intro _ hx; rw [ha'] at hx; cases hx
  · intro _
    refine ⟨fun hx => ?_, fun hx => ?_⟩ <;>
      (have hx' : d.line.mode = _ := hx; simp [Device.active, hx', Mode.active] at ha)

theorem keeps_leaveUntracked (d : Device) : Keeps d (leaveUntracked d) := by
  refine Keeps.trans (keeps_setOccupant d 0 .untracked) (Keeps.trans ?_ (keeps_count _ _))
  exact ⟨rfl, rfl, by simp [Device.balance], id, id, id, id, id, id, id, fun _ => id, fun _ => id⟩

theorem active_of_mode (d : Device) (m : Mode) (h : d.line.mode = m) : d.active = m.active := by
  simp [Device.active, h]

theorem keeps_scanCellLeadEdge (d : Device) : Keeps d (scanCellLeadEdge d) := by
  have k0 := keeps_setBlocked d 0 true
  have run : ∀ x : Device, x.active = true → Keeps x
      (if (setGap (startJam x 0) .closed).track.queue.length < Config.maxRecords then admitItem (setGap
          (startJam x 0) .closed)
       else occur (leaveUntracked (setGap (startJam x 0) .closed)) (.queueFull (setGap
           (startJam x 0) .closed).track.encoder)) := by
    intro x hx
    refine Keeps.trans ((keeps_startJam x 0).trans (keeps_setGap _ .closed)) ?_
    split
    · next h => exact keeps_admit _ hx h
    · exact (keeps_leaveUntracked _).trans (keeps_occur _ _)
  unfold scanCellLeadEdge
  simp only
  split
  · exact k0
  · refine Keeps.trans k0 ?_
    cases hm : (setBlocked d 0 true).line.mode with
    | halted => exact Keeps.refl _
    | idle => exact keeps_leaveUntracked _
    | run => exact run _ (active_of_mode _ _ hm)
    | drain => exact run _ (active_of_mode _ _ hm)

theorem keeps_writeLength (d : Device) : Keeps d (writeLength d) := by
  unfold writeLength
  split
  · exact keeps_modify d _ _
  all_goals exact Keeps.refl d

theorem keeps_scanCellTrailingEdge (d : Device) : Keeps d (scanCellTrailingEdge d) := by
  have k0 := keeps_setBlocked d 0 false
  unfold scanCellTrailingEdge
  simp only
  split
  · exact k0
  · refine Keeps.trans k0 ?_
    have run : ∀ x : Device, Keeps x (gapMet (setGap (vacate (writeLength x) 0) (.opened x.track.encoder))) := fun x =>
      (((keeps_writeLength x).trans (keeps_vacate _ 0)).trans (keeps_setGap _ _)).trans (keeps_gapMet _)
    cases (setBlocked d 0 false).line.mode with
    | halted => exact Keeps.refl _
    | idle => exact keeps_vacate _ 0
    | run => exact run _
    | drain => exact run _

/-! ## The cancel station -/

theorem keeps_failCheck (d : Device) (r : ItemRecord) : Keeps d (failCheck d r) := by
  unfold failCheck
  simp only
  split
  · exact (keeps_modify d _ _).trans (keeps_dropImprint _ _)
  · exact keeps_modify d _ _

theorem keeps_concludeCheck (d : Device) (r : ItemRecord) : Keeps d (concludeCheck d r) := by
  unfold concludeCheck
  split
  · exact Keeps.refl d
  · split
    · exact keeps_modify d _ _
    · exact keeps_failCheck d r

theorem keeps_routeWithoutCancel (d : Device) (n : RecNo) : Keeps d (routeWithoutCancel d n) := by
  unfold routeWithoutCancel
  split
  · split
    · exact keeps_routePoint d n
    · exact Keeps.refl d
  · exact Keeps.refl d

theorem keeps_concludeSpan (n : RecNo) (d : Device) : Keeps d (concludeSpan n d) := by
  unfold concludeSpan
  split
  · exact Keeps.refl d
  · next r _ =>
    split
    · exact (((keeps_modify d n _).trans (keeps_concludeCheck _ r)).trans (keeps_routeWithoutCancel _ n)).trans
        (keeps_applyIfFreed d _)
    · exact Keeps.refl d

theorem keeps_fchkAssertion (line : Sensor) (level : Bool) (d : Device) : Keeps d (fchkAssertion line level d) := by
  have k : Keeps d (setSensor d line level) := Keeps.of_gist rfl rfl
  unfold fchkAssertion
  simp only
  split
  · refine Keeps.trans k (Keeps.of_gist ?_ rfl)
    simp [Device.gist, Device.bin, markAsserted]
  · exact k

theorem keeps_takePrintStart (d : Device) (r : ItemRecord) (p : Pos) (h : d.active = true) :
    Keeps d (takePrintStart d r p) := by
  have k := (keeps_modify d r.number (fun r => { r with printStart := none })).trans (keeps_preemptPrint _)
  have k' := k.trans (keeps_printDecision _ r.number p r.imprint (by rw [k.active]; exact h))
  exact ((k'.trans (keeps_routePoint _ _)).trans (keeps_reportConditions _)).trans (keeps_applyIfFreed d _)

theorem keeps_startIfDue (n : RecNo) (d : Device) : Keeps d (startIfDue n d) := by
  unfold startIfDue
  split
  · exact Keeps.refl d
  · next r _ =>
    split
    · next h => exact keeps_takePrintStart _ r _ h.1
    · exact Keeps.refl d

theorem keeps_printStart (n : RecNo) (d : Device) : Keeps d (printStart n d) :=
  (keeps_concludeSpan n d).trans (keeps_startIfDue n _)

theorem keeps_endOfCheckSpan (n : RecNo) (d : Device) : Keeps d (endOfCheckSpan n d) := by
  unfold endOfCheckSpan
  split
  · exact keeps_printStart n d
  · exact Keeps.refl d

/-- R21: at the end of a record's check span its END_OF_CHECK_SPAN and its PRINT_START are one event. -/
theorem endOfCheckSpan_due (n : RecNo) (d : Device) (h : d.spanEnds n = true) :
    endOfCheckSpan n d = printStart n d := if_pos h

/-- R10: where the end of no check span of the record has come, nothing happens. -/
theorem endOfCheckSpan_idle (n : RecNo) (d : Device) (h : d.spanEnds n = false) : endOfCheckSpan n d = d := by
  unfold endOfCheckSpan
  rw [h]
  rfl

/-- R94: where the print start of the record has not come, nothing happens. -/
theorem startIfDue_idle (n : RecNo) (d : Device)
    (h : ∀ r, d.find n = some r → d.active = false ∨ r.printStart ≠ some d.track.encoder) : startIfDue n d = d := by
  unfold startIfDue
  split
  · rfl
  · next r hf =>
    refine if_neg fun hd => ?_
    rcases h r hf with h | h
    · rw [hd.1] at h; cases h
    · exact h hd.2

/-! ## Stations -/

theorem keeps_strayEdge (d : Device) (st : Station) : Keeps d (strayEdge d st) :=
  ((keeps_setOccupant d _ .stray).trans (keeps_count _ _)).trans (keeps_occur _ _)

theorem keeps_setTwist (d : Device) (n : Option RecNo) (h : d.active = true ∨ n = none) :
    Keeps d { d with track := { d.track with twist := n } } := by
  rcases h with h | h
  · exact Keeps.of_active rfl h
  · subst h; exact Keeps.of_rests rfl ⟨fun _ => rfl, id, id, id, id, id⟩

theorem keeps_setTurn (d : Device) (n : Option RecNo) (h : d.active = true ∨ n = none) :
    Keeps d { d with track := { d.track with turn := n } } := by
  rcases h with h | h
  · exact Keeps.of_active rfl h
  · subst h; exact Keeps.of_rests rfl ⟨id, fun _ => rfl, id, id, id, id⟩

theorem keeps_stationSeen (d : Device) (st : Station) (r : ItemRecord) (p : Pos) (h : d.active = true) :
    Keeps d (stationSeen d st r p) := by
  unfold stationSeen
  cases st with
  | twist => simp only; split
             · exact keeps_setTwist d _ (.inl h)
             · exact Keeps.refl d
  | turn => simp only; split
            · exact keeps_setTurn d _ (.inl h)
            · exact Keeps.refl d
  | cancel =>
    simp only
    split
    · exact (keeps_modify d _ _).trans (keeps_endOfCheckSpan _ _)
    · exact keeps_modify d _ _
  | gate k =>
    simp only
    split
    · split
      · exact (keeps_modify d _ _).trans (keeps_assertGate _ _ _ h)
      · exact Keeps.refl d
    · exact Keeps.refl d
  | exit => exact (keeps_removeRecord d _ .missed).trans (keeps_occur _ _)

theorem keeps_seeRecord (d : Device) (st : Station) (r : ItemRecord) (h : d.active = true) :
    Keeps d (seeRecord d st r) :=
  ((keeps_modify d _ _).trans (keeps_setOccupant _ _ _)).trans (keeps_stationSeen _ st r _ h)

theorem keeps_matchEdge (fuel : Nat) (d : Device) (st : Station) (h : d.active = true) :
    Keeps d (matchEdge fuel d st) := by
  induction fuel generalizing d with
  | zero => exact keeps_strayEdge d st
  | succ fuel ih =>
    unfold matchEdge
    split
    · exact keeps_strayEdge d st
    · next r _ =>
      simp only
      split
      · exact keeps_strayEdge d st
      · split
        · exact keeps_seeRecord d st r h
        · have k := keeps_loseRecord d r st
          exact Keeps.trans k (ih _ (by rw [k.active]; exact h))

theorem safe_stationLeadEdge (st : Station) (d : Device) : Safe d (stationLeadEdge st d) := by
  have k0 := keeps_setBlocked d (stationRow st) true
  unfold stationLeadEdge
  simp only
  split
  · next h =>
    have k := k0.trans (keeps_startJam _ (stationRow st))
    exact ((Moves.safe k).trans (Moves.safe (keeps_matchEdge _ _ st h.2.1))).trans (safe_afterRemovals _ _)
  · exact Moves.safe k0

theorem keeps_stationTrail (d : Device) (st : Station) (n : RecNo) : Keeps d (stationTrail d st n) := by
  unfold stationTrail
  cases st with
  | twist =>
    refine Keeps.of_rests rfl ⟨fun h => ?_, id, id, id, id, id⟩
    have h' : d.track.twist = none := h
    show releaseOrder n d.track.twist = none
    rw [h', releaseOrder_none]
  | turn =>
    refine Keeps.of_rests rfl ⟨id, fun h => ?_, id, id, id, id⟩
    have h' : d.track.turn = none := h
    show releaseOrder n d.track.turn = none
    rw [h', releaseOrder_none]
  | cancel => exact keeps_modify d _ _
  | exit => exact Keeps.refl d
  | gate k =>
    simp only
    split
    · exact Keeps.refl d
    · split
      · split
        · exact keeps_removeRecord d n .stacked
        · exact Keeps.refl d
      · exact Keeps.refl d

theorem safe_stationTrailingEdge (st : Station) (d : Device) : Safe d (stationTrailingEdge st d) := by
  have k0 := keeps_setBlocked d (stationRow st) false
  have k1 : ∀ x : Device, Keeps x (trailOf x st) := by
    intro x; unfold trailOf; split
    · exact keeps_stationTrail x st _
    all_goals exact Keeps.refl x
  unfold stationTrailingEdge
  simp only
  split
  · exact ((Moves.safe k0).trans (Moves.safe ((k1 _).trans (keeps_vacate _ _)))).trans (safe_afterRemovals _ _)
  · exact Moves.safe k0

/-! ## Position events -/

theorem keeps_deadline (n : RecNo) (d : Device) : Keeps d (deadline n d) := by
  unfold deadline
  split
  · exact Keeps.refl d
  · split
    · exact ((keeps_modify d n _).trans (keeps_abandonClassification _ n)).trans (keeps_applyIfFreed d _)
    · exact Keeps.refl d

theorem safe_windowExpiry (n : RecNo) (st : Station) (d : Device) : Safe d (windowExpiry n st d) := by
  unfold windowExpiry
  split
  · exact Safe.refl d
  · next r _ =>
    split
    · exact (Moves.safe (keeps_loseRecord d r st)).trans (safe_afterRemovals _ _)
    · exact Safe.refl d

theorem safe_jamExpiry (row : Fin 21) (d : Device) : Safe d (jamExpiry row d) := by
  unfold jamExpiry
  split
  · exact (Moves.safe (keeps_occur d _)).trans (safe_enterHalted _)
  · exact Safe.refl d

/-! ## Binding and the Classifier -/

theorem keeps_linkError (d : Device) (e : LinkError) : Keeps d (linkError d e) :=
  (keeps_count d _).trans (keeps_occur _ _)

theorem keeps_latePart (d : Device) (r : ItemRecord) (p : ScanPart) : Keeps d (latePart d r p) :=
  (keeps_modify d _ _).trans (keeps_count _ _)

theorem keeps_bindPart (d : Device) (p : ScanPart) : Keeps d (bindPart d p) := by
  have h1 : ∀ r, Keeps d (bindTagged d r p) := by
    intro r; unfold bindTagged; split
    · exact keeps_linkError d _
    · split
      · exact keeps_latePart d r p
      · exact keeps_modify d _ _
  have h2 : ∀ r, Keeps d (bindUntagged d r p) := by
    intro r; unfold bindUntagged; split
    · exact keeps_latePart d r p
    · exact keeps_modify d _ _
  unfold bindPart
  split
  · exact h1 _
  · split
    · exact h2 _
    · exact keeps_linkError d _

theorem keeps_takePart (p : ScanPart) (d : Device) : Keeps d (takePart p d) := by
  unfold takePart
  split
  · exact keeps_bindPart d p
  · exact keeps_count d _

theorem keeps_setSuspect (d : Device) (v : Nat) :
    Keeps d { d with classifier := { d.classifier with suspect := v } } := Keeps.of_gist rfl rfl

theorem keeps_setScanLock (d : Device) : Keeps d { d with line := { d.line with scanLock := true } } :=
  Keeps.of_gist rfl rfl

theorem keeps_suspectDecision (d : Device) (n : RecNo) (q : Bool) : Keeps d (suspectDecision d n q) := by
  unfold suspectDecision
  simp only
  split
  · exact keeps_setSuspect d 0
  · split
    · refine Keeps.trans (keeps_occur d (.scanSuspect n d.suspectThreshold)) ?_
      split
      · exact (keeps_setScanLock _).trans (keeps_setSuspect _ 0)
      · exact keeps_setSuspect _ 0
    · exact keeps_setSuspect d _

theorem takeReady_active (d : Device) (n : RecNo) (h : d.takeReady = some n) : d.active = true := by
  unfold Device.takeReady at h
  split at h
  · next hh => exact hh.1
  · cases h

theorem keeps_classifierTake (d : Device) : Keeps d (classifierTake d) := by
  unfold classifierTake
  split
  · exact Keeps.refl d
  · next n h =>
    exact (keeps_modify d n _).trans (Keeps.of_active (d := d.modify n _)
      (d' := { d.modify n (fun r => { r with state := .classifying }) with
        classifier := { d.classifier with busy := some n } }) rfl (takeReady_active d n h))

theorem keeps_decisionComplete (n : RecNo) (d : Device) : Keeps d (decisionComplete n d) := by
  unfold decisionComplete
  split
  · exact Keeps.refl d
  · split
    · exact (((keeps_modify d n _).trans (keeps_suspectDecision _ n _)).trans (keeps_freeClassifier _)).trans
        (keeps_applyPoint _)
    · exact Keeps.refl d

/-! ## The encoder -/

theorem safe_takeEvent (d : Device) (e : DueEvent) : Safe d (takeEvent d e) := by
  cases e with
  | columnDue => exact Moves.safe (keeps_printColumnDue d)
  | endOfCheckSpan n => exact Moves.safe (keeps_endOfCheckSpan n d)
  | printStart n => exact Moves.safe (keeps_printStart n d)
  | deadline n => exact Moves.safe (keeps_deadline n d)
  | windowExpiry n st => exact safe_windowExpiry n st d
  | gapMet => exact Moves.safe (keeps_gapMet d)
  | applyPoint => exact Moves.safe (keeps_applyPoint d)
  | classifierTake => exact Moves.safe (keeps_classifierTake d)
  | buildBegin => exact Moves.safe (keeps_buildBegin d)
  | jamExpiry row => exact safe_jamExpiry row d

/-- R10: what a pulse finds still due leaves the encoder where it is. -/
theorem safe_takeDue (d : Device) : Safe d (takeDue d) := Safe.foldl takeEvent safe_takeEvent _ d

/-- R10: in IDLE and HALTED no event is due. -/
theorem takeEvent_inactive (d : Device) (h : d.active = false) (e : DueEvent) : takeEvent d e = d := by
  have hs : ∀ n, d.spanEnds n = false := by
    intro n; unfold Device.spanEnds; split <;> simp [h]
  have hc : ∀ n, concludeSpan n d = d := by
    intro n; unfold concludeSpan; split <;> simp [h]
  have hg : gapCheck d = d := by unfold gapCheck; split <;> simp [h]
  cases e <;> unfold takeEvent <;> simp only
  · unfold printColumnDue; split <;> simp [h]
  · exact endOfCheckSpan_idle _ d (hs _)
  · rw [printStart, hc]; exact startIfDue_idle _ d (fun _ _ => .inl h)
  · unfold deadline; split <;> simp [h]
  · unfold windowExpiry; split <;> simp [h]
  · rw [gapMet, hg, applyPoint_inactive d h]
  · simp [applyPoint, Device.applyReady, h]
  · simp [classifierTake, Device.takeReady, h]
  · simp [buildBegin, Device.buildReady, h]
  · simp [jamExpiry, h]

theorem takeEvents_inactive (d : Device) (h : d.active = false) (l : List DueEvent) : l.foldl takeEvent d = d := by
  induction l with
  | nil => rfl
  | cons e l ih => rw [List.foldl_cons, takeEvent_inactive d h e, ih]

/-- R10: in IDLE and HALTED a pulse finds nothing due. -/
theorem takeDue_inactive (d : Device) (h : d.active = false) : takeDue d = d := takeEvents_inactive d h _

theorem sound_advance (d : Device) : Sound d (advance d) := ⟨id, id, id, id, id, id, fun _ => id, fun _ => id⟩

theorem sound_encPulse (d : Device) : Sound d (encPulse d) := (safe_takeDue d).toSound.trans (sound_advance _)

end Sys2Proof.Machine
end

