-- ==== Sys2Proof/Laws/Link.lean ====
section
/-! SUPPORT. Laws of the Command Unit, the Feed Link and the resets: each command, frame and reset keeps the
invariants of `Sys2Proof.Safety`; and what a whole frame does when the part is ready for it. -/

namespace Sys2Proof.Machine

/-! ## The delimiter and the Command Unit -/

/-- While no open-ended frame is open at the delimiter, the Command Unit receives none. -/
theorem safe_setDelim (d : Device) (x : Delimiter) (h : d.feed.delim.endless = false) : Safe d (setDelim d x) :=
  ⟨⟨id, id, id, fun m => ⟨fun hr => absurd (m.1 hr) (by rw [h]; simp), m.2.1, m.2.2⟩, id, id, fun _ => id, fun _ => id⟩,
    rfl⟩

/-- An open-ended frame opens at the delimiter. -/
theorem safe_openDelim (d : Device) (k : FrameKind) (q : BitVec 8) : Safe d (setDelim d (.openEnded k q)) :=
  ⟨⟨id, id, id, fun m => ⟨fun _ => rfl, m.2.1, m.2.2⟩, id, id, fun _ => id, fun _ => id⟩, rfl⟩

/-- A part whose Command Unit receives nothing may be taken with its delimiter in DISCARD. -/
theorem Safe.discard {d e : Device} (h : Safe d e) (hr : d.linked → e.command.receives = false) :
    Safe d (setDelim e .discard) :=
  ⟨⟨h.balanced, h.canonical, h.bounded,
    fun m => ⟨fun hx => absurd hx (by rw [setDelim, hr m.1]; simp), (h.modal m).2.1, (h.modal m).2.2⟩,
    h.legal, h.held, h.cursor, h.staging⟩, h.encoder⟩

/-- R171: whatever the delimiter becomes, a response may be built. -/
theorem safe_buildResponse (d : Device) (x : Delimiter) (kind : CommandKind) (tag : BitVec 8) (a : Answer) :
    Safe d (buildResponse (setDelim d x) kind tag a) := by
  refine ⟨⟨id, id, id, fun m => ⟨(fun h => by cases h), (fun h => ?_), m.2.2⟩, id, id,
    fun _ hx w hw => ⟨(hx w hw).1, rfl⟩, fun _ x => ⟨?_, ?_, .inl rfl, x.2.2.2.1, (fun w h => by cases h),
      x.2.2.2.2.2⟩⟩, rfl⟩
  · obtain ⟨h1, h2, h3, h4, _⟩ := m.2.1 h
    exact ⟨h1, h2, h3, h4, rfl⟩
  · exact Nat.le_trans (Nat.le_add_right _ _) x.1
  · exact Nat.le_trans (Nat.le_add_right _ _) x.2.1

/-- R177: whatever the delimiter becomes, an answered command leaves the Command Unit FREE or WAITING. -/
theorem safe_respond (d : Device) (x : Delimiter) (kind : CommandKind) (tag : BitVec 8) (a : Answer) :
    Safe d (respond (setDelim d x) kind tag a) :=
  (safe_buildResponse d x kind tag a).trans (Moves.safe (keeps_arbiter _))

theorem safe_execute (kind : CommandKind) (tag : BitVec 8) (f : Device → Device × Answer) (d : Device)
    (h : Safe d (f d).1) : Safe d (execute kind tag f d) :=
  h.trans (safe_respond (f d).1 (f d).1.feed.delim kind tag (f d).2)

theorem safe_serveCloseTally (tag : BitVec 8) (d : Device) : Safe d (serveCloseTally tag d) := by
  have k := (Moves.safe (keeps_requestClose d { command := true, autoClose := false })).trans
    (safe_buildResponse _ (requestClose d { command := true, autoClose := false }).feed.delim .closeTally tag
      (cmdCloseTally d).2)
  unfold serveCloseTally
  simp only
  split
  · exact k.trans (Moves.safe (keeps_placeResponse _))
  · exact k.trans (Moves.safe (keeps_arbiter _))

/-! ## The commands -/

theorem safe_cmdEnterRun (d : Device) : Safe d (cmdEnterRun d).1 := by
  unfold cmdEnterRun
  split
  · split
    · exact Safe.refl d
    · exact safe_enterRun d
  all_goals exact Safe.refl d

theorem safe_cmdDrain (d : Device) : Safe d (cmdDrain d).1 := by
  unfold cmdDrain
  split
  · exact (setMode_safe_active d .drain rfl).trans (safe_drainTest _)
  all_goals exact Safe.refl d

theorem safe_cmdHalt (d : Device) : Safe d (cmdHalt d).1 := by
  unfold cmdHalt
  split
  · exact Safe.refl d
  all_goals exact safe_enterHalted d

theorem safe_leaveHalted (d : Device) (h : d.line.mode = .halted) (hq : d.track.queue = []) :
    Safe d (leaveHalted d) := by
  refine Safe.trans (Moves.safe (keeps_clearCells d)) (Safe.trans ?_ (Moves.safe (keeps_reportConditions _)))
  refine ⟨⟨id, id, id, fun m => ⟨m.1, fun _ => m.2.1 ?_, fun _ => hq, fun hx => by cases hx⟩, id, id, fun _ => id,
    fun m hs => ?_⟩, rfl⟩
  · show d.active = false
    rw [active_of_mode _ .halted h]; rfl
  · obtain ⟨_, _, _, hg, ho⟩ := m.2.1 (active_of_mode d .halted h)
    exact staging_of_empty hg ho hs.2.2.2.2.2

theorem safe_cmdResume (d : Device) : Safe d (cmdResume d).1 := by
  unfold cmdResume
  split
  · next h =>
    split
    · next hq => exact safe_leaveHalted d h (List.isEmpty_iff.mp hq)
    · exact Safe.refl d
  all_goals exact Safe.refl d

theorem safe_cmdPurgeTrack (d : Device) : Safe d (cmdPurgeTrack d).1 := by
  unfold cmdPurgeTrack
  split
  · exact Moves.safe (keeps_purgeAll d)
  all_goals exact Safe.refl d

theorem safe_softClear (d : Device) (h : d.feed.delim.endless = false) (hq : d.track.queue = []) :
    Safe d (softClear d) := by
  have k := (keeps_releaseActuators d).trans (keeps_clearCells _)
  refine Safe.trans (Moves.safe k) (Safe.trans ?_ (Moves.safe (keeps_reportConditions _)))
  have ho : d.linked → d.openGroup = [] := by
    intro l
    have hr : d.command.receives = false := by
      cases hc : d.command.receives with
      | false => rfl
      | true => exact absurd (l hc) (by rw [h]; simp)
    unfold Device.openGroup
    cases hc : d.command <;> simp_all [CommandState.receives]
  exact ⟨⟨id, id, id, fun m => ⟨m.1, fun _ => ⟨rfl, rfl, rfl, rfl, ho m.1⟩, fun _ => hq, fun hx => by cases hx⟩, id, id,
    (fun _ _ w hw => by cases hw),
    fun m _ => staging_of_empty rfl (ho m.1) (fun w hw => by cases hw)⟩, rfl⟩

theorem removeRecord_feed (d : Device) (n : RecNo) (e : ExitKind) : (removeRecord d n e).feed = d.feed := by
  have hc : ∀ d : Device, ∀ b, (settleImprint d b (decide (e = .stacked))).1.feed = d.feed := by
    intro d r
    have hd : ∀ n, (dropImprint d n).feed = d.feed := by
      intro n; unfold dropImprint; simp only; split <;> rfl
    unfold settleImprint
    split
    · rfl
    · exact hd _
    · exact hd _
    · simp only
      split <;> rfl
    all_goals rfl
  have ho : ∀ d : Device, (offerBatch d).feed = d.feed := by
    intro d; unfold offerBatch; split
    · rfl
    · split <;> rfl
  have hs : ∀ (d : Device) (r : ItemRecord), (settleRemoval d r e).feed = d.feed := by
    intro d r
    have h1 : (settleRoute d r e).feed = d.feed := by
      unfold settleRoute; split
      · rfl
      · split <;> rfl
    have h2 : ∀ d : Device, (countRemoval d r e).feed = d.feed := by
      intro d
      unfold countRemoval countDisposition countGroup countBin
      cases e <;> cases r.disposition <;> cases r.route <;> cases r.classGroup <;> rfl
    have h3 : ∀ d : Device, (reportRemoval d r e).feed = d.feed := by
      intro d
      have ha : (appendReport d r e).feed = d.feed := by unfold appendReport; split <;> rfl
      unfold reportRemoval
      simp only
      split
      · rw [ho, ha]
      · exact ha
    rw [settleRemoval, h3, h2, h1]
  have ha : (abandonClassification (leaveTrack d n) n).feed = d.feed := by
    unfold abandonClassification; split <;> rfl
  unfold removeRecord
  split
  · rfl
  · show (settleRemoval _ _ e).feed = d.feed
    rw [hs, hc, ha]

theorem purgeAll_feed (d : Device) : (purgeAll d).feed = d.feed := by
  unfold purgeAll
  generalize d.track.queue.map (fun r => r.number) = l
  induction l generalizing d with
  | nil => rfl
  | cons n l ih => rw [List.foldl_cons, ih, removeRecord_feed]

theorem safe_cmdSoftReset (d : Device) (h : d.feed.delim.endless = false) : Safe d (cmdSoftReset d).1 :=
  (Moves.safe (keeps_purgeAll d)).trans
    (safe_softClear _ (by rw [purgeAll_feed]; exact h) (purgeAll_queue d))

theorem keeps_cmdExchangeCounter (n u l : Word) (d : Device) : Keeps d (cmdExchangeCounter n u l d).1 := by
  unfold cmdExchangeCounter
  split
  · exact Keeps.of_gist rfl rfl
  · exact Keeps.refl d

theorem keeps_cmdAckAttention (d : Device) : Keeps d (cmdAckAttention d).1 := by
  unfold cmdAckAttention
  split
  · exact Keeps.refl d
  · next c _ => cases c <;> exact Keeps.of_gist rfl rfl

theorem keeps_cmdSetAttentionMask (m : Word) (d : Device) : Keeps d (cmdSetAttentionMask m d).1 := by
  refine ⟨rfl, rfl, by simp [Device.balance, cmdSetAttentionMask], id, id, id, id, id, id, fun h => ⟨?_, h.2.1, h.2.2⟩,
      fun _ => id, fun _ => id⟩
  simp [cmdSetAttentionMask]

theorem keeps_cmdBinOut (k : Word) (d : Device) : Keeps d (cmdBinOut k d).1 := by
  unfold cmdBinOut
  split
  · simp only
    split
    · exact Keeps.refl d
    · exact (keeps_outRequest d _).trans (keeps_reportConditions _)
  · exact Keeps.refl d

theorem keeps_cmdBinReturn (k : Word) (d : Device) : Keeps d (cmdBinReturn k d).1 := by
  unfold cmdBinReturn
  split
  · simp only
    split
    · exact Keeps.refl d
    · exact (keeps_returnRequest d _).trans (keeps_reportConditions _)
  · exact Keeps.refl d

/-! ## The cursor -/

theorem Window.size_pos (w : Window) : 0 < w.size := by
  unfold Window.size Window.rows Window.fields
  exact Nat.mul_pos (Nat.succ_pos _) (Nat.succ_pos _)

/-- R183: advancing changes the cursor alone. -/
theorem Window.advance_eq (w : Window) : w.advance = { w with cursor := w.advance.cursor } := by
  unfold Window.advance
  split
  · rfl
  · split <;> rfl

theorem Window.advance_holds (w : Window) : w.holds w.advance.cursor := by
  unfold Window.advance
  split
  · next h => exact .inl h
  · split
    · next h => exact .inr ⟨rfl, h⟩
    · exact .inl w.size_pos

/-- R187: a read leaves the window with its cursor at one of its places or at its end. -/
theorem readWords_window (d : Device) (n : Nat) (w : Window) (h : w.holds w.cursor) :
    (readWords d n w).2.2 = { w with cursor := (readWords d n w).2.2.cursor } ∧
      w.holds (readWords d n w).2.2.cursor := by
  induction n generalizing w with
  | zero => exact ⟨rfl, h⟩
  | succ n ih =>
    unfold readWords
    split
    · exact ih w h
    · have ha := w.advance_eq
      have hh := w.advance_holds
      generalize w.advance = v at ha hh
      obtain ⟨e, k⟩ := ih v (by rw [ha]; exact hh)
      refine ⟨?_, ?_⟩
      · show (readWords d n v).2.2 = _
        rw [e, ha]
      · show w.holds (readWords d n v).2.2.cursor
        rw [ha] at k ⊢; exact k

/-- A window with another cursor, where the cursor may lie there. -/
theorem keeps_moveCursor (d : Device) (w : Window) (c : Nat) (hs : d.window.selection = some w)
    (h : w.holds w.cursor → w.holds c) : Keeps d (setWindow d { w with cursor := c }) :=
  keeps_setWindow d _ (fun _ hx => ⟨h (hx w hs).1, (by
    have := (hx w hs).2
    revert this
    cases d.command <;> exact id)⟩) (fun x => x.2.2.2.2.2 w hs)

theorem keeps_advance (d : Device) (w : Window) (hs : d.window.selection = some w) :
    Keeps d (setWindow d w.advance) := by
  rw [w.advance_eq]
  exact keeps_moveCursor d w _ hs (fun _ => w.advance_holds)

theorem safe_selectWindow (t r1 r2 f1 f2 x : Nat) (d : Device) (h : d.feed.delim.endless = false) :
    Safe d (selectWindow t r1 r2 f1 f2 x d).1 := by
  unfold selectWindow
  split
  · exact Safe.refl d
  · next hf =>
    refine Moves.safe (keeps_setWindow d _ (fun hl _ => ⟨.inl (Window.size_pos _), ?_⟩) (fun _ => ?_))
    · unfold CommandState.beganIn
      split
      · next f hc =>
        have := hl (by rw [hc]; rfl)
        rw [h] at this; cases this
      · rfl
      · rfl
    · unfold windowFault at hf
      repeat' split at hf
      all_goals first
        | (cases hf; done)
        | (refine ⟨?_, ?_, ?_, ?_⟩ <;> simp only <;> omega)

/-- R187: a read changes the window's cursor alone. -/
theorem readWords_eq (d : Device) (n : Nat) (w : Window) :
    (readWords d n w).2.2 = { w with cursor := (readWords d n w).2.2.cursor } := by
  induction n generalizing w with
  | zero => rfl
  | succ n ih =>
    unfold readWords
    split
    · exact ih w
    · have ha := w.advance_eq
      generalize w.advance = v at ha
      show (readWords d n v).2.2 = _
      rw [ih v, ha]

/-- R187: a read leaves the cursor, and the place where the open frame began, in the window. -/
theorem readWindow_cursor (d : Device) (c : Bool) (n : Nat) (w : Window) (hx : d.cursorHeld)
    (hs : d.window.selection = some w) :
    let v := (readWords d n (if c then w else { w with cursor := 0 })).2.2
    v.holds v.cursor ∧ d.command.beganIn v = true := by
  obtain ⟨h1, h2⟩ := hx w hs
  have key : ∀ x : Nat, w.holds x → (readWords d n { w with cursor := x }).2.2.holds
        (readWords d n { w with cursor := x }).2.2.cursor ∧
      d.command.beganIn (readWords d n { w with cursor := x }).2.2 = true := by
    intro x hh
    obtain ⟨e, k⟩ := readWords_window d n { w with cursor := x } hh
    rw [e]
    refine ⟨k, ?_⟩
    revert h2
    cases d.command <;> exact id
  cases c
  · exact key 0 (.inl w.size_pos)
  · exact key w.cursor h1

theorem keeps_readWindow (c : Bool) (n : Nat) (d : Device) : Keeps d (readWindow c n d).1 := by
  unfold readWindow
  split
  · exact Keeps.refl d
  · split
    · exact Keeps.refl d
    · next w hs =>
      refine keeps_setWindow d _ (fun _ hx => ?_) (fun hx => ?_)
      · exact readWindow_cursor d c n w hx hs
      · rw [readWords_eq]
        cases c <;> exact hx.2.2.2.2.2 w hs

theorem keeps_compareWrite (t r f : Nat) (e v : Word) (d : Device) : Keeps d (compareWrite t r f e v d).1 := by
  unfold compareWrite
  split
  · exact Keeps.refl d
  · next hf =>
    simp only
    split
    · exact Keeps.refl d
    · next hro =>
      split
      · exact Keeps.refl d
      · split
        · exact Keeps.refl d
        · split
          · exact keeps_writeNow d _
          · next ha =>
            split
            · exact Keeps.refl d
            · next hroom =>
              have ha' : d.active = true := by simpa using ha
              refine Keeps.trans ?_ (keeps_applyPoint _)
              refine ⟨rfl, rfl, by simp [Device.balance], id, id, id, fun _ hx => ?_, id, id, id, fun _ => id,
                fun _ x => ⟨?_, ?_, x.2.2.1, ?_, x.2.2.2.2⟩⟩
              · have hx' : d.active = false := hx
                rw [ha'] at hx'; cases hx'
              · simp only [Device.pendingCells, Device.pendingGroups, List.flatten_append, List.flatten_cons,
                  List.flatten_nil, List.length_append, List.length_cons, List.length_nil] at hroom ⊢
                show _ + (0 + 1 + 0) + d.openGroup.length ≤ _
                omega
              · simp only [Device.pendingCells, Device.pendingGroups, List.length_append, List.length_cons,
                  List.length_nil] at hroom ⊢
                show _ + (0 + 1) + d.openGroups ≤ _
                omega
              · intro g hg
                rcases List.mem_append.mp hg with h | h
                · exact x.2.2.2.1 g h
                · rw [List.mem_singleton.mp h]
                  intro w hw
                  rw [List.mem_singleton.mp hw]
                  unfold compareFault at hf
                  repeat' split at hf
                  all_goals first
                    | (cases hf; done)
                    | exact ⟨by simp only; omega, by simp only; omega, by simpa using hro⟩

theorem safe_setClockCommand (y mo da h mi s : Nat) (d : Device) : Safe d (setClock y mo da h mi s d).1 := by
  unfold setClock
  split
  · exact Safe.refl d
  · next hf =>
    have hl : ∀ c : DayClock, c.date = { year := y, month := mo, day := da } → c.hour = h → c.minute = mi →
        c.second = s → c.adjust = none → c.legal := by
      intro c h1 h2 h3 h4 h5
      unfold clockFault at hf
      repeat' split at hf
      all_goals cases hf
      and_intros <;> simp_all <;> omega
    simp only
    split
    · exact Safe.trans (safe_setClock d _ (fun _ => hl _ rfl rfl rfl rfl rfl)) (Moves.safe (keeps_dateChange _))
    · exact safe_setClock d _ (fun _ => hl _ rfl rfl rfl rfl rfl)

theorem safe_adjustClock (v : Word) (d : Device) : Safe d (adjustClock v d).1 := by
  unfold adjustClock
  split
  · exact Safe.refl d
  · next h =>
    split
    · exact Safe.refl d
    · refine safe_setClock d _ (fun hl => ?_)
      refine d.clock.legal_adjust _ _ hl (fun a ha => ?_)
      simp only [Option.mem_def, Option.some.injEq] at ha
      omega

/-- R170: every fixed command keeps the invariants. -/
theorem safe_runCommand (kind : CommandKind) (body : List Word) (d : Device) (h : d.feed.delim.endless = false) :
    Safe d (runCommand kind body d).1 := by
  unfold runCommand
  split
  · exact Safe.refl d
  · exact safe_cmdEnterRun d
  · exact safe_cmdDrain d
  · exact safe_cmdHalt d
  · exact safe_cmdResume d
  · exact safe_cmdPurgeTrack d
  · exact safe_cmdSoftReset d h
  · exact Moves.safe (keeps_setHoldFeed d true)
  · exact Moves.safe (keeps_setHoldFeed d false)
  · exact Moves.safe (keeps_requestClose d _)
  · exact Moves.safe (keeps_cmdAckAttention d)
  · exact Moves.safe (Keeps.of_gist rfl rfl)
  · exact safe_selectWindow _ _ _ _ _ _ d h
  · exact Moves.safe (keeps_readWindow _ _ d)
  · exact Moves.safe (keeps_readWindow _ _ d)
  · exact Moves.safe (keeps_compareWrite _ _ _ _ _ d)
  · exact Moves.safe (keeps_cmdExchangeCounter _ _ _ d)
  · exact safe_setClockCommand _ _ _ _ _ _ d
  · exact safe_adjustClock _ d
  · exact Moves.safe (keeps_cmdSetAttentionMask _ d)
  · exact Moves.safe (keeps_cmdBinOut _ d)
  · exact Moves.safe (keeps_cmdBinReturn _ d)
  · exact Safe.refl d

/-! ## Open-ended frames -/

/-- What an open frame may become at a body word: the same frame with other counts. -/
structure OpenFrame.Follows (f f' : OpenFrame) : Prop where
  kind : f'.kind = f.kind
  refusal : f'.refusal = f.refusal
  start : f'.start = f.start
  overflowed : f'.overflowed = f.overflowed
  group : f'.group = f.group

/-- The open frame rewritten, its group as it was, emptied by an overflow, or one cell longer where there is room. -/
theorem keeps_setFrame (d : Device) (f f' : OpenFrame) (hc : d.command = .receiving f)
    (hs : f'.start = f.start) (hg : d.active = false → f.group = [] → f'.group = [])
    (ht : d.staging → (setFrame d f').staging) : Keeps d (setFrame d f') := by
  refine ⟨rfl, rfl, by simp [Device.balance, setFrame], id, id, fun hl _ => hl (by rw [hc]; rfl),
    fun hr ha => ?_, id, id, id, fun _ hx w hw => ⟨(hx w hw).1, ?_⟩, fun _ => ht⟩
  · obtain ⟨h1, h2, h3, h4, h5⟩ := hr ha
    have h5' : f.group = [] := by simpa [Device.openGroup, hc] using h5
    exact ⟨h1, h2, h3, h4, hg ha h5'⟩
  · have := (hx w hw).2
    rw [hc] at this
    show decide (w.holds f'.start) = true
    rw [hs]; exact this

theorem OpenFrame.Follows.keeps {d : Device} {f f' : OpenFrame} (h : f.Follows f') (hc : d.command = .receiving f) :
    Keeps d (setFrame d f') := by
  refine keeps_setFrame d f f' hc h.start (fun _ hg => h.group.trans hg) (fun x => ?_)
  have ho : (setFrame d f').openGroup = d.openGroup := by
    unfold Device.openGroup setFrame; simp only [hc, h.group]
  have hn : (setFrame d f').openGroups = d.openGroups := by
    have ha : (setFrame d f').active = d.active := rfl
    unfold Device.openGroups
    rw [ha]
    simp only [setFrame, hc, h.kind, h.refusal, h.overflowed]
  refine ⟨?_, ?_, ?_, x.2.2.2.1, ?_, x.2.2.2.2.2⟩
  · rw [Device.pendingCells, ho]; exact x.1
  · rw [Device.pendingGroups, hn]; exact x.2.1
  · rw [ho, hn]; exact x.2.2.1
  · rw [ho]; exact x.2.2.2.2.1

/-- R183: a place before the end of a window in its table is a cell of the table. -/
theorem Window.place_inTable (w : Window) (k : Nat) (hw : w.inTable) (hk : k < w.size) :
    (w.place k).1 < tableRows w.table ∧ (w.place k).2 < tableFields w.table := by
  obtain ⟨h1, h2, h3, h4⟩ := hw
  have hr : 0 < w.rows := Nat.succ_pos _
  have hf : 0 < w.fields := Nat.succ_pos _
  have hs : w.size = w.rows * w.fields := rfl
  have er : w.rows = w.lastRow - w.firstRow + 1 := rfl
  have ef : w.fields = w.lastField - w.firstField + 1 := rfl
  unfold Window.place
  split
  · have a : k / w.fields < w.rows := Nat.div_lt_of_lt_mul (by rw [Nat.mul_comm]; omega)
    have b : k % w.fields < w.fields := Nat.mod_lt _ hf
    simp only; omega
  · have a : k / w.rows < w.fields := Nat.div_lt_of_lt_mul (by omega)
    have b : k % w.rows < w.rows := Nat.mod_lt _ hr
    simp only; omega

theorem keeps_writeWord (d : Device) (f0 f : OpenFrame) (w : Window) (c : CellWrite) (hc : d.command = .receiving f0)
    (hw : d.window.selection = some w) (hf : f0.Follows f)
    (hn : f.kind ≠ .nop ∧ f.refusal = none ∧ f.overflowed = false) (ht : d.staging → c.inTable) :
    Keeps d (writeWord d f w c) := by
  unfold writeWord
  split
  · next ha =>
    split
    · next hroom =>
      refine Keeps.trans (keeps_advance d w hw) (keeps_setFrame _ f0 _ hc hf.start (fun h => ?_) (fun x => ?_))
      · have h' : d.active = false := h
        rw [ha] at h'; cases h'
      · have x' := x
        have hog : (setWindow d w.advance).openGroup = f.group := by
          unfold Device.openGroup setWindow; simp only [hc, hf.group]
        have hng : ∀ g : OpenFrame, g.kind = f.kind → g.refusal = f.refusal → g.overflowed = f.overflowed →
            (setFrame (setWindow d w.advance) g).openGroups = 1 := by
          intro g h1 h2 h3
          have ha2 : (setFrame (setWindow d w.advance) g).active = true := ha
          unfold Device.openGroups
          rw [ha2]
          simp [setFrame, h1, h2, h3, hn, bit]
        have hold : (setWindow d w.advance).openGroups = 1 := by
          have ha2 : (setWindow d w.advance).active = true := ha
          unfold Device.openGroups
          rw [ha2]
          simp [setWindow, hc, ← hf.kind, ← hf.refusal, ← hf.overflowed, hn, bit]
        refine ⟨?_, ?_, .inr (hng _ rfl rfl rfl), x.2.2.2.1, ?_, x.2.2.2.2.2⟩
        · show d.window.groups.flatten.length + (f.group ++ [c]).length ≤ _
          simp only [List.length_append, List.length_cons, List.length_nil]; omega
        · have := x.2.1
          rw [Device.pendingGroups, hold] at this
          rw [Device.pendingGroups, hng { f with group := f.group ++ [c], written := f.written + 1 } rfl rfl rfl]
          exact this
        · intro v hv
          rcases List.mem_append.mp (show v ∈ f.group ++ [c] from hv) with h | h
          · exact x.2.2.2.2.1 v (by rw [hog]; exact h)
          · rw [List.mem_singleton.mp h]
            exact ht ⟨x'.1, x'.2.1, x'.2.2.1, x'.2.2.2.1, x'.2.2.2.2.1, fun v hv => by
              rw [hw] at hv; cases hv
              have := x'.2.2.2.2.2 w.advance rfl
              rw [w.advance_eq] at this; exact this⟩
    · refine Keeps.trans (b := setWindow d { w with cursor := f.start })
        (keeps_setWindow d _ (fun _ hx => ?_) (fun x => x.2.2.2.2.2 w hw))
        (keeps_setFrame _ f0 _ hc hf.start (fun _ _ => rfl) (fun x => ?_))
      · have := (hx w hw).2
        rw [hc] at this ⊢
        refine ⟨?_, this⟩
        rw [hf.start]; exact of_decide_eq_true this
      · have hz : (setFrame (setWindow d { w with cursor := f.start })
            { f with group := [], overflowed := true }).openGroups = 0 := by
          unfold Device.openGroups
          simp [setFrame, bit]
        refine ⟨Nat.le_trans (Nat.le_add_right _ _) x.1, ?_, .inl rfl, x.2.2.2.1, (fun v hv => by cases hv),
          x.2.2.2.2.2⟩
        rw [Device.pendingGroups, hz]
        exact Nat.le_trans (Nat.le_add_right _ _) x.2.1
  · have k : Keeps d (setFrame (setWindow d w.advance) { f with written := f.written + 1 }) :=
      (keeps_advance d w hw).trans (OpenFrame.Follows.keeps (f := f0) ⟨hf.1, hf.2, hf.3, hf.4, hf.5⟩ hc)
    exact k.trans (keeps_writeNow _ c)

theorem keeps_frameWord (d : Device) (f : OpenFrame) (v : Word) (hc : d.command = .receiving f) :
    Keeps d (frameWord d f v) := by
  have same : ∀ f', f.Follows f' → Keeps d (setFrame d f') := fun f' h => h.keeps hc
  unfold frameWord
  simp only
  split
  · exact same _ ⟨rfl, rfl, rfl, rfl, rfl⟩
  · next hn =>
    split
    · exact same _ ⟨rfl, rfl, rfl, rfl, rfl⟩
    · next w hw =>
      split
      · exact same _ ⟨rfl, rfl, rfl, rfl, rfl⟩
      · next he =>
        split
        · exact (keeps_advance d w hw).trans (OpenFrame.Follows.keeps (f := f) ⟨rfl, rfl, rfl, rfl, rfl⟩ hc)
        · next hro =>
          refine keeps_writeWord d f _ _ _ hc hw ⟨rfl, rfl, rfl, rfl, rfl⟩ ?_ (fun x => ?_)
          · simp only [not_or, ne_eq, Decidable.not_not, Bool.not_eq_true] at hn
            exact ⟨hn.1, hn.2.1, hn.2.2⟩
          · have hk : w.cursor < w.size := by simpa [Window.atEnd] using he
            obtain ⟨h1, h2⟩ := w.place_inTable _ (x.2.2.2.2.2 w hw) hk
            exact ⟨h1, h2, by simpa using hro⟩

theorem keeps_openFrameWord (d : Device) (v : Word) : Keeps d (openFrameWord d v) := by
  unfold openFrameWord
  split
  · next f hc => exact keeps_frameWord d f v hc
  all_goals exact Keeps.refl d

/-- A frame newly open at an open-ended delimiter holds no group. -/
theorem safe_newFrame (d : Device) (f : OpenFrame) (hd : d.feed.delim.endless = true) (hg : f.group = [])
    (hs : d.cursorHeld → ∀ w ∈ d.window.selection, w.holds f.start)
    (hr : f.kind ≠ .nop → f.refusal = none → d.active = true → d.window.groups.length < Config.pendingGroups) :
    Safe d (setFrame d f) := by
  refine ⟨⟨id, id, id, fun m => ⟨fun _ => hd, fun ha => ?_, m.2.2⟩, id, id,
    fun _ hx w hw => ⟨(hx w hw).1, decide_eq_true (hs hx w hw)⟩,
    fun _ x => ⟨?_, ?_, .inl hg, x.2.2.2.1, ?_, x.2.2.2.2.2⟩⟩, rfl⟩
  · obtain ⟨h1, h2, h3, h4, _⟩ := m.2.1 ha
    exact ⟨h1, h2, h3, h4, hg⟩
  · show d.window.groups.flatten.length + f.group.length ≤ _
    rw [hg]
    exact Nat.le_trans (Nat.le_add_right _ _) x.1
  · have hx := x.2.1
    show d.window.groups.length + (setFrame d f).openGroups ≤ _
    have ha : (setFrame d f).active = d.active := rfl
    unfold Device.openGroups
    rw [ha]
    simp only [Device.pendingGroups] at hx
    simp only [setFrame]
    by_cases h : f.kind ≠ .nop ∧ f.refusal = none ∧ d.active = true
    · have := hr h.1 h.2.1 h.2.2
      have := bit_le (decide (f.kind ≠ .nop) && f.refusal.isNone && !f.overflowed && d.active)
      omega
    · have : (decide (f.kind ≠ .nop) && f.refusal.isNone && !f.overflowed && d.active) = false := by
        rw [← Bool.not_eq_true]
        intro hh
        simp only [Bool.and_eq_true, decide_eq_true_eq, Option.isNone_iff_eq_none] at hh
        exact h ⟨hh.1.1.1, hh.1.1.2, hh.2⟩
      rw [this]
      simp only [bit, Bool.false_eq_true, if_false]; omega
  · intro w hw
    have : w ∈ f.group := hw
    rw [hg] at this; cases this

theorem safe_openFrame (d : Device) (kind : CommandKind) (tag : BitVec 8) (hd : d.feed.delim.endless = true) :
    Safe d (openFrame d kind tag) := by
  have h0 : ∀ f : OpenFrame, f.group = [] → f.start = 0 → (f.kind = .nop ∨ f.refusal ≠ none) → Safe d (setFrame d f) :=
    fun f hg h hr => safe_newFrame d f hd hg (fun _ w _ => by rw [h]; exact .inl w.size_pos)
      (fun h1 h2 => by rcases hr with h | h; exact absurd h h1; exact absurd h2 h)
  unfold openFrame
  split
  · next h => exact h0 _ rfl rfl (.inl h)
  · simp only
    split
    · next w hwr hw =>
      have room : d.active = true → d.window.groups.length < Config.pendingGroups := by
        intro ha
        unfold Device.writeRefusal at hwr
        rw [hw] at hwr
        simp only at hwr
        repeat' split at hwr
        all_goals first | (cases hwr; done) | (next h => exact Nat.lt_of_not_le (fun hx => h ⟨ha, hx⟩))
      split
      · exact (Moves.safe (keeps_moveCursor d w 0 hw (fun _ => .inl w.size_pos))).trans
          (safe_newFrame _ _ hd rfl (fun hx v hv => (hx v hv).1 |> fun h => by cases hv; exact h)
            (fun _ _ ha => room ha))
      · exact (Moves.safe (keeps_moveCursor d w w.cursor hw id)).trans
          (safe_newFrame _ _ hd rfl (fun hx v hv => (hx v hv).1 |> fun h => by cases hv; exact h)
            (fun _ _ ha => room ha))
    · next hx =>
      refine h0 _ rfl rfl (.inr (fun h => ?_))
      have h : d.writeRefusal = none := h
      cases hs : d.window.selection with
      | none => unfold Device.writeRefusal at h; rw [hs] at h; cases h
      | some w => exact hx w h hs

/-- R186: the open group becomes a complete group, and the frame is answered. -/
theorem safe_closeAnswer (d : Device) (x : Delimiter) (f : OpenFrame) (a : Answer) (hc : d.command = .receiving f) :
    Safe d (respond (setDelim (closeGroup d f) x) f.kind f.tag a) := by
  have hog : d.openGroup = f.group := by unfold Device.openGroup; rw [hc]
  have s : Safe d { setDelim (closeGroup d f) x with
      command := .waiting (linkFrame (responseWords f.kind f.tag d.feed.excess a)) false
      feed := { (setDelim d x).feed with excess := 0 } } := by
    refine ⟨⟨(fun h => by simpa using h), id, id, fun m => ⟨(fun h => by cases h), (fun h => ?_), m.2.2⟩, id, id,
      fun _ hx w hw => ⟨(hx w hw).1, rfl⟩, fun _ y => ⟨?_, ?_, .inl rfl, ?_, (fun w h => by cases h),
        y.2.2.2.2.2⟩⟩, rfl⟩
    · obtain ⟨h1, h2, h3, h4, h5⟩ := m.2.1 h
      refine ⟨h1, h2, h3, ?_, rfl⟩
      have h5' : f.group = [] := hog.symm.trans h5
      simp [closeGroup, setDelim, h5', h4]
    · have h1 := y.1
      rw [Device.pendingCells, hog] at h1
      show (if f.group.isEmpty then d.window.groups else d.window.groups ++ [f.group]).flatten.length + 0 ≤ _
      split
      · omega
      · simp only [List.flatten_append, List.flatten_cons, List.flatten_nil, List.append_nil, List.length_append]
        omega
    · have h1 := y.2.1
      rw [Device.pendingGroups] at h1
      show (if f.group.isEmpty then d.window.groups else d.window.groups ++ [f.group]).length + 0 ≤ _
      split
      · omega
      · next he =>
        rcases y.2.2.1 with h | h
        · rw [hog] at h; rw [h] at he; exact absurd rfl he
        · simp only [List.length_append, List.length_cons, List.length_nil]; omega
    · intro g hg
      have hg : g ∈ (if f.group.isEmpty then d.window.groups else d.window.groups ++ [f.group]) := hg
      split at hg
      · exact y.2.2.2.1 g hg
      · rcases List.mem_append.mp hg with h | h
        · exact y.2.2.2.1 g h
        · rw [List.mem_singleton.mp h]; exact fun w hw => y.2.2.2.2.1 w (by rw [hog]; exact hw)
  exact s.trans (Moves.safe (keeps_arbiter _))

theorem safe_endOpen (d : Device) : Safe d (endOpen d) := by
  unfold endOpen
  split
  · next h => exact (safe_setDelim d _ (by rw [h]; rfl)).trans (Moves.safe (keeps_linkError _ _))
  · next kind q h =>
    unfold closeFrame
    split
    · next hc =>
      have hc' : d.command = .free := hc
      exact ⟨⟨id, id, id, fun m => ⟨fun hr => (by rw [setDelim, hc'] at hr; cases hr), m.2.1, m.2.2⟩, id, id,
        fun _ => id, fun _ => id⟩, rfl⟩
    · next hc =>
      have hc' : d.command = .waiting _ _ := hc
      exact ⟨⟨id, id, id, fun m => ⟨fun hr => (by rw [setDelim, hc'] at hr; cases hr), m.2.1, m.2.2⟩, id, id,
        fun _ => id, fun _ => id⟩, rfl⟩
    · next f hc =>
      have s := safe_closeAnswer d (.complete kind q) f (frameAnswer f) hc
      simp only
      split
      · exact s
      · exact s.trans (Moves.safe (keeps_applyPoint _))
  all_goals exact Safe.refl d

theorem placePage_command (d : Device) : (placePage d).command = d.command := by
  unfold placePage; split
  · rfl
  · split <;> rfl

theorem takeDeferred_command (d : Device) : (takeDeferred d).command = d.command := by
  unfold takeDeferred; split <;> rfl

theorem settlePage_command (d : Device) : (settlePage d).command = d.command := by
  rw [settlePage, placePage_command, takeDeferred_command, placePage_command]

/-- R177: a response leaves the Command Unit FREE or WAITING. -/
theorem respond_receives (d : Device) (kind : CommandKind) (tag : BitVec 8) (a : Answer) :
    (respond d kind tag a).command.receives = false := by
  rw [respond, arbiter, settlePage_command, buildResponse, placeResponse]
  simp only
  split
  · rfl
  · split <;> rfl

/-- R167, R169: once what a head word ends is ended, the Command Unit receives nothing. -/
theorem endOpen_receives (d : Device) (h : d.linked) : (endOpen d).command.receives = false := by
  have key : d.feed.delim.endless = false → d.command.receives = false := by
    intro he
    cases hc : d.command.receives with
    | false => rfl
    | true => have := h hc; rw [he] at this; cases this
  unfold endOpen
  split
  · next hd => exact key (by rw [hd]; rfl)
  · unfold closeFrame
    split
    · next hc => rw [hc]; rfl
    · next hc => rw [hc]; rfl
    · simp only
      split
      · exact respond_receives _ _ _ _
      · rw [applyPoint_command]; exact respond_receives _ _ _ _
  all_goals next hd => exact key (by rw [hd]; rfl)

/-! ## Words of the Feed Link -/

/-- The Feed Input FIFO and the words presented may change within R164's bounds. -/
theorem safe_feed (d : Device) (x : FeedLink) (hd : x.delim = d.feed.delim)
    (hb : d.bounded → x.fifo.length ≤ Config.fifoWords ∧ (x.presented ≠ [] → x.fifo.length = Config.fifoWords)) :
    Safe d { d with feed := x } := by
  refine ⟨⟨id, id, fun h => ⟨h.1, h.2.1, h.2.2.1, hb h⟩, fun m => ⟨fun hr => ?_, m.2.1, m.2.2⟩, id, id,
    fun _ => id, fun _ => id⟩, rfl⟩
  show x.delim.endless = true
  rw [hd]; exact m.1 hr

theorem safe_feedLinkWord (w : LinkWord) (d : Device) : Safe d (feedLinkWord w d) := by
  unfold feedLinkWord
  split
  · exact Safe.refl d
  · split
    · next h =>
      refine safe_feed d _ rfl (fun _ => ⟨?_, fun hx => absurd h.1 hx⟩)
      simp only [List.length_append, List.length_cons, List.length_nil]
      omega
    · next h =>
      refine safe_feed d _ rfl (fun hb => ⟨hb.2.2.2.1, fun _ => ?_⟩)
      by_cases hp : d.feed.presented = []
      · have : ¬ d.feed.fifo.length < Config.fifoWords := fun hx => h ⟨hp, hx⟩
        have := hb.2.2.2.1
        show d.feed.fifo.length = _
        omega
      · exact hb.2.2.2.2 hp

theorem safe_queueFrame (ws : List LinkWord) (d : Device) : Safe d (queueFrame ws d) :=
  Safe.foldl (fun d w => feedLinkWord w d) (fun x w => safe_feedLinkWord w x) ws d

/-! ## Whole frames -/

theorem safe_takeFrame (kind : FrameKind) (q : BitVec 8) (body : List Word) (f : Device → Device) (d : Device)
    (hf : ∀ x, x.feed.delim = .complete kind q → Safe x (f x)) : Safe d (takeFrame kind q body f d) := by
  unfold takeFrame
  split
  · exact Safe.refl d
  · split
    · simp only
      split
      · exact (safe_endOpen d).trans (safe_queueFrame _ _)
      · have s := (safe_endOpen d).discard (endOpen_receives d)
        exact (s.trans (safe_setDelim _ (.complete kind q) rfl)).trans (hf _ rfl)
    · exact safe_queueFrame _ d

theorem safe_deliver (kind : CommandKind) (tag : BitVec 8) (body : List Word) (d : Device) :
    Safe d (deliver kind tag body d) :=
  safe_takeFrame _ _ _ _ d (fun x hx =>
    safe_execute kind tag _ x (safe_runCommand kind body x (by rw [hx]; rfl)))

theorem safe_runOpenFrame (kind : CommandKind) (tag : BitVec 8) (words : List Word) (d : Device) :
    Safe d (runOpenFrame kind tag words d) :=
  (((safe_openDelim d _ _).trans (safe_openFrame _ kind tag rfl)).trans
    (Safe.foldl openFrameWord (fun x v => Moves.safe (keeps_openFrameWord x v)) words _)).trans (safe_endOpen _)

theorem safe_deliverOpen (kind : CommandKind) (tag : BitVec 8) (words : List Word) (d : Device) :
    Safe d (deliverOpen kind tag words d) :=
  safe_takeFrame _ _ _ _ d (fun x _ => safe_runOpenFrame kind tag words x)

theorem safe_deliverPart (p : ScanPart) (d : Device) : Safe d (deliverPart p d) := by
  unfold deliverPart
  refine safe_takeFrame _ _ _ _ d (fun x hx => ?_)
  split
  · exact (safe_setDelim x _ (by rw [hx]; rfl)).trans (Moves.safe (keeps_linkError _ _))
  · exact Moves.safe (keeps_takePart p x)

/-! ## Words leaving the FIFO -/

theorem safe_popWord (d : Device) (h : d.feed.fifo ≠ []) : Safe d (popWord d) := by
  have hl : d.feed.fifo.length = d.feed.fifo.tail.length + 1 := by
    cases hf : d.feed.fifo with
    | nil => exact absurd hf h
    | cons a l => rfl
  unfold popWord
  simp only
  split
  · next hp =>
    have hp' : d.feed.presented = [] := hp
    refine safe_feed d _ rfl (fun hb => ⟨?_, fun hx => absurd hp' hx⟩)
    have := hb.2.2.2.1
    show d.feed.fifo.tail.length ≤ _
    omega
  · next w rest hp =>
    have hp' : d.feed.presented = w :: rest := hp
    refine safe_feed d _ rfl (fun hb => ?_)
    have := hb.2.2.2.2 (by rw [hp']; simp)
    simp only [List.length_append, List.length_cons, List.length_nil]
    exact ⟨by omega, fun _ => by omega⟩

theorem popWord_delim (d : Device) : (popWord d).feed.delim = d.feed.delim := by
  unfold popWord acceptWord; simp only; split <;> rfl

theorem popWord_command (d : Device) : (popWord d).command = d.command := by
  unfold popWord acceptWord; simp only; split <;> rfl

theorem keeps_countExcess (d : Device) (kind : FrameKind) : Safe d (countExcess d kind) := by
  cases kind with
  | scan side => exact Safe.refl d
  | command c => exact safe_feed d _ rfl (fun hb => hb.2.2.2)

theorem safe_handOn (p : Bool) (d : Device) (kind : FrameKind) (q : BitVec 8) (body : List Word)
    (h : d.feed.delim.endless = false) : Safe d (handOn p d kind q body) := by
  cases kind with
  | scan side => exact Moves.safe (keeps_takePart _ d)
  | command c =>
    unfold handOn
    simp only
    split
    · exact safe_serveCloseTally q d
    · exact safe_execute c q _ d (safe_runCommand c body d h)

/-- R169, R170: but for a CLOSE TALLY with a SECOND pulse standing next, a command handed on is executed. -/
theorem handOn_execute (p : Bool) (d : Device) (c : CommandKind) (q : BitVec 8) (body : List Word)
    (h : p = false ∨ c ≠ .closeTally) : handOn p d (.command c) q body = execute c q (runCommand c body) d := by
  unfold handOn
  refine if_neg fun hx => ?_
  rcases h with h | h
  · rw [hx.1] at h; cases h
  · exact h hx.2

theorem safe_deliverCloseTally (p : Bool) (tag : BitVec 8) (d : Device) : Safe d (deliverCloseTally p tag d) :=
  safe_takeFrame _ _ _ _ d (fun x hx => safe_handOn p x _ _ _ (by rw [hx]; rfl))

theorem safe_openHead (p : Bool) (d : Device) (w : Word) (h : d.feed.delim.endless = false) :
    Safe d (openHead p d w) := by
  unfold openHead
  simp only
  split
  · exact (safe_setDelim d _ h).trans (Moves.safe (keeps_linkError _ _))
  · split
    · exact (safe_setDelim d _ h).trans (Moves.safe (keeps_linkError _ _))
    · exact safe_setDelim d _ h
  · split
    · exact (safe_setDelim d _ h).trans (safe_openFrame _ _ _ rfl)
    · exact (safe_setDelim d _ h).trans (safe_handOn _ _ _ _ _ rfl)
    · exact safe_setDelim d _ h

theorem safe_takeBody (p : Bool) (d : Device) (v : Word) : Safe d (takeBody p d v) := by
  unfold takeBody
  split
  · next h => exact (safe_setDelim d _ (by rw [h]; rfl)).trans (Moves.safe (keeps_linkError _ _))
  · exact Safe.refl d
  · next h =>
    simp only
    split
    · exact (safe_setDelim d _ (by rw [h]; rfl)).trans (safe_handOn _ _ _ _ _ rfl)
    · exact safe_setDelim d _ (by rw [h]; rfl)
  · next h =>
    exact ((safe_setDelim d _ (by rw [h]; rfl)).trans (keeps_countExcess _ _)).trans (Moves.safe (keeps_linkError _ _))
  · exact keeps_countExcess d _
  · exact Moves.safe (keeps_openFrameWord d v)
  · exact Safe.refl d

/-- R167: what a head word ends leaves no open-ended frame open at the delimiter. -/
theorem placePage_feed (d : Device) : (placePage d).feed = d.feed := by
  unfold placePage; split
  · rfl
  · split <;> rfl

theorem takeDeferred_feed (d : Device) : (takeDeferred d).feed = d.feed := by
  unfold takeDeferred; split <;> rfl

theorem placeResponse_feed (d : Device) : (placeResponse d).feed = d.feed := by
  unfold placeResponse; split
  · rfl
  · rfl
  · split
    · rfl
    · split <;> rfl

theorem arbiter_feed (d : Device) : (arbiter d).feed = d.feed := by
  rw [arbiter, settlePage, placePage_feed, takeDeferred_feed, placePage_feed, placeResponse_feed]

theorem endOpen_delim (d : Device) : (endOpen d).feed.delim.endless = false := by
  unfold endOpen
  split
  · rfl
  · unfold closeFrame
    split
    · rfl
    · rfl
    · simp only
      split
      · rw [respond, arbiter_feed]; rfl
      · rw [applyPoint_feed, respond, arbiter_feed]; rfl
  all_goals next h => rw [h]; rfl

theorem closeFrame_fifo (d : Device) : (closeFrame d).feed.fifo = d.feed.fifo := by
  unfold closeFrame
  split
  · rfl
  · rfl
  · simp only
    split
    · rw [respond, arbiter_feed]; rfl
    · rw [applyPoint_feed, respond, arbiter_feed]; rfl

theorem endOpen_fifo (d : Device) : (endOpen d).feed.fifo = d.feed.fifo := by
  unfold endOpen
  split
  · rfl
  · rw [closeFrame_fifo]; rfl
  all_goals rfl

theorem safe_frameDelimiterTake (p : Bool) (d : Device) : Safe d (frameDelimiterTake p d) := by
  unfold frameDelimiterTake
  split
  · exact Safe.refl d
  · next w rest hf =>
    split
    · exact Safe.refl d
    · split
      · simp only
        split
        · exact safe_endOpen d
        · refine ((safe_endOpen d).trans (safe_popWord _ ?_)).trans (safe_openHead _ _ _ ?_)
          · rw [endOpen_fifo, hf]; simp
          · rw [popWord_delim]; exact endOpen_delim d
      · exact (safe_popWord d (by rw [hf]; simp)).trans (safe_takeBody _ _ _)

/-! ## The resets -/

theorem sound_powerOnReset (d : Device) : Sound d (powerOnReset d) where
  balanced _ := rfl
  canonical _ := rfl
  bounded _ := ⟨Nat.zero_le _, Nat.zero_le _, fun _ h => (by cases h), Nat.zero_le _, fun h => absurd rfl h⟩
  modal _ := ⟨fun h => (by cases h), fun _ => (by and_intros <;> rfl), fun _ => rfl, fun h => by cases h⟩
  legal _ := by show DayClock.legal DayClock.reset; decide
  held _ := ⟨by show (0 : BitVec 12).getLsbD 0 = false; decide, Nat.zero_le _,
    by simp [powerOnReset, Device.reset, Device.bin, StackerUnit.reset, Bin.reset]⟩
  cursor _ _ _ hw := by cases hw
  staging _ _ := staging_of_empty rfl rfl (fun _ hw => by cases hw)

theorem sound_lineReset (d : Device) : Sound d (lineReset d) where
  balanced _ := rfl
  canonical h := storeWf_filter _ _ h
  bounded _ := ⟨Nat.zero_le _, Nat.zero_le _, fun _ h => (by cases h), Nat.zero_le _, fun h => absurd rfl h⟩
  modal _ := ⟨fun h => (by cases h), fun _ => (by and_intros <;> rfl), fun _ => rfl, fun h => by cases h⟩
  legal h := d.clock.legal_adjust none false h (by simp)
  held _ := ⟨by show (0 : BitVec 12).getLsbD 0 = false; decide, Nat.zero_le _,
    by simp [lineReset, Device.reset, Device.bin, StackerUnit.reset, Bin.reset]⟩
  cursor _ _ _ hw := by cases hw
  staging _ _ := staging_of_empty rfl rfl (fun _ hw => by cases hw)

theorem safe_resetRelease (d : Device) : Safe d (resetRelease d) := by
  unfold resetRelease
  split
  · refine ⟨⟨id, id, id, id, id, fun h => ⟨h.1, h.2.1, ?_⟩, fun _ => id, fun _ => id⟩, rfl⟩
    have := h.2.2
    simpa [Device.bin] using this
  · exact Safe.refl d

/-! ## A frame taken by a part that is ready -/

theorem endOpen_settled (d : Device) (h : d.feed.delim.settled = true) : endOpen d = d := by
  unfold endOpen
  split
  · next hd => rw [hd] at h; cases h
  · next hd => rw [hd] at h; cases h
  all_goals rfl

/-- R167, R169: a ready part takes a frame that comes. -/
theorem takeFrame_ready (kind : FrameKind) (q : BitVec 8) (body : List Word) (f : Device → Device) (d : Device)
    (h : d.ready) : takeFrame kind q body f d = f (setDelim d (.complete kind q)) := by
  obtain ⟨⟨h1, h2, h3⟩, h4, h5⟩ := h
  have hw := responseWaiting_free d h2
  unfold takeFrame
  rw [endOpen_settled d h3]
  simp [Device.linkClear, h1, h4, h5, hw]

/-- R170, R171: a ready part answers a fixed command through the arbiter. -/
theorem deliver_responds (kind : CommandKind) (tag : BitVec 8) (body : List Word) (d : Device) (h : d.ready) :
    deliver kind tag body d =
      respond (runCommand kind body (setDelim d (.complete (.command kind) tag))).1 kind tag
        (runCommand kind body (setDelim d (.complete (.command kind) tag))).2 := by
  rw [deliver, takeFrame_ready _ _ _ _ _ h, execute]

/-- R170, R171: a ready part answers a fixed command at once: its effect `e`, which leaves the Command Unit and the
delimiter alone, with the answer's words at the tail of the Report Queue. -/
theorem deliver_answered (kind : CommandKind) (tag : BitVec 8) (body : List Word) (d e : Device)
    (a : Answer) (h : d.ready)
    (hf : runCommand kind body (setDelim d (.complete (.command kind) tag)) =
      (setDelim e (.complete (.command kind) tag), a))
    (hc : e.command = .free) (hp : e.tally.page = none) (hd : e.tally.deferred = none)
    (hr : 5 + a.words.length ≤ e.reportRoom) : deliver kind tag body d = e.answered kind tag a := by
  rw [deliver_responds kind tag body d h, hf]
  exact respond_answered e kind tag a hc hp hd hr

/-- R164: a frame that comes while RESET is asserted is lost. -/
theorem takeFrame_reset (kind : FrameKind) (q : BitVec 8) (body : List Word) (f : Device → Device) (d : Device)
    (h : d.inputs.resetLine = true) : takeFrame kind q body f d = d := by
  unfold takeFrame
  rw [if_pos h]

/-- R169, R178: a frame that comes behind words of the link, or while a response waits, waits in the FIFO. -/
theorem takeFrame_queued (kind : FrameKind) (q : BitVec 8) (body : List Word) (f : Device → Device) (d : Device)
    (h : d.inputs.resetLine = false) (hl : d.linkClear = false) :
    takeFrame kind q body f d = queueFrame (frameWords kind q body) d := by
  unfold takeFrame
  simp [h, hl]

end Sys2Proof.Machine
end

