-- ==== Sys2Proof/Laws/Writes.lean ====
section
/-! SUPPORT. Laws of writing table cells: the value every cell has after them. -/

namespace Sys2Proof.Machine

/-! ## The value of every cell -/

theorem storeGet_cellKey (l : List (Nat × Word)) (k : Nat) (v : Word) (h : storeWf l = true) (t r f : Nat) : storeGet
    (storeSet l k v) (cellKey t r f) = if k = cellKey t r f then v else storeGet l (cellKey t r f) := by
  by_cases he : k = cellKey t r f
  · rw [if_pos he, ← he]; exact storeGet_storeSet l k v h
  · rw [if_neg he]; exact storeGet_storeSet_other l k _ v he h

/-- The one cell changes, every other keeps its value. -/
theorem cell_setCell (d : Device) (h : d.canonical) (t r f : Nat) (v : Word) (t' r' f' : Nat) (hr : r < 512) (hf : f
    < 32) (hr' : r' < 512) (hf' : f' < 32) :
   (d.setCell t r f v).cell t' r' f' = if t' = t ∧ r' = r ∧ f' = f then v else d.cell t' r' f' := by
  show storeGet (storeSet d.tables (cellKey t r f) v) (cellKey t' r' f') = _
  rw [storeGet_cellKey _ _ _ h]
  by_cases he : t' = t ∧ r' = r ∧ f' = f
  · rw [if_pos he, if_pos ((cellKey_inj _ _ _ _ _ _ hr hf hr' hf').2 ⟨he.1.symm, he.2.1.symm, he.2.2.symm⟩)]
  · rw [if_neg he, if_neg]
    · rfl
    · intro h; obtain ⟨a, b, c⟩ := (cellKey_inj _ _ _ _ _ _ hr hf hr' hf').1 h; exact he ⟨a.symm, b.symm, c.symm⟩

/-- R185: a write to an artwork table taken at once. -/
theorem writeNow_artwork (x : Device) (t r f : Nat) (v : Word) (h1 : 8 ≤ t) (h2 : t ≤ 12) :
   writeNow x { table := t, row := r, field := f, value := v } = reportConditions (x.setCell t r f v) := by
  have hro : cellReadOnly t r f = false := by interval_cases t <;> rfl
  unfold writeNow writeCell
  simp only [hro, Bool.false_eq_true, if_false]
  have : ∀ y : Device, afterWrites y [{ table := t, row := r, field := f, value := v }] = reportConditions y := by
    intro y; unfold afterWrites
    have : ([({ table := t, row := r, field := f, value := v } : CellWrite)].any fun w => decide (w.table = 0)) =
        false := by
      simp; omega
    rw [this]; rfl
  rw [this]
  interval_cases t <;> rfl

/-- What the blocks do once writes have been applied changes no cell, no line and no bin. -/
structure SettlesOnly (d d' : Device) : Prop where
  tables : d'.tables = d.tables
  line : d'.line = d.line
  stacker : d'.stacker = d.stacker

theorem SettlesOnly.trans {a b c : Device} (h : SettlesOnly a b) (k : SettlesOnly b c) : SettlesOnly a c :=
    ⟨k.1.trans h.1, k.2.trans h.2, k.3.trans h.3⟩

theorem settlesOnly_gapCheck (d : Device) : SettlesOnly d (gapCheck d) := by
  unfold gapCheck; split
  · split <;> exact ⟨rfl, rfl, rfl⟩
  all_goals exact ⟨rfl, rfl, rfl⟩

theorem settlesOnly_holdSuspect (d : Device) : SettlesOnly d (holdSuspect d) := by
  unfold holdSuspect; split <;> exact ⟨rfl, rfl, rfl⟩

theorem settlesOnly_offerBatch (d : Device) : SettlesOnly d (offerBatch d) := by
  unfold offerBatch; split
  · exact ⟨rfl, rfl, rfl⟩
  · split <;> exact ⟨rfl, rfl, rfl⟩

theorem settlesOnly_afterWrites (d : Device) (ws : List CellWrite) : SettlesOnly d (afterWrites d ws) := by
  unfold afterWrites; simp only; split
  · refine SettlesOnly.trans (b := holdSuspect (gapCheck (offerOnSettings d))) ?_ ⟨rfl, rfl, rfl⟩
    refine SettlesOnly.trans (SettlesOnly.trans ?_ (settlesOnly_gapCheck _)) (settlesOnly_holdSuspect _)
    unfold offerOnSettings; split
    · exact settlesOnly_offerBatch d
    · exact ⟨rfl, rfl, rfl⟩
  · exact ⟨rfl, rfl, rfl⟩

/-- The counts and the switches of the bins are as they were. -/
def SameBins (d d' : Device) : Prop := ∀ k : Fin 16, (d'.bin k).fill = (d.bin k).fill ∧
    (d'.bin k).committed = (d.bin k).committed ∧ (d'.bin k).held = (d.bin k).held

theorem bin_setBin (d : Device) (k j : Fin 16) (b : Bin) : (d.setBin k b).bin j = if j = k then b else d.bin j := by
  unfold Device.bin; rw [Device.setBin_stacker]
  by_cases h : j = k
  · subst h; rw [if_pos rfl]; exact upd_same _ _ _
  · rw [if_neg h]; exact upd_other _ _ _ _ (fun x => h x.symm)

theorem sameBins_settleBin (d : Device) (k : Fin 16) : SameBins d (settleBin d k) := by
  intro j; unfold settleBin; rw [bin_setBin]
  split
  · next h => subst h; unfold Device.resettle; split <;> exact ⟨rfl, rfl, rfl⟩
  · exact ⟨rfl, rfl, rfl⟩

/-- R118: the value a written cell holds: a capacity is clamped, any other is the value itself. -/
def heldBy (d : Device) (t r f : Nat) (v : Word) : Word := if t = 6 ∧
    f = 1 then d.clampCapacity (Fin.ofNat 16 r) v else v

/-- R193: one write: its cell, the line control and the bins' counts. -/
theorem writeCell_spec (d : Device) (w : CellWrite) (h : cellReadOnly w.table w.row w.field = false) :
    (writeCell d w).tables =
    storeSet d.tables (cellKey w.table w.row w.field) (heldBy d w.table w.row w.field w.value) ∧
    (writeCell d w).line = d.line ∧ SameBins d (writeCell d w) := by
  have triv : SameBins d d := fun _ => ⟨rfl, rfl, rfl⟩
  obtain ⟨t, r, f, v⟩ := w
  unfold writeCell heldBy; simp only at h ⊢
  rw [h]; simp only [Bool.false_eq_true, if_false]
  split
  · exact ⟨rfl, rfl, sameBins_settleBin (d.setCell _ _ _ _) _⟩
  · exact ⟨rfl, rfl, sameBins_settleBin (d.setCell _ _ _ _) _⟩
  · next n1 n2 => rw [if_neg (fun h => n2 h.1 h.2)]; exact ⟨rfl, rfl, triv⟩

theorem clampCapacity_of_sameBins (d d' : Device) (h : SameBins d d') (k : Fin 16) (v : Word) :
    d'.clampCapacity k v = d.clampCapacity k v := by
  unfold Device.clampCapacity; rw [(h k).1, (h k).2.1]

theorem rows512 (t r : Nat) (h : r < tableRows t) : r < 512 := by
  unfold tableRows at h; split at h <;> omega

theorem fields32 (t f : Nat) (h : f < tableFields t) : f < 32 := by
  unfold tableFields at h; split at h <;> omega

/-- R193: after writes in order every cell holds the last value written to it, or what it held. -/
theorem foldWrites_cells (ws : List CellWrite) (d : Device) (hc : d.canonical)
  (hw : ∀ w ∈ ws, w.row < tableRows w.table ∧ w.field < tableFields w.table ∧
      cellReadOnly w.table w.row w.field = false) :
  let e := ws.foldl writeCell d
  e.line = d.line ∧ SameBins d e ∧ e.canonical ∧ ∀ t r f, r < 512 → f < 32 →
    e.cell t r f = ws.foldl (fun v w => if w.table = t ∧ w.row = r ∧
        w.field = f then heldBy d t r f w.value else v) (d.cell t r f) := by
  induction ws generalizing d with
  | nil => exact ⟨rfl, fun _ => ⟨rfl, rfl, rfl⟩, hc, fun _ _ _ _ _ => rfl⟩
  | cons w ws ih =>
    obtain ⟨h1, h2, h3⟩ := hw w (List.mem_cons_self ..)
    obtain ⟨k1, k2, k3⟩ := writeCell_spec d w h3
    have hc' : (writeCell d w).canonical := by
      show storeWf (writeCell d w).tables = true
      rw [k1]; exact storeSet_wf _ _ _ hc
    obtain ⟨i1, i2, i3, i4⟩ := ih (writeCell d w) hc' (fun w' h => hw w' (List.mem_cons_of_mem _ h))
    refine ⟨i1.trans k2, fun k => ?_, i3, ?_⟩
    · obtain ⟨later, before⟩ := And.intro (i2 k) (k3 k)
      rwa [before.1, before.2.1, before.2.2] at later
    intro t r f hr hf
    simp only [List.foldl_cons]
    rw [i4 t r f hr hf]
    have hcl : ∀ v, heldBy (writeCell d w) t r f v = heldBy d t r f v := by
      intro v; unfold heldBy; rw [clampCapacity_of_sameBins d _ k3]
    simp only [hcl]
    congr 1
    show storeGet (writeCell d w).tables _ = _
    rw [k1, storeGet_cellKey _ _ _ hc]
    by_cases he : w.table = t ∧ w.row = r ∧ w.field = f
    · obtain ⟨a, b, c⟩ := he; subst a; subst b; subst c
      rw [if_pos rfl, if_pos ⟨rfl, rfl, rfl⟩]
    · rw [if_neg he, if_neg]
      · rfl
      · intro h; exact he ((cellKey_inj _ _ _ _ _ _ (rows512 _ _ h1) (fields32 _ _ h2) hr hf).1 h)

/-! ## The gap (R191) -/

theorem gapCheck_opened (d : Device) (p : Pos) (hp : p = d.track.encoder) (ha : d.active = true) :
  gapCheck (setGap d (.opened p)) = setGap d (if d.gapDistance = 0 then .met else .opened p) := by
  subst hp
  have ha' : (setGap d (.opened d.track.encoder)).active = true := ha
  have hd : (setGap d (.opened d.track.encoder)).gapDistance = d.gapDistance := rfl
  unfold gapCheck
  simp only [setGap_window, ha', hd]
  by_cases h : d.gapDistance = 0
  · simp [h, setGap]
  · simp [h, setGap]

/-- The gap as ENTER RUN leaves it. -/
theorem gapCheck_openGapAtRun (z : Device) (h : z.active = true) : gapCheck (openGapAtRun z) =
    { z with window := { z.window with
            gap := if z.inputs.blocked[(0 : Fin 21)] then .closed
              else if z.num 0 0 7 = 0 then .met
              else .opened z.track.encoder } } := by
  unfold openGapAtRun
  cases hb : z.inputs.blocked[(0 : Fin 21)] with
  | true => rfl
  | false =>
    simp only [Bool.false_eq_true, if_false]
    unfold gapCheck; simp only
    have h1 : ({ z with window := { z.window with gap := .opened z.track.encoder } } : Device).active = true := h
    have h2 : ({ z with window := { z.window with gap := .opened z.track.encoder } } : Device).gapDistance = z.num 0
        0 7 := rfl
    have h3 : (z.track.encoder - z.track.encoder).toNat = 0 := by rw [BitVec.sub_self]; rfl
    by_cases hn : z.num 0 0 7 = 0
    · rw [if_pos hn, if_pos ⟨h1, by rw [h2, hn]; exact Nat.zero_le _⟩]
    · rw [if_neg hn, if_neg]
      rintro ⟨_, h4⟩; rw [h2, h3] at h4; omega

end Sys2Proof.Machine
end

