-- ==== Sys2Proof/Laws/Records.lean ====
section
/-! SUPPORT. Laws of the operations on one record: finding it after a change, its route point, its check, its print, and
the lead edge that finds it. -/

namespace Sys2Proof.Machine

/-! ## Finding a record -/

theorem find_modify_some {d : Device} {n : RecNo} {f : ItemRecord → ItemRecord} {r : ItemRecord}
    (hf : ∀ r, (f r).number = r.number) (h : d.find n = some r) :
    (d.modify n f).find n = some (f r) := by rw [find_modify d n f hf, h]; rfl

theorem find_modify_ne {d : Device} {n m : RecNo} {f : ItemRecord → ItemRecord} (h : m ≠ n)
    (hf : ∀ r, (f r).number = r.number) : (d.modify n f).find m = d.find m := find_modify_other d n m f h hf

theorem find_of_track {d d' : Device} (h : d'.track = d.track) (m : RecNo) : d'.find m = d.find m := by
  unfold Device.find
  rw [h]

theorem find_ne_of_track {d d' : Device} {n m : RecNo} {f : ItemRecord → ItemRecord}
    (ht : d'.track = (d.modify n f).track) (h : m ≠ n) (hf : ∀ r, (f r).number = r.number) :
    d'.find m = d.find m := by rw [find_of_track ht]; exact find_modify_ne h hf

theorem find_some_of_track {d d' : Device} {n : RecNo} {f : ItemRecord → ItemRecord} {r : ItemRecord}
    (ht : d'.track = (d.modify n f).track) (hf : ∀ r, (f r).number = r.number) (h : d.find n = some r) :
    d'.find n = some (f r) := by rw [find_of_track ht]; exact find_modify_some hf h

/-! ## What an operation on one record leaves alone -/

/-- Only records, the imprint, the bins, the counters and the latches may differ. -/
structure OnlyRecords (d d' : Device) : Prop where
  track : d'.track = { d.track with queue := d'.track.queue }
  inputs : d'.inputs = d.inputs
  tables : d'.tables = d.tables
  classifier : d'.classifier = d.classifier
  clock : d'.clock = d.clock
  feed : d'.feed = d.feed
  command : d'.command = d.command
  window : d'.window = d.window
  report : d'.report = d.report
  line : d'.line = d.line
  gates : d'.stacker.gates = d.stacker.gates
  totals : d'.tally.totals = d.tally.totals

theorem OnlyRecords.refl (d : Device) : OnlyRecords d d := by constructor <;> rfl

theorem OnlyRecords.trans {a b c : Device} (h : OnlyRecords a b) (k : OnlyRecords b c) : OnlyRecords a c := by
  constructor
  · rw [k.track, h.track]
  all_goals
    simp only [k.inputs, h.inputs, k.tables, h.tables, k.classifier, h.classifier, k.clock, h.clock, k.feed, h.feed,
      k.command, h.command, k.window, h.window, k.report, h.report, k.line, h.line, k.gates, h.gates, k.totals,
      h.totals]

theorem onlyRecords_modify (d : Device) (n : RecNo) (f : ItemRecord → ItemRecord) :
    OnlyRecords d (d.modify n f) := by constructor <;> rfl

theorem onlyRecords_dropImprint (d : Device) (n : RecNo) : OnlyRecords d (dropImprint d n) ∧
    (dropImprint d n).track = d.track ∧ (dropImprint d n).tally = d.tally ∧
    (dropImprint d n).stacker = d.stacker := by
  unfold dropImprint; simp only; split <;> exact ⟨(by constructor <;> rfl), rfl, rfl, rfl⟩

/-! ## The route point, the check and the print -/

theorem chooseBin_congr (d d' : Device) (h : d'.stacker.bins = d.stacker.bins) (ht : d'.tables = d.tables)
    (p : Fin 16) : d'.chooseBin p = d.chooseBin p := by
  unfold Device.chooseBin Device.takesRoute Device.bin Device.binCapacity Device.binAlternate Device.num Device.cell
  rw [h, ht]

/-- R111, R112: everything the route point does. -/
theorem routePoint_spec (d : Device) (n : RecNo) (r : ItemRecord) (h : d.find n = some r) :
    ∃ r', (routePoint d n).find n = some r' ∧ r' = { r with route := r'.route } ∧
    (r.route.isSome = true → r'.route = r.route) ∧
    (r.route = none → ∀ row, routeRow r = some row → r'.route = d.chooseBin (Fin.ofNat 16 (d.num 5 row 0))) ∧
    (∀ m, m ≠ n → (routePoint d n).find m = d.find m) ∧ OnlyRecords d (routePoint d n) ∧
    (routePoint d n).tally = d.tally ∧ (routePoint d n).imprint = d.imprint ∧
    (∀ c, (routePoint d n).attention.latch c = d.attention.latch c) := by
  have hsame : routePoint d n = d → (∀ row, r.route = none → routeRow r = some row →
      d.chooseBin (Fin.ofNat 16 (d.num 5 row 0)) = none) → ∃ r', (routePoint d n).find n = some r' ∧
      r' = { r with route := r'.route } ∧ (r.route.isSome = true → r'.route = r.route) ∧
    (r.route = none → ∀ row, routeRow r = some row → r'.route = d.chooseBin (Fin.ofNat 16 (d.num 5 row 0))) ∧
    (∀ m, m ≠ n → (routePoint d n).find m = d.find m) ∧ OnlyRecords d (routePoint d n) ∧
        (routePoint d n).tally = d.tally ∧ (routePoint d n).imprint = d.imprint ∧ (∀ c,
        (routePoint d n).attention.latch c = d.attention.latch c) := by
    intro he hx
    rw [he]
    exact ⟨r, h, rfl, fun _ => rfl, fun hr row hrow => by rw [hx row hr hrow]; exact hr, fun _ _ => rfl,
      OnlyRecords.refl d, rfl, rfl, fun _ => rfl⟩
  rcases Option.eq_none_or_eq_some r.route with hr | ⟨t, hr⟩
  · rcases Option.eq_none_or_eq_some (routeRow r) with hrow | ⟨row, hrow⟩
    · exact hsame (by unfold routePoint; simp only [h, hr, hrow]) (fun row hn hx => by rw [hrow] at hx; cases hx)
    · rcases Option.eq_none_or_eq_some (d.chooseBin (Fin.ofNat 16 (d.num 5 row 0))) with hc | ⟨route, hc⟩
      · exact hsame (by unfold routePoint; simp only [h, hr, hrow,
        hc]) (fun row' hn hx => by rw [hrow] at hx; cases hx; exact hc)
      · have he : routePoint d n = reportConditions (fixRoute d n route) := by
          unfold routePoint
          simp only [h, hr, hrow, hc]
        rw [he]
        refine ⟨{ r with route := some route }, ?_, rfl, (fun hx => by rw [hr] at hx; cases hx), fun _ row' hx => ?_,
          ?_, (by constructor <;> rfl), rfl, rfl, (fun c => by cases c <;> rfl)⟩
        · show ((d.setBin route.bin _).modify n (fun r => { r with route := some route })).find n = _
          rw [find_modify _ n (fun r => { r with route := some route }) (fun _ => rfl)]
          have : ∀ b, (d.setBin route.bin b).find n = d.find n := fun _ => rfl
          rw [this, h]; rfl
        · rw [hrow] at hx; cases hx; rw [hc]
        · intro m hm
          show ((d.setBin route.bin _).modify n (fun r => { r with route := some route })).find m = _
          exact find_modify_ne (d := d.setBin route.bin _) hm (fun _ => rfl)
  · exact hsame (by unfold routePoint; simp only [h, hr]) (fun row hn => by rw [hr] at hn; cases hn)

/-- R73 to R76: everything the conclusion of a check does. -/
theorem concludeCheck_spec (d : Device) (n : RecNo) (r : ItemRecord) (q : ItemRecord) (h : d.find n = some q) (hq : q
    = { r with checkEnd := none }) (hn : r.number = n) :
   ∃ r', (concludeCheck d r).find n = some r' ∧ r'.checkEnd = none ∧ r'.openCheck = none ∧ r'.route = r.route ∧
        (r.openCheck = none → r'.faceCheck = r.faceCheck ∧ r'.disposition = r.disposition ∧ r'.cancel = r.cancel ∧
          r'.imprint = r.imprint ∧ r'.printStart = r.printStart) ∧
        (∀ c, r.openCheck = some c → c.assertedSeen = true → r'.faceCheck = some .pass ∧
          r'.disposition = r.disposition ∧ r'.cancel = r.cancel ∧ r'.imprint = r.imprint ∧
          r'.printStart = r.printStart) ∧
        (∀ c, r.openCheck = some c → c.assertedSeen = false → r'.faceCheck = some .fail ∧
          r'.disposition = some .faceFault ∧ r'.cancel = none ∧ r'.printStart = none ∧
          r'.imprint = (match r.imprint with
            | .queued => .none
            | .building => .aborted
            | .built => .aborted
            | other => other)) ∧
    (∀ m, m ≠ n → (concludeCheck d r).find m = d.find m) ∧ OnlyRecords d (concludeCheck d r) ∧
        (concludeCheck d r).tally = d.tally ∧ (concludeCheck d r).stacker = d.stacker := by
  rcases Option.eq_none_or_eq_some r.openCheck with ho | ⟨c, ho⟩
  · have hx : concludeCheck d r = d := by unfold concludeCheck; simp only [ho]
    rw [hx, ho]
    exact ⟨q, h, (by rw [hq]), (by rw [hq]; exact ho), (by rw [hq]),
      fun _ => (by rw [hq]; exact ⟨rfl, rfl, rfl, rfl, rfl⟩), fun c hc => (by cases hc), fun c hc => (by cases hc),
        fun _ _ => rfl, OnlyRecords.refl d, rfl, rfl⟩
  · cases ha : c.assertedSeen
    · have hx : concludeCheck d r = failCheck d r := by unfold concludeCheck; simp only [ho, ha]; simp
      rw [hx, ho]
      have key : (failCheck d r).track = (d.modify n ItemRecord.failCheck).track ∧ OnlyRecords d (failCheck d r) ∧
          (failCheck d r).tally = d.tally ∧ (failCheck d r).stacker = d.stacker := by
        unfold failCheck; simp only [hn]
        split
        · obtain ⟨p1, p2, p3, p4⟩ := onlyRecords_dropImprint (d.modify n ItemRecord.failCheck) n
          exact ⟨p2, (onlyRecords_modify d n _).trans p1, p3, p4⟩
        · exact ⟨rfl, onlyRecords_modify d n _, rfl, rfl⟩
      refine ⟨q.failCheck, ?_, (by rw [hq]; rfl), rfl, (by rw [hq]; rfl), fun hx => (by cases hx),
        fun c' hc h' => (by cases hc; rw [ha] at h'; cases h'), fun c' hc h' => ⟨rfl, rfl, rfl, rfl, ?_⟩, ?_, key.2.1,
          key.2.2.1, key.2.2.2⟩
      · rw [find_of_track key.1]; exact find_modify_some (fun _ => rfl) h
      · rw [hq]; show failedStatus r.imprint = _
        cases r.imprint <;> rfl
      · intro m hm
        rw [find_of_track key.1]; exact find_modify_ne hm (fun _ => rfl)
    · have hx : concludeCheck d r = d.modify n (fun r => { r with faceCheck := some .pass, openCheck := none }) := by
        unfold concludeCheck
        simp only [ho, ha, hn]
        simp
      rw [hx, ho]
      refine ⟨{ q with faceCheck := some .pass, openCheck := none }, ?_, (by rw [hq]), rfl, (by rw [hq]),
        fun hx => (by cases hx), fun c' hc h' => (by rw [hq]; exact ⟨rfl, rfl, rfl, rfl, rfl⟩),
          fun c' hc h' => (by cases hc; rw [ha] at h'; cases h'), ?_, onlyRecords_modify d n _, rfl, rfl⟩
      · exact find_modify_some (fun _ => rfl) h
      · intro m hm
        exact find_modify_ne hm (fun _ => rfl)

/-- R96: a print in progress gives way to the next. -/
theorem preemptPrint_spec (d : Device) (n : RecNo) (r : ItemRecord) (h : d.find n = some r) :
   ∃ i, (preemptPrint d).find n = some { r with imprint := i } ∧ OnlyRecords d (preemptPrint d) ∧
       (preemptPrint d).imprint.printing = none ∧
    (preemptPrint d).imprint.printFault = d.imprint.printFault ∧ (preemptPrint d).attention = d.attention ∧
    (preemptPrint d).tally.counters[(49 : Fin 56)] = d.tally.counters[(49 : Fin 56)] ∧
    (preemptPrint d).tally.counters[(50 : Fin 56)] = d.tally.counters[(50 : Fin 56)] ∧
    (∀ p q, d.imprint.printing = some p → p.number ≠ n → d.find p.number = some q →
          (preemptPrint d).find p.number = some { q with imprint := .printed } ∧
          (preemptPrint d).tally.counters[(48 : Fin 56)] = d.tally.counters[(48 : Fin 56)] + 1) := by
  cases hp : d.imprint.printing with
  | none =>
    have : preemptPrint d = d := by unfold preemptPrint; rw [hp]
    rw [this]
    exact ⟨r.imprint, h, OnlyRecords.refl d, hp, rfl, rfl, rfl, rfl, fun p q hq => by cases hq⟩
  | some p =>
    have : preemptPrint d = endPrinted d p.number := by unfold preemptPrint; rw [hp]
    rw [this]
    have hP : OnlyRecords d (endPrinted d p.number) := by constructor <;> rfl
    have ht : (endPrinted d p.number).track = (d.modify p.number (fun r => { r with imprint := .printed })).track :=
        rfl
    have hcs : (endPrinted d p.number).tally.counters = upd d.tally.counters 48 (d.tally.counters[(48 : Fin 56)] + 1)
        := rfl
    by_cases e : p.number = n
    · refine ⟨.printed, ?_, hP, rfl, rfl, rfl, by rw [hcs, upd_other _ _ _ _ (by decide)],
      by rw [hcs, upd_other _ _ _ _ (by decide)], fun p' q hq hn => by cases hq; exact absurd e hn⟩
      rw [← e] at h ⊢
      exact find_some_of_track ht (fun _ => rfl) h
    · refine ⟨r.imprint, ?_, hP, rfl, rfl, rfl, by rw [hcs, upd_other _ _ _ _ (by decide)], by rw [hcs,
        upd_other _ _ _ _ (by decide)], fun p' q hq hn hf => ?_⟩
      · exact (find_ne_of_track ht (Ne.symm e) (fun _ => rfl)).trans h
      · cases hq
        exact ⟨find_some_of_track ht (fun _ => rfl) hf, by rw [hcs, upd_same]⟩

/-- R94, R97: everything the print decision does. -/
theorem printDecision_spec (d : Device) (n : RecNo) (r : ItemRecord) (p : Pos) (i : ImprintStatus) (h : d.find n =
    some r) (hpr : d.imprint.printing = none) :
   let c := printDecision d n p i
   ∃ r', c.find n = some r' ∧ OnlyRecords d c ∧ r'.printStart = r.printStart ∧ r'.number = r.number ∧
    (i = .built → d.inputs.printReady = true → r'.imprint = .printing ∧ r'.disposition = r.disposition ∧
        r'.cancel = r.cancel ∧ c.imprint.printing = some { number := n, start := p, column := 0 } ∧
        c.imprint.printFault = d.imprint.printFault) ∧
    (i = .built → d.inputs.printReady = false → r'.imprint = .aborted ∧ r'.disposition = some .uncancelled ∧
        r'.cancel = none ∧ c.imprint.printing = none ∧ c.imprint.printFault = true ∧
        c.tally.counters[(49 : Fin 56)] = d.tally.counters[(49 : Fin 56)] + 1) ∧
    (i = .building ∨ i = .queued → r'.imprint = .underrun ∧ r'.disposition = some .uncancelled ∧ r'.cancel = none ∧
        c.imprint.printing = none ∧ c.attention.underrun = some (latchOn d.attention.underrun (.underrun n (decide (i
        = .building)))) ∧ c.tally.counters[(50 : Fin 56)] = d.tally.counters[(50 : Fin 56)] + 1) ∧
    (i = .building → c.imprint.builder ≠ some n ∧ ∀ h ∈ c.imprint.ring, h.number ≠ n) ∧
    (∀ m, m ≠ n → c.find m = d.find m) ∧ c.tally.counters[(48 : Fin 56)] = d.tally.counters[(48 : Fin 56)] := by
  intro c
  have hx : c = printDecision d n p i := rfl
  unfold printDecision at hx
  have triv : c = d → i ≠ .built → i ≠ .building → i ≠ .queued → ∃ r', c.find n = some r' ∧ OnlyRecords d c ∧
      r'.printStart = r.printStart ∧ r'.number = r.number ∧
    (i = .built → d.inputs.printReady = true → r'.imprint = .printing ∧ r'.disposition = r.disposition ∧
        r'.cancel = r.cancel ∧ c.imprint.printing = some { number := n, start := p, column := 0 } ∧
        c.imprint.printFault = d.imprint.printFault) ∧
    (i = .built → d.inputs.printReady = false → r'.imprint = .aborted ∧ r'.disposition = some .uncancelled ∧
        r'.cancel = none ∧ c.imprint.printing = none ∧ c.imprint.printFault = true ∧
        c.tally.counters[(49 : Fin 56)] = d.tally.counters[(49 : Fin 56)] + 1) ∧
    (i = .building ∨ i = .queued → r'.imprint = .underrun ∧ r'.disposition = some .uncancelled ∧ r'.cancel = none ∧
        c.imprint.printing = none ∧ c.attention.underrun = some (latchOn d.attention.underrun (.underrun n (decide (i
        = .building)))) ∧ c.tally.counters[(50 : Fin 56)] = d.tally.counters[(50 : Fin 56)] + 1) ∧
    (i = .building → c.imprint.builder ≠ some n ∧ ∀ h ∈ c.imprint.ring, h.number ≠ n) ∧
    (∀ m, m ≠ n → c.find m = d.find m) ∧ c.tally.counters[(48 : Fin 56)] = d.tally.counters[(48 : Fin 56)] := by
    intro hc h1 h2 h3; rw [hc]
    exact ⟨r, h, OnlyRecords.refl d, rfl, rfl, fun e => absurd e h1, fun e => absurd e h1,
        fun e => (e.elim (absurd · h2) (absurd · h3)), fun e => absurd e h2, fun _ _ => rfl, rfl⟩
  cases i with
  | built =>
    simp only at hx
    cases hr : d.inputs.printReady with
    | true =>
      rw [hr, if_pos rfl] at hx
      have ht : c.track = (d.modify n (fun r => { r with imprint := .printing })).track := by rw [hx]; rfl
      refine ⟨_, find_some_of_track ht (fun _ => rfl) h, ?_, rfl, rfl, fun _ _ => ⟨rfl, rfl, rfl, ?_, ?_⟩,
          fun _ e => (by cases e), fun e => (by rcases e with e | e <;> cases e), fun e =>
          (by cases e), fun m hm => find_ne_of_track ht hm (fun _ => rfl), ?_⟩ <;> rw [hx]
      · constructor <;> rfl
      · rfl
      · rfl
      · rfl
    | false =>
      rw [hr] at hx; simp only [Bool.false_eq_true, if_false] at hx
      have ht : c.track = (d.modify n (fun r => r.uncancel .aborted)).track := by rw [hx]; rfl
      have hcs : c.tally.counters = upd d.tally.counters 49 (d.tally.counters[(49 : Fin 56)] + 1) := by rw [hx]; rfl
      refine ⟨_, find_some_of_track ht (fun _ => rfl) h, ?_, rfl, rfl, fun _ e => (by cases e), fun _ _ => ⟨rfl, rfl,
          rfl, ?_, ?_, ?_⟩, fun e => (by rcases e with e | e <;> cases e), fun e =>
          (by cases e), fun m hm => find_ne_of_track ht hm (fun _ => rfl), ?_⟩
      · rw [hx]; constructor <;> rfl
      · rw [hx]; exact hpr
      · rw [hx]; rfl
      · rw [hcs, upd_same]
      · rw [hcs, upd_other _ _ _ _ (by decide)]
  | building =>
    simp only at hx
    obtain ⟨D, hD⟩ : ∃ D, D = d.modify n (fun r => r.uncancel .underrun) := ⟨_, rfl⟩
    rw [← hD] at hx
    obtain ⟨p1, p2, p3, p4⟩ := onlyRecords_dropImprint D n
    have pa : (dropImprint D n).attention = d.attention := by unfold dropImprint; simp only; rw [hD]; split <;> rfl
    have pb : (dropImprint D n).imprint.builder ≠ some n ∧ (dropImprint D n).imprint.printing = D.imprint.printing ∧
        (dropImprint D n).imprint.ring = D.imprint.ring.filter (fun h => decide (h.number ≠ n)) := by
      unfold dropImprint; simp only; split
      · exact ⟨by simp [freeBuilder], rfl, rfl⟩
      · exact ⟨by assumption, rfl, rfl⟩
    obtain ⟨E, hE⟩ : ∃ E, E = dropImprint D n := ⟨_, rfl⟩
    rw [← hE] at hx p1 p2 p3 p4 pa pb
    have q : OnlyRecords E c := by rw [hx]; constructor <;> rfl
    have ht : c.track = (d.modify n (fun r => r.uncancel .underrun)).track := by rw [← hD, ← p2, hx]; rfl
    have hcs : c.tally.counters = upd d.tally.counters 50 (d.tally.counters[(50 : Fin 56)] + 1) := by
      have : c.tally.counters = upd E.tally.counters 50 (E.tally.counters[(50 : Fin 56)] + 1) := by rw [hx]; rfl
      rw [this, p3, hD]; rfl
    have hci : c.imprint = E.imprint := by rw [hx]; rfl
    refine ⟨_, find_some_of_track ht (fun _ => rfl) h, ?_, rfl, rfl, fun e => (by cases e), fun e => (by cases e),
        fun e => ⟨rfl, rfl, rfl, ?_, ?_, ?_⟩, fun e => ⟨?_, ?_⟩, fun m hm => find_ne_of_track ht hm (fun _ => rfl), ?_⟩
    · exact ((by rw [hD]; exact onlyRecords_modify d n _ : OnlyRecords d D).trans p1).trans q
    · rw [hci, pb.2.1, hD]; exact hpr
    · have : c.attention.underrun = some (latchOn E.attention.underrun (.underrun n true)) := by rw [hx]; rfl
      rw [this, pa]; rfl
    · rw [hcs, upd_same]
    · rw [hci]; exact pb.1
    · rw [hci, pb.2.2]; intro h hh; simpa using (List.mem_filter.1 hh).2
    · rw [hcs, upd_other _ _ _ _ (by decide)]
  | queued =>
    simp only at hx
    have ht : c.track = (d.modify n (fun r => r.uncancel .underrun)).track := by rw [hx]; rfl
    have hcs : c.tally.counters = upd d.tally.counters 50 (d.tally.counters[(50 : Fin 56)] + 1) := by rw [hx]; rfl
    refine ⟨_, find_some_of_track ht (fun _ => rfl) h, ?_, rfl, rfl, fun e => (by cases e), fun e => (by cases e),
        fun e => ⟨rfl, rfl, rfl, ?_, ?_, ?_⟩, fun e => (by cases e), fun m hm => find_ne_of_track ht hm
        (fun _ => rfl), ?_⟩
    · rw [hx]; constructor <;> rfl
    · rw [hx]; exact hpr
    · rw [hx]; rfl
    · rw [hcs, upd_same]
    · rw [hcs, upd_other _ _ _ _ (by decide)]
  | _ => exact triv hx nofun nofun nofun

theorem heldColumns_releaseColumn (d : Device) (n : RecNo) :
    (releaseColumn d n).heldColumns n = (d.heldColumns n).tail := by
  unfold releaseColumn Device.heldColumns
  simp only
  induction d.imprint.ring with
  | nil => rfl
  | cons h rest ih =>
    by_cases e : h.number = n
    · simp [e]
    · simp only [List.map_cons, List.find?_cons, e, decide_false, if_false]; exact ih

theorem heldColumns_releaseRing (d : Device) (n : RecNo) : (releaseRing d n).heldColumns n = [] := by
  unfold releaseRing Device.heldColumns
  simp only
  have : (List.filter (fun h => decide (h.number ≠ n)) d.imprint.ring).find? (fun h => decide (h.number = n)) = none
      := by
    simp [List.find?_eq_none]
  rw [this]

/-- R89: another imprint keeps its columns where one releases its first. -/
theorem heldColumns_releaseColumn_other (d : Device) (n m : RecNo) (hm : m ≠ n) :
    (releaseColumn d n).heldColumns m = d.heldColumns m := by
  unfold releaseColumn Device.heldColumns
  simp only
  induction d.imprint.ring with
  | nil => rfl
  | cons h rest ih =>
    by_cases e : h.number = n
    · have hne : h.number ≠ m := fun x => hm (x.symm.trans e)
      rw [List.map_cons, if_pos e, List.find?_cons_of_neg (by simpa using hne),
        List.find?_cons_of_neg (by simpa using hne)]
      exact ih
    · rw [List.map_cons, if_neg e]
      by_cases k : h.number = m
      · rw [List.find?_cons_of_pos (by simpa using k), List.find?_cons_of_pos (by simpa using k)]
      · rw [List.find?_cons_of_neg (by simpa using k), List.find?_cons_of_neg (by simpa using k)]
        exact ih

/-- R89: another imprint keeps its columns where one releases all of its own. -/
theorem heldColumns_releaseRing_other (d : Device) (n m : RecNo) (hm : m ≠ n) :
    (releaseRing d n).heldColumns m = d.heldColumns m := by
  unfold releaseRing Device.heldColumns
  simp only
  rw [List.find?_filter]
  congr 2
  funext h
  by_cases k : h.number = m <;> simp [k, hm]

/-! ## Station edges -/

/-- R150: a step that takes no last record out of the queue tests no drain completion. -/
theorem afterRemovals_same (b a : Device) (h : a.track.queue.isEmpty = b.track.queue.isEmpty) :
    afterRemovals b a = applyIfFreed b a := by
  unfold afterRemovals; rw [h]; cases b.track.queue.isEmpty <;> simp

/-- R15: a lead edge that is matched. -/
theorem stationLeadEdge_matching (d : Device) (st : Station) (h : d.matching st) :
   stationLeadEdge st d = afterRemovals (d.cellLevel (stationRow st) true) (matchEdge (d.track.queue.length + 1)
       (startJam (d.cellLevel (stationRow st) true) (stationRow st)) st) := by
  unfold stationLeadEdge; simp only
  rw [if_pos]; · rfl
  exact h

/-- R15: the lead edge at which a record is SEEN. -/
theorem stationLeadEdge_sees (d : Device) (st : Station) (r : ItemRecord) (h : d.sees st r) :
   stationLeadEdge st d = afterRemovals (d.cellLevel (stationRow st) true) (seeRecord (startJam (d.cellLevel
       (stationRow st) true) (stationRow st)) st r) := by
  obtain ⟨hm, hf, h1, h2⟩ := h
  rw [stationLeadEdge_matching d st hm]
  have : matchEdge (d.track.queue.length + 1) (startJam (d.cellLevel (stationRow st) true) (stationRow st)) st =
       seeRecord (startJam (d.cellLevel (stationRow st) true) (stationRow st)) st r := by
      unfold matchEdge
      have hf' : (startJam (d.cellLevel (stationRow st) true) (stationRow st)).firstDue st = d.firstDue st := rfl
      rw [hf', hf]
      simp only
      rw [if_neg, if_pos]
      · exact h2
      · intro hx
        have : atOrAfter d.track.encoder (d.expected r st - counts (d.halfWidth (stationRow st).val)) = false := hx
        rw [h1] at this; cases this
  rw [this]

theorem endOfCheckSpan_isEmpty (n : RecNo) (d : Device) :
    (endOfCheckSpan n d).track.queue.isEmpty = d.track.queue.isEmpty := by
  have hr : ∀ x : Device, (routePoint x n).track.queue.length = x.track.queue.length := by
    intro x; unfold routePoint; split
    · rfl
    · split
      · split
        · simp [fixRoute, Device.modify, Device.setBin]
        · rfl
      all_goals rfl
  have hc : ∀ (x : Device) r, (concludeCheck x r).track.queue.length = x.track.queue.length := by
    intro x r; unfold concludeCheck; split
    · rfl
    · split
      · simp
      · unfold failCheck dropImprint; simp only; split
        · split <;> simp [releaseRing, freeBuilder]
        · simp
  have hw : ∀ x : Device, (routeWithoutCancel x n).track.queue.length = x.track.queue.length := by
    intro x; unfold routeWithoutCancel; split
    · split
      · exact hr x
      · rfl
    · rfl
  have hp : ∀ x : Device, (preemptPrint x).track.queue.length = x.track.queue.length := by
    intro x; unfold preemptPrint; split
    · rfl
    · simp [endPrinted, setPrinting, releaseRing]
  have hd : ∀ (x : Device) m p i, (printDecision x m p i).track.queue.length = x.track.queue.length := by
    intro x m p i; unfold printDecision; split
    · split <;> simp [setPrinting, setPrintFault, releaseRing]
    · simp [(onlyRecords_dropImprint _ m).2.1]
    all_goals simp
  have hspan : (concludeSpan n d).track.queue.length = d.track.queue.length := by
    unfold concludeSpan; split
    · rfl
    · split
      · rw [applyIfFreed_track, hw, hc]; simp
      · rfl
  have hstart : ∀ x : Device, (startIfDue n x).track.queue.length = x.track.queue.length := by
    intro x; unfold startIfDue; split
    · rfl
    · next r hf =>
      have hn : r.number = n := find_number x n r hf
      split
      · unfold takePrintStart
        simp only [hn]
        rw [applyIfFreed_track]
        show (routePoint _ n).track.queue.length = _
        rw [hr, hd, hp]; simp
      · rfl
  have : (endOfCheckSpan n d).track.queue.length = d.track.queue.length := by
    unfold endOfCheckSpan; split
    · rw [hstart, hspan]
    · rfl
  rw [Bool.eq_iff_iff, List.isEmpty_iff, List.isEmpty_iff, ← List.length_eq_zero_iff, ← List.length_eq_zero_iff, this]

end Sys2Proof.Machine
end

