-- ==== Sys2Proof/Laws/Removal.lean ====
section
/-! SUPPORT. Laws of the parts of a removal (R22): what each leaves alone and what it does to the record's route and
imprint. -/

namespace Sys2Proof.Machine

theorem removeRecord_eq (d : Device) (n : RecNo) (e : ExitKind) (r : ItemRecord) (h : d.find n = some r) :
  removeRecord d n e = reportConditions (settleRemoval (settleImprint (abandonClassification (leaveTrack d n) n) r
      (decide (e = .stacked))).1 (settleImprint (abandonClassification (leaveTrack d n) n) r (decide (e =
      .stacked))).2 e) := by
  unfold removeRecord; rw [h]

/-- What every part of a removal leaves as it was. -/
structure RemovalFrame (d d' : Device) : Prop where
  inputs : d'.inputs = d.inputs
  tables : d'.tables = d.tables
  clock : d'.clock = d.clock
  feed : d'.feed = d.feed
  command : d'.command = d.command
  window : d'.window = d.window
  line : d'.line = d.line
  period : d'.tally.period = d.tally.period
  page : d'.tally.page = d.tally.page
  deferred : d'.tally.deferred = d.tally.deferred
  sequence : d'.imprint.sequence = d.imprint.sequence
  latch : ∀ c, d'.attention.latch c = d.attention.latch c
  mask : d'.attention.mask = d.attention.mask

theorem RemovalFrame.refl (d : Device) : RemovalFrame d d := by constructor <;> intros <;> rfl

theorem RemovalFrame.trans {a b c : Device} (h : RemovalFrame a b) (k : RemovalFrame b c) : RemovalFrame a c := by
  cases h; cases k; constructor <;> simp_all

/-- Only counters, totals and the batch buffer may differ. -/
structure OnlyTally (d d' : Device) : Prop where
  frame : RemovalFrame d d'
  track : d'.track = d.track
  stacker : d'.stacker = d.stacker
  classifier : d'.classifier = d.classifier
  imprint : d'.imprint = d.imprint

theorem removalFrame_offerBatch (d : Device) : RemovalFrame d (offerBatch d) ∧ (offerBatch d).track = d.track ∧
    (offerBatch d).stacker = d.stacker ∧ (offerBatch d).classifier = d.classifier ∧
    (offerBatch d).imprint = d.imprint ∧ (offerBatch d).tally.totals = d.tally.totals := by
  unfold offerBatch; split
  · exact ⟨RemovalFrame.refl d, rfl, rfl, rfl, rfl, rfl⟩
  · split <;> exact ⟨(by constructor <;> intros <;> rfl), rfl, rfl, rfl, rfl, rfl⟩

theorem removalFrame_reportRemoval (d : Device) (r : ItemRecord) (e : ExitKind) :
    RemovalFrame d (reportRemoval d r e) ∧ (reportRemoval d r e).track = d.track ∧
    (reportRemoval d r e).stacker = d.stacker ∧ (reportRemoval d r e).classifier = d.classifier ∧
    (reportRemoval d r e).imprint = d.imprint ∧ (reportRemoval d r e).tally.totals = d.tally.totals := by
  have ha : RemovalFrame d (appendReport d r e) ∧ (appendReport d r e).track = d.track ∧
      (appendReport d r e).stacker = d.stacker ∧ (appendReport d r e).classifier = d.classifier ∧
      (appendReport d r e).imprint = d.imprint ∧ (appendReport d r e).tally.totals = d.tally.totals := by
    unfold appendReport
    split <;> exact ⟨(by constructor <;> intros <;> rfl), rfl, rfl, rfl, rfl, rfl⟩
  unfold reportRemoval; simp only; split
  · have ho := removalFrame_offerBatch (appendReport d r e)
    exact ⟨ha.1.trans ho.1, by simp only [ho, ha, and_self]⟩
  · exact ha

theorem OnlyTally.trans {a b c : Device} (h : OnlyTally a b) (k : OnlyTally b c) : OnlyTally a c :=
  ⟨h.1.trans k.1, k.2.trans h.2, k.3.trans h.3, k.4.trans h.4, k.5.trans h.5⟩

theorem OnlyTally.refl (d : Device) : OnlyTally d d := ⟨RemovalFrame.refl d, rfl, rfl, rfl, rfl⟩

theorem onlyTally_count (d : Device) (i : Fin 56) : OnlyTally d (d.count i) ∧
    (d.count i).tally.totals = d.tally.totals :=
  ⟨⟨(by constructor <;> intros <;> rfl), rfl, rfl, rfl, rfl⟩, rfl⟩

theorem onlyTally_total (d : Device) (f : LineTotals → LineTotals) : OnlyTally d (d.total f) :=
  ⟨(by constructor <;> intros <;> rfl), rfl, rfl, rfl, rfl⟩

theorem onlyTally_countDisposition (d : Device) (r : ItemRecord) : OnlyTally d (countDisposition d r) ∧
    (countDisposition d r).tally.totals = d.tally.totals := by
  unfold countDisposition; split
  · exact ⟨OnlyTally.refl d, rfl⟩
  · exact onlyTally_count d _

theorem onlyTally_countBin (d : Device) (r : ItemRecord) : OnlyTally d (countBin d r) ∧
    (countBin d r).tally.totals = d.tally.totals := by
  unfold countBin; split
  · exact ⟨OnlyTally.refl d, rfl⟩
  · exact onlyTally_count d _

theorem onlyTally_countGroup (d : Device) (r : ItemRecord) : OnlyTally d (countGroup d r) ∧
    (countGroup d r).tally.totals = d.tally.totals := by
  unfold countGroup; split
  · exact ⟨OnlyTally.refl d, rfl⟩
  · exact onlyTally_count d _

/-- R132, R133: the line total a removal counts. -/
theorem onlyTally_countRemoval (d : Device) (r : ItemRecord) (e : ExitKind) : OnlyTally d (countRemoval d r e) ∧
    (countRemoval d r e).tally.totals = (match e with
      | .stacked => { d.tally.totals with stacked := d.tally.totals.stacked + 1 }
      | .lost => { d.tally.totals with lost := d.tally.totals.lost + 1 }
      | .missed => { d.tally.totals with missed := d.tally.totals.missed + 1 }
      | .purged => { d.tally.totals with purged := d.tally.totals.purged + 1 }) := by
  obtain ⟨h, ht⟩ := onlyTally_countDisposition d r
  cases e
  · obtain ⟨h2, t2⟩ := onlyTally_countBin ((countDisposition d r).total (fun t =>
        { t with stacked := t.stacked + 1 })) r
    obtain ⟨h3, t3⟩ := onlyTally_countGroup (countBin ((countDisposition d r).total (fun t =>
        { t with stacked := t.stacked + 1 })) r) r
    refine ⟨((h.trans (onlyTally_total _ _)).trans h2).trans h3, ?_⟩
    show (countGroup _ r).tally.totals = _
    rw [t3, t2]; simp only [Device.total, ht]
  · obtain ⟨h2, t2⟩ := onlyTally_count ((countDisposition d r).total (fun t => { t with lost := t.lost + 1 })) ctrLost
    refine ⟨(h.trans (onlyTally_total _ _)).trans h2, ?_⟩
    show (Device.count _ _).tally.totals = _
    rw [t2]; simp only [Device.total, ht]
  · obtain ⟨h2, t2⟩ := onlyTally_count ((countDisposition d r).total (fun t => { t with missed := t.missed + 1 }))
        ctrMissed
    refine ⟨(h.trans (onlyTally_total _ _)).trans h2, ?_⟩
    show (Device.count _ _).tally.totals = _
    rw [t2]; simp only [Device.total, ht]
  · obtain ⟨h2, t2⟩ := onlyTally_count ((countDisposition d r).total (fun t => { t with purged := t.purged + 1 }))
        ctrPurged
    refine ⟨(h.trans (onlyTally_total _ _)).trans h2, ?_⟩
    show (Device.count _ _).tally.totals = _
    rw [t2]; simp only [Device.total, ht]

theorem resettle_counts (d : Device) (k : Fin 16) (b : Bin) : (d.resettle k b).fill = b.fill ∧
    (d.resettle k b).committed = b.committed ∧ (d.resettle k b).held = b.held := by
  unfold Device.resettle; split <;> exact ⟨rfl, rfl, rfl⟩

theorem afterRelease_counts (d : Device) (k : Fin 16) (b : Bin) : (d.afterRelease k b).fill = b.fill ∧
    (d.afterRelease k b).committed = b.committed ∧ (d.afterRelease k b).held = b.held := by
  unfold Device.afterRelease; split
  · exact ⟨rfl, rfl, rfl⟩
  · exact resettle_counts d k b

/-- R120, R121: what settling the route does to the bins. -/
theorem removalFrame_settleRoute (d : Device) (r : ItemRecord) (e : ExitKind) : RemovalFrame d (settleRoute d r e) ∧
    (settleRoute d r e).track = d.track ∧ (settleRoute d r e).stacker.gates = d.stacker.gates ∧
    (settleRoute d r e).classifier = d.classifier ∧ (settleRoute d r e).imprint = d.imprint ∧
    (settleRoute d r e).tally.totals = d.tally.totals ∧ 
    (∀ t, r.route = some t →
      ((settleRoute d r e).bin t.bin).committed = (d.bin t.bin).committed - 1 ∧
      ((settleRoute d r e).bin t.bin).fill = if e = .stacked then min 65535 ((d.bin t.bin).fill + 1) else (d.bin
          t.bin).fill) ∧
    (∀ k : Fin 16, r.route.map Route.bin ≠ some k → (settleRoute d r e).bin k = d.bin k) := by
  unfold settleRoute
  cases hr : r.route with
  | none => exact ⟨RemovalFrame.refl d, rfl, rfl, rfl, rfl, rfl, fun t h => by simp at h, fun _ _ => rfl⟩
  | some t =>
    simp only
    by_cases he : e = .stacked
    · rw [if_pos he]
      refine ⟨(by constructor <;> intros <;> rfl), rfl, rfl, rfl, rfl, rfl, ?_, ?_⟩
      · intro t' ht'; simp only [Option.some.injEq] at ht'; subst ht'
        unfold stackBin; simp only [bin_setBin, if_true, he]
        obtain ⟨h1, h2, h3⟩ := afterRelease_counts d t.bin
            { d.bin t.bin with fill := min 65535 ((d.bin t.bin).fill + 1), committed := (d.bin t.bin).committed - 1 }
        exact ⟨h2, h1⟩
      · intro k hk; unfold stackBin; simp only [bin_setBin]; rw [if_neg]; intro h; apply hk; simp [h]
    · rw [if_neg he]
      refine ⟨(by constructor <;> intros <;> rfl), rfl, rfl, rfl, rfl, rfl, ?_, ?_⟩
      · intro t' ht'; simp only [Option.some.injEq] at ht'; subst ht'
        unfold releaseBin; simp only [bin_setBin, if_true, if_neg he]
        obtain ⟨h1, h2, h3⟩ := afterRelease_counts d t.bin
            { d.bin t.bin with committed := (d.bin t.bin).committed - 1 }
        exact ⟨h2, h1⟩
      · intro k hk; unfold releaseBin; simp only [bin_setBin]; rw [if_neg]; intro h; apply hk; simp [h]

/-- R22 step 4: what settling the imprint does. -/
theorem removalFrame_settleImprint (d : Device) (r : ItemRecord) (b : Bool) : let x := settleImprint d r b
   RemovalFrame d x.1 ∧ x.1.track = d.track ∧ x.1.stacker = d.stacker ∧ x.1.classifier = d.classifier ∧
       x.1.tally.totals = d.tally.totals ∧ x.2.route = r.route ∧
    (r.imprint = .building ∨ r.imprint = .built ∨ r.imprint = .printing →
      x.1.imprint.ring = d.imprint.ring.filter (fun h => decide (h.number ≠ r.number))) ∧
    (r.imprint = .building ∨ r.imprint = .built →
      x.1.imprint.builder = if d.imprint.builder = some r.number then none else d.imprint.builder) ∧
    (r.imprint = .printing → x.1.imprint.printing = none) := by
  intro x
  have hd : RemovalFrame d (dropImprint d r.number) ∧ (dropImprint d r.number).track = d.track ∧
      (dropImprint d r.number).stacker = d.stacker ∧ (dropImprint d r.number).classifier = d.classifier ∧
      (dropImprint d r.number).tally.totals = d.tally.totals ∧
      (dropImprint d r.number).imprint.ring = d.imprint.ring.filter (fun h => decide (h.number ≠ r.number)) ∧
      (dropImprint d r.number).imprint.builder = if d.imprint.builder = some r.number then none else
      d.imprint.builder := by
    unfold dropImprint; simp only
    have : (releaseRing d r.number).imprint.builder = d.imprint.builder := rfl
    rw [this]
    by_cases h : d.imprint.builder = some r.number <;> simp only [h, if_true, if_false] <;>
      exact ⟨(by constructor <;> intros <;> rfl), by and_intros <;> rfl⟩
  obtain ⟨h1,h2,h3,h4,h5,h6,h7⟩ := hd
  show RemovalFrame d x.1 ∧ _
  cases hi : r.imprint
  case building =>
    have hx : x = (dropImprint d r.number, { r with imprint := .aborted }) := by simp only [x, settleImprint, hi]
    rw [hx]; exact ⟨h1,h2,h3,h4,h5,rfl,fun _ => h6,fun _ => h7,by simp⟩
  case built => 
    have hx : x = (dropImprint d r.number, { r with imprint := .aborted }) := by simp only [x, settleImprint, hi]
    rw [hx]; exact ⟨h1,h2,h3,h4,h5,rfl,fun _ => h6,fun _ => h7,by simp⟩
  case printing =>
    cases b
    · have hx : x = ((releaseRing (setPrinting d none) r.number).count ctrPrintAborted,
        r.uncancel .aborted) := by simp [x, settleImprint, hi]
      rw [hx]
      exact ⟨(by constructor <;> intros <;> rfl), rfl, rfl, rfl, rfl, rfl, fun _ => rfl,
          by simp, fun _ => rfl⟩
    · have hx : x = ((releaseRing (setPrinting d none) r.number).count ctrPrinted,
        { r with imprint := .printed }) := by simp [x, settleImprint, hi]
      rw [hx]
      exact ⟨(by constructor <;> intros <;> rfl), rfl, rfl, rfl, rfl, rfl, fun _ => rfl,
          by simp, fun _ => rfl⟩
  case queued =>
    have hx : x = (d, { r with imprint := .none }) := by simp only [x, settleImprint, hi]
    rw [hx]; exact ⟨RemovalFrame.refl d, rfl, rfl, rfl, rfl, rfl, by simp, by simp, by simp⟩
  all_goals
    have hx : x = (d, r) := by simp only [x, settleImprint, hi]
    rw [hx]; exact ⟨RemovalFrame.refl d, rfl, rfl, rfl, rfl, rfl, by simp, by simp, by simp⟩

theorem settleRoute_purged_bins (d : Device) (r : ItemRecord) (k : Fin 16) : ((settleRoute d r .purged).bin k).held =
    (d.bin k).held ∧ ((settleRoute d r .purged).bin k).fill = (d.bin k).fill := by
  unfold settleRoute
  cases hr : r.route with
  | none => exact ⟨rfl, rfl⟩
  | some t =>
    simp only; rw [if_neg (by decide)]
    unfold releaseBin; simp only; rw [bin_setBin]
    split
    · next h =>
        subst h
        obtain ⟨h1, h2, h3⟩ := afterRelease_counts d t.bin { d.bin t.bin with committed := (d.bin t.bin).committed - 1 }
        exact ⟨h3, h1⟩
    · exact ⟨rfl, rfl⟩

end Sys2Proof.Machine
end

