-- ==== Sys2Proof/Laws/Modes.lean ====
section
/-! SUPPORT. Laws of the modes: the entry to HALTED, the entry to RUN with its Station Table check, the drain test. -/

namespace Sys2Proof.Machine

/-! ## The entry to HALTED (R151) -/

theorem modify_keepsStanding (d : Device) (n : RecNo) (f : ItemRecord → ItemRecord) (hf : ∀ r, ((f r).number,
    (f r).state, (f r).route, (f r).seen, (f r).faceCheck) = (r.number, r.state, r.route, r.seen, r.faceCheck)) :
  (d.modify n f).track.queue.map (fun r => (r.number, r.state, r.route, r.seen,
      r.faceCheck)) = d.track.queue.map (fun r => (r.number, r.state, r.route, r.seen, r.faceCheck)) := by
  simp only [Device.modify, List.map_map]; apply List.map_congr_left; intro q _
  simp only [Function.comp]; split
  · exact hf q
  · rfl

/-- What the entry to HALTED leaves as it was. -/
structure HaltFrame (d d' : Device) : Prop where
  q : d'.track.queue.map (fun r => (r.number, r.state, r.route, r.seen,
      r.faceCheck)) = d.track.queue.map (fun r => (r.number, r.state, r.route, r.seen, r.faceCheck))
  occupants : d'.track.occupants = d.track.occupants
  enc : d'.track.encoder = d.track.encoder
  adm : d'.track.admission = d.track.admission
  inputs : d'.inputs = d.inputs
  clock : d'.clock = d.clock
  feed : d'.feed = d.feed
  totals : d'.tally.totals = d.tally.totals
  period : d'.tally.period = d.tally.period
  selection : d'.window.selection = d.window.selection
  latch : ∀ c, d'.attention.latch c = d.attention.latch c
  mask : d'.attention.mask = d.attention.mask

theorem HaltFrame.refl (d : Device) : HaltFrame d d := by constructor <;> intros <;> rfl

theorem HaltFrame.trans {a b c : Device} (h : HaltFrame a b) (k : HaltFrame b c) : HaltFrame a c := by
  cases h; cases k; constructor <;> simp_all

theorem Applied.haltFrame {a b : Device} (h : Applied a b) : HaltFrame a b := ⟨by rw [h.track],by rw [h.track],by rw
    [h.track],by rw [h.track],h.inputs,h.clock,h.feed,h.totals,h.period,h.selection,h.latch,h.mask⟩

/-- R98: what halting the Imprint Unit leaves alone, and what becomes of a print in progress. -/
theorem haltFrame_haltImprint (d : Device) : HaltFrame d (haltImprint d) ∧ (d.imprint.printing.isSome = true →
    (haltImprint d).imprint.printFault = true ∧ (haltImprint d).imprint.printCol = 0) := by
  have hp : HaltFrame d (haltPrint d) ∧ (d.imprint.printing.isSome = true → (haltPrint d).imprint.printFault = true ∧
      (haltPrint d).imprint.printCol = 0) := by
    unfold haltPrint abortPrint
    cases h : d.imprint.printing with
    | none => simp only; exact ⟨HaltFrame.refl d, by simp⟩
    | some p =>
      simp only
      have hm := modify_keepsStanding d p.number (fun r => r.uncancel .aborted) (fun _ => rfl)
      exact ⟨by constructor <;> first | exact hm | (intros; rfl), fun _ => ⟨rfl, rfl⟩⟩
  have hb : ∀ x : Device, HaltFrame x (haltBuild x) ∧ (haltBuild x).imprint.printFault = x.imprint.printFault ∧
      (haltBuild x).imprint.printCol = x.imprint.printCol := by
    intro x; unfold haltBuild dropImprint
    cases h : x.imprint.builder with
    | none => exact ⟨HaltFrame.refl x, rfl, rfl⟩
    | some n =>
      simp only
      have hm := modify_keepsStanding x n (fun r => { r with imprint := .aborted }) (fun _ => rfl)
      split <;> exact ⟨by constructor <;> first | exact hm | (intros; rfl), rfl, rfl⟩
  obtain ⟨h1, h2, h3⟩ := hb (haltPrint d)
  refine ⟨hp.1.trans h1, fun h => ?_⟩
  show (haltBuild (haltPrint d)).imprint.printFault = true ∧ _
  unfold haltImprint
  rw [h2, h3]; exact hp.2 h

/-! ## The entry to RUN (R12, R149) -/

/-- R12: the rows the check names. -/
theorem mem_failingRows (d : Device) (row : Nat) : row ∈ d.failingRows ↔
   (row = 1 ∧ ¬ 0 < (d.stationOffset 1 : Int) - d.armLead) ∨ (row = 2 ∧
       ¬ (d.stationOffset 1 : Int) < d.stationOffset 2) ∨
   (row = 3 ∧ (¬ (d.stationOffset 2 : Int) < d.stationOffset 3 ∨
       ¬ (d.stationOffset 1 : Int) - d.armLead < d.stationOffset 3 - d.halfWidth 3)) ∨
   (row = 4 ∧ (¬ (d.stationOffset 3 : Int) < d.stationOffset 4 ∨ ∃ k : Fin 16, d.binEnable k = true ∧
       ¬ (d.stationOffset (5 + k.val) : Int) < d.stationOffset 4)) ∨
   (∃ k : Fin 16, row = 5 + k.val ∧ d.binEnable k = true ∧
       ¬ (d.stationOffset 3 : Int) < d.stationOffset (5 + k.val)) := by
  have ite1 : ∀ (p : Prop) [Decidable p] (n : Nat), row ∈ (if p then ([] : List Nat) else [n]) ↔ row = n ∧ ¬ p := by
    intro p _ n; by_cases h : p <;> simp [h]
  have h5 : (row ∈ (((List.finRange 16).filter d.binEnable).filter (fun k => decide (¬ (d.stationOffset 3 : Int) <
      d.stationOffset (5 + k.val)))).map (fun k => 5 + k.val)) ↔ ∃ k : Fin 16, row = 5 + k.val ∧
      d.binEnable k = true ∧ ¬ (d.stationOffset 3 : Int) < d.stationOffset (5 + k.val) := by
    simp only [List.mem_map, List.mem_filter, List.mem_finRange, true_and, decide_eq_true_eq]
    constructor
    · rintro ⟨k, ⟨h1, h2⟩, h3⟩; exact ⟨k, h3.symm, h1, h2⟩
    · rintro ⟨k, h3, h1, h2⟩; exact ⟨k, ⟨h1, h2⟩, h3.symm⟩
  have h4 : (((List.finRange 16).filter d.binEnable).all (fun k => decide ((d.stationOffset (5 + k.val) : Int) <
      d.stationOffset 4)) = true) ↔ ¬ ∃ k : Fin 16, d.binEnable k = true ∧
      ¬ (d.stationOffset (5 + k.val) : Int) < d.stationOffset 4 := by
    simp only [List.all_eq_true, List.mem_filter, List.mem_finRange, true_and, decide_eq_true_eq]
    constructor
    · rintro h ⟨k, h1, h2⟩; exact h2 (h k h1)
    · intro h k h1; by_contra h2; exact h ⟨k, h1, h2⟩
  have hl : d.failingRows = (if 0 < (d.stationOffset 1 : Int) - d.armLead then [] else [1]) ++ (if (d.stationOffset 1
      : Int) < d.stationOffset 2 then [] else [2]) ++ (if (d.stationOffset 2 : Int) < d.stationOffset 3 then [] else
      [3]) ++ (if (d.stationOffset 1 : Int) - d.armLead < d.stationOffset 3 - d.halfWidth 3 then [] else [3]) ++ (if
      (d.stationOffset 3 : Int) < d.stationOffset 4 then [] else [4]) ++ (((List.finRange 16).filter
      d.binEnable).filter (fun k => decide (¬ (d.stationOffset 3 : Int) < d.stationOffset (5 + k.val)))).map (fun k
      => 5 + k.val) ++ (if ((List.finRange 16).filter d.binEnable).all (fun k => decide ((d.stationOffset (5 + k.val)
      : Int) < d.stationOffset 4)) then [] else [4]) := rfl
  simp only [hl, List.mem_append, h5, ite1, h4, not_not, and_or_left, or_assoc]
  iterate 5 refine or_congr_right ?_
  exact or_comm

theorem occupyBlocked_cell (d : Device) (row : Fin 21) :
    (occupyBlocked d).track.occupants[row] = (if d.foundBlocked row then .stray else d.track.occupants[row]) ∧
    (occupyBlocked d).track.jam[row] = d.jamAtRun row := by
  constructor
  · show (Vector.ofFn _)[row] = _; simp
  · show (Vector.ofFn _)[row] = _; simp

/-- R149: the entry to RUN as one update. -/
theorem enterRun_eq (d : Device) : enterRun d = reportConditions { d with
          track :=
            let x := occupyBlocked { d with track := { d.track with inService := d.enabledGates } }
            { d.track with
              inService := d.enabledGates
              occupants := x.track.occupants
              jam := x.track.jam }
          classifier := { d.classifier with suspect := 0 }
          imprint := { d.imprint with printFault := d.imprint.printFault && !d.inputs.printReady }
          line := { d.line with mode := .run }
          window := { d.window with
            gap := if d.inputs.blocked[(0 : Fin 21)] then .closed
              else if d.num 0 0 7 = 0 then .met
              else .opened d.track.encoder } } := by
  unfold enterRun; simp only
  obtain ⟨A, hA⟩ : ∃ A, A = ({ d with track := { d.track with inService := d.enabledGates } } : Device) := ⟨_, rfl⟩
  rw [← hA]
  obtain ⟨B, hB⟩ : ∃ B, B =
      ({ occupyBlocked A with classifier := { (occupyBlocked A).classifier with suspect := 0 } } : Device) := ⟨_, rfl⟩
  rw [← hB]
  have hBr : (occupyBlocked A).inputs.printReady = B.inputs.printReady := by rw [hB]
  rw [hBr]
  have hC : (if B.inputs.printReady = true then setPrintFault B false else B) =
      { B with imprint := { B.imprint with printFault := B.imprint.printFault && !B.inputs.printReady } } := by
    cases hr : B.inputs.printReady with
    | true => simp [setPrintFault]
    | false => simp
  rw [hC, gapCheck_openGapAtRun _ rfl, hB, hA]; rfl

/-! ## The drain test (R150) and the bins (R124) -/

theorem drainTest_not_done (d : Device) (h : d.track.queue ≠ [] ∨ d.inputs.feedHeld = false) : drainTest d = d := by
  unfold drainTest; rw [if_neg]
  unfold Device.drainDone; simp [List.isEmpty_iff]
  intro _ h2
  rcases h with h | h
  · exact absurd h2 h
  · exact h

theorem setBin_setBin (d : Device) (k : Fin 16) (b b' : Bin) : (d.setBin k b).setBin k b' = d.setBin k b' := by
  unfold Device.setBin; simp [upd]

/-- R124: an out request as one update. -/
theorem outRequest_eq (d : Device) (k : Fin 16) : outRequest d k = d.setBin k
    { d.bin k with state := if (d.bin k).state = .out ∨
      (d.bin k).state = .outPending then (d.bin k).state else if (d.bin k).committed = 0 then .out else .outPending } :=
        by
  have hself : d.setBin k (d.bin k) = d := by unfold Device.setBin Device.bin; simp [upd]
  unfold outRequest; simp only
  cases h : (d.bin k).state <;> simp
  · conv => lhs; rw [← hself]
    congr 1; rw [← h]
  · conv => lhs; rw [← hself]
    congr 1; rw [← h]

end Sys2Proof.Machine
end

