-- ==== Sys2Proof/Laws/Answers.lean ====
section
/-! SUPPORT. Laws of answers: the pages and responses of the Report Link, a command answered at once, and the reads and
writes through the window. -/

namespace Sys2Proof.Machine

/-! ## Pages and responses (R137, R138, R177) -/

theorem placePage_fits (d : Device) (p : TallyPage) (hp : d.tally.page = some p) (hw : d.responseWaiting = false)
    (hr : 120 ≤ d.reportRoom) :
    placePage d = { d.enqueue (linkFrame p.words) with tally := { d.tally with page := none } } := by
  unfold placePage; rw [hp]; simp only
  rw [if_pos ⟨hw, hr⟩]

theorem placePage_waits (d : Device) (h : d.tally.page ≠ none → d.responseWaiting = true ∨ d.reportRoom < 120) :
   placePage d = d := by
  unfold placePage
  cases hp : d.tally.page with
  | none => rfl
  | some p =>
    simp only
    rw [if_neg]
    rintro ⟨a, b⟩
    have b : 120 ≤ d.reportRoom := b
    rcases h (by rw [hp]; simp) with h | h
    · rw [a] at h; cases h
    · omega

theorem takeDeferred_none (d : Device) (h : d.tally.page ≠ none ∨ d.tally.deferred = none) : takeDeferred d = d := by
  unfold takeDeferred
  cases hp : d.tally.page with
  | some p => rfl
  | none =>
    rcases h with h | h
    · exact absurd hp h
    · rw [h]

theorem placeResponse_none (d : Device) (h : d.responseWaiting = false) : placeResponse d = d := by
  unfold placeResponse; unfold Device.responseWaiting at h
  revert h
  cases d.command <;> intro h
  · rfl
  · rfl
  · cases h

theorem reportRoom_enqueue (d : Device) (ws : List LinkWord) :
    (d.enqueue ws).reportRoom = d.reportRoom - ws.length := by
  unfold Device.reportRoom Device.enqueue; simp; omega

theorem pageFrame_length (p : TallyPage) : (linkFrame p.words).length = 120 := pageWords_length p

theorem settlePage_waiting (d : Device) (h : d.tally.page ≠ none ∨ d.tally.deferred = none)
    (hw : d.responseWaiting = true) : settlePage d = d := by
  have h1 : placePage d = d := placePage_waits d (fun _ => .inl hw)
  unfold settlePage
  rw [h1, takeDeferred_none _ h, h1]

theorem settlePage_placed (e : Device) (p : TallyPage) (hp : e.tally.page = some p) (hd : e.tally.deferred = none)
    (hw : e.responseWaiting = false) (hr : 120 ≤ e.reportRoom) :
   settlePage e = { e.enqueue (linkFrame p.words) with tally := { e.tally with page := none } } := by
  unfold settlePage
  obtain ⟨E, hE⟩ : ∃ E, E = { e.enqueue (linkFrame p.words) with tally := { e.tally with page := none } } := ⟨_, rfl⟩
  have hp' : E.tally.page = none := by rw [hE]
  have hd' : E.tally.deferred = none := by rw [hE]; exact hd
  rw [placePage_fits e _ hp hw hr, ← hE, takeDeferred_none E (.inr hd'), placePage_waits E (fun h => absurd hp' h)]

/-- What the answer of a command leaves as it was. -/
structure AnswerFrame (d d' : Device) : Prop where
  line : d'.line = d.line
  track : d'.track = d.track
  stacker : d'.stacker = d.stacker
  classifier : d'.classifier = d.classifier
  imprint : d'.imprint = d.imprint
  window : d'.window = d.window
  inputs : d'.inputs = d.inputs
  clock : d'.clock = d.clock
  totals : d'.tally.totals = d.tally.totals
  fifo : d'.feed.fifo = d.feed.fifo
  attention : d'.attention = d.attention
  tables : d'.tables = d.tables

theorem AnswerFrame.refl (d : Device) : AnswerFrame d d := by constructor <;> rfl

theorem AnswerFrame.trans {a b c : Device} (h : AnswerFrame a b) (k : AnswerFrame b c) : AnswerFrame a c := by
  cases h; cases k; constructor <;> simp_all

theorem answerFrame_placePage (d : Device) : AnswerFrame d (placePage d) := by
  unfold placePage; split
  · exact AnswerFrame.refl d
  · split
    · constructor <;> rfl
    · exact AnswerFrame.refl d

theorem answerFrame_takeDeferred (d : Device) : AnswerFrame d (takeDeferred d) := by
  unfold takeDeferred; split <;> constructor <;> rfl

theorem answerFrame_placeResponse (d : Device) : AnswerFrame d (placeResponse d) := by
  unfold placeResponse; split
  · exact AnswerFrame.refl d
  · exact AnswerFrame.refl d
  · split
    · constructor <;> rfl
    · split
      · constructor <;> rfl
      · exact AnswerFrame.refl d

/-- What a response leaves alone, placed or waiting. -/
theorem answerFrame_respond (d : Device) (k : CommandKind) (t : BitVec 8) (a : Answer) :
    AnswerFrame d (respond d k t a) := by
  unfold respond arbiter settlePage
  have h0 : AnswerFrame d { d with
    command := .waiting (linkFrame (responseWords k t d.feed.excess a)) false
    feed := { d.feed with excess := 0 } } := by constructor <;> rfl
  exact ((h0.trans (answerFrame_placeResponse _)).trans (answerFrame_placePage _)).trans ((answerFrame_takeDeferred
      _).trans (answerFrame_placePage _))

/-! ## A command answered at once -/

/-- R170, R171: a fixed command on a part that is clear: its effect, the response at the tail of the Report Queue. -/
theorem exec_answered (s : State) (c : Instr) (kind : CommandKind) (tag : BitVec 8) (body : List Word) (n : Nat)
    (e : Device) (a : Answer) (hx : exec c s = s.after (deliver kind tag body s.dev)) (h : s.dev.clear n)
    (hf : runCommand kind body (setDelim s.dev (.complete (.command kind) tag)) =
      (setDelim e (.complete (.command kind) tag), a))
    (hc : e.command = s.dev.command) (hp : e.tally.page = s.dev.tally.page)
    (hd : e.tally.deferred = s.dev.tally.deferred) (hq : e.report.queue = s.dev.report.queue)
    (hn : 5 + a.words.length ≤ n) : exec c s = s.after (e.answered kind tag a) := by
  obtain ⟨h1, h2, h3, h4⟩ := h
  rw [hx, deliver_answered kind tag body s.dev e a h1 hf (hc.trans h1.1.2.1) (hp.trans h2) (hd.trans h3)
    (by unfold Device.reportRoom; rw [hq]; exact Nat.le_trans hn h4)]

/-- R178: a command whose response of at most 256 words finds no room has its effect, and the response waits whole. -/
theorem execute_waits (kind : CommandKind) (tag : BitVec 8) (f : Device → Device × Answer) (d : Device)
    (hp : (f d).1.tally.page ≠ none ∨ (f d).1.tally.deferred = none)
    (hr : (f d).1.reportRoom < 5 + (f d).2.words.length) (hn : 5 + (f d).2.words.length ≤ Config.reportWords) :
    execute kind tag f d = buildResponse (f d).1 kind tag (f d).2 := by
  rw [execute, respond_waits _ _ _ _ hr hn]
  exact settlePage_waiting _ hp rfl

/-- R177: a command's response placed at once on a part in which a page waits that does not fit behind it. -/
theorem respond_behind_page (e : Device) (kind : CommandKind) (tag : BitVec 8) (a : Answer) (hc : e.command = .free)
    (hp : e.tally.page ≠ none) (hr : 5 + a.words.length ≤ e.reportRoom) (hlt : e.reportRoom < 125 + a.words.length) :
    respond (setDelim e (.complete (.command kind) tag)) kind tag a = e.answered kind tag a := by
  rw [respond_fits (setDelim e (.complete (.command kind) tag)) kind tag a hr]
  generalize hx : Device.enqueue _ _ = x
  have hroom : x.reportRoom < 120 := by
    have h := reportRoom_enqueue ({ setDelim e (.complete (.command kind) tag) with
        command := .free
        feed := { (setDelim e (.complete (.command kind) tag)).feed with excess := 0 } } : Device)
      (linkFrame (responseWords kind tag (setDelim e (.complete (.command kind) tag)).feed.excess a))
    rw [responseFrame_length, hx] at h
    have hk : e.reportRoom - (5 + a.words.length) < 120 := by omega
    exact h ▸ hk
  have hpage : x.tally.page ≠ none := by rw [← hx]; exact hp
  have hwait : placePage x = x := placePage_waits x (fun _ => .inr hroom)
  unfold settlePage
  rw [hwait, takeDeferred_none x (.inl hpage), hwait, ← hx]
  cases e
  simp only at hc
  subst hc
  rfl

theorem deliverOpen_ready (kind : CommandKind) (tag : BitVec 8) (words : List Word) (d : Device) (hr : d.ready) :
    deliverOpen kind tag words d =
    endOpen (words.foldl openFrameWord (openFrame (setDelim d (.openEnded (.command kind) tag)) kind tag)) := by
  unfold deliverOpen; rw [takeFrame_ready _ _ _ _ _ hr]; rfl

/-- R184: the words of a frame that writes nothing are counted. -/
theorem foldWords_idle (d : Device) (f : OpenFrame) (words : List Word) (hc : d.command = .receiving f)
   (h : f.kind = .nop ∨ f.refusal ≠ none ∨ f.overflowed = true) :
   words.foldl openFrameWord d = setFrame d { f with bodyWords := f.bodyWords + words.length } := by
  induction words generalizing d f with
  | nil => 
    show d = _
    unfold setFrame; cases d; simp only at hc; subst hc; rfl
  | cons v words ih =>
    have h1 : openFrameWord d v = setFrame d { f with bodyWords := f.bodyWords + 1 } := by
      unfold openFrameWord; rw [hc]; simp only; unfold frameWord; simp only; rw [if_pos h]
    rw [List.foldl_cons, h1, ih _ { f with bodyWords := f.bodyWords + 1 } rfl h]
    unfold setFrame; simp only [List.length_cons]
    congr 2; simp only [OpenFrame.mk.injEq, and_true, true_and]; omega

theorem endOpen_answered (kind : CommandKind) (tag : BitVec 8) (d e : Device) (f : OpenFrame) (hk : f.kind = kind)
    (ht : f.tag = tag)
   (hc : d.command = .receiving f) (hd : d.feed.delim = .openEnded (.command kind) tag)
   (he : { closeGroup (setDelim d (.complete (.command kind) tag)) f with command := .free } = setDelim e (.complete
       (.command kind) tag))
   (hec : e.command = .free) (hp : e.tally.page = none) (hdf : e.tally.deferred = none) (hr : 5 + (frameAnswer
       f).words.length ≤ e.reportRoom) :
   endOpen d = if f.group.isEmpty then e.answered kind tag (frameAnswer f)
     else applyPoint (e.answered kind tag (frameAnswer f)) := by
  unfold endOpen; simp only [hd]
  unfold closeFrame
  have : (setDelim d (.complete (.command kind) tag)).command = .receiving f := hc
  rw [this]; simp only [hk, ht]
  rw [← respond_answered e kind tag (frameAnswer f) hec hp hdf hr, ← he]; rfl

/-- R174, R184: an open-ended frame that writes nothing. -/
theorem deliverOpen_refused (kind : CommandKind) (tag : BitVec 8) (words : List Word) (d : Device) (r : Option
    ResultCode) (n : Nat)
   (hcl : d.clear n) (ho : openFrame (setDelim d (.openEnded (.command kind) tag)) kind tag = setFrame (setDelim d
       (.openEnded (.command kind) tag)) (newFrame kind tag r 0))
   (h : kind = .nop ∨ r ≠ none) (hn : 5 + (frameAnswer
       { newFrame kind tag r 0 with bodyWords := words.length }).words.length ≤ n) :
   deliverOpen kind tag words d = d.answered kind tag (frameAnswer
       { newFrame kind tag r 0 with bodyWords := words.length }) := by
  obtain ⟨hr, hp, hd, hroom⟩ := hcl
  rw [deliverOpen_ready _ _ _ _ hr, ho, foldWords_idle _ (newFrame kind tag r 0) words rfl (by rcases h with h | h; exact .inl h; exact .inr (.inl h))]
  have hz : (newFrame kind tag r 0).bodyWords + words.length = words.length := Nat.zero_add _
  rw [hz]
  refine (endOpen_answered kind tag _ d { newFrame kind tag r 0 with bodyWords := words.length } rfl rfl rfl rfl ?_
    hr.1.2.1 hp hd (by omega)).trans (if_pos rfl)
  unfold setDelim setFrame closeGroup
  simp only [newFrame, List.isEmpty_nil, if_true, hr.1.2.1]

/-! ## Reading through the window (R183, R187) -/

theorem map_range_succ (n : Nat) (f : Nat → Word) :
    (List.range (n + 1)).map f = f 0 :: (List.range n).map (fun k => f (k + 1)) := by
  rw [List.range_succ_eq_map, List.map_cons, List.map_map]; rfl

theorem advance_lt (w : Window) (h : w.cursor + 1 < w.size) : w.advance = { w with cursor := w.cursor + 1 } := by
  unfold Window.advance; rw [if_pos h]

theorem advance_ignore (w : Window) (c : Nat) (ho : w.overrun = .ignore) (h : c < w.size) : ({ w with cursor := c } :
    Window).advance = { w with cursor := c + 1 } := by
  have hsz : ({ w with cursor := c } : Window).size = w.size := rfl
  unfold Window.advance; simp only [hsz]
  split
  · rfl
  · simp only [ho]; congr 1; omega

theorem advance_wrap (w : Window) (c : Nat) (ho : w.overrun = .wrap) (h : c < w.size) : ({ w with cursor := c } :
    Window).advance = { w with cursor := (c + 1) % w.size } := by
  have hsz : ({ w with cursor := c } : Window).size = w.size := rfl
  unfold Window.advance; simp only [hsz]
  split
  · next h2 => rw [Nat.mod_eq_of_lt h2]
  · next h2 => 
    have : c + 1 = w.size := by omega
    simp only [ho]; rw [this, Nat.mod_self]

/-- The words read under IGNORE, how many fell at the end, and the cursor left. -/
theorem readWords_ignore (d : Device) (w : Window) (ho : w.overrun = .ignore) (n c : Nat) (h : c ≤ w.size) :
   readWords d n { w with cursor := c } =
    ((List.range n).map (fun k => if c + k < w.size then d.readCell w.table (w.place (c + k)).1 (w.place (c + k)).2
        else 0),
      n - (w.size - c), { w with cursor := min w.size (c + n) }) := by
  induction n generalizing c with
  | zero => simp only [readWords, List.range_zero, List.map_nil, Nat.zero_sub, Nat.add_zero, Nat.min_eq_right h]
  | succ n ih =>
    rw [readWords]
    by_cases ha : c < w.size
    · have : ({ w with cursor := c } : Window).atEnd = false := by
        unfold Window.atEnd
        simp only [decide_eq_false_iff_not, not_le]
        exact ha
      rw [this]; simp only [Bool.false_eq_true, if_false]
      rw [advance_ignore w c ho ha, ih (c + 1) (by omega), map_range_succ]
      simp only [Nat.add_zero, if_pos ha]
      refine Prod.ext ?_ (Prod.ext ?_ ?_)
      · simp only; congr 1; apply List.map_congr_left; intro k _
        rw [show c + 1 + k = c + (k + 1) from by omega]
      · simp only; omega
      · simp only; rw [show c + 1 + n = c + (n + 1) from by omega]
    · have : ({ w with cursor := c } : Window).atEnd = true := by
        unfold Window.atEnd
        simp only [decide_eq_true_eq]
        exact Nat.le_of_not_lt ha
      rw [this]; simp only [if_true]
      rw [ih c h, map_range_succ]
      refine Prod.ext ?_ (Prod.ext ?_ ?_)
      · simp only; congr 1
        · rw [if_neg (by omega)]
        · apply List.map_congr_left; intro k _; rw [if_neg (by omega), if_neg (by omega)]
      · simp only; omega
      · simp only; congr 1; omega

/-- The words read under WRAP and the cursor left. -/
theorem readWords_wrap (d : Device) (w : Window) (ho : w.overrun = .wrap) (n c : Nat) (h : c < w.size) :
   readWords d n { w with cursor := c } =
    ((List.range n).map (fun k => d.readCell w.table (w.place ((c + k) % w.size)).1 (w.place ((c + k) % w.size)).2),
      0, { w with cursor := (c + n) % w.size }) := by
  induction n generalizing c with
  | zero => simp only [readWords, List.range_zero, List.map_nil, Nat.add_zero, Nat.mod_eq_of_lt h]
  | succ n ih =>
    rw [readWords]
    have : ({ w with cursor := c } : Window).atEnd = false := by
      unfold Window.atEnd
      simp only [decide_eq_false_iff_not, not_le]
      exact h
    rw [this]; simp only [Bool.false_eq_true, if_false]
    rw [advance_wrap w c ho h, ih _ (Nat.mod_lt _ (by omega)), map_range_succ]
    simp only [Nat.add_zero, Nat.mod_eq_of_lt h]
    refine Prod.ext ?_ (Prod.ext ?_ ?_)
    · simp only; congr 1; apply List.map_congr_left; intro k _
      rw [Nat.mod_add_mod, show c + 1 + k = c + (k + 1) from by omega]
    · rfl
    · simp only; rw [Nat.mod_add_mod, show c + 1 + n = c + (n + 1) from by omega]

/-! ## Writing through the window (R184 to R186) -/

/-- R184: a body word at a cell that may be written. -/
theorem openFrameWord_writes (x : Device) (f : OpenFrame) (w : Window) (v : Word) (row field : Nat) (hc : x.command =
    .receiving f)
  (hs : x.window.selection = some w) (hk : f.kind ≠ .nop) (hr : f.refusal = none) (hov : f.overflowed = false)
  (he : w.atEnd = false) (hp : w.place w.cursor = (row, field)) (hro : cellReadOnly w.table row field = false) :
  openFrameWord x v = writeWord x { f with bodyWords := f.bodyWords + 1 } w
      { table := w.table, row := row, field := field, value := heldValue w.table field v } := by
  unfold openFrameWord; rw [hc]; simp only; unfold frameWord; simp only
  rw [if_neg (by rintro (h | h | h); exact hk h; exact h hr; rw [hov] at h; cases h), hs]
  simp only [he, hp, hro, Bool.false_eq_true, if_false]

theorem openFrameWord_stages (x : Device) (f : OpenFrame) (w : Window) (c : Nat) (v : Word) (hc : x.command =
    .receiving f)
  (hs : x.window.selection = some { w with cursor := c }) (ha : x.active = true) (hk : f.kind ≠ .nop) (hr : f.refusal
      = none) (hov : f.overflowed = false)
  (hcs : c < w.size) (hro : ∀ row, cellReadOnly w.table row w.firstField = false) (hf : w.firstField = w.lastField)
      (ho : w.order = .rowFirst) (hi : w.overrun = .ignore) :
  openFrameWord x v = if x.window.groups.flatten.length + f.group.length < 256 then
     setFrame (setWindow x { w with cursor := c + 1 })
         { f with
           bodyWords := f.bodyWords + 1
           group := f.group ++ [{ table := w.table, row := w.firstRow + c, field := w.firstField,
                                  value := heldValue w.table w.firstField v }]
           written := f.written + 1 }
   else setFrame (setWindow x { w with cursor := f.start })
       { f with bodyWords := f.bodyWords + 1, group := [], overflowed := true } := by
  unfold openFrameWord; rw [hc]; simp only; unfold frameWord; simp only
  rw [if_neg (by rintro (h | h | h); exact hk h; exact h hr; rw [hov] at h; cases h), hs]
  simp only
  have h1 : ({ w with cursor := c } : Window).atEnd = false := by
    unfold Window.atEnd
    simp only [decide_eq_false_iff_not, not_le]
    exact hcs
  have h2 : ({ w with cursor := c } : Window).place c = (w.firstRow + c, w.firstField) := by
    have hfl : w.fields = 1 := by unfold Window.fields; omega
    show (match w.order with | .rowFirst => (w.firstRow + c / w.fields,
        w.firstField + c % w.fields) | .fieldFirst => _) = _
    rw [ho]; simp only [hfl, Nat.div_one, Nat.mod_one, Nat.add_zero]
  rw [h1, h2]; simp only [Bool.false_eq_true, if_false, hro]
  unfold writeWord; rw [ha]; simp only [if_true]
  have h3 := advance_ignore w c hi hcs
  rw [h3]; rfl

theorem getD_cons (v : Word) (words : List Word) (k : Nat) : (v :: words).getD (k + 1) 0 = words.getD k 0 := rfl

/-- R186: the words of a frame staged, or its overflow. -/
theorem foldWords_stages (w : Window) (hro : ∀ row,
    cellReadOnly w.table row w.firstField = false) (hf : w.firstField = w.lastField) (ho : w.order = .rowFirst) (hi :
    w.overrun = .ignore) (words : List Word) (x : Device) (f : OpenFrame) (c : Nat) (hc : x.command = .receiving f)
  (hs : x.window.selection = some { w with cursor := c }) (ha : x.active = true) (hk : f.kind ≠ .nop) (hr : f.refusal
      = none) (hov : f.overflowed = false)
  (hcs : c + words.length ≤ w.size) :
  (x.window.groups.flatten.length + f.group.length + words.length ≤ 256 → words.foldl openFrameWord x =
     setFrame (setWindow x { w with cursor := c + words.length })
         { f with
           bodyWords := f.bodyWords + words.length
           group := f.group ++ (List.range words.length).map (fun k =>
             ({ table := w.table, row := w.firstRow + (c + k), field := w.firstField,
                value := heldValue w.table w.firstField (words.getD k 0) } : CellWrite))
           written := f.written + words.length }) ∧
  (words ≠ [] → 256 < x.window.groups.flatten.length + f.group.length + words.length → ∃ m,
      words.foldl openFrameWord x =
     setFrame (setWindow x { w with cursor := f.start })
         { f with bodyWords := f.bodyWords + words.length, group := [], overflowed := true, written := m }) := by
  induction words generalizing x f c with
  | nil =>
    refine ⟨fun _ => ?_, fun h => absurd rfl h⟩
    show x = _
    simp only [List.length_nil, List.range_zero, List.map_nil, List.append_nil, Nat.add_zero]
    have e : ∀ (y : CommandState) (z : Option Window), x.command = y → x.window.selection = z →
        x = { x with command := y, window := { x.window with selection := z } } := by
      intro y z h1 h2; subst h1; subst h2; rfl
    exact e _ _ hc hs
  | cons v words ih =>
    have hstep := openFrameWord_stages x f w c v hc hs ha hk hr hov (by simp at hcs; omega) hro hf ho hi
    simp only [List.foldl_cons]; rw [hstep]
    split
    · next hlt =>
      let cell (k : Nat) (u : Word) : CellWrite :=
        { table := w.table, row := w.firstRow + k, field := w.firstField, value := heldValue w.table w.firstField u }
      obtain ⟨g1, g2⟩ := ih
        (setFrame (setWindow x { w with cursor := c + 1 })
          { f with bodyWords := f.bodyWords + 1, group := f.group ++ [cell c v], written := f.written + 1 })
        _ (c + 1) rfl rfl ha hk hr hov (by simp at hcs; omega)
      have hgl : (f.group ++ [cell c v]).length = f.group.length + 1 := by simp
      have hgr : ∀ y f', (setFrame (setWindow x y) f').window.groups = x.window.groups := fun _ _ => rfl
      simp only [hgl, hgr] at g1 g2
      refine ⟨fun h => ?_, fun _ h => ?_⟩
      · rw [g1 (by simp only [List.length_cons] at h; omega)]
        unfold setFrame setWindow
        simp only [List.length_cons]
        have : (List.range (words.length + 1)).map (fun k => cell (c + k) ((v :: words).getD k 0)) =
            cell c v :: (List.range words.length).map (fun k => cell (c + 1 + k) (words.getD k 0)) := by
          rw [List.range_succ_eq_map, List.map_cons, List.map_map]
          congr 1
          apply List.map_congr_left; intro k _
          simp only [Function.comp, getD_cons]; congr 1; omega
        rw [this]
        rw [show c + 1 + words.length = c + (words.length + 1) from by omega,
            show f.bodyWords + 1 + words.length = f.bodyWords + (words.length + 1) from by omega,
            show f.written + 1 + words.length = f.written + (words.length + 1) from by omega, List.append_assoc,
            List.singleton_append]
      · have hne : words ≠ [] := by
          intro he; subst he; simp only [List.length_cons, List.length_nil] at h; omega
        obtain ⟨m, hm⟩ := g2 hne (by simp only [List.length_cons] at h; omega)
        refine ⟨m, ?_⟩
        rw [hm]
        unfold setFrame setWindow
        simp only [List.length_cons]
        rw [show f.bodyWords + 1 + words.length = f.bodyWords + (words.length + 1) from by omega]
    · next hlt =>
      refine ⟨fun h => ?_, fun _ _ => ⟨f.written, ?_⟩⟩
      · simp only [List.length_cons] at h; omega
      · rw [foldWords_idle _ { f with bodyWords := f.bodyWords + 1, group := [], overflowed := true } words rfl (.inr
            (.inr rfl))]
        unfold setFrame setWindow
        simp only [List.length_cons]
        rw [show f.bodyWords + 1 + words.length = f.bodyWords + (words.length + 1) from by omega]

/-- R184, R186: a frame staged whole, or put back. -/
theorem deliverOpen_stages (kind : CommandKind) (hkd : kind ≠ .nop) (tag : BitVec 8) (words : List Word) (d : Device)
    (w : Window) (c : Nat) (hcl : d.clear 9) (ha : d.active = true) (hs : d.window.selection = some w)
  (hro : ∀ row, cellReadOnly w.table row w.firstField = false) (hf : w.firstField = w.lastField) (ho : w.order =
      .rowFirst) (hi : w.overrun = .ignore) (h7 : w.table ≠ 7) (hg : d.window.groups.length < 32)
  (hcc : c = if kind = .writeWindow then 0 else w.cursor) (hn : c + words.length ≤ w.lastRow - w.firstRow + 1) :
  (d.window.groups.flatten.length + words.length ≤ 256 →
      let x := Device.answered
        { d with window := { d.window with
          selection := some { w with cursor := c + words.length }
          groups := if words = [] then d.window.groups else d.window.groups ++ [(List.range words.length).map (fun k =>
            { table := w.table, row := w.firstRow + (c + k), field := w.firstField,
              value := heldValue w.table w.firstField (words.getD k 0) })] } } kind tag
        (.done [word (min 65535 words.length), word words.length, 0, 0])
      deliverOpen kind tag words d = if words = [] then x else applyPoint x) ∧
  (words ≠ [] → 256 < d.window.groups.flatten.length + words.length →
      deliverOpen kind tag words d = Device.answered
      { d with window := { d.window with selection := some { w with cursor := c } } } kind tag
      { code := .pendingFull, detail := 0, words := [word (min 65535 words.length), 0, 0, 0] }) := by
  obtain ⟨hr, hp, hd, hroom⟩ := hcl
  have hsz : w.size = w.lastRow - w.firstRow + 1 := by unfold Window.size Window.rows Window.fields; rw [hf]; simp
  have hwr : d.writeRefusal = none := by
    unfold Device.writeRefusal; rw [hs]; simp only
    rw [if_neg, if_neg (fun h => h7 h.1), if_neg]
    · rintro ⟨_, h⟩; have h : 32 ≤ _ := h; omega
    · rintro (h | h)
      · have := hro 0; rw [h] at this; exact absurd this (by simp [cellReadOnly])
      · have := hro 0; rw [h] at this; exact absurd this (by simp [cellReadOnly])
  have hopen : openFrame (setDelim d (.openEnded (.command kind) tag)) kind tag = setFrame (setWindow (setDelim d
      (.openEnded (.command kind) tag)) { w with cursor := c }) (newFrame kind tag none c) := by
    unfold openFrame; rw [if_neg hkd]
    have h1 : (setDelim d (.openEnded (.command kind) tag)).writeRefusal = none := hwr
    have h2 : (setDelim d (.openEnded (.command kind) tag)).window.selection = some w := hs
    rw [h1, h2]; simp only
    by_cases hkw : kind = .writeWindow
    · rw [if_pos hkw] at hcc ⊢; subst hcc; rfl
    · rw [if_neg hkw] at hcc ⊢; subst hcc; rfl
  obtain ⟨g1, g2⟩ := foldWords_stages w hro hf ho hi words (setFrame (setWindow (setDelim d (.openEnded (.command kind) tag)) { w with cursor := c }) (newFrame kind tag none c)) _ c rfl rfl ha hkd rfl rfl (by rw [hsz]; exact hn)
  have hgl : ∀ y z f', (setFrame (setWindow (setDelim d z) y) f').window.groups = d.window.groups := fun _ _ _ => rfl
  have hng : (newFrame kind tag none c).group = [] := rfl
  have hnb : (newFrame kind tag none c).bodyWords = 0 := rfl
  have hnw : (newFrame kind tag none c).written = 0 := rfl
  simp only [hgl, hng, hnb, hnw, List.length_nil, Nat.add_zero, Nat.zero_add, List.nil_append] at g1 g2
  rw [deliverOpen_ready _ _ _ _ hr, hopen]
  refine ⟨fun h => ?_, fun hne h => ?_⟩
  · rw [g1 h]
    have hans : frameAnswer
        { newFrame kind tag none c with
          bodyWords := words.length
          group := (List.range words.length).map (fun k =>
            ({ table := w.table, row := w.firstRow + (c + k), field := w.firstField,
               value := heldValue w.table w.firstField (words.getD k 0) } : CellWrite))
          written := words.length } = .done [word (min 65535 words.length), word words.length, 0, 0] := by
      unfold frameAnswer newFrame; simp only; rw [if_neg hkd]; rfl
    have hemp : ((List.range words.length).map (fun k =>
        ({ table := w.table, row := w.firstRow + (c + k), field := w.firstField,
           value := heldValue w.table w.firstField (words.getD k 0) } : CellWrite))).isEmpty = decide (words = []) := by
      cases words <;> simp [List.range_succ_eq_map]
    simp only [← hans]
    refine (endOpen_answered kind tag _ { d with window := { d.window with
        selection := some { w with cursor := c + words.length }
        groups := if words = [] then d.window.groups else d.window.groups ++ [(List.range words.length).map (fun k =>
          { table := w.table, row := w.firstRow + (c + k), field := w.firstField,
            value := heldValue w.table w.firstField (words.getD k 0) })] } } _ rfl rfl rfl rfl ?_ hr.1.2.1 hp hd
        (by rw [hans]; exact hroom)).trans ?_
    · unfold setDelim setFrame closeGroup setWindow
      simp only [hemp, decide_eq_true_eq, hr.1.2.1]
    · simp only [hemp, decide_eq_true_eq]
  · obtain ⟨m, hm⟩ := g2 hne h
    rw [hm]
    have hans : frameAnswer
        { newFrame kind tag none c with bodyWords := words.length, group := [], overflowed := true, written := m } =
        { code := .pendingFull, detail := 0, words := [word (min 65535 words.length), 0, 0, 0] } := by
      unfold frameAnswer newFrame; simp only; rw [if_neg hkd]; rfl
    rw [← hans]
    refine (endOpen_answered kind tag _ { d with window := { d.window with selection := some { w with cursor := c } } }
      _ rfl rfl rfl rfl ?_ hr.1.2.1 hp hd (by rw [hans]; exact hroom)).trans (if_pos rfl)
    unfold setDelim setFrame closeGroup setWindow
    simp only [List.isEmpty_nil, if_true, hr.1.2.1, newFrame]

end Sys2Proof.Machine
end

