-- ==== Sys2Proof/Laws/Feed.lean ====
section
/-! SUPPORT. Laws of the Feed Link: words leaving the FIFO, a fixed frame word by word, the words of a scan part. -/

namespace Sys2Proof.Machine

/-- R164, R165: the head word leaves while no word waits. -/
theorem popWord_shrunk (d : Device) (w : LinkWord) (rest : List LinkWord) (hf : d.feed.fifo = w :: rest)
    (hp : d.feed.presented = []) : popWord d = d.shrunk rest := by
  unfold popWord; simp only [hf, hp, List.tail_cons]
  have : decide (rest.length ≠ Config.releaseAt) = !(decide (rest.length ≤ 448) && decide (448 < rest.length + 1)) :=
      by
    by_cases h : rest.length = 448
    · simp [h, Config.releaseAt]
    · have : ¬ (rest.length ≤ 448 ∧ 448 < rest.length + 1) := by omega
      have h' : decide (rest.length ≠ Config.releaseAt) = true := decide_eq_true (by simpa [Config.releaseAt] using h)
      rw [h']
      by_cases a : rest.length ≤ 448 <;> by_cases b : 448 < rest.length + 1 <;> simp_all
  rw [this]; simp [hf, hp]

theorem run_take_succ (s : State) (n : Nat) :
    s.run (List.replicate (n + 1) .frameDelimiterTake) =
    ({ s with dev := frameDelimiterTake (pulseNext s.pending) s.dev } : State).run
      (List.replicate n .frameDelimiterTake) := rfl

theorem shrunk_shrunk (d : Device) (a b c : List LinkWord) (y : Delimiter) (hf : d.feed.fifo = a)
    (h1 : b.length ≤ a.length) (h2 : c.length ≤ b.length) :
    (setDelim (d.shrunk b) y).shrunk c = setDelim (d.shrunk c) y := by
  have : ((d.feed.busy && !(decide (b.length ≤ 448) && decide (448 < a.length))) && !(decide (c.length ≤ 448) &&
      decide (448 < b.length))) = (d.feed.busy && !(decide (c.length ≤ 448) && decide (448 < a.length))) := by
    cases d.feed.busy
    · rfl
    · simp only [Bool.true_and]
      by_cases p : b.length ≤ 448 <;> by_cases q : 448 < a.length <;> by_cases r : c.length ≤ 448 <;> by_cases t :
          448 < b.length <;> simp [p, q, r, t] <;> omega
  unfold setDelim Device.shrunk
  simp only [hf, this]

/-- R167, R169: the body words of a frame taken to its end. -/
theorem run_body (kind : FrameKind) (q : BitVec 8) (rest : List LinkWord) (v : Word) (body acc : List Word)
    (s : State) (hd : s.dev.feed.delim = .opened kind q acc) (hp : s.dev.feed.presented = [])
    (hc : s.dev.command = .free) (hb : bodyLength kind q = some (acc.length + (v :: body).length))
    (hf : s.dev.feed.fifo = (v :: body).map (fun v => ({ head := false, data := v } : LinkWord)) ++ rest) :
    s.run (List.replicate (v :: body).length .frameDelimiterTake) =
    { s with
      dev := handOn (pulseNext s.pending) (setDelim (s.dev.shrunk rest) (.complete kind q)) kind q
        (acc ++ v :: body) } := by
  induction body generalizing acc s v with
  | nil =>
    have hf' : s.dev.feed.fifo = { head := false, data := v } :: rest := hf
    have : frameDelimiterTake (pulseNext s.pending) s.dev =
        handOn (pulseNext s.pending) (setDelim (s.dev.shrunk rest) (.complete kind q)) kind q (acc ++ [v]) := by
      unfold frameDelimiterTake
      simp only [hf', responseWaiting_free _ hc, Bool.false_eq_true, if_false]
      rw [popWord_shrunk _ _ _ hf' hp]
      unfold takeBody
      have : (s.dev.shrunk rest).feed.delim = .opened kind q acc := hd
      rw [this]; simp only [hb]
      rw [if_pos (by simp)]
    show (State.run _ _) = _
    simp only [List.length_singleton, List.replicate_one]
    show ({ s with dev := frameDelimiterTake (pulseNext s.pending) s.dev } : State) = _
    rw [this]
  | cons u body ih =>
    have hf' : s.dev.feed.fifo = { head := false, data := v } :: ((u :: body).map (fun v =>
        ({ head := false, data := v } : LinkWord)) ++ rest) := hf
    have : frameDelimiterTake (pulseNext s.pending) s.dev = setDelim (s.dev.shrunk ((u :: body).map (fun v =>
        ({ head := false, data := v } : LinkWord)) ++ rest)) (.opened kind q (acc ++ [v])) := by
      unfold frameDelimiterTake
      simp only [hf', responseWaiting_free _ hc, Bool.false_eq_true, if_false]
      rw [popWord_shrunk _ _ _ hf' hp]
      unfold takeBody
      have : (s.dev.shrunk ((u :: body).map (fun v => ({ head := false, data := v } : LinkWord)) ++ rest)).feed.delim
          = .opened kind q acc := hd
      rw [this]; simp only [hb]
      rw [if_neg (by simp)]
    rw [List.length_cons, run_take_succ, this]
    let behind : List LinkWord := (u :: body).map (fun v => ({ head := false, data := v } : LinkWord)) ++ rest
    rw [ih u (acc ++ [v]) { s with dev := setDelim (s.dev.shrunk behind) (.opened kind q (acc ++ [v])) } rfl hp hc
      (by rw [hb]; simp; omega) rfl]
    have : (setDelim (s.dev.shrunk ((u :: body).map (fun v => ({ head := false, data := v } : LinkWord)) ++ rest))
        (.opened kind q (acc ++ [v]))).shrunk rest = setDelim (s.dev.shrunk rest) (.opened kind q (acc ++ [v])) :=
      shrunk_shrunk _ _ _ _ _ hf' (by simp) (by simp; omega)
    show ({ s with
      dev := handOn (pulseNext s.pending) (setDelim (Device.shrunk (setDelim _ _) rest) _) kind q
        ((acc ++ [v]) ++ u :: body) } : State) = _
    rw [this]
    have e : acc ++ [v] ++ u :: body = acc ++ v :: u :: body := by simp
    rw [e]; rfl

theorem observationsOf_length (body : List Word) : 3 * (observationsOf body).length ≤ body.length ∧
    body.length < 3 * (observationsOf body).length + 3 := by
  fun_induction observationsOf body with
  | case1 a b c rest ih => simp; omega
  | case2 l h => 
    match l, h with
    | [], _ => simp
    | [a], _ => simp
    | [a, b], _ => simp
    | a :: b :: c :: r, h => exact absurd rfl (h a b c r)

/-- R166: a scan part of a complete body carries the observations its head word counts. -/
theorem scanPartOf_length (side : Side) (q : BitVec 8) (body : List Word)
    (hb : bodyLength (.scan side) q = some body.length) :
    (scanPartOf side body).observations.length = q.toNat := by
  cases side
  · have hb : some (3 + 3 * q.toNat) = some body.length := hb
    simp only [Option.some.injEq] at hb
    match body, hb with
    | [], hb => exact absurd hb (by simp; try omega)
    | [a], hb => exact absurd hb (by simp; try omega)
    | [a, b], hb => exact absurd hb (by simp; try omega)
    | a :: b :: c :: r, hb =>
      have := observationsOf_length r
      simp at hb
      show (observationsOf r).length = _
      omega
  · have hb : some (2 + 3 * q.toNat) = some body.length := hb
    simp only [Option.some.injEq] at hb
    match body, hb with
    | [], hb => exact absurd hb (by simp; try omega)
    | [a], hb => exact absurd hb (by simp; try omega)
    | a :: b :: r, hb =>
      have := observationsOf_length r
      simp at hb
      show (observationsOf r).length = _
      omega

/-- R169, R170: the row that stands for a frame. -/
theorem run_row (s : State) (kind : FrameKind) (q : BitVec 8) (body : List Word) (row : Instr) (hr : s.dev.ready)
    (hb : bodyLength kind q = some body.length) (hq : ∀ side, kind = .scan side → q.toNat ≤ 8)
    (h : frameRow kind q body = some row) :
    s.run [row] = { s with dev := handOn (pulseNext s.pending) (setDelim s.dev (.complete kind q)) kind q body } := by
  have fin : ∀ k, exec row s = s.after (deliver k q body s.dev) → kind = .command k → k ≠ .closeTally →
      s.run [row] = { s with dev := handOn (pulseNext s.pending) (setDelim s.dev (.complete kind q)) kind q body } := by
    intro k h2 h3 h4
    have : s.run [row] = { s with dev := deliver k q body s.dev } := by unfold State.run; rw [h2]; rfl
    rw [this, deliver, takeFrame_ready _ _ _ _ _ hr, h3, handOn_execute _ _ _ _ _ (.inr h4)]
  have close : exec row s = s.after (deliverCloseTally (pulseNext s.pending) q s.dev) →
      kind = .command .closeTally → body = [] →
      s.run [row] = { s with dev := handOn (pulseNext s.pending) (setDelim s.dev (.complete kind q)) kind q body } := by
    intro h2 h3 h4
    have : s.run [row] = { s with dev := deliverCloseTally (pulseNext s.pending) q s.dev } := by
      unfold State.run; rw [h2]; rfl
    rw [this, deliverCloseTally, takeFrame_ready _ _ _ _ _ hr, h3, h4]
  cases kind with
  | scan side =>
    cases h
    have hl := scanPartOf_length side q body hb
    have hs : (scanPartOf side body).side = side := by unfold scanPartOf; split <;> rfl
    have h8 := hq side rfl
    show ({ s with dev := deliverPart (scanPartOf side body) s.dev } : State) = _
    unfold deliverPart partCount
    rw [takeFrame_ready _ _ _ _ _ hr, hl, hs, if_neg (by show ¬ 8 < _; omega)]
    have : BitVec.ofNat 8 q.toNat = q := by simp
    rw [this]; rfl
  | command c =>
    unfold frameRow at h
    split at h
    · next he => cases he
    all_goals first
      | (next he => cases he; cases h; exact close rfl rfl rfl)
      | (next he => cases he; cases h; exact fin _ rfl rfl (by decide))
      | (next he => cases h)

/-- R169, R178: a frame's words presented one after the other are the frame queued. -/
theorem run_feedLinkWords (s : State) (ws : List LinkWord) :
    s.run (ws.map .feedLinkWord) = { s with dev := queueFrame ws s.dev } := by
  induction ws generalizing s with
  | nil => rfl
  | cons w ws ih => exact ih { s with dev := feedLinkWord w s.dev }

/-! ## Bit fields -/

theorem extract_append_left {m n : Nat} (a : BitVec m) (b : BitVec n) (st l : Nat) (h : n ≤ st) :
    (a ++ b).extractLsb' st l = a.extractLsb' (st - n) l := by
  apply BitVec.eq_of_getLsbD_eq; intro i hi
  rw [BitVec.getLsbD_extractLsb', BitVec.getLsbD_extractLsb', BitVec.getLsbD_append, if_neg (by omega)]
  have : st + i - n = st - n + i := by omega
  rw [this]

theorem extract_append_right {m n : Nat} (a : BitVec m) (b : BitVec n) (st l : Nat) (h : st + l ≤ n) :
    (a ++ b).extractLsb' st l = b.extractLsb' st l := by
  apply BitVec.eq_of_getLsbD_eq; intro i hi
  rw [BitVec.getLsbD_extractLsb', BitVec.getLsbD_extractLsb', BitVec.getLsbD_append, if_pos (by omega)]

theorem extract_all {m : Nat} (a : BitVec m) : a.extractLsb' 0 m = a := by simp

theorem getLsbD_of_extract {n : Nat} (v : BitVec n) (k : Nat) (b : Bool) (h : v.extractLsb' k 1 = BitVec.ofBool b) :
    v.getLsbD k = b := by
  have := congrArg (·.getLsbD 0) h
  simpa [BitVec.getLsbD_extractLsb'] using this

/-! ## Scan parts (R31 to R36) -/

theorem exec_scanPart_ready (s : State) (p : ScanPart) (hr : s.dev.ready) : exec (.scanPart p) s = s.after (if 8 <
    p.observations.length then linkError (setDelim s.dev .discard) (.badCount p.side p.observations.length) else
    takePart p (s.dev.received p)) := by
  show s.after (deliverPart p s.dev) = _
  unfold deliverPart
  rw [takeFrame_ready _ _ _ _ _ hr]; rfl

theorem find_past (older rest : List ItemRecord) (r : ItemRecord) (f : ItemRecord → Bool)
    (ho : ∀ q ∈ older, f q = false) (h : f r = true) : (older ++ r :: rest).find? f = some r := by
  rw [List.find?_append]
  have : older.find? f = none := by rw [List.find?_eq_none]; intro q hq; rw [ho q hq]; simp
  rw [this]; simp [h]

theorem exec_scanPart_active (s : State) (p : ScanPart) (hr : s.dev.ready) (ha : s.dev.active = true)
    (hl : p.observations.length ≤ 8) : exec (.scanPart p) s = s.after (bindPart (s.dev.received p) p) := by
  rw [exec_scanPart_ready s p hr, if_neg (by omega)]
  unfold takePart
  have : (s.dev.received p).active = true := ha
  rw [if_pos this]

/-! ## The choice of a mark (R56) -/

theorem foldl_max_spec (l : List Nat) (a : Nat) : a ≤ l.foldl max a ∧ (∀ x ∈ l, x ≤ l.foldl max a) ∧
    (l.foldl max a = a ∨ l.foldl max a ∈ l) := by
  induction l generalizing a with
  | nil => exact ⟨Nat.le_refl _, fun x h => (by cases h), .inl rfl⟩
  | cons b l ih =>
    obtain ⟨h1, h2, h3⟩ := ih (max a b)
    simp only [List.foldl_cons]
    refine ⟨by omega, fun x hx => ?_, ?_⟩
    · rcases List.mem_cons.1 hx with e | e
      · subst e; omega
      · exact h2 x e
    · rcases h3 with h | h
      · rw [h]; by_cases hab : a ≤ b
        · right; rw [Nat.max_eq_right hab]; exact List.mem_cons_self
        · left; omega
      · right; exact List.mem_cons_of_mem _ h

theorem topPriority_iff (marks : List Classed) (c : Classed) (hc : c ∈ marks) : c.priority = topPriority marks ↔ ∀ m
    ∈ marks, m.priority ≤ c.priority := by
  obtain ⟨h1, h2, h3⟩ := foldl_max_spec (marks.map (fun c => c.priority)) 0
  have ht : (marks.map (fun c => c.priority)).foldl max 0 = topPriority marks := rfl
  rw [ht] at h1 h2 h3
  constructor
  · intro e m hm; rw [e]; exact h2 _ (List.mem_map_of_mem hm)
  · intro h
    have a := h2 _ (List.mem_map_of_mem hc)
    rcases h3 with e | e
    · omega
    · obtain ⟨m, hm, e⟩ := List.mem_map.1 e
      have := h m hm; omega

theorem leastOffset_spec (l : List Classed) : (leastOffset l = none ↔ l = []) ∧ ∀ c, leastOffset l = some c → ∃ b a,
    l = b ++ c :: a ∧ (∀ m ∈ l, c.obs.offsetMm ≤ m.obs.offsetMm) ∧ ∀ m ∈ b, c.obs.offsetMm < m.obs.offsetMm := by
  induction l with
  | nil => exact ⟨by simp [leastOffset], fun c h => by cases h⟩
  | cons x l ih =>
    obtain ⟨i1, i2⟩ := ih
    cases hl : leastOffset l with
    | none =>
      refine ⟨by simp [leastOffset, hl], fun c h => ?_⟩
      have : l = [] := i1.1 hl
      simp only [leastOffset, hl, Option.some.injEq] at h
      subst h; subst this
      exact ⟨[], [], rfl, (by intro m hm; simp at hm; rw [hm]; exact BitVec.le_refl _), by intro m hm; cases hm⟩
    | some y =>
      obtain ⟨b, a, e, h1, h2⟩ := i2 y hl
      refine ⟨by simp only [leastOffset, hl]; split <;> simp, fun c h => ?_⟩
      simp only [leastOffset, hl] at h
      split at h
      · next hlt =>
        cases h
        refine ⟨x :: b, a, by rw [e]; rfl, ?_, ?_⟩
        · intro m hm
          rcases List.mem_cons.1 hm with e' | e'
          · subst e'; exact BitVec.le_of_lt hlt
          · exact h1 m e'
        · intro m hm
          rcases List.mem_cons.1 hm with e' | e'
          · subst e'; exact hlt
          · exact h2 m e'
      · next hlt =>
        cases h
        refine ⟨[], l, rfl, ?_, by intro m hm; cases hm⟩
        intro m hm
        rcases List.mem_cons.1 hm with e' | e'
        · subst e'; exact BitVec.le_refl _
        · have h1 := h1 m e'
          simp only [BitVec.lt_def, BitVec.le_def] at *
          omega

/-- A place in a filtered list, found in the list. -/
theorem filter_split {α} (p : α → Bool) (l b a : List α) (c : α) (h : l.filter p = b ++ c :: a) : ∃ b' a',
    l = b' ++ c :: a' ∧ b'.filter p = b := by
  obtain ⟨front, back, rfl, hb, hback⟩ := List.filter_eq_append_iff.1 h
  obtain ⟨skipped, a', rfl, hs, -, -⟩ := List.filter_eq_cons_iff.1 hback
  refine ⟨front ++ skipped, a', by rw [List.append_assoc], ?_⟩
  rw [List.filter_append, hb, List.filter_eq_nil_iff.2 hs, List.append_nil]

end Sys2Proof.Machine
end

