-- ==== Sys2Proof/Laws/Books.lean ====
section
/-! SUPPORT. Laws of the books (R1, R115, R117): what an operation does to the record numbers and tags, to the counts of
the bins and to the capacities; and the relation `Sums`: an operation that keeps the books and every other invariant. -/

namespace Sys2Proof.Machine

/-! ## The account -/

/-- What the books read of a record: its number, its tag and the bin of its route. -/
def ItemRecord.entry (r : ItemRecord) : RecNo × Option Word × Option (Fin 16) := (r.number, r.tag, r.routeBin)

/-- What the books read of a part, but for the capacities, which are cells of its tables. -/
def Device.account (d : Device) :
    List (RecNo × Option Word × Option (Fin 16)) × Vector (Nat × Nat) 16 × List (Nat × Word) :=
  (d.track.queue.map ItemRecord.entry, d.stacker.bins.map (fun b => (b.fill, b.committed)), d.tables)

theorem binCounts_map (d : Device) (k : Fin 16) :
    (d.stacker.bins.map (fun b => (b.fill, b.committed)))[k] = ((d.bin k).fill, (d.bin k).committed) := by
  simp [Device.bin]

theorem routedTo_entries (d : Device) (k : Fin 16) :
    d.routedTo k = (d.track.queue.map ItemRecord.entry).countP (fun e => decide (e.2.2 = some k)) := by
  rw [List.countP_map]; rfl

theorem numbers_entries (q : List ItemRecord) :
    q.map ItemRecord.number = (q.map ItemRecord.entry).map (fun e => e.1) := by
  rw [List.map_map]; rfl

theorem tags_entries (q : List ItemRecord) :
    q.filterMap ItemRecord.tag = (q.map ItemRecord.entry).filterMap (fun e => e.2.1) := by
  rw [List.filterMap_map]; rfl

/-- The books are a matter of the account alone. -/
theorem books_of_account {d d' : Device} (h : d'.account = d.account) (hb : d.books) : d'.books := by
  simp only [Device.account, Prod.mk.injEq] at h
  obtain ⟨hq, hv, ht⟩ := h
  have hk : ∀ k : Fin 16, (d'.bin k).fill = (d.bin k).fill ∧ (d'.bin k).committed = (d.bin k).committed := by
    intro k
    have := congrArg (fun v : Vector (Nat × Nat) 16 => v[k]) hv
    simp only [binCounts_map, Prod.mk.injEq] at this
    exact this
  obtain ⟨h1, h2, h3, h4⟩ := hb
  refine ⟨?_, ?_, fun k => ?_, fun k hk0 => ?_⟩
  · rw [numbers_entries, hq, ← numbers_entries]; exact h1
  · rw [tags_entries, hq, ← tags_entries]; exact h2
  · rw [(hk k).2, h3 k, routedTo_entries, routedTo_entries, hq]
  · have : d'.binCapacity k = d.binCapacity k := by
      unfold Device.binCapacity Device.num Device.cell; rw [ht]
    rw [(hk k).1, (hk k).2, this]; exact h4 k hk0

theorem account_modify (d : Device) (n : RecNo) (f : ItemRecord → ItemRecord) (hf : ∀ r, (f r).entry = r.entry) :
    (d.modify n f).account = d.account := by
  simp only [Device.account, Device.modify, List.map_map, Prod.mk.injEq, and_true]
  refine List.map_congr_left (fun r _ => ?_)
  simp only [Function.comp]
  split
  · exact hf r
  · rfl

/-- A bin changed but for its counts. -/
theorem account_setBin (d : Device) (k : Fin 16) (b : Bin) (hf : b.fill = (d.bin k).fill)
    (hc : b.committed = (d.bin k).committed) : (d.setBin k b).account = d.account := by
  simp only [Device.account, Prod.mk.injEq]
  refine ⟨rfl, ?_, rfl⟩
  refine Vector.ext (fun i hi => ?_)
  have h := bin_setBin d k ⟨i, hi⟩ b
  have e1 := binCounts_map (d.setBin k b) ⟨i, hi⟩
  have e2 := binCounts_map d ⟨i, hi⟩
  simp only [Fin.getElem_fin] at e1 e2
  rw [e1, e2, h]
  split
  · next e => rw [e, hf, hc]
  · rfl

/-- Settling a bin leaves its counts alone. -/
theorem account_settle (d : Device) (k : Fin 16) : (settleBin d k).account = d.account := by
  obtain ⟨h1, h2, _⟩ := resettle_counts d k (d.bin k)
  exact account_setBin d k _ h1 h2

/-! ## The relation -/

/-- An operation that keeps every invariant, the books among them. -/
structure Sums (d d' : Device) : Prop extends Sound d d' where
  books : d.modal → d.canonical → d.staging → d.books → d'.books

theorem Sums.refl (d : Device) : Sums d d := ⟨Sound.refl d, fun _ _ _ => id⟩

theorem Sums.trans {a b c : Device} (h : Sums a b) (k : Sums b c) : Sums a c :=
  ⟨h.toSound.trans k.toSound,
    fun m x y z => k.books (h.modal m) (h.canonical x) (h.staging m y) (h.books m x y z)⟩

theorem Sums.foldl {α : Type} (f : Device → α → Device) (h : ∀ d x, Sums d (f d x)) (l : List α) (d : Device) :
    Sums d (l.foldl f d) := by
  induction l generalizing d with
  | nil => exact Sums.refl d
  | cons x l ih => exact (h d x).trans (ih (f d x))

/-- An operation that keeps the invariants and leaves the account alone. -/
theorem Safe.sums {d d' : Device} (h : Safe d d') (ha : d'.account = d.account) : Sums d d' :=
  ⟨h.toSound, fun _ _ _ => books_of_account ha⟩

theorem Moves.sums {d d' : Device} (h : Keeps d d') (ha : d'.account = d.account) : Sums d d' := (Moves.safe h).sums ha

/-! ## Operations that leave the account alone -/

theorem account_occur (d : Device) (o : Occurrence) : (occur d o).account = d.account := by cases o <;> rfl

theorem account_dropImprint (d : Device) (n : RecNo) : (dropImprint d n).account = d.account := by
  unfold dropImprint; simp only; split <;> rfl

theorem account_abandonClassification (d : Device) (n : RecNo) : (abandonClassification d n).account = d.account := by
  unfold abandonClassification; split <;> rfl

theorem account_settleImprint (d : Device) (r : ItemRecord) (b : Bool) :
    (settleImprint d r b).1.account = d.account := by
  unfold settleImprint
  split
  · rfl
  · exact account_dropImprint d _
  · exact account_dropImprint d _
  · simp only; split <;> rfl
  all_goals rfl

theorem account_countRemoval (d : Device) (r : ItemRecord) (e : ExitKind) :
    (countRemoval d r e).account = d.account := by
  unfold countRemoval countDisposition countGroup countBin
  cases e <;> cases r.disposition <;> cases r.route <;> cases r.classGroup <;> rfl

theorem account_offerBatch (d : Device) : (offerBatch d).account = d.account := by
  unfold offerBatch; split
  · rfl
  · split <;> rfl

theorem account_reportRemoval (d : Device) (r : ItemRecord) (e : ExitKind) :
    (reportRemoval d r e).account = d.account := by
  have h : (appendReport d r e).account = d.account := by unfold appendReport; split <;> rfl
  unfold reportRemoval; simp only; split
  · exact (account_offerBatch _).trans h
  · exact h

theorem account_endPrinted (d : Device) (n : RecNo) : (endPrinted d n).account = d.account :=
  account_modify d n (fun r => { r with imprint := .printed }) (fun _ => rfl)

theorem account_abortPrint (d : Device) : (abortPrint d).account = d.account := by
  unfold abortPrint; split
  · rfl
  · exact account_modify d _ (fun r => r.uncancel .aborted) (fun _ => rfl)

theorem account_preemptPrint (d : Device) : (preemptPrint d).account = d.account := by
  unfold preemptPrint; split
  · rfl
  · exact account_endPrinted d _

theorem account_printDecision (d : Device) (n : RecNo) (p : Pos) (i : ImprintStatus) :
    (printDecision d n p i).account = d.account := by
  unfold printDecision
  split
  · simp only; split
    · exact account_modify d n (fun r => { r with imprint := .printing }) (fun _ => rfl)
    · exact account_modify d n (fun r => r.uncancel .aborted) (fun _ => rfl)
  · exact (account_occur _ (.underrun n true)).trans ((account_dropImprint _ n).trans
      (account_modify d n (fun r => r.uncancel .underrun) (fun _ => rfl)))
  · exact (account_occur _ (.underrun n false)).trans
      (account_modify d n (fun r => r.uncancel .underrun) (fun _ => rfl))
  all_goals rfl

theorem account_printColumnDue (d : Device) : (printColumnDue d).account = d.account := by
  have hs : ∀ p, (releaseColumn (sendColumn d p) p.number).account = d.account := by
    intro p; unfold sendColumn; simp only; split <;> rfl
  unfold printColumnDue; split
  · rfl
  · next p _ =>
    split
    · simp only; split
      · exact (account_endPrinted _ _).trans (hs p)
      · exact hs p
    · rfl

theorem account_haltImprint (d : Device) : (haltImprint d).account = d.account := by
  have hp : (haltPrint d).account = d.account := by
    unfold haltPrint; split
    · rfl
    · exact account_abortPrint d
  unfold haltImprint haltBuild; split
  · exact hp
  · exact (account_dropImprint _ _).trans
      ((account_modify _ _ (fun r => { r with imprint := .aborted }) (fun _ => rfl)).trans hp)

theorem account_placeResponse (d : Device) : (placeResponse d).account = d.account := by
  unfold placeResponse; split
  · rfl
  · rfl
  · split
    · rfl
    · split <;> rfl

theorem account_settlePage (d : Device) : (settlePage d).account = d.account := by
  have h1 : ∀ x : Device, (placePage x).account = x.account := by
    intro x; unfold placePage; split
    · rfl
    · split <;> rfl
  have h2 : ∀ x : Device, (takeDeferred x).account = x.account := by
    intro x; unfold takeDeferred; split <;> rfl
  rw [settlePage, h1, h2, h1]

theorem account_arbiter (d : Device) : (arbiter d).account = d.account := by
  rw [arbiter, account_settlePage, account_placeResponse]

theorem account_respond (d : Device) (k : CommandKind) (t : BitVec 8) (a : Answer) :
    (respond d k t a).account = d.account := account_arbiter _

theorem account_requestClose (d : Device) (c : CloseCauses) : (requestClose d c).account = d.account := by
  unfold requestClose; split <;> rfl

theorem account_requestAutoClose (b : Bool) (d : Device) : (requestAutoClose b d).account = d.account := by
  unfold requestAutoClose; simp only; split
  · exact account_requestClose d _
  · rw [account_arbiter, account_requestClose]

theorem account_holdSuspect (d : Device) : (holdSuspect d).account = d.account := by
  unfold holdSuspect; split <;> rfl

theorem account_gapCheck (d : Device) : (gapCheck d).account = d.account := by
  unfold gapCheck; split
  · split <;> rfl
  all_goals rfl

theorem account_afterWrites (d : Device) (ws : List CellWrite) : (afterWrites d ws).account = d.account := by
  unfold afterWrites; simp only; split
  · refine ((account_holdSuspect _).trans (account_gapCheck _)).trans ?_
    unfold offerOnSettings; split
    · exact account_offerBatch d
    · rfl
  · rfl

theorem account_outRequest (d : Device) (k : Fin 16) : (outRequest d k).account = d.account := by
  unfold outRequest; simp only
  split
  · rfl
  · rfl
  all_goals exact account_setBin d k _ rfl rfl

theorem account_setHeld (d : Device) (k : Fin 16) (b : Bool) : (setHeld d k b).account = d.account :=
  account_setBin d k _ rfl rfl

theorem account_concludeCheck (d : Device) (r : ItemRecord) : (concludeCheck d r).account = d.account := by
  unfold concludeCheck; split
  · rfl
  · split
    · exact account_modify d _ (fun r => { r with faceCheck := some .pass, openCheck := none }) (fun _ => rfl)
    · unfold failCheck; simp only
      have h := account_modify d r.number ItemRecord.failCheck (fun _ => rfl)
      split
      · exact (account_dropImprint _ _).trans h
      · exact h

theorem account_suspectDecision (d : Device) (n : RecNo) (b : Bool) : (suspectDecision d n b).account = d.account := by
  unfold suspectDecision; simp only; split
  · rfl
  · split
    · split <;> rfl
    · rfl

theorem account_linkError (d : Device) (e : LinkError) : (linkError d e).account = d.account := rfl

/-! ## Lists of records -/

/-- A record rewritten among records of different numbers: the others are untouched. -/
theorem map_of_nodup (l : List ItemRecord) (r : ItemRecord) (f : ItemRecord → ItemRecord)
    (hn : (l.map ItemRecord.number).Nodup) (hr : r ∈ l) :
    ∃ a b, l = a ++ r :: b ∧ l.map (fun q => if q.number = r.number then f q else q) = a ++ f r :: b := by
  obtain ⟨a, b, rfl⟩ := List.append_of_mem hr
  refine ⟨a, b, rfl, ?_⟩
  simp only [List.map_append, List.map_cons, List.nodup_append, List.nodup_cons, List.mem_map, List.mem_cons] at hn
  obtain ⟨_, ⟨h1, _⟩, h2⟩ := hn
  have ha : a.map (fun q => if q.number = r.number then f q else q) = a := by
    refine (List.map_congr_left (fun q hq => ?_)).trans (List.map_id a)
    rw [if_neg (fun e => h2 _ ⟨q, hq, rfl⟩ _ (.inl rfl) e)]; rfl
  have hb : b.map (fun q => if q.number = r.number then f q else q) = b := by
    refine (List.map_congr_left (fun q hq => ?_)).trans (List.map_id b)
    rw [if_neg (fun e => h1 ⟨q, hq, e⟩)]; rfl
  rw [List.map_append, List.map_cons, ha, hb, if_pos rfl]

/-- R22: the record found is the one that leaves. -/
theorem eraseP_of_find (l : List ItemRecord) (n : RecNo) (r : ItemRecord)
    (h : l.find? (fun q => decide (q.number = n)) = some r) :
    ∃ a b, l = a ++ r :: b ∧ l.eraseP (fun q => decide (q.number = n)) = a ++ b := by
  induction l with
  | nil => cases h
  | cons x l ih =>
    by_cases hx : x.number = n
    · simp only [List.find?_cons, hx, decide_true, Option.some.injEq] at h
      subst h
      exact ⟨[], l, rfl, by simp [hx]⟩
    · simp only [List.find?_cons, hx, decide_false] at h
      obtain ⟨a, b, e1, e2⟩ := ih h
      exact ⟨x :: a, b, by rw [e1]; rfl, by simp [hx, e2]⟩

/-! ## Routes (R114, R115, R120, R121) -/

/-- R114: a bin 1..15 is chosen only with room. -/
theorem chooseBin_room (d : Device) (p : Fin 16) (t : Route) (h : d.chooseBin p = some t) (h0 : t.bin ≠ 0) :
    (d.bin t.bin).fill + (d.bin t.bin).committed < d.binCapacity t.bin := by
  have key : ∀ k : Fin 16, k ≠ 0 → d.takesRoute k = true → (d.bin k).fill + (d.bin k).committed < d.binCapacity k := by
    intro k hk ht
    simp only [Device.takesRoute, Bool.and_eq_true, Bool.or_eq_true, decide_eq_true_eq] at ht
    exact ht.2.resolve_left hk
  unfold Device.chooseBin at h
  split at h
  · next hp => cases h; exact key _ h0 hp
  · split at h
    · next hp => cases h; exact key _ h0 hp.2
    · split at h
      · cases h; exact absurd rfl h0
      · cases h

/-- R115: a route fixed with room keeps the books. -/
theorem books_fixRoute (d : Device) (n : RecNo) (t : Route) (r : ItemRecord) (hf : d.find n = some r)
    (hr : r.route = none)
    (hroom : t.bin ≠ 0 → (d.bin t.bin).fill + (d.bin t.bin).committed < d.binCapacity t.bin) (hb : d.books) :
    (fixRoute d n t).books := by
  obtain ⟨h1, h2, h3, h4⟩ := hb
  have hnum := find_number d n r hf
  obtain ⟨a, b, e1, e2⟩ := map_of_nodup d.track.queue r (fun r => { r with route := some t }) h1 (find_mem d n r hf)
  have hq : (fixRoute d n t).track.queue = a ++ { r with route := some t } :: b := by rw [← e2, hnum]; rfl
  obtain ⟨c1, c2, _⟩ := resettle_counts d t.bin { d.bin t.bin with committed := (d.bin t.bin).committed + 1 }
  have hbin : ∀ k, (fixRoute d n t).bin k = if k = t.bin then
      d.resettle t.bin { d.bin t.bin with committed := (d.bin t.bin).committed + 1 } else d.bin k :=
    fun k => bin_setBin d t.bin k _
  have hcap : ∀ k, (fixRoute d n t).binCapacity k = d.binCapacity k := fun _ => rfl
  refine ⟨?_, ?_, fun k => ?_, fun k hk => ?_⟩
  · rw [hq]; rw [e1] at h1; simpa using h1
  · rw [hq]; rw [e1] at h2; simpa [List.filterMap_append, List.filterMap_cons] using h2
  · have h3k := h3 k
    unfold Device.routedTo at h3k ⊢
    rw [hq]; rw [e1] at h3k
    simp only [List.countP_append, List.countP_cons, ItemRecord.routeBin, hr, Option.map_none, Option.map_some,
      Option.some.injEq, reduceCtorEq, decide_false, Bool.false_eq_true, if_false, decide_eq_true_eq] at h3k ⊢
    rw [hbin]
    by_cases e : k = t.bin
    · subst e; rw [if_pos rfl, if_pos rfl, c2]; simp only; omega
    · rw [if_neg e, if_neg (fun x => e x.symm)]; omega
  · rw [hcap, hbin]
    split
    · next e => subst e; rw [c1, c2]; have := hroom hk; simp only; omega
    · exact h4 k hk

theorem books_routePoint (d : Device) (n : RecNo) (hb : d.books) : (routePoint d n).books := by
  unfold routePoint
  split
  · exact hb
  · next r hf =>
    split
    · next row hr _ =>
      split
      · next t ht => exact books_of_account rfl (books_fixRoute d n t r hf hr (chooseBin_room d _ t ht) hb)
      · exact hb
    · exact hb
    · exact hb

/-- R22 steps 1 and 5, R120, R121: a record leaves and its route is settled. -/
theorem books_removeRecord (d : Device) (n : RecNo) (e : ExitKind) (hb : d.books) : (removeRecord d n e).books := by
  cases hf : d.find n with
  | none => rw [removeRecord_none d n e hf]; exact hb
  | some r =>
    rw [removeRecord_eq d n e r hf]
    refine books_of_account (account_reportRemoval _ _ _) (books_of_account (account_countRemoval _ _ _) ?_)
    have hx : (settleImprint (abandonClassification (leaveTrack d n) n) r (decide (e = .stacked))).1.account =
        (leaveTrack d n).account := (account_settleImprint _ _ _).trans (account_abandonClassification _ _)
    have hr := (removalFrame_settleImprint (abandonClassification (leaveTrack d n) n) r (decide (e =
        .stacked))).2.2.2.2.2.1
    revert hx hr
    generalize settleImprint (abandonClassification (leaveTrack d n) n) r (decide (e = .stacked)) = x
    intro hx hr
    obtain ⟨h1, h2, h3, h4⟩ := hb
    obtain ⟨a, b, e1, e2⟩ := eraseP_of_find d.track.queue n r hf
    have hq : (leaveTrack d n).track.queue = a ++ b := e2
    simp only [Device.account, Prod.mk.injEq] at hx
    obtain ⟨xq, xv, xt⟩ := hx
    have hk : ∀ k : Fin 16, (x.1.bin k).fill = (d.bin k).fill ∧ (x.1.bin k).committed = (d.bin k).committed := by
      intro k
      have := congrArg (fun v : Vector (Nat × Nat) 16 => v[k]) xv
      simp only [binCounts_map, Prod.mk.injEq] at this
      exact this
    obtain ⟨_, s1, _, _, _, _, s2, s3⟩ := removalFrame_settleRoute x.1 x.2 e
    have st : (settleRoute x.1 x.2 e).tables = d.tables := (removalFrame_settleRoute x.1 x.2 e).1.tables.trans xt
    have sub : List.Sublist (a ++ b) (a ++ r :: b) := List.Sublist.append (List.Sublist.refl a)
        (List.sublist_cons_self r b)
    rw [hr] at s2 s3
    have hcap : ∀ k, (settleRoute x.1 x.2 e).binCapacity k = d.binCapacity k := by
      intro k; unfold Device.binCapacity Device.num Device.cell; rw [st]
    have hrt : ∀ k, (settleRoute x.1 x.2 e).routedTo k = (a ++ b).countP (fun r => decide (r.routeBin = some k)) := by
      intro k
      rw [routedTo_entries, s1, xq, hq, List.countP_map]; rfl
    have hct : ∀ k, (d.bin k).committed = (a ++ b).countP (fun r => decide (r.routeBin = some k)) +
        if r.routeBin = some k then 1 else 0 := by
      intro k
      rw [h3 k, Device.routedTo, e1]
      simp only [List.countP_append, List.countP_cons, decide_eq_true_eq]; omega
    have hbin : ∀ k, ((settleRoute x.1 x.2 e).bin k).committed + (if r.routeBin = some k then 1 else 0) =
          (d.bin k).committed ∧
        ((settleRoute x.1 x.2 e).bin k).fill ≤ (d.bin k).fill + if r.routeBin = some k then 1 else 0 := by
      intro k
      by_cases hk' : r.routeBin = some k
      · obtain ⟨t, ht, hte⟩ : ∃ t, r.route = some t ∧ t.bin = k := by
          unfold ItemRecord.routeBin at hk'
          cases hrr : r.route with
          | none => rw [hrr] at hk'; cases hk'
          | some t => rw [hrr] at hk'; exact ⟨t, rfl, by simpa using hk'⟩
        obtain ⟨u1, u2⟩ := s2 t ht
        rw [hte] at u1 u2
        have := hct k
        rw [if_pos hk'] at this ⊢
        rw [u1, u2, (hk k).1, (hk k).2]
        refine ⟨by omega, ?_⟩
        split <;> omega
      · rw [if_neg hk', s3 k hk', (hk k).1, (hk k).2]
        exact ⟨rfl, Nat.le_refl _⟩
    refine ⟨?_, ?_, fun k => ?_, fun k hk0 => ?_⟩
    · rw [numbers_entries, s1, xq, hq, ← numbers_entries]
      rw [e1] at h1; exact h1.sublist (sub.map _)
    · rw [tags_entries, s1, xq, hq, ← tags_entries]
      rw [e1] at h2; exact h2.sublist (sub.filterMap _)
    · have := hct k; have := (hbin k).1; rw [hrt]; omega
    · have := h4 k hk0; have := hbin k; rw [hcap]; omega

theorem sums_removeRecord (d : Device) (n : RecNo) (e : ExitKind) : Sums d (removeRecord d n e) :=
  ⟨(Moves.safe (keeps_removeRecord d n e)).toSound, fun _ _ _ => books_removeRecord d n e⟩

theorem sums_routePoint (d : Device) (n : RecNo) : Sums d (routePoint d n) :=
  ⟨(Moves.safe (keeps_routePoint d n)).toSound, fun _ _ _ => books_routePoint d n⟩

theorem sums_purgeAll (d : Device) : Sums d (purgeAll d) :=
  Sums.foldl _ (fun d n => sums_removeRecord d n .purged) _ d

theorem sums_loseRecord (d : Device) (r : ItemRecord) (st : Station) : Sums d (loseRecord d r st) :=
  (sums_removeRecord d _ .lost).trans (Moves.sums (keeps_occur _ _) (account_occur _ _))

theorem sums_returnRequest (d : Device) (k : Fin 16) : Sums d (returnRequest d k) := by
  refine ⟨(Moves.safe (keeps_returnRequest d k)).toSound, fun _ _ _ hb => ?_⟩
  obtain ⟨h1, h2, h3, h4⟩ := hb
  have hbin := fun j => bin_setBin d k j
    { (if (d.bin k).state = .outPending then d.bin k else { d.bin k with fill := 0 }) with
      state := d.settled k (if (d.bin k).state = .outPending then d.bin k else { d.bin k with fill := 0 }) }
  refine ⟨h1, h2, fun j => ?_, fun j hj => ?_⟩
  · show ((d.setBin k _).bin j).committed = d.routedTo j
    rw [hbin j, ← h3 j]
    split
    · next e => subst e; simp only; split <;> rfl
    · rfl
  · show ((d.setBin k _).bin j).fill + ((d.setBin k _).bin j).committed ≤ d.binCapacity j
    have := h4 j hj
    rw [hbin j]
    split
    · next e => subst e; simp only; split <;> (try dsimp only) <;> omega
    · exact this

/-! ## Binding (R31, R32) -/

theorem books_bindTagged (d : Device) (r : ItemRecord) (f : ItemRecord → ItemRecord) (hr : r ∈ d.track.queue)
    (hf : (f r).entry = r.entry) (hb : d.books) : (d.modify r.number f).books := by
  obtain ⟨a, b, e1, e2⟩ := map_of_nodup d.track.queue r f hb.1 hr
  refine books_of_account ?_ hb
  simp only [Device.account, Prod.mk.injEq]
  refine ⟨?_, rfl, rfl⟩
  show (d.track.queue.map _).map _ = _
  rw [e2, e1]; simp [hf]

theorem books_bindUntagged (d : Device) (r : ItemRecord) (f : ItemRecord → ItemRecord) (tag : Word)
    (hr : r ∈ d.track.queue) (hn : r.tag = none) (hnone : ∀ q ∈ d.track.queue, q.tag ≠ some tag)
    (hf : (f r).entry = (r.number, some tag, r.routeBin)) (hb : d.books) : (d.modify r.number f).books := by
  obtain ⟨h1, h2, h3, h4⟩ := hb
  obtain ⟨a, b, e1, e2⟩ := map_of_nodup d.track.queue r f h1 hr
  have hq : (d.modify r.number f).track.queue = a ++ f r :: b := e2
  simp only [ItemRecord.entry, Prod.mk.injEq] at hf
  obtain ⟨f1, f2, f3⟩ := hf
  refine ⟨?_, ?_, fun k => ?_, h4⟩
  · rw [hq]; rw [e1] at h1; simpa [f1] using h1
  · rw [hq]
    rw [e1] at h2 hnone
    have hno : ∀ q ∈ a ++ b, q.tag ≠ some tag := by
      intro q hq; refine hnone q ?_
      rcases List.mem_append.mp hq with h | h
      · exact List.mem_append_left _ h
      · exact List.mem_append_right _ (List.mem_cons_of_mem _ h)
    have h2' : (a.filterMap ItemRecord.tag ++ b.filterMap ItemRecord.tag).Nodup := by
      simpa [List.filterMap_append, List.filterMap_cons, hn] using h2
    have : (a ++ f r :: b).filterMap ItemRecord.tag = a.filterMap ItemRecord.tag ++ tag :: b.filterMap ItemRecord.tag :=
      by
      simp [List.filterMap_append, f2]
    rw [this, List.nodup_middle]
    refine List.nodup_cons.mpr ⟨fun hm => ?_, h2'⟩
    rw [← List.filterMap_append, List.mem_filterMap] at hm
    obtain ⟨q, hqm, hqt⟩ := hm
    exact hno q hqm hqt
  · have := h3 k
    show (d.bin k).committed = _
    unfold Device.routedTo at this ⊢
    rw [hq, this, e1]
    simp [List.countP_append, List.countP_cons, f3]

theorem ItemRecord.entry_bind (r : ItemRecord) (p : ScanPart) (s : RecordState) :
    (r.bind p s).entry = (r.number, some p.tag, r.routeBin) := by
  unfold ItemRecord.bind ItemRecord.checkPart ItemRecord.storePart; cases p.side <;> rfl

theorem ItemRecord.entry_late (r : ItemRecord) (p : ScanPart) :
    ({ r.gotSide p.side with tag := some p.tag } : ItemRecord).entry = (r.number, some p.tag, r.routeBin) := by
  unfold ItemRecord.gotSide; cases p.side <;> rfl

theorem sums_takePart (p : ScanPart) (d : Device) : Sums d (takePart p d) := by
  refine ⟨(Moves.safe (keeps_takePart p d)).toSound, fun _ _ _ hb => ?_⟩
  unfold takePart
  split
  · unfold bindPart
    split
    · next r hr =>
      have hm := List.mem_of_find?_eq_some hr
      have ht : r.tag = some p.tag := by simpa using List.find?_some hr
      have he : r.entry = (r.number, some p.tag, r.routeBin) := by rw [← ht]; rfl
      unfold bindTagged
      split
      · exact books_of_account rfl hb
      · split
        · exact books_of_account rfl
            (books_bindTagged d r _ hm ((ItemRecord.entry_late r p).trans he.symm) hb)
        · exact books_bindTagged d r _ hm ((ItemRecord.entry_bind r p .ready).trans he.symm) hb
    · next hno =>
      have hno' : ∀ q ∈ d.track.queue, q.tag ≠ some p.tag := by
        intro q hq; simpa using List.find?_eq_none.mp hno q hq
      split
      · next r hr =>
        have hm := List.mem_of_find?_eq_some hr
        have ht : r.tag = none := by simpa using List.find?_some hr
        unfold bindUntagged
        split
        · exact books_of_account rfl
            (books_bindUntagged d r _ p.tag hm ht hno' (ItemRecord.entry_late r p) hb)
        · exact books_bindUntagged d r _ p.tag hm ht hno' (ItemRecord.entry_bind r p .partial_) hb
      · exact books_of_account rfl hb
  · exact books_of_account rfl hb

/-! ## Writes (R118, R193) -/

theorem books_writeCell (d : Device) (w : CellWrite) (hw : w.inTable) (hc : d.canonical) (hb : d.books) :
    (writeCell d w).books := by
  obtain ⟨t1, t2, t3⟩ := writeCell_spec d w hw.2.2
  have hq : (writeCell d w).track = d.track := (applied_writeCell d w).track
  obtain ⟨h1, h2, h3, h4⟩ := hb
  refine ⟨by rw [hq]; exact h1, by rw [hq]; exact h2, fun k => ?_, fun k hk => ?_⟩
  · rw [(t3 k).2.1, h3 k]; unfold Device.routedTo; rw [hq]
  · rw [(t3 k).1, (t3 k).2.1]
    have hcap : (writeCell d w).binCapacity k =
        if cellKey w.table w.row w.field = cellKey 6 k.val 1 then (heldBy d w.table w.row w.field w.value).toNat
        else d.binCapacity k := by
      unfold Device.binCapacity Device.num Device.cell
      rw [t1, storeGet_cellKey _ _ _ hc]
      split <;> rfl
    have hk4 := h4 k hk
    rw [hcap]
    split
    · next e =>
      obtain ⟨a, b, c⟩ := (cellKey_inj _ _ _ _ _ _ (rows512 _ _ hw.1) (fields32 _ _ hw.2.1) (by omega) (by omega)).1 e
      have hf : Fin.ofNat 16 w.row = k := by
        apply Fin.ext; simp [b]
      unfold heldBy
      rw [if_pos ⟨a, c⟩, hf]
      unfold Device.clampCapacity word
      have hlt : d.binCapacity k < 65536 := (d.cell 6 k.val 1).isLt
      rw [BitVec.toNat_ofNat, Nat.mod_eq_of_lt (by omega)]
      omega
    · exact hk4

theorem books_foldWrites (ws : List CellWrite) (d : Device) (hw : ∀ w ∈ ws, w.inTable) (hc : d.canonical)
    (hb : d.books) : (ws.foldl writeCell d).books := by
  induction ws generalizing d with
  | nil => exact hb
  | cons w ws ih =>
    exact ih _ (fun v hv => hw v (List.mem_cons_of_mem _ hv)) ((keeps_writeCell d w).canonical hc)
      (books_writeCell d w (hw w (List.mem_cons_self ..)) hc hb)

theorem books_applyWrites (d : Device) (ws : List CellWrite) (hw : ∀ w ∈ ws, w.inTable) (hc : d.canonical)
    (hb : d.books) : (applyWrites d ws).books := by
  unfold applyWrites
  split
  · exact hb
  · have h := books_of_account (account_afterWrites _ ws) (books_foldWrites ws d hw hc hb)
    simp only
    split
    · exact books_of_account rfl h
    · exact h

theorem books_writeNow (d : Device) (w : CellWrite) (hw : w.inTable) (hc : d.canonical) (hb : d.books) :
    (writeNow d w).books := books_of_account (account_afterWrites _ _) (books_writeCell d w hw hc hb)

theorem sums_applyPoint (d : Device) : Sums d (applyPoint d) := by
  refine ⟨(Moves.safe (keeps_applyPoint d)).toSound, fun _ hc hs hb => ?_⟩
  unfold applyPoint
  split
  · refine books_applyWrites _ _ (fun w hw => ?_) hc hb
    obtain ⟨g, hg, hwg⟩ := List.mem_flatten.mp hw
    exact hs.2.2.2.1 g hg w hwg
  · exact hb

theorem sums_applyIfFreed (b a : Device) : Sums a (applyIfFreed b a) := by
  unfold applyIfFreed
  split
  · exact sums_applyPoint a
  · exact Sums.refl a

theorem sums_gapMet (d : Device) : Sums d (gapMet d) :=
  (Moves.sums (keeps_gapCheck d) (account_gapCheck d)).trans (sums_applyPoint _)

/-- R194: the whole queue applied, its cells lying in their tables. -/
theorem books_applyAll (d : Device) (hg : ∀ g ∈ d.window.groups, ∀ w ∈ g, w.inTable)
    (ho : ∀ w ∈ d.openGroup, w.inTable) (hc : d.canonical) (hb : d.books) : (applyAll d).books := by
  refine books_applyWrites (clearPending d) _ (fun w hw => ?_) hc hb
  rcases List.mem_append.mp hw with h | h
  · obtain ⟨g, hg', hwg⟩ := List.mem_flatten.mp h
    exact hg g hg' w hwg
  · exact ho w h

/-! ## The modes -/

theorem haltImprint_pending (d : Device) :
    (haltImprint d).window = d.window ∧ (haltImprint d).command = d.command ∧ (haltImprint d).tables = d.tables := by
  have hp : (haltPrint d).window = d.window ∧ (haltPrint d).command = d.command ∧ (haltPrint d).tables = d.tables := by
    unfold haltPrint abortPrint
    cases d.imprint.printing <;> exact ⟨rfl, rfl, rfl⟩
  obtain ⟨h1, h2, h3⟩ := hp
  unfold haltImprint haltBuild dropImprint
  split
  · exact ⟨h1, h2, h3⟩
  · simp only
    split <;> exact ⟨h1, h2, h3⟩

theorem sums_enterHalted (d : Device) : Sums d (enterHalted d) := by
  refine ⟨(safe_enterHalted d).toSound, fun _ hc hs hb => ?_⟩
  obtain ⟨h1, h2, h3⟩ := haltImprint_pending (freeClassifier (releaseActuators d))
  have ho : (setMode (haltImprint (freeClassifier (releaseActuators d))) .halted).openGroup = d.openGroup := by
    have hcm : (setMode (haltImprint (freeClassifier (releaseActuators d))) .halted).command = d.command := h2
    unfold Device.openGroup
    rw [hcm]
  refine books_of_account rfl (books_applyAll (setMode (haltImprint (freeClassifier (releaseActuators d))) .halted)
    ?_ ?_ ?_ ?_)
  · show ∀ g ∈ (haltImprint _).window.groups, _
    rw [h1]; exact hs.2.2.2.1
  · rw [ho]; exact hs.2.2.2.2.1
  · show storeWf (haltImprint _).tables = true
    rw [h3]; exact hc
  · exact books_of_account (account_haltImprint (freeClassifier (releaseActuators d))) hb

theorem sums_drainTest (d : Device) : Sums d (drainTest d) := by
  refine ⟨(safe_drainTest d).toSound, fun _ hc hs hb => ?_⟩
  unfold drainTest
  split
  · exact books_of_account rfl
      (books_applyAll (setMode (clearCells (releaseActuators d)) .idle) hs.2.2.2.1 hs.2.2.2.2.1 hc hb)
  · exact hb

theorem sums_afterRemovals (b a : Device) : Sums a (afterRemovals b a) := by
  refine Sums.trans ?_ (sums_applyIfFreed b _)
  split
  · exact sums_drainTest a
  · exact Sums.refl a

theorem account_enterRun (d : Device) : (enterRun d).account = d.account := by
  rw [enterRun_eq]; rfl

theorem sums_feedHeldChange (b : Bool) (d : Device) : Sums d (feedHeldChange b d) := by
  have k : Keeps d { d with inputs := { d.inputs with feedHeld := b } } := Keeps.of_gist rfl rfl
  unfold feedHeldChange
  simp only
  split
  · exact (Moves.sums k rfl).trans (sums_drainTest _)
  · exact Moves.sums k rfl

/-! ## Events of the Track Unit -/

/-- R4: an admission keeps the books where the next number is free. -/
theorem books_admit (d : Device) (hn : d.numberFree) (hb : d.books) : (admitItem d).books := by
  obtain ⟨h1, h2, h3, h4⟩ := hb
  have hq : (admitItem d).track.queue = d.track.queue ++ [newRecord d.track.admission d.track.encoder] := rfl
  refine ⟨?_, ?_, fun k => ?_, h4⟩
  · rw [hq, List.map_append, List.nodup_append]
    refine ⟨h1, by simp, ?_⟩
    intro a ha b hb
    obtain ⟨r, hr, rfl⟩ := List.mem_map.mp ha
    simp only [newRecord, List.map_cons, List.map_nil, List.mem_singleton] at hb
    rw [hb]; exact hn r hr
  · rw [hq, List.filterMap_append]; simpa [newRecord] using h2
  · have := h3 k
    show (d.bin k).committed = _
    unfold Device.routedTo at this ⊢
    rw [hq, this]
    simp [newRecord, ItemRecord.routeBin, List.countP_append]

theorem books_scanCellLeadEdge (d : Device) (hn : d.numberFree) (hb : d.books) : (scanCellLeadEdge d).books := by
  have run : ∀ x : Device, x.track = d.track → x.books → Device.books
      (if (setGap (startJam x 0) .closed).track.queue.length < Config.maxRecords then admitItem (setGap
          (startJam x 0) .closed)
       else occur (leaveUntracked (setGap (startJam x 0) .closed)) (.queueFull (setGap
           (startJam x 0) .closed).track.encoder)) := by
    intro x hx hb
    split
    · refine books_admit _ ?_ (books_of_account rfl hb)
      show ∀ r ∈ x.track.queue, r.number ≠ x.track.admission
      rw [hx]; exact hn
    · exact books_of_account rfl hb
  unfold scanCellLeadEdge
  simp only
  split
  · exact books_of_account rfl hb
  · cases (setBlocked d 0 true).line.mode with
    | halted => exact books_of_account rfl hb
    | idle => exact books_of_account rfl hb
    | run => exact run _ rfl (books_of_account rfl hb)
    | drain => exact run _ rfl (books_of_account rfl hb)

theorem sums_scanCellTrailingEdge (d : Device) : Sums d (scanCellTrailingEdge d) := by
  have k0 : Sums d (setBlocked d 0 false) := Moves.sums (keeps_setBlocked d 0 false) rfl
  have hl : ∀ x : Device, (writeLength x).account = x.account := by
    intro x; unfold writeLength; split
    · exact account_modify x _ (fun r => { r with length := some (x.track.encoder - r.lead) }) (fun _ => rfl)
    all_goals rfl
  unfold scanCellTrailingEdge
  simp only
  split
  · exact k0
  · refine Sums.trans k0 ?_
    have run : ∀ x : Device, Sums x (gapMet (setGap (vacate (writeLength x) 0) (.opened x.track.encoder))) := fun x =>
      ((((Moves.sums (keeps_writeLength x) (hl x)).trans (Moves.sums (keeps_vacate _ 0) rfl)).trans
        (Moves.sums (keeps_setGap _ (.opened x.track.encoder)) rfl)).trans (sums_gapMet _))
    cases (setBlocked d 0 false).line.mode with
    | halted => exact Sums.refl _
    | idle => exact Moves.sums (keeps_vacate _ 0) rfl
    | run => exact run _
    | drain => exact run _

theorem sums_concludeSpan (n : RecNo) (d : Device) : Sums d (concludeSpan n d) := by
  have hw : ∀ x : Device, Sums x (routeWithoutCancel x n) := by
    intro x; unfold routeWithoutCancel; split
    · split
      · exact sums_routePoint x n
      · exact Sums.refl x
    · exact Sums.refl x
  unfold concludeSpan
  split
  · exact Sums.refl d
  · next r _ =>
    split
    · exact (((Moves.sums (keeps_modify d n _)
        (account_modify d n (fun r => { r with checkEnd := none }) (fun _ => rfl))).trans
        (Moves.sums (keeps_concludeCheck _ r) (account_concludeCheck _ r))).trans (hw _)).trans (sums_applyIfFreed d _)
    · exact Sums.refl d

theorem sums_startIfDue (n : RecNo) (d : Device) : Sums d (startIfDue n d) := by
  unfold startIfDue
  split
  · exact Sums.refl d
  · next r _ =>
    split
    · next h =>
      have k1 := (keeps_modify d r.number (fun r => { r with printStart := none })).trans (keeps_preemptPrint _)
      have a1 := (account_preemptPrint _).trans
        (account_modify d r.number (fun r => { r with printStart := none }) (fun _ => rfl))
      have k2 := keeps_printDecision _ r.number d.track.encoder r.imprint (by rw [k1.active]; exact h.1)
      exact (((Moves.sums k1 a1).trans (Moves.sums k2 (account_printDecision _ _ _ _))).trans
        ((sums_routePoint _ _).trans (Moves.sums (keeps_reportConditions _) rfl))).trans (sums_applyIfFreed _ _)
    · exact Sums.refl d

theorem sums_printStart (n : RecNo) (d : Device) : Sums d (printStart n d) :=
  (sums_concludeSpan n d).trans (sums_startIfDue n _)

theorem sums_endOfCheckSpan (n : RecNo) (d : Device) : Sums d (endOfCheckSpan n d) := by
  unfold endOfCheckSpan
  split
  · exact sums_printStart n d
  · exact Sums.refl d

theorem sums_stationSeen (d : Device) (st : Station) (r : ItemRecord) (p : Pos) (h : d.active = true) :
    Sums d (stationSeen d st r p) := by
  have k := keeps_stationSeen d st r p h
  cases st with
  | twist => exact Moves.sums k (by unfold stationSeen; simp only; split <;> rfl)
  | turn => exact Moves.sums k (by unfold stationSeen; simp only; split <;> rfl)
  | cancel =>
    unfold stationSeen
    simp only
    have hm := Moves.sums (keeps_modify d r.number (d.cancelSeen p)) (account_modify d r.number (d.cancelSeen p)
        (fun _ => rfl))
    split
    · exact hm.trans (sums_endOfCheckSpan _ _)
    · exact hm
  | gate j =>
    refine Moves.sums k ?_
    unfold stationSeen
    simp only
    split
    · split
      · exact account_modify d r.number (fun r => { r with gateSeen := true }) (fun _ => rfl)
      · rfl
    · rfl
  | exit => exact (sums_removeRecord d _ .missed).trans (Moves.sums (keeps_occur _ _) (account_occur _ _))

theorem sums_matchEdge (fuel : Nat) (d : Device) (st : Station) (h : d.active =
    true) : Sums d (matchEdge fuel d st) := by
  have stray : ∀ x : Device, Sums x (strayEdge x st) := fun x => Moves.sums (keeps_strayEdge x st) rfl
  induction fuel generalizing d with
  | zero => exact stray d
  | succ fuel ih =>
    unfold matchEdge
    split
    · exact stray d
    · next r _ =>
      simp only
      split
      · exact stray d
      · split
        · have k := Moves.sums ((keeps_modify d r.number
            (fun q => { q with seen := { station := st, pos := d.track.encoder } :: q.seen })).trans
            (keeps_setOccupant _ (stationRow st) (.record r.number)))
            (account_modify d r.number (fun q => { q with seen := { station := st, pos := d.track.encoder } :: q.seen })
              (fun _ => rfl))
          exact k.trans (sums_stationSeen _ st r _ h)
        · exact (sums_loseRecord d r st).trans (ih _ (by rw [(keeps_loseRecord d r st).active]; exact h))

theorem sums_stationLeadEdge (st : Station) (d : Device) : Sums d (stationLeadEdge st d) := by
  have k0 := keeps_setBlocked d (stationRow st) true
  unfold stationLeadEdge
  simp only
  split
  · next h =>
    exact ((Moves.sums (k0.trans (keeps_startJam _ (stationRow st))) rfl).trans (sums_matchEdge _ _ st h.2.1)).trans
      (sums_afterRemovals _ _)
  · exact Moves.sums k0 rfl

theorem sums_stationTrail (d : Device) (st : Station) (n : RecNo) : Sums d (stationTrail d st n) := by
  have k := keeps_stationTrail d st n
  cases st with
  | twist => exact Moves.sums k rfl
  | turn => exact Moves.sums k rfl
  | cancel =>
    refine Moves.sums k (account_modify d n (d.clipAtTrail d.track.encoder) (fun r => ?_))
    unfold Device.clipAtTrail
    simp only
    split
    · rfl
    · rfl
    · split <;> rfl
  | exit => exact Moves.sums k rfl
  | gate j =>
    unfold stationTrail
    simp only
    split
    · exact Sums.refl d
    · split
      · split
        · exact sums_removeRecord d n .stacked
        · exact Sums.refl d
      · exact Sums.refl d

theorem sums_stationTrailingEdge (st : Station) (d : Device) : Sums d (stationTrailingEdge st d) := by
  have k0 := keeps_setBlocked d (stationRow st) false
  have k1 : ∀ x : Device, Sums x (trailOf x st) := by
    intro x; unfold trailOf; split
    · exact sums_stationTrail x st _
    all_goals exact Sums.refl x
  unfold stationTrailingEdge
  simp only
  split
  · exact ((Moves.sums k0 rfl).trans ((k1 _).trans (Moves.sums (keeps_vacate _ _) rfl))).trans (sums_afterRemovals _ _)
  · exact Moves.sums k0 rfl

theorem sums_deadline (n : RecNo) (d : Device) : Sums d (deadline n d) := by
  unfold deadline
  split
  · exact Sums.refl d
  · split
    · exact ((Moves.sums (keeps_modify d n _) (account_modify d n ItemRecord.makeLate (fun _ => rfl))).trans
        (Moves.sums (keeps_abandonClassification _ n) (account_abandonClassification _ n))).trans
            (sums_applyIfFreed d _)
    · exact Sums.refl d

theorem sums_windowExpiry (n : RecNo) (st : Station) (d : Device) : Sums d (windowExpiry n st d) := by
  unfold windowExpiry
  split
  · exact Sums.refl d
  · next r _ =>
    split
    · exact (sums_loseRecord d r st).trans (sums_afterRemovals _ _)
    · exact Sums.refl d

theorem sums_jamExpiry (row : Fin 21) (d : Device) : Sums d (jamExpiry row d) := by
  unfold jamExpiry
  split
  · exact (Moves.sums (keeps_occur d _) rfl).trans (sums_enterHalted _)
  · exact Sums.refl d

theorem sums_fchkAssertion (line : Sensor) (level : Bool) (d : Device) : Sums d (fchkAssertion line level d) := by
  refine Moves.sums (keeps_fchkAssertion line level d) ?_
  unfold fchkAssertion
  simp only
  split
  · simp only [Device.account, markAsserted, setSensor, List.map_map, Prod.mk.injEq, and_true]
    refine List.map_congr_left (fun r _ => ?_)
    simp only [Function.comp, ItemRecord.sees]
    split
    · split <;> rfl
    · rfl
  · rfl

theorem sums_classifierTake (d : Device) : Sums d (classifierTake d) := by
  refine Moves.sums (keeps_classifierTake d) ?_
  unfold classifierTake
  split
  · rfl
  · next n _ => exact account_modify d n (fun r => { r with state := .classifying }) (fun _ => rfl)

theorem sums_decisionComplete (n : RecNo) (d : Device) : Sums d (decisionComplete n d) := by
  unfold decisionComplete
  split
  · exact Sums.refl d
  · next r _ =>
    split
    · exact (((Moves.sums (keeps_modify d n _) (account_modify d n (fun r' => r'.decided (d.decision r))
        (fun _ => rfl))).trans
        (Moves.sums (keeps_suspectDecision _ n _) (account_suspectDecision _ n _))).trans
        (Moves.sums (keeps_freeClassifier _) rfl)).trans (sums_applyPoint _)
    · exact Sums.refl d

theorem sums_buildBegin (d : Device) : Sums d (buildBegin d) := by
  refine Moves.sums (keeps_buildBegin d) ?_
  unfold buildBegin
  split
  · next n t _ =>
    exact account_modify d n (ItemRecord.beginBuild (nextSequence d.imprint.sequence) d.buildDate) (fun _ => rfl)
  · rfl

theorem sums_buildComplete (n : RecNo) (d : Device) : Sums d (buildComplete n d) := by
  unfold buildComplete
  split
  · exact ((Moves.sums (keeps_modify d n _) (account_modify d n (fun r => { r with imprint := .built })
      (fun _ => rfl))).trans
      (Moves.sums (keeps_freeBuilder _) rfl)).trans (sums_applyPoint _)
  · exact Sums.refl d

theorem sums_printReadyAsserted (d : Device) : Sums d (printReadyAsserted d) := by
  refine Moves.sums (keeps_printReadyAsserted d) ?_
  unfold printReadyAsserted
  simp only
  split <;> rfl

/-! ## The encoder -/

theorem sums_takeEvent (d : Device) (e : DueEvent) : Sums d (takeEvent d e) := by
  cases e with
  | columnDue => exact Moves.sums (keeps_printColumnDue d) (account_printColumnDue d)
  | endOfCheckSpan n => exact sums_endOfCheckSpan n d
  | printStart n => exact sums_printStart n d
  | deadline n => exact sums_deadline n d
  | windowExpiry n st => exact sums_windowExpiry n st d
  | gapMet => exact sums_gapMet d
  | applyPoint => exact sums_applyPoint d
  | classifierTake => exact sums_classifierTake d
  | buildBegin => exact sums_buildBegin d
  | jamExpiry row => exact sums_jamExpiry row d

theorem sums_encPulse (d : Device) : Sums d (encPulse d) :=
  (Sums.foldl takeEvent sums_takeEvent d.candidates d).trans
    ⟨sound_advance (takeDue d), fun _ _ _ => books_of_account rfl⟩

/-! ## The bins, the clock and the closes -/

theorem sums_binSwitchAssertion (k : Fin 16) (d : Device) : Sums d (binSwitchAssertion k d) := by
  refine Moves.sums (keeps_binSwitchAssertion k d) ?_
  unfold binSwitchAssertion
  simp only
  split
  · rfl
  · split
    · exact account_setHeld (setBinOutLine d k true) k true
    · exact (account_outRequest _ k).trans (account_setHeld (setBinOutLine d k true) k true)

theorem sums_binSwitchRelease (k : Fin 16) (d : Device) : Sums d (binSwitchRelease k d) := by
  unfold binSwitchRelease
  simp only
  have k1 : Sums d (setBinOutLine d k false) := Moves.sums (keeps_setBinOutLine d k false) rfl
  split
  · exact k1
  · exact ((k1.trans (Moves.sums (keeps_setHeld _ k false) (account_setHeld _ k false))).trans
      (sums_returnRequest _ k)).trans (Moves.sums (keeps_reportConditions _) rfl)

theorem account_secondPulse (b : Bool) (d : Device) : (secondPulse b d).account = d.account := by
  unfold secondPulse
  split
  · rfl
  · unfold moveClock
    simp only
    split
    · unfold rollover
      simp only
      split
      · exact account_requestAutoClose _ _
      · rfl
    · split <;> rfl

theorem account_deferredClose (d : Device) : (deferredClose d).account = d.account := by
  unfold deferredClose
  split
  · refine (account_arbiter _).trans ?_
    unfold takeDeferred; split <;> rfl
  · rfl
  · rfl

theorem account_transmitWord (d : Device) : (transmitWord d).account = d.account := by
  unfold transmitWord
  split
  · rfl
  · split
    · exact account_arbiter _
    · rfl

/-! ## Commands -/

theorem account_serveCloseTally (tag : BitVec 8) (d : Device) : (serveCloseTally tag d).account = d.account := by
  have k := account_requestClose d { command := true, autoClose := false }
  unfold serveCloseTally
  simp only
  split
  · exact (account_placeResponse _).trans k
  · exact (account_arbiter _).trans k

theorem sums_execute (kind : CommandKind) (tag : BitVec 8) (f : Device → Device × Answer) (d : Device)
    (h : Sums d (f d).1) : Sums d (execute kind tag f d) :=
  h.trans ((safe_respond (f d).1 (f d).1.feed.delim kind tag (f d).2).sums (account_respond _ _ _ _))

theorem sums_compareWrite (t r f : Nat) (e v : Word) (d : Device) : Sums d (compareWrite t r f e v d).1 := by
  refine ⟨(Moves.safe (keeps_compareWrite t r f e v d)).toSound, fun _ hc hs hb => ?_⟩
  unfold compareWrite
  split
  · exact hb
  · next hf =>
    have hin : cellReadOnly t r f = false → ∀ x, CellWrite.inTable { table := t, row := r, field := f, value := x } :=
      by
      intro hro x
      unfold compareFault at hf
      repeat' split at hf
      all_goals first
        | (cases hf; done)
        | exact ⟨by simp only; omega, by simp only; omega, hro⟩
    simp only
    split
    · exact hb
    · next hro =>
      have hro : cellReadOnly t r f = false := by simpa using hro
      split
      · exact hb
      · split
        · exact hb
        · split
          · exact books_writeNow d _ (hin hro _) hc hb
          · split
            · exact hb
            · unfold applyPoint
              split
              · refine books_applyWrites _ _ (fun w hw => ?_) hc hb
                obtain ⟨g, hg, hwg⟩ := List.mem_flatten.mp hw
                rcases List.mem_append.mp hg with h | h
                · exact hs.2.2.2.1 g h w hwg
                · rw [List.mem_singleton.mp h] at hwg
                  rw [List.mem_singleton.mp hwg]
                  exact hin hro _
              · exact hb

theorem account_setWindow (d : Device) (w : Window) : (setWindow d w).account = d.account := rfl

theorem sums_runCommand (kind : CommandKind) (body : List Word) (d : Device) (h : d.feed.delim.endless = false) :
    Sums d (runCommand kind body d).1 := by
  have same : ∀ x : Device, (runCommand kind body d).1 = x → x.account = d.account → Sums d x := by
    intro x hx ha
    exact ((hx ▸ safe_runCommand kind body d h)).sums ha
  revert same
  generalize hx : (runCommand kind body d).1 = x
  intro same
  unfold runCommand at hx
  split at hx
  · exact same x rfl (by rw [← hx]; rfl)
  · refine same x rfl ?_
    rw [← hx]; unfold cmdEnterRun; split
    · split
      · rfl
      · exact account_enterRun d
    all_goals rfl
  · rw [← hx]; unfold cmdDrain; split
    · exact ((setMode_safe_active d .drain rfl).sums rfl).trans (sums_drainTest _)
    all_goals exact Sums.refl d
  · rw [← hx]; unfold cmdHalt; split
    · exact Sums.refl d
    all_goals exact sums_enterHalted d
  · refine same x rfl ?_
    rw [← hx]; unfold cmdResume; split
    · split <;> rfl
    all_goals rfl
  · rw [← hx]; unfold cmdPurgeTrack; split
    · exact sums_purgeAll d
    all_goals exact Sums.refl d
  · rw [← hx]
    exact (sums_purgeAll d).trans
      ((safe_softClear _ (by rw [purgeAll_feed]; exact h) (purgeAll_queue d)).sums rfl)
  · exact same x rfl (by rw [← hx]; rfl)
  · exact same x rfl (by rw [← hx]; rfl)
  · exact same x rfl (by rw [← hx]; exact account_requestClose d _)
  · refine same x rfl ?_
    rw [← hx]; unfold cmdAckAttention; split <;> rfl
  · exact same x rfl (by rw [← hx]; rfl)
  · refine same x rfl ?_
    rw [← hx]; unfold selectWindow; split <;> rfl
  · refine same x rfl ?_
    rw [← hx]; unfold readWindow; split
    · rfl
    · split <;> rfl
  · refine same x rfl ?_
    rw [← hx]; unfold readWindow; split
    · rfl
    · split <;> rfl
  · rw [← hx]; exact sums_compareWrite _ _ _ _ _ d
  · refine same x rfl ?_
    rw [← hx]; unfold cmdExchangeCounter; split <;> rfl
  · refine same x rfl ?_
    rw [← hx]; unfold setClock; split
    · rfl
    · simp only; split <;> rfl
  · refine same x rfl ?_
    rw [← hx]; unfold adjustClock; split
    · rfl
    · split <;> rfl
  · exact same x rfl (by rw [← hx]; rfl)
  · refine same x rfl ?_
    rw [← hx]; unfold cmdBinOut; split
    · simp only; split
      · rfl
      · exact account_outRequest d _
    · rfl
  · rw [← hx]; unfold cmdBinReturn; split
    · simp only; split
      · exact Sums.refl d
      · exact (sums_returnRequest d _).trans (Moves.sums (keeps_reportConditions _) rfl)
    · exact Sums.refl d
  · exact same x rfl (by rw [← hx])

/-! ## Open-ended frames -/

theorem account_openFrame (d : Device) (kind : CommandKind) (tag : BitVec 8) :
    (openFrame d kind tag).account = d.account := by
  unfold openFrame
  split
  · rfl
  · simp only
    split <;> rfl

theorem sums_openFrameWord (d : Device) (v : Word) : Sums d (openFrameWord d v) := by
  refine ⟨(Moves.safe (keeps_openFrameWord d v)).toSound, fun _ hc hs hb => ?_⟩
  unfold openFrameWord
  split
  · next f _ =>
    unfold frameWord
    simp only
    split
    · exact books_of_account rfl hb
    · split
      · exact books_of_account rfl hb
      · next w hw =>
        split
        · exact books_of_account rfl hb
        · next he =>
          split
          · exact books_of_account rfl hb
          · next hro =>
            unfold writeWord
            split
            · split <;> exact books_of_account rfl hb
            · have hk : w.cursor < w.size := by simpa [Window.atEnd] using he
              obtain ⟨h1, h2⟩ := w.place_inTable _ (hs.2.2.2.2.2 w hw) hk
              exact books_writeNow _ _ ⟨h1, h2, by simpa using hro⟩ hc (books_of_account rfl hb)
  all_goals exact hb

theorem sums_endOpen (d : Device) : Sums d (endOpen d) := by
  refine ⟨(safe_endOpen d).toSound, fun hm hc hs hb => ?_⟩
  unfold endOpen
  split
  · exact books_of_account rfl hb
  · next kind q _ =>
    unfold closeFrame
    split
    · exact books_of_account rfl hb
    · exact books_of_account rfl hb
    · next f hcf =>
      have s := safe_closeAnswer d (.complete kind q) f (frameAnswer f) hcf
      have b : (respond (setDelim (closeGroup d f) (.complete kind q)) f.kind f.tag (frameAnswer f)).books :=
        books_of_account (account_respond _ _ _ _) (books_of_account rfl hb)
      simp only
      split
      · exact b
      · exact (sums_applyPoint _).books (s.modal hm) (s.canonical hc) (s.staging hm hs) b
  all_goals exact hb

/-! ## Words of the Feed Link -/

theorem account_feedLinkWord (w : LinkWord) (d : Device) : (feedLinkWord w d).account = d.account := by
  unfold feedLinkWord acceptWord
  split
  · rfl
  · split <;> rfl

theorem sums_queueFrame (ws : List LinkWord) (d : Device) : Sums d (queueFrame ws d) :=
  Sums.foldl (fun d w => feedLinkWord w d) (fun x w => (safe_feedLinkWord w x).sums (account_feedLinkWord w x)) ws d

theorem sums_takeFrame (kind : FrameKind) (q : BitVec 8) (body : List Word) (f : Device → Device) (d : Device)
    (hf : ∀ x, x.feed.delim = .complete kind q → Sums x (f x))
    (hs : Safe d (takeFrame kind q body f d)) : Sums d (takeFrame kind q body f d) := by
  refine ⟨hs.toSound, fun hm hc hs hb => ?_⟩
  unfold takeFrame
  split
  · exact hb
  · split
    · simp only
      split
      · exact ((sums_endOpen d).trans (sums_queueFrame _ _)).books hm hc hs hb
      · have s := ((safe_endOpen d).discard (endOpen_receives d)).trans (safe_setDelim _ (.complete kind q) rfl)
        have b := (sums_endOpen d).books hm hc hs hb
        exact (hf _ rfl).books (s.modal hm) (s.canonical hc) (s.staging hm hs) (books_of_account rfl b)
    · exact (sums_queueFrame _ d).books hm hc hs hb

theorem sums_deliver (kind : CommandKind) (tag : BitVec 8) (body : List Word) (d : Device) :
    Sums d (deliver kind tag body d) :=
  sums_takeFrame _ _ _ _ d (fun x hx =>
    sums_execute kind tag _ x (sums_runCommand kind body x (by rw [hx]; rfl))) (safe_deliver kind tag body d)

theorem sums_deliverOpen (kind : CommandKind) (tag : BitVec 8) (words : List Word) (d : Device) :
    Sums d (deliverOpen kind tag words d) :=
  sums_takeFrame _ _ _ _ d (fun x _ =>
    ((((safe_openDelim x _ _).sums rfl).trans ((safe_openFrame _ kind tag rfl).sums (account_openFrame _ _ _))).trans
      (Sums.foldl openFrameWord sums_openFrameWord words _)).trans (sums_endOpen _))
    (safe_deliverOpen kind tag words d)

theorem sums_deliverPart (p : ScanPart) (d : Device) : Sums d (deliverPart p d) := by
  refine sums_takeFrame _ _ _ _ d (fun x hx => ?_) (safe_deliverPart p d)
  split
  · exact ((safe_setDelim x _ (by rw [hx]; rfl)).trans (Moves.safe (keeps_linkError _ _))).sums rfl
  · exact sums_takePart p x

theorem account_popWord (d : Device) : (popWord d).account = d.account := by
  unfold popWord acceptWord; simp only; split <;> rfl

theorem account_countExcess (d : Device) (kind : FrameKind) : (countExcess d kind).account = d.account := by
  cases kind <;> rfl

theorem sums_handOn (p : Bool) (d : Device) (kind : FrameKind) (q : BitVec 8) (body : List Word)
    (h : d.feed.delim.endless = false) : Sums d (handOn p d kind q body) := by
  cases kind with
  | scan side => exact sums_takePart _ d
  | command c =>
    unfold handOn
    simp only
    split
    · exact (safe_serveCloseTally q d).sums (account_serveCloseTally q d)
    · exact sums_execute c q _ d (sums_runCommand c body d h)

theorem sums_deliverCloseTally (p : Bool) (tag : BitVec 8) (d : Device) : Sums d (deliverCloseTally p tag d) :=
  sums_takeFrame _ _ _ _ d (fun x hx => sums_handOn p x _ _ _ (by rw [hx]; rfl)) (safe_deliverCloseTally p tag d)

theorem sums_setDelim (d : Device) (x : Delimiter) (h : d.feed.delim.endless = false) : Sums d (setDelim d x) :=
  (safe_setDelim d x h).sums rfl

theorem sums_openHead (p : Bool) (d : Device) (w : Word) (h : d.feed.delim.endless = false) :
    Sums d (openHead p d w) := by
  have er : ∀ e, Sums d (linkError (setDelim d .discard) e) := fun e =>
    (sums_setDelim d _ h).trans (Moves.sums (keeps_linkError _ _) rfl)
  unfold openHead
  simp only
  split
  · exact er _
  · split
    · exact er _
    · exact sums_setDelim d _ h
  · split
    · exact (sums_setDelim d _ h).trans ((safe_openFrame _ _ _ rfl).sums (account_openFrame _ _ _))
    · exact (sums_setDelim d _ h).trans (sums_handOn _ _ _ _ _ rfl)
    · exact sums_setDelim d _ h

theorem sums_takeBody (p : Bool) (d : Device) (v : Word) : Sums d (takeBody p d v) := by
  unfold takeBody
  split
  · next h => exact (sums_setDelim d _ (by rw [h]; rfl)).trans (Moves.sums (keeps_linkError _ _) rfl)
  · exact Sums.refl d
  · next h =>
    simp only
    split
    · exact (sums_setDelim d _ (by rw [h]; rfl)).trans (sums_handOn _ _ _ _ _ rfl)
    · exact sums_setDelim d _ (by rw [h]; rfl)
  · next h =>
    exact ((sums_setDelim d _ (by rw [h]; rfl)).trans ((keeps_countExcess _ _).sums (account_countExcess _ _))).trans
      (Moves.sums (keeps_linkError _ _) rfl)
  · exact (keeps_countExcess d _).sums (account_countExcess _ _)
  · exact sums_openFrameWord d v
  · exact Sums.refl d

theorem sums_frameDelimiterTake (p : Bool) (d : Device) : Sums d (frameDelimiterTake p d) := by
  have pop : ∀ x : Device, x.feed.fifo ≠ [] → Sums x (popWord x) :=
      fun x h => (safe_popWord x h).sums (account_popWord x)
  unfold frameDelimiterTake
  split
  · exact Sums.refl d
  · next w rest hf =>
    split
    · exact Sums.refl d
    · split
      · simp only
        split
        · exact sums_endOpen d
        · refine ((sums_endOpen d).trans (pop _ ?_)).trans (sums_openHead _ _ _ ?_)
          · rw [endOpen_fifo, hf]; simp
          · rw [popWord_delim]; exact endOpen_delim d
      · exact (pop d (by rw [hf]; simp)).trans (sums_takeBody _ _ _)

/-! ## The resets -/

/-- A part without records whose bins hold nothing keeps its books. -/
theorem books_of_empty (d : Device) (hq : d.track.queue = [])
    (hb : ∀ k : Fin 16, (d.bin k).fill = 0 ∧ (d.bin k).committed = 0) : d.books := by
  refine ⟨by simp [hq], by simp [hq], fun k => ?_, fun k _ => ?_⟩
  · rw [(hb k).2]; simp [Device.routedTo, hq]
  · rw [(hb k).1, (hb k).2]; exact Nat.zero_le _

theorem books_reset (inp : Inputs) : (Device.reset inp).books :=
  books_of_empty _ rfl (fun k => by simp [Device.bin, Device.reset, StackerUnit.reset, Bin.reset])

theorem sums_powerOnReset (d : Device) : Sums d (powerOnReset d) :=
  ⟨sound_powerOnReset d, fun _ _ _ _ => books_reset _⟩

theorem sums_lineReset (d : Device) : Sums d (lineReset d) :=
  ⟨sound_lineReset d, fun _ _ _ _ => books_of_empty _ rfl (fun k => by
    simp [Device.bin, lineReset, Device.reset, StackerUnit.reset, Bin.reset])⟩

theorem sums_resetRelease (d : Device) : Sums d (resetRelease d) := by
  refine (safe_resetRelease d).sums ?_
  unfold resetRelease
  split
  · simp only [Device.account, Prod.mk.injEq, and_true, true_and]
    refine Vector.ext (fun i hi => ?_)
    simp
  · rfl

end Sys2Proof.Machine
end

