-- ==== Sys2Proof/Laws/Applied.lean ====
section
/-! SUPPORT. Laws of the writes the tables take: one write, writes in order, and what the blocks do after them, each
with everything it changes (R117, R118, R144, R157, R185, R193, R194). -/

namespace Sys2Proof.Machine

/-- R131: what counting does to each period counter. -/
theorem countBy_get (d : Device) (i j : Fin 56) (n : Nat) :
    (d.countBy i n).tally.counters[j] = d.tally.counters[j] + if j = i then BitVec.ofNat 32 n else 0 := by
  show (upd d.tally.counters i _)[j] = _
  by_cases h : j = i
  · subst h; rw [upd_same, if_pos rfl]
  · rw [upd_other _ _ _ _ (Ne.symm h), if_neg h]; simp

/-- A test over a list with one more write. -/
theorem any_concat (ws : List CellWrite) (w : CellWrite) (p : CellWrite → Bool) :
    (ws ++ [w]).any p = (ws.any p || p w) := by
  simp [List.any_append]

/-- R117: the settled state, spelled out. -/
theorem settled_eq (d : Device) (k : Fin 16) (b : Bin) : d.settled k b = d.settledSpelled k b.fill b.committed := by
  unfold Device.settled settledState Device.binEnable Device.binCapacity Device.flag
  by_cases h : d.num 6 k.val 0 = 0 <;> simp [h]

/-- R117: what settling does to a bin. -/
theorem resettle_eq (d : Device) (k : Fin 16) (b : Bin) : d.resettle k b =
    { b with
      state := if b.state = .outPending ∨ b.state = .out then b.state else d.settledSpelled k b.fill b.committed } := by
  rw [← settled_eq]
  rcases b with ⟨fl, cm, st, hd⟩
  unfold Device.resettle
  cases st <;> simp only [reduceCtorEq, or_false, false_or, if_true, if_false]

/-- R117: a settled bin is neither OUT_PENDING nor OUT. -/
theorem settledSpelled_not_out (d : Device) (k : Fin 16) (f c : Nat) :
    ¬ (d.settledSpelled k f c = .outPending ∨ d.settledSpelled k f c = .out) := by
  unfold Device.settledSpelled
  split
  · simp
  · split
    · simp
    · split <;> simp

/-- R193: one write: the bin it settles. -/
theorem writeCell_bin (d : Device) (w : CellWrite) (h : w.inTable) (k : Fin 16) : (writeCell d w).bin k =
    if w.table = 6 ∧ w.row = k.val ∧ w.field < 2 then (writeCell d w).resettle k (d.bin k) else d.bin k := by
  obtain ⟨t, r, f, v⟩ := w
  obtain ⟨h1, h2, h3⟩ := h
  unfold writeCell; simp only at h1 h2 h3 ⊢
  rw [h3]; simp only [Bool.false_eq_true, if_false]
  have hres : ∀ (x : Device) (j : Fin 16), ∀ b, (settleBin x j).resettle k b = x.resettle k b := fun _ _ _ => rfl
  split
  · have hr : r < 16 := h1
    have hk : (Fin.ofNat 16 r = k) ↔ r = k.val := by rw [Fin.ext_iff]; simp [Nat.mod_eq_of_lt hr]
    by_cases e : r = k.val
    · rw [if_pos ⟨rfl, e, by omega⟩, hk.2 e, hres]; unfold settleBin; rw [bin_setBin, if_pos rfl]; rfl
    · rw [if_neg (fun x => e x.2.1)]; unfold settleBin; rw [bin_setBin, if_neg (fun x => e (hk.1 x.symm))]; rfl
  · have hr : r < 16 := h1
    have hk : (Fin.ofNat 16 r = k) ↔ r = k.val := by rw [Fin.ext_iff]; simp [Nat.mod_eq_of_lt hr]
    by_cases e : r = k.val
    · rw [if_pos ⟨rfl, e, by omega⟩, hk.2 e, hres]; unfold settleBin; rw [bin_setBin, if_pos rfl]; rfl
    · rw [if_neg (fun x => e x.2.1)]; unfold settleBin; rw [bin_setBin, if_neg (fun x => e (hk.1 x.symm))]; rfl
  · next n1 n2 =>
    rw [if_neg]; · rfl
    rintro ⟨a, _, c⟩
    have : f = 0 ∨ f = 1 := by omega
    rcases this with x | x
    · exact n1 a x
    · exact n2 a x

/-- What one write can change. -/
theorem writeCell_form (d : Device) (w : CellWrite) : ∃ T B, writeCell d w =
    { d with tables := T, stacker := { d.stacker with bins := B } } := by
  unfold writeCell
  simp only
  repeat' split
  all_goals exact ⟨_, _, rfl⟩

/-- What writes in order can change. -/
theorem foldWrites_form (ws : List CellWrite) (d : Device) : ∃ T B, ws.foldl writeCell d =
    { d with tables := T, stacker := { d.stacker with bins := B } } := by
  induction ws generalizing d with
  | nil => exact ⟨_, _, rfl⟩
  | cons w ws ih =>
    obtain ⟨T, B, h⟩ := writeCell_form d w
    obtain ⟨T', B', h'⟩ := ih (writeCell d w)
    refine ⟨T', B', ?_⟩
    rw [List.foldl_cons, h', h]

/-- R117, R193: after writes in order a bin with a written enable or capacity has settled. -/
theorem foldWrites_bins (ws : List CellWrite) (d : Device) (hc : d.canonical) (hw : ∀ w ∈ ws, w.inTable) (k : Fin 16) :
    (ws.foldl writeCell d).bin k = { d.bin k with
      state := if (d.bin k).state = .outPending ∨ (d.bin k).state = .out ∨
          ws.any (fun w => decide (w.table = 6 ∧ w.row = k.val ∧ w.field < 2)) = false then (d.bin k).state
        else (ws.foldl writeCell d).settledSpelled k (d.bin k).fill (d.bin k).committed } := by
  induction ws using List.reverseRecOn with
  | nil => simp
  | append_singleton ws w ih =>
    have ih := ih (fun x hx => hw x (List.mem_append_left _ hx))
    have hw0 := hw w (by simp)
    obtain ⟨observation_zone, observation_lum, observation_ink,
        observation_confidence⟩ := foldWrites_cells ws d hc (fun x hx => hw x (List.mem_append_left _ hx))
    rw [List.foldl_append, List.foldl_cons, List.foldl_nil, any_concat]
    obtain ⟨E, hE⟩ : ∃ E, E = ws.foldl writeCell d := ⟨_, rfl⟩
    rw [← hE] at ih observation_ink ⊢
    rw [writeCell_bin E w hw0 k]
    by_cases h : w.table = 6 ∧ w.row = k.val ∧ w.field < 2
    · have e1 : (E.bin k).fill = (d.bin k).fill := by rw [ih]
      have e2 : (E.bin k).committed = (d.bin k).committed := by rw [ih]
      have e3 : (E.bin k).held = (d.bin k).held := by rw [ih]
      have e4 : (d.bin k).state = .outPending ∨ (d.bin k).state = .out → (E.bin k).state = (d.bin k).state := by
        intro ho
        rw [ih]
        refine if_pos ?_
        rcases ho with h | h
        · exact .inl h
        · exact .inr (.inl h)
      have e5 : ¬ ((d.bin k).state = .outPending ∨ (d.bin k).state = .out) →
          ¬ ((E.bin k).state = .outPending ∨ (E.bin k).state = .out) := by
        intro ho
        rw [ih]
        simp only
        split
        · exact ho
        · exact settledSpelled_not_out _ _ _ _
      rw [if_pos h, resettle_eq]
      have : decide (w.table = 6 ∧ w.row = k.val ∧ w.field < 2) = true := decide_eq_true h
      rw [this, e1, e2, e3]
      simp only [Bool.or_true, or_false, Bool.true_eq_false]
      by_cases ho : (d.bin k).state = .outPending ∨ (d.bin k).state = .out
      · rw [if_pos ho, e4 ho, if_pos ho]
      · rw [if_neg ho, if_neg (e5 ho)]
    · rw [if_neg h, ih]
      have : decide (w.table = 6 ∧ w.row = k.val ∧ w.field < 2) = false := decide_eq_false h
      rw [this, Bool.or_false]
      have hcell : ∀ f, f < 2 → (writeCell E w).num 6 k.val f = E.num 6 k.val f := by
        intro f hf
        unfold Device.num Device.cell
        rw [(writeCell_spec E w hw0.2.2).1, storeGet_cellKey _ _ _ observation_ink, if_neg]
        intro hx
        obtain ⟨a, b, c⟩ := (cellKey_inj _ _ _ _ _ _ (rows512 _ _ hw0.1) (fields32 _ _ hw0.2.1) (by omega)
            (by omega)).1 hx
        exact h ⟨a, b, by omega⟩
      have : (writeCell E w).settledSpelled k (d.bin k).fill (d.bin k).committed =
          E.settledSpelled k (d.bin k).fill (d.bin k).committed := by
        unfold Device.settledSpelled; rw [hcell 0 (by omega), hcell 1 (by omega)]
      rw [this]

/-- R42: what a threshold of 0 makes of the scan-suspect counter. -/
theorem holdSuspect_eq (d : Device) : holdSuspect d = { d with classifier :=
    { d.classifier with suspect := if d.num 0 0 2 = 0 then 0 else d.classifier.suspect } } := by
  unfold holdSuspect Device.suspectThreshold
  split <;> rfl

/-- R160: a condition reported twice is as reported once. -/
theorem on_idem (c : Condition) (a : Bool) : (c.on a).on a = c.on a := by cases c <;> cases a <;> rfl

/-- R144: what an applied Settings change does to the batch. -/
theorem offerOnSettings_form (d : Device) (offered : Bool) (h : offered = (decide (d.tally.batch ≠ []) &&
      decide (d.num 0 0 0 = 0 ∨ max 1 (min 8 (d.num 0 0 1)) ≤ d.tally.batch.length))) :
    ∃ C, offerOnSettings d = { d with
      tally := { d.tally with counters := C, batch := if offered then [] else d.tally.batch }
      report := { d.report with
        queue := d.report.queue ++
          (if offered && d.batchFits then linkFrame (headWord 0x81 d.tally.batch.length :: d.tally.batch.flatten)
          else []) } } ∧
    ∀ i : Fin 56, C[i] = d.tally.counters[i] +
      if i.val = 54 ∧ offered = true ∧ d.batchFits = false then BitVec.ofNat 32 d.tally.batch.length else 0 := by
  have hcond : (d.itemReports = false ∨ d.batchSize ≤ d.tally.batch.length) ↔
      (d.num 0 0 0 = 0 ∨ max 1 (min 8 (d.num 0 0 1)) ≤ d.tally.batch.length) := by
    have : (d.itemReports = false) ↔ d.num 0 0 0 = 0 := by unfold Device.itemReports Device.flag; simp
    rw [this]; rfl
  unfold offerOnSettings
  by_cases hb : d.tally.batch = []
  · have h0 : offerBatch d = d := by unfold offerBatch; simp [hb]
    have hoff : offered = false := by rw [h]; simp [hb]
    refine ⟨d.tally.counters, ?_, fun i => by simp [hoff]⟩
    rw [h0]; simp [hoff]
  · by_cases hc : d.itemReports = false ∨ d.batchSize ≤ d.tally.batch.length
    · have hoff : offered = true := by
        rw [h]
        simp only [hb, ne_eq, not_false_eq_true, decide_true, Bool.true_and]
        exact decide_eq_true (hcond.1 hc)
      rw [if_pos hc]; unfold offerBatch
      rw [if_neg (by simpa using hb)]
      by_cases hf : d.batchFits = true
      · have hf' : d.responseWaiting = false ∧ d.tally.page = none ∧ 1 + 6 * d.tally.batch.length ≤ d.reportRoom := by
          simpa [Device.batchFits] using hf
        rw [if_pos hf']
        refine ⟨d.tally.counters, ?_, fun i => by simp [hf]⟩
        simp only [hoff, hf, Bool.and_self, if_true]; rfl
      · have hf0 : d.batchFits = false := by simpa using hf
        have hf' : ¬ (d.responseWaiting = false ∧ d.tally.page = none ∧
            1 + 6 * d.tally.batch.length ≤ d.reportRoom) := by
          intro h; apply hf; simpa [Device.batchFits] using h
        rw [if_neg hf']
        refine ⟨(({ d with tally := { d.tally with batch := [] } } : Device).countBy ctrReportsDropped
          d.tally.batch.length).tally.counters, ?_, fun i => ?_⟩
        · simp only [hoff, hf0, Bool.and_false, if_true, Bool.false_eq_true, if_false, List.append_nil]; rfl
        · refine (countBy_get { d with tally := { d.tally with batch := [] } } ctrReportsDropped i
            d.tally.batch.length).trans ?_
          have h54 : (i = ctrReportsDropped) ↔ i.val = 54 := Fin.ext_iff
          simp only [h54, hoff, hf0, and_self, and_true]
    · have hoff : offered = false := by
        rw [h, decide_eq_false (fun x => hc (hcond.2 x)), Bool.and_false]
      rw [if_neg hc]
      exact ⟨d.tally.counters, by simp [hoff], fun i => by simp [hoff]⟩

/-- R118, R144, R185, R193: cell writes taken in order, and what the blocks do after them. -/
theorem takesWrites_afterWrites (ws : List CellWrite) (d : Device) (hc : d.canonical) (hw : ∀ w ∈ ws, w.inTable) :
    d.TakesWrites ws (afterWrites (ws.foldl writeCell d) ws) := by
  obtain ⟨T, B, hform⟩ := foldWrites_form ws d
  obtain ⟨-, hsame, hcan, hcells⟩ := foldWrites_cells ws d hc hw
  have hbins := foldWrites_bins ws d hc hw
  obtain ⟨E, hE⟩ : ∃ E, E = ws.foldl writeCell d := ⟨_, rfl⟩
  rw [← hE] at hform hsame hcan hcells hbins ⊢
  have ht : E.tally = d.tally := by rw [hform]
  have hrp : E.report = d.report := by rw [hform]
  have hft : E.batchFits = d.batchFits := by rw [hform]; rfl
  have hheld : ∀ (k : Fin 16) x, heldBy d 6 k.val 1 x = word (min 65535 (max x.toNat ((d.bin k).fill +
      (d.bin k).committed))) := by
    intro k x
    have hk : Fin.ofNat 16 k.val = k := Fin.ext (Nat.mod_eq_of_lt k.isLt)
    unfold heldBy Device.clampCapacity; rw [if_pos ⟨rfl, rfl⟩, hk]
  have hnum : ∀ t r f, E.num t r f = (E.cell t r f).toNat := fun _ _ _ => rfl
  by_cases hz : ws.any (fun w => decide (w.table = 0)) = true
  · obtain ⟨C, o1, o2⟩ := offerOnSettings_form E _ rfl
    obtain ⟨g, hg, hgv⟩ : ∃ g, gapCheck (offerOnSettings E) =
        { offerOnSettings E with window := { d.window with gap := g } } ∧
        g = (match d.window.gap with
        | .opened p =>
          if d.active = true ∧ E.num 0 0 7 ≤ (d.track.encoder - p).toNat then .met else .opened p
        | .closed => .closed
        | .met => .met) := by
      have hwin : (offerOnSettings E).window = d.window := by rw [o1]; show E.window = _; rw [hform]
      have hact : (offerOnSettings E).active = d.active := by rw [o1]; show E.active = _; rw [hform]; rfl
      have henc : (offerOnSettings E).track.encoder = d.track.encoder := by
        rw [o1]
        show E.track.encoder = _
        rw [hform]
      have hdist : (offerOnSettings E).gapDistance = E.num 0 0 7 := by rw [o1]; rfl
      refine ⟨_, ?_, rfl⟩
      unfold gapCheck
      rw [hwin, hact, henc, hdist]
      cases hgap : d.window.gap with
      | closed => simp only; rw [← hgap, ← hwin]
      | met => simp only; rw [← hgap, ← hwin]
      | opened p =>
        simp only
        split
        · rfl
        · rw [← hgap, ← hwin]
    have hfin : afterWrites E ws = reportConditions { offerOnSettings E with
        window := { d.window with gap := g }
        classifier := { d.classifier with suspect := if E.num 0 0 2 = 0 then 0 else d.classifier.suspect } } := by
      unfold afterWrites
      rw [hz, if_pos rfl, hg, holdSuspect_eq]
      have hcl : (offerOnSettings E).classifier = d.classifier := by rw [o1]; show E.classifier = _; rw [hform]
      have hth : (offerOnSettings E).num 0 0 2 = E.num 0 0 2 := by rw [o1]; rfl
      show reportConditions { offerOnSettings E with
        window := { d.window with gap := g }
        classifier := { (offerOnSettings E).classifier with
          suspect := if (offerOnSettings E).num 0 0 2 = 0 then 0 else (offerOnSettings E).classifier.suspect } } = _
      rw [hcl, hth]
    rw [hfin, o1]
    refine { cells := fun t r f h1 h2 h3 => (hcells t r f h1 h2).trans ?_
             capacities := fun k => (hcells 6 k.val 1 (by omega) (by omega)).trans ?_
             bins := hbins, gates := by rw [hform]; rfl, classifier := ?_, offer := ?_, tally := by rw [hform]; rfl
             window := ?_, attention := by rw [hform]; rfl, line := by rw [hform]; rfl
             others := by rw [hform]; and_intros <;> rfl }
    · congr 1; funext v w; unfold heldBy; rw [if_neg h3]; rfl
    · simp only [hheld]
    · rw [hz]; simp only [true_and]; rfl
    · intro offered ho
      have ho' : (decide (E.tally.batch ≠ []) && decide (E.num 0 0 0 =
          0 ∨ max 1 (min 8 (E.num 0 0 1)) ≤ E.tally.batch.length)) = offered := by
        rw [ho, hz, Bool.true_and, ht]; rfl
      refine ⟨?_, ?_, fun i => (o2 i).trans ?_⟩
      · show (if _ then [] else E.tally.batch) = _
        rw [ho', ht]
      · show ({ E.report with
          queue := E.report.queue ++ (if _ && E.batchFits then linkFrame
              (headWord 0x81 E.tally.batch.length :: E.tally.batch.flatten) else []) } : ReportLink) = _
        rw [ho', ht, hrp, hft]
      · rw [ho', ht, hft]
    · rw [hz]; simp only [true_and]; rw [hgv]; rfl
  · have hz0 : ws.any (fun w => decide (w.table = 0)) = false := by simpa using hz
    have hfin : afterWrites E ws = reportConditions E := by
      unfold afterWrites; simp only [hz0, Bool.false_eq_true, if_false]
    rw [hfin]
    refine { cells := fun t r f h1 h2 h3 => (hcells t r f h1 h2).trans ?_
             capacities := fun k => (hcells 6 k.val 1 (by omega) (by omega)).trans ?_
             bins := hbins, gates := by rw [hform]; rfl, classifier := ?_, offer := ?_, tally := by rw [hform]; rfl
             window := ?_, attention := by rw [hform]; rfl, line := by rw [hform]; rfl
             others := by rw [hform]; and_intros <;> rfl }
    · congr 1; funext v w; unfold heldBy; rw [if_neg h3]; rfl
    · simp only [hheld]
    · rw [hz0, hform]; simp only [Bool.false_eq_true, false_and, if_false]; rfl
    · intro offered ho
      have : offered = false := by rw [ho, hz0]; rfl
      rw [this, hform]
      exact ⟨rfl, by simp, fun i => by simp⟩
    · rw [hz0, hform]; simp only [Bool.false_eq_true, false_and, if_false]
      cases h : d.window.gap <;> simp only [reportConditions_window] <;> rw [← h]

/-- The conditions reported again. -/
theorem takesWrites_report (d x : Device) (ws : List CellWrite) (h : d.TakesWrites ws x) :
    d.TakesWrites ws (reportConditions x) := by
  refine { h with attention := ?_ }
  show ({ x.attention with
      rejectFull := x.attention.rejectFull.on x.rejectFullActive
      binFull := x.attention.binFull.on x.binFullActive
      printFault := x.attention.printFault.on x.printFaultActive } : AttentionUnit) =
    { d.attention with
      rejectFull := d.attention.rejectFull.on x.rejectFullActive
      binFull := d.attention.binFull.on x.binFullActive
      printFault := d.attention.printFault.on x.printFaultActive }
  rw [h.attention]; simp only [on_idem]

/-- The GAP pulse is no part of what the tables take. -/
theorem takesWrites_pulse (d x : Device) (ws : List CellWrite) (n : Nat) (h : d.TakesWrites ws x) :
    d.TakesWrites ws { x with line := { x.line with gapPulses := n } } := by
  refine { h with line := ?_ }
  show { x.line with gapPulses := n } = { d.line with gapPulses := n }
  rw [h.line]

/-- R157, R193, R194: staged writes applied. -/
theorem takesWrites_applyWrites (ws : List CellWrite) (d : Device) (hc : d.canonical) (hw : ∀ w ∈ ws, w.inTable)
    (hne : ws ≠ []) : d.TakesWrites ws (applyWrites d ws) ∧
    (applyWrites d ws).line.gapPulses = d.line.gapPulses + if (applyWrites d ws).num 0 0 8 ≠ 0 then 1 else 0 := by
  have h := takesWrites_afterWrites ws d hc hw
  have hl := congrArg LineControl.gapPulses (SettlesOnly.line (settlesOnly_afterWrites (ws.foldl writeCell d) ws))
  rw [(foldWrites_cells ws d hc hw).1] at hl
  obtain ⟨e, he⟩ : ∃ e, e = afterWrites (ws.foldl writeCell d) ws := ⟨_, rfl⟩
  rw [← he] at h hl
  have hres : applyWrites d ws =
      if e.gapSync then { e with line := { e.line with gapPulses := e.line.gapPulses + 1 } } else e := by
    unfold applyWrites
    have : ws.isEmpty = false := by simpa using hne
    rw [this]; simp only [Bool.false_eq_true, if_false]; rw [← he]
  rw [hres]
  by_cases hs : e.gapSync = true
  · have hn : e.num 0 0 8 ≠ 0 := by simpa [Device.gapSync, Device.flag] using hs
    rw [if_pos hs]
    refine ⟨takesWrites_pulse d e ws _ h, ?_⟩
    show e.line.gapPulses + 1 = _ + if e.num 0 0 8 ≠ 0 then 1 else 0
    rw [if_pos hn, hl]
  · have hn : ¬ e.num 0 0 8 ≠ 0 := by simpa [Device.gapSync, Device.flag] using hs
    rw [if_neg hs, if_neg hn]
    exact ⟨h, hl⟩

/-- No write taken: the conditions reported. -/
theorem takesWrites_nil (d : Device) : d.TakesWrites [] (reportConditions d) := by
  refine { cells := fun _ _ _ _ _ _ => rfl, capacities := fun _ => rfl, bins := fun k => by simp; rfl, gates := rfl,
           classifier := by simp, offer := ?_, tally := rfl, window := ?_, attention := rfl, line := rfl,
           others := by and_intros <;> rfl }
  · intro o ho
    have : o = false := ho
    subst this
    exact ⟨rfl, by simp, fun i => by simp⟩
  · show d.window = _
    cases h : d.window.gap <;> simp <;> rw [← h]

/-- R194: the entries to IDLE and HALTED apply the staged writes and report. -/
theorem takesWrites_entry (ws : List CellWrite) (d : Device) (hc : d.canonical) (hw : ∀ w ∈ ws, w.inTable) :
    d.TakesWrites ws (reportConditions (applyWrites d ws)) ∧
    (applyWrites d ws).line.gapPulses = d.line.gapPulses + if ws ≠ [] ∧
        (applyWrites d ws).num 0 0 8 ≠ 0 then 1 else 0 := by
  by_cases hne : ws = []
  · subst hne; exact ⟨takesWrites_nil d, rfl⟩
  · obtain ⟨h1, h2⟩ := takesWrites_applyWrites ws d hc hw hne
    refine ⟨takesWrites_report _ _ _ h1, ?_⟩
    rw [h2]; simp [hne]

end Sys2Proof.Machine
end

