-- ==== Sys2Proof/Laws/Effects.lean ====
section
/-! SUPPORT. Laws of whole effects: removal, the entry to HALTED, the route point, the print start, the scan-suspect
counter, the rows that are frames and a purge, each with everything it changes; and the room the item reports of an
effect take of the Report Queue. -/

namespace Sys2Proof.Machine

/-- A step that freed no unit at work and left the queue as empty as it was tests nothing. -/
theorem afterRemovals_still (b a : Device) (h : a.track.queue.isEmpty = b.track.queue.isEmpty)
    (hc : a.classifier.busy = b.classifier.busy) (hb : a.imprint.builder = b.imprint.builder) :
    afterRemovals b a = a := by
  rw [afterRemovals_same _ _ h, applyIfFreed_of_same _ _ hc hb]

/-- R192: the apply point tested twice is as tested once. -/
theorem applyPoint_idem (d : Device) : applyPoint (applyPoint d) = applyPoint d := by
  by_cases h : d.applyReady = true
  · have hg : (applyPoint d).window.groups = [] := by
      unfold applyPoint; rw [if_pos h]
      have := (applied_applyWrites { d with window := { d.window with groups := [] } } d.window.groups.flatten).groups
      rw [this]
    have : (applyPoint d).applyReady = false := by unfold Device.applyReady; rw [hg]; simp
    generalize applyPoint d = x at this
    unfold applyPoint; rw [this]; simp
  · have : applyPoint d = d := by unfold applyPoint; rw [if_neg h]
    rw [this, this]

/-- R192: the test at the end of a step, made twice, is as made once. -/
theorem applyIfFreed_idem (b b' a : Device) (hc : b'.classifier.busy = b.classifier.busy)
    (hb : b'.imprint.builder = b.imprint.builder) : applyIfFreed b' (applyIfFreed b a) = applyIfFreed b a := by
  have ha : (applyPoint a).classifier.busy = a.classifier.busy ∧ (applyPoint a).imprint.builder = a.imprint.builder :=
    ⟨(applied_applyPoint a).classifier, congrArg ImprintUnit.builder (applied_applyPoint a).imprint⟩
  unfold applyIfFreed
  rw [hc, hb]
  by_cases h : ((b.classifier.busy.isSome && a.classifier.busy.isNone) ||
      (b.imprint.builder.isSome && a.imprint.builder.isNone)) = true
  · rw [if_pos h, ha.1, ha.2, if_pos h, applyPoint_idem]
  · rw [if_neg h, if_neg h]

/-- R191: a gap that opens here is met at once where the distance is 0. -/
theorem gapCheck_setGap (d : Device) (p : Pos) (hp : p = d.track.encoder) (ha : d.active = true) :
  gapCheck (setGap d (.opened p)) = setGap d (if d.gapDistance = 0 then .met else .opened p) := by
  subst hp
  have ha' : (setGap d (.opened d.track.encoder)).active = true := ha
  have hd : (setGap d (.opened d.track.encoder)).gapDistance = d.gapDistance := rfl
  unfold gapCheck
  simp only [setGap_window, ha', hd]
  by_cases h : d.gapDistance = 0
  · simp [h, setGap]
  · simp [h, setGap]

/-- R15, fourth case: the edge is matched on from where the records lost in turn leave the part. -/
theorem matchEdge_lost (st : Station) (lost : List ItemRecord) (fuel : Nat) (x y : Device) (hl : lostInTurn st lost x y)
    (hf : x.track.queue.length + 1 ≤ fuel) :
    ∃ k, matchEdge fuel x st = matchEdge (k + 1) y st ∧ y.track.encoder = x.track.encoder := by
  induction lost generalizing x fuel with
  | nil =>
    cases hl
    obtain ⟨k, hk⟩ : ∃ k, fuel = k + 1 := ⟨fuel - 1, by omega⟩
    exact ⟨k, by rw [hk], rfl⟩
  | cons r rest ih =>
    obtain ⟨h1, h2, h3, h4⟩ := hl
    obtain ⟨k, hk⟩ : ∃ k, fuel = k + 1 := ⟨fuel - 1, by omega⟩
    have hmem : r ∈ x.track.queue := List.mem_of_find?_eq_some h1
    obtain ⟨q, hq⟩ : ∃ q, x.find r.number = some q := by
      cases hx : x.find r.number with
      | some q => exact ⟨q, rfl⟩
      | none =>
        have := List.find?_eq_none.1 hx r hmem
        simp at this
    have ht := removeRecord_track x r.number .lost q hq
    have hlen : (removeRecord x r.number .lost).track.queue.length + 1 = x.track.queue.length := by
      rw [ht]; show (x.track.queue.eraseP _).length + 1 = _
      rw [List.length_eraseP_of_mem hmem (by simp)]
      have := List.length_pos_of_mem hmem
      omega
    have hl2 : (loseRecord x r st).track.queue.length + 1 ≤ k := by
      show (removeRecord x r.number .lost).track.queue.length + 1 ≤ k
      omega
    obtain ⟨k', e1, e2⟩ := ih k (loseRecord x r st) h4 hl2
    refine ⟨k', ?_, e2.trans ?_⟩
    · rw [hk, ← e1]
      conv_lhs => unfold matchEdge
      rw [h1]; simp only
      rw [if_neg (by rw [h2]; simp), if_neg (by rw [h3]; simp)]
    · show (removeRecord x r.number .lost).track.encoder = _
      rw [ht]; rfl

/-- R133: the line totals after an exit. -/
def exitTotals (t : LineTotals) : ExitKind → LineTotals
  | .stacked => { t with stacked := t.stacked + 1 }
  | .lost => { t with lost := t.lost + 1 }
  | .missed => { t with missed := t.missed + 1 }
  | .purged => { t with purged := t.purged + 1 }

/-- Counting changes the counters alone. -/
theorem countBy_eq (d : Device) (i : Fin 56) (n : Nat) :
    d.countBy i n = { d with tally := { d.tally with counters := (d.countBy i n).tally.counters } } := rfl

/-- The record as its imprint's end leaves it (R99). -/
def imprintEnd (r : ItemRecord) (e : ExitKind) : ItemRecord :=
  match r.imprint with
      | .queued => { r with imprint := .none }
      | .building => { r with imprint := .aborted }
      | .built => { r with imprint := .aborted }
      | .printing =>
        if e = .stacked then { r with imprint := .printed }
        else { r with imprint := .aborted, disposition := some .uncancelled, cancel := none }
      | _ => r

/-- R99: what the imprint of a removed record leaves. -/
theorem settleImprint_form (d : Device) (r : ItemRecord) (e : ExitKind) : ∃ I C,
    settleImprint d r (decide (e = .stacked)) =
      ({ d with imprint := I, tally := { d.tally with counters := C } }, imprintEnd r e) ∧
    (∀ i : Fin 56, C[i] = d.tally.counters[i] +
      if r.imprint = .printing ∧ i.val = (if e = .stacked then 48 else 49) then 1 else 0) ∧
    (r.imprint = .building ∨ r.imprint = .built ∨ r.imprint = .printing →
      I.ring = d.imprint.ring.filter (fun h => decide (h.number ≠ r.number))) ∧
    (r.imprint = .building ∨ r.imprint = .built →
      I.builder = if d.imprint.builder = some r.number then none else d.imprint.builder) ∧
    (r.imprint = .printing → I.printing = none ∧ I.builder = d.imprint.builder) ∧
    (r.imprint ≠ .printing → I.printing = d.imprint.printing) ∧
    I = { d.imprint with ring := I.ring, builder := I.builder, printing := I.printing } ∧
    (r.imprint ≠ .building → r.imprint ≠ .built → r.imprint ≠ .printing → I = d.imprint) := by
  have hdrop : dropImprint d r.number = { d with imprint := (dropImprint d r.number).imprint } := by
    unfold dropImprint; simp only; split <;> rfl
  have hdi : (dropImprint d r.number).imprint.builder = (if d.imprint.builder =
      some r.number then none else d.imprint.builder) ∧
      (dropImprint d r.number).imprint.printing = d.imprint.printing ∧
      (dropImprint d r.number).imprint = { d.imprint with
        ring := (dropImprint d r.number).imprint.ring, builder := (dropImprint d r.number).imprint.builder,
        printing := (dropImprint d r.number).imprint.printing } ∧
      (dropImprint d r.number).imprint.ring = d.imprint.ring.filter (fun h => decide (h.number ≠ r.number)) := by
    unfold dropImprint
    by_cases h : d.imprint.builder = some r.number
    · have : (releaseRing d r.number).imprint.builder = some r.number := h
      simp only [this, if_true, h]; and_intros <;> rfl
    · have : ¬ (releaseRing d r.number).imprint.builder = some r.number := h
      simp only [this, h, if_false]; and_intros <;> rfl
  unfold settleImprint imprintEnd
  cases hi : r.imprint <;> simp only
  case printing =>
    by_cases he : e = .stacked
    · refine ⟨(releaseRing (setPrinting d none) r.number).imprint,
      ((releaseRing (setPrinting d none) r.number).count ctrPrinted).tally.counters,
        by simp only [he, decide_true, if_true]; rfl, fun i => ?_, fun _ => rfl, by simp, fun _ => ⟨rfl, rfl⟩, by simp,
          rfl, by simp⟩
      have := countBy_get (releaseRing (setPrinting d none) r.number) ctrPrinted i 1
      refine this.trans ?_
      have : (i = ctrPrinted) ↔ i.val = 48 := Fin.ext_iff
      simp only [he, if_true, true_and, this]; rfl
    · refine ⟨(releaseRing (setPrinting d none) r.number).imprint,
      ((releaseRing (setPrinting d none) r.number).count ctrPrintAborted).tally.counters,
        by simp only [he, decide_false, if_false, Bool.false_eq_true]; rfl, fun i => ?_, fun _ => rfl, by simp,
          fun _ => ⟨rfl, rfl⟩, by simp, rfl, by simp⟩
      have := countBy_get (releaseRing (setPrinting d none) r.number) ctrPrintAborted i 1
      refine this.trans ?_
      have : (i = ctrPrintAborted) ↔ i.val = 49 := Fin.ext_iff
      simp only [he, if_false, true_and, this]; rfl
  case building =>
    exact ⟨_, d.tally.counters, congrArg (·, _) hdrop, fun i => by simp, fun _ => hdi.2.2.2, fun _ => hdi.1, by simp,
        fun _ => hdi.2.1, hdi.2.2.1, by simp⟩
  case built =>
    exact ⟨_, d.tally.counters, congrArg (·, _) hdrop, fun i => by simp, fun _ => hdi.2.2.2, fun _ => hdi.1, by simp,
        fun _ => hdi.2.1, hdi.2.2.1, by simp⟩
  all_goals exact ⟨d.imprint, d.tally.counters, rfl, fun i => by simp, by simp, by simp, by simp, fun _ => rfl, rfl,
    fun _ _ _ => rfl⟩

/-- R120, R121: what the bin of a removed record becomes. -/
theorem settleRoute_form (d : Device) (r : ItemRecord) (e : ExitKind) : ∃ B : Vector Bin 16,
    settleRoute d r e = { d with stacker := { d.stacker with bins := B } } ∧
    (∀ t, r.route = some t → let b := d.bin t.bin; let b' := B[t.bin]
      b'.committed = b.committed - 1 ∧ b'.held = b.held ∧
      b'.fill = (if e = .stacked then min 65535 (b.fill + 1) else b.fill) ∧
      b'.state = (if b.state = .outPending then if b.committed - 1 = 0 then .out else .outPending
        else if b.state = .out then .out
        else if d.num 6 t.bin.val 0 = 0 then .disabled
        else if t.bin = 0 then .active
        else if b'.fill + b'.committed < d.num 6 t.bin.val 1 then .active
        else .full)) ∧
    (∀ k : Fin 16, r.route.map Route.bin ≠ some k → B[k] = d.bin k) := by
  have key : ∀ (k : Fin 16) (b x : Bin), x = { b with fill := x.fill, committed := x.committed } →
      (d.afterRelease k x).committed = x.committed ∧ (d.afterRelease k x).held = b.held ∧
      (d.afterRelease k x).fill = x.fill ∧
      (d.afterRelease k x).state = (if b.state = .outPending then if x.committed = 0 then .out else .outPending
        else if b.state = .out then .out
        else if d.num 6 k.val 0 = 0 then .disabled
        else if k = 0 then .active
        else if x.fill + x.committed < d.num 6 k.val 1 then .active
        else .full) := by
    intro k b x hx
    have hs : x.state = b.state := by rw [hx]
    have hh : x.held = b.held := by rw [hx]
    obtain ⟨c1, c2, c3⟩ := afterRelease_counts d k x
    refine ⟨c2, c3.trans hh, c1, ?_⟩
    have hset : d.settled k x = (if d.num 6 k.val 0 = 0 then .disabled
        else if k = 0 then .active
        else if x.fill + x.committed < d.num 6 k.val 1 then .active
        else .full) := by
      unfold Device.settled settledState Device.binEnable Device.binCapacity Device.flag
      by_cases h : d.num 6 k.val 0 = 0 <;> simp [h]
    unfold Device.afterRelease Device.resettle
    rw [← hs]
    rcases hx' : x with ⟨fl, cm, st, hd⟩
    rw [hx'] at hset
    cases st <;> simp only [hset, reduceCtorEq, false_and, true_and, if_false, if_true]
    by_cases h0 : cm = 0
    · simp [h0]
    · simp [h0]
  unfold settleRoute
  cases hr : r.route with
  | none => exact ⟨d.stacker.bins, rfl, by simp, fun k _ => rfl⟩
  | some t =>
    simp only
    by_cases he : e = .stacked
    · rw [if_pos he]
      refine ⟨_, rfl, ?_, ?_⟩
      · intro t' ht; cases ht
        obtain ⟨k1, k2, k3, k4⟩ := key t.bin (d.bin t.bin)
          { d.bin t.bin with
            fill := min 65535 ((d.bin t.bin).fill + 1)
            committed := (d.bin t.bin).committed - 1 } rfl
        simp only [upd_same, he, if_true]
        refine ⟨k1, k2, k3, k4.trans ?_⟩
        rw [k1, k3]
      · intro k hk
        have : t.bin ≠ k := by simpa using hk
        exact upd_other _ _ _ _ this
    · rw [if_neg he]
      refine ⟨_, rfl, ?_, ?_⟩
      · intro t' ht; cases ht
        obtain ⟨k1, k2, k3, k4⟩ := key t.bin (d.bin t.bin)
          { d.bin t.bin with committed := (d.bin t.bin).committed - 1 } rfl
        simp only [upd_same, he, if_false]
        refine ⟨k1, k2, k3, k4.trans ?_⟩
        rw [k1, k3]
      · intro k hk
        have : t.bin ≠ k := by simpa using hk
        exact upd_other _ _ _ _ this

/-- R131 to R133: everything a removal counts. -/
theorem countRemoval_form (d : Device) (q : ItemRecord) (e : ExitKind) : ∃ C,
    countRemoval d q e = { d with tally := { d.tally with
      counters := C
      totals := exitTotals d.tally.totals e } } ∧
    ∀ i : Fin 56, C[i] = d.tally.counters[i] +
      (if q.disposition.any (fun x => decide (i.val = 15 + dispositionCode (some x))) then 1 else 0) +
      (if (decide (e = .stacked) && q.route.any (fun t => decide (i.val = 26 + t.bin.val))) then 1 else 0) +
      (if (decide (e = .stacked) && q.classGroup.any (fun g => decide (i.val = g.val))) then 1 else 0) +
      (if (decide (e = .lost ∧ i.val = 44 ∨ e = .missed ∧ i.val = 45 ∨ e = .purged ∧ i.val = 46)) then 1 else 0) := by
  have hd : countDisposition d q =
      { d with tally := { d.tally with counters := (countDisposition d q).tally.counters } } ∧
      ∀ i : Fin 56, (countDisposition d q).tally.counters[i] = d.tally.counters[i] +
        (if q.disposition.any (fun x => decide (i.val = 15 + dispositionCode (some x))) then 1 else 0) := by
    unfold countDisposition
    cases hq : q.disposition with
    | none => exact ⟨rfl, fun i => by simp⟩
    | some x =>
      refine ⟨rfl, fun i => (countBy_get d (ctrDisposition x) i 1).trans ?_⟩
      have : (i = ctrDisposition x) ↔ i.val = 15 + dispositionCode (some x) := by
        rw [Fin.ext_iff]; cases x <;> rfl
      simp only [this, Option.any_some, decide_eq_true_eq]; rfl
  obtain ⟨D, hD⟩ : ∃ D, D = countDisposition d q := ⟨_, rfl⟩
  rw [← hD] at hd
  obtain ⟨hd1, hd2⟩ := hd
  have hT : D.tally.totals = d.tally.totals := by rw [hd1]
  unfold countRemoval; simp only [← hD]
  have other : ∀ (f : LineTotals → LineTotals) (c : Fin 56) (n : Nat), c.val = n →
      (e = .stacked → False) →
      ((D.total f).count c =
        { d with tally := { d.tally with
            counters := ((D.total f).count c).tally.counters
            totals := f d.tally.totals } }) ∧
      ∀ i : Fin 56, ((D.total f).count c).tally.counters[i] = d.tally.counters[i] +
      (if q.disposition.any (fun x => decide (i.val = 15 + dispositionCode (some x))) then 1 else 0) +
      (if (decide (e = .stacked) && q.route.any (fun t => decide (i.val = 26 + t.bin.val))) then 1 else 0) +
      (if (decide (e = .stacked) && q.classGroup.any (fun g => decide (i.val = g.val))) then 1 else 0) +
      (if i.val = n then 1 else 0) := by
    intro f c n hc he
    refine ⟨?_, fun i => (countBy_get (D.total f) c i 1).trans ?_⟩
    · rw [hd1]; rfl
    · have h2 : (i = c) ↔ i.val = n := by rw [Fin.ext_iff, hc]
      have h3 : decide (e = .stacked) = false := by simpa using he
      simp [hd2 i, h2, h3]
  cases he : e with
  | lost =>
    obtain ⟨o1, o2⟩ := other (fun t => { t with lost := t.lost + 1 }) ctrLost 44 rfl (by rw [he]; simp)
    refine ⟨_, o1, fun i => (o2 i).trans ?_⟩; simp [he]
  | missed =>
    obtain ⟨o1, o2⟩ := other (fun t => { t with missed := t.missed + 1 }) ctrMissed 45 rfl (by rw [he]; simp)
    refine ⟨_, o1, fun i => (o2 i).trans ?_⟩; simp [he]
  | purged =>
    obtain ⟨o1, o2⟩ := other (fun t => { t with purged := t.purged + 1 }) ctrPurged 46 rfl (by rw [he]; simp)
    refine ⟨_, o1, fun i => (o2 i).trans ?_⟩; simp [he]
  | stacked =>
    obtain ⟨X, hX⟩ : ∃ X, X = D.total (fun t => { t with stacked := t.stacked + 1 }) := ⟨_, rfl⟩
    simp only [← hX]
    have hXf : X = { d with tally := { d.tally with
        counters := X.tally.counters
        totals := { d.tally.totals with stacked := d.tally.totals.stacked + 1 } } } := by
      rw [hX, hd1]; rfl
    have hb : countBin X q = { X with tally := { X.tally with counters := (countBin X q).tally.counters } } ∧
        ∀ i : Fin 56, (countBin X q).tally.counters[i] = X.tally.counters[i] +
        (if q.route.any (fun t => decide (i.val = 26 + t.bin.val)) then 1 else 0) := by
      unfold countBin
      cases hq : q.route with
      | none => exact ⟨rfl, fun i => by simp⟩
      | some t =>
        refine ⟨rfl, fun i => (countBy_get X (ctrBin t.bin) i 1).trans ?_⟩
        have : (i = ctrBin t.bin) ↔ i.val = 26 + t.bin.val := Fin.ext_iff
        simp only [this, Option.any_some, decide_eq_true_eq]; rfl
    obtain ⟨Y, hY⟩ : ∃ Y, Y = countBin X q := ⟨_, rfl⟩
    rw [← hY] at hb
    simp only [← hY]
    have hg : countGroup Y q = { Y with tally := { Y.tally with counters := (countGroup Y q).tally.counters } } ∧
        ∀ i : Fin 56, (countGroup Y q).tally.counters[i] = Y.tally.counters[i] +
        (if q.classGroup.any (fun g => decide (i.val = g.val)) then 1 else 0) := by
      unfold countGroup
      cases hq : q.classGroup with
      | none => exact ⟨rfl, fun i => by simp⟩
      | some g =>
        refine ⟨rfl, fun i => (countBy_get Y (ctrClassGroup g) i 1).trans ?_⟩
        have : (i = ctrClassGroup g) ↔ i.val = g.val := Fin.ext_iff
        simp only [this, Option.any_some, decide_eq_true_eq]; rfl
    refine ⟨(countGroup Y q).tally.counters, ?_, fun i => ?_⟩
    · obtain ⟨cx, hx⟩ : ∃ c, X = { d with tally := { d.tally with
          counters := c
          totals := exitTotals d.tally.totals .stacked } } := ⟨_, hXf⟩
      obtain ⟨cy, hy⟩ : ∃ c, Y = { X with tally := { X.tally with counters := c } } := ⟨_, hb.1⟩
      obtain ⟨cg, hgg⟩ : ∃ c, countGroup Y q = { Y with tally := { Y.tally with counters := c } } := ⟨_, hg.1⟩
      rw [hgg, hy, hx]
    · rw [hg.2, hb.2]
      have : X.tally.counters[i] = D.tally.counters[i] := by rw [hX]; rfl
      rw [this, hd2]; simp

/-- R143 to R145: the item report of a removal and the offer of the batch. -/
theorem reportRemoval_form (d : Device) (q : ItemRecord) (e : ExitKind) (old batch : List (List Word))
    (queue : List ItemRecord)
    (report : ReportLink) (offered fits : Bool) (room : Nat) (waits : Bool) (page : Option TallyPage) (n0 n1 : Nat)
    (h0 : d.num 0 0 0 = n0) (h1 : d.num 0 0 1 = n1) (hold : d.tally.batch = old) (hqu : d.track.queue = queue)
    (hrep : d.report = report) (hroom : d.reportRoom = room) (hwaits : d.responseWaiting =
        waits) (hpage : d.tally.page = page)
    (hbatch : batch = if n0 ≠ 0 then old ++ [itemReport q e] else old)
    (hoff : offered = (decide (batch ≠ []) && (decide (queue = []) || decide (n0 ≠ 0 ∧
        max 1 (min 8 n1) ≤ batch.length))))
    (hfits : fits = (!waits && decide (page = none ∧ 1 + 6 * batch.length ≤ room))) :
    ∃ C, reportRemoval d q e = { d with
      tally := { d.tally with counters := C, batch := if offered then [] else batch }
      report := { report with queue := report.queue ++
        (if offered && fits then linkFrame (headWord 0x81 batch.length :: batch.flatten) else []) } } ∧
    ∀ i : Fin 56, C[i] = d.tally.counters[i] +
      (if i.val = 54 ∧ offered = true ∧ fits = false then BitVec.ofNat 32 batch.length else 0) := by
  subst h0 h1 hold hqu hrep hroom hwaits hpage
  obtain ⟨A, hA⟩ : ∃ A, A = appendReport d q e := ⟨_, rfl⟩
  have hAf : A = { d with tally := { d.tally with batch := batch } } := by
    rw [hA]; unfold appendReport Device.itemReports Device.flag
    by_cases h : d.num 0 0 0 = 0 <;> simp [hbatch, h]
  have hcond : (A.track.queue.isEmpty = true ∨ (A.itemReports = true ∧ A.batchSize ≤ A.tally.batch.length)) ↔
      (decide (d.track.queue = []) || decide (d.num 0 0 0 ≠ 0 ∧
          max 1 (min 8 (d.num 0 0 1)) ≤ batch.length)) = true := by
    have h1 : A.itemReports = decide (d.num 0 0 0 ≠ 0) := by rw [hAf]; rfl
    have h2 : A.batchSize = max 1 (min 8 (d.num 0 0 1)) := by rw [hAf]; rfl
    have h3 : A.tally.batch = batch := by rw [hAf]
    have h4 : A.track = d.track := by rw [hAf]
    rw [h1, h2, h3, h4]
    simp [List.isEmpty_iff]
  unfold reportRemoval; simp only [← hA]
  by_cases hb : batch = []
  · have hoff : offered = false := by simp [hoff, hb]
    refine ⟨d.tally.counters, ?_, fun i => by simp [hoff]⟩
    have h0 : offerBatch A = A := by unfold offerBatch; rw [hAf]; simp [hb]
    have : (if A.track.queue.isEmpty = true ∨ A.itemReports = true ∧
        A.batchSize ≤ A.tally.batch.length then offerBatch A else A) = A := by
      rw [h0]; simp
    rw [this, hAf]; simp [hoff]
  · have hoff : offered = (decide (d.track.queue = []) || decide (d.num 0 0 0 ≠ 0 ∧
      max 1 (min 8 (d.num 0 0 1)) ≤ batch.length)) := by
      simp [hoff, hb]
    by_cases ho : offered = true
    · rw [if_pos (hcond.2 (by rw [← hoff]; exact ho))]
      have hw : A.responseWaiting = d.responseWaiting := by rw [hAf]; rfl
      have hp : A.tally.page = d.tally.page := by rw [hAf]
      have hr : A.reportRoom = d.reportRoom := by rw [hAf]; rfl
      have hB : A.tally.batch = batch := by rw [hAf]
      by_cases hf : fits = true
      · have hf' : A.responseWaiting = false ∧ A.tally.page = none ∧ 1 + 6 * A.tally.batch.length ≤ A.reportRoom := by
          rw [hw, hp, hr, hB]; simpa [hfits] using hf
        refine ⟨d.tally.counters, ?_, fun i => by simp [hf]⟩
        unfold offerBatch
        rw [if_neg (by rw [hB]; simpa using hb), if_pos hf', hB, hAf]
        simp only [ho, hf, Bool.and_self, if_true]
        rfl
      · have hf0 : fits = false := by simpa using hf
        have hf' : ¬ (A.responseWaiting = false ∧ A.tally.page = none ∧
            1 + 6 * A.tally.batch.length ≤ A.reportRoom) := by
          rw [hw, hp, hr, hB]; intro h; apply hf; simpa [hfits] using h
        refine ⟨(({ A with tally := { A.tally with batch := [] } } : Device).countBy ctrReportsDropped
          A.tally.batch.length).tally.counters, ?_, fun i => ?_⟩
        · unfold offerBatch
          rw [if_neg (by rw [hB]; simpa using hb), if_neg hf', hB, hAf]
          simp only [ho, hf0, Bool.and_false, if_true, Bool.false_eq_true, if_false, List.append_nil]
          rfl
        · refine (countBy_get { A with tally := { A.tally with batch := [] } } ctrReportsDropped i
            A.tally.batch.length).trans ?_
          have h54 : (i = ctrReportsDropped) ↔ i.val = 54 := Fin.ext_iff
          rw [hB, hAf]; simp only [h54, ho, hf0, and_self, and_true]
    · have ho0 : offered = false := by simpa using ho
      rw [if_neg (fun h => ho (by rw [hoff]; exact hcond.1 h))]
      refine ⟨d.tally.counters, ?_, fun i => by simp [ho0]⟩
      rw [hAf]; simp [ho0]

/-- 12.5: the six words of an item report. -/
theorem itemReport_words (q : ItemRecord) (e : ExitKind) : itemReport q e =
      [ q.number,
        q.tag.getD 0,
        word (32768 * bit q.tag.isSome + 8192 * e.code + 512 * dispositionCode q.disposition +
          128 * (bit q.gotA + 2 * bit q.gotB) + 64 * bit q.scanFault + 16 * faceCheckCode q.faceCheck +
          2 * q.imprint.code),
        word (4096 * (q.route.map (fun t => t.bin.val)).getD 0 + 1024 * viaCode q.route +
          64 * (q.positionCode.map Fin.val).getD 8 + q.sequence.getD 0 / 65536),
        word ((q.plan.map (fun p => 32768 + 16384 * bit p.twist + 8192 * bit p.turn +
            4096 * (if p.group = .trail then 1 else 0))).getD 0 +
          (q.classGroup.map (fun g => 2048 + 128 * g.val)).getD 0 +
          (q.seen.head?.map (fun x => (stationRow x.station).val)).getD 0),
        word (q.sequence.getD 0 % 65536) ] := by
  unfold itemReport lastSeenRow
  simp only [List.cons.injEq, true_and, and_true]
  refine ⟨rfl, ?_, ?_⟩
  · cases q.route <;> cases q.positionCode <;> rfl
  · rcases q.plan with _ | ⟨_, _, _ | _⟩ <;> cases q.classGroup <;> cases q.seen <;> rfl

/-- R22: what leaving the queue releases. -/
theorem leaveTrack_form (d : Device) (n : RecNo) : abandonClassification (leaveTrack d n) n = { d with
      track := { d.track with
        queue := d.track.queue.eraseP (fun q => decide (q.number = n))
        occupants := d.track.occupants.map (fun o => if o = .record n then .stray else o)
        twist := if d.track.twist = some n then none else d.track.twist
        turn := if d.track.turn = some n then none else d.track.turn }
      classifier := { d.classifier with busy := if d.classifier.busy = some n then none else d.classifier.busy }
      stacker := { d.stacker with gates := d.stacker.gates.map (fun o => if o = some n then none else o) } } := by
  unfold abandonClassification
  have : (leaveTrack d n).classifier = d.classifier := rfl
  rw [this]
  by_cases h : d.classifier.busy = some n
  · rw [if_pos h, if_pos h]; rfl
  · rw [if_neg h, if_neg h]; rfl

/-- The imprint's end leaves the route. -/
theorem imprintEnd_route (r : ItemRecord) (e : ExitKind) : (imprintEnd r e).route = r.route := by
  unfold imprintEnd; cases r.imprint <;> simp only; split <;> rfl

/-- What removal of the tracked record `r` leaves, whole. -/
theorem removeRecord_form (d : Device) (n : RecNo) (e : ExitKind) (r : ItemRecord) (hf : d.find n =
    some r) (q : ItemRecord)
    (hq : q = imprintEnd r e) (batch : List (List Word)) (offered fits : Bool) (queue : List ItemRecord)
    (hqueue : queue = d.track.queue.eraseP (fun q => decide (q.number = n)))
    (hbatch : batch = if d.num 0 0 0 ≠ 0 then d.tally.batch ++ [itemReport q e] else d.tally.batch)
    (hoff : offered = (decide (batch ≠ []) &&
      (decide (queue = []) || decide (d.num 0 0 0 ≠ 0 ∧ max 1 (min 8 (d.num 0 0 1)) ≤ batch.length))))
    (hfits : fits = (!d.responseWaiting && decide (d.tally.page = none ∧ 1 + 6 * batch.length ≤ d.reportRoom))) :
    ∃ I B C, removeRecord d n e = reportConditions { d with
      track := { d.track with
        queue := queue
        occupants := d.track.occupants.map (fun o => if o = .record n then .stray else o)
        twist := if d.track.twist = some n then none else d.track.twist
        turn := if d.track.turn = some n then none else d.track.turn }
      classifier := { d.classifier with busy := if d.classifier.busy = some n then none else d.classifier.busy }
      imprint := I
      stacker := { d.stacker with bins := B, gates := d.stacker.gates.map (fun o => if o = some n then none else o) }
      tally := { d.tally with
        counters := C
        totals := exitTotals d.tally.totals e
        batch := if offered then [] else batch }
      report := { d.report with queue := d.report.queue ++
        (if offered && fits then linkFrame (headWord 0x81 batch.length :: batch.flatten) else []) } } ∧
    (∀ i : Fin 56, C[i] = d.tally.counters[i] +
      (if r.imprint = .printing ∧ i.val = (if e = .stacked then 48 else 49) then 1 else 0) +
      (if q.disposition.any (fun x => decide (i.val = 15 + dispositionCode (some x))) then 1 else 0) +
      (if (decide (e = .stacked) && q.route.any (fun t => decide (i.val = 26 + t.bin.val))) then 1 else 0) +
      (if (decide (e = .stacked) && q.classGroup.any (fun g => decide (i.val = g.val))) then 1 else 0) +
      (if (decide (e = .lost ∧ i.val = 44 ∨ e = .missed ∧ i.val = 45 ∨ e = .purged ∧ i.val = 46)) then 1 else 0) +
      (if i.val = 54 ∧ offered = true ∧ fits = false then BitVec.ofNat 32 batch.length else 0)) ∧
    (∀ t, r.route = some t → let b := d.bin t.bin; let b' := B[t.bin]
      b'.committed = b.committed - 1 ∧ b'.held = b.held ∧
      b'.fill = (if e = .stacked then min 65535 (b.fill + 1) else b.fill) ∧
      b'.state = (if b.state = .outPending then if b.committed - 1 = 0 then .out else .outPending
        else if b.state = .out then .out
        else if d.num 6 t.bin.val 0 = 0 then .disabled
        else if t.bin = 0 then .active
        else if b'.fill + b'.committed < d.num 6 t.bin.val 1 then .active
        else .full)) ∧
    (∀ k : Fin 16, r.route.map Route.bin ≠ some k → B[k] = d.bin k) ∧
    (r.imprint = .building ∨ r.imprint = .built ∨ r.imprint = .printing →
      I.ring = d.imprint.ring.filter (fun h => decide (h.number ≠ n))) ∧
    (r.imprint = .building ∨ r.imprint = .built →
      I.builder = if d.imprint.builder = some n then none else d.imprint.builder) ∧
    (r.imprint = .printing → I.printing = none ∧ I.builder = d.imprint.builder) ∧
    (r.imprint ≠ .printing → I.printing = d.imprint.printing) ∧
    I = { d.imprint with ring := I.ring, builder := I.builder, printing := I.printing } ∧
    (r.imprint ≠ .building → r.imprint ≠ .built → r.imprint ≠ .printing → I = d.imprint) := by
  have hn : r.number = n := find_number d n r hf
  obtain ⟨A, hA⟩ : ∃ A, A = abandonClassification (leaveTrack d n) n := ⟨_, rfl⟩
  have hd' := removeRecord_eq d n e r hf
  rw [← hA] at hd'
  obtain ⟨I, C1, i1, i2, i3, i4, i5, i6, i7, i8⟩ := settleImprint_form A r e
  rw [← hq] at i1
  rw [i1] at hd'
  simp only [settleRemoval] at hd'
  obtain ⟨X, hX⟩ : ∃ X, X = { A with imprint := I, tally := { A.tally with counters := C1 } } := ⟨_, rfl⟩
  rw [← hX] at hd'
  obtain ⟨B, r1, r2, r3⟩ := settleRoute_form X q e
  obtain ⟨Y, hY⟩ : ∃ Y, Y = settleRoute X q e := ⟨_, rfl⟩
  rw [← hY] at hd' r1
  obtain ⟨C2, c1, c2⟩ := countRemoval_form Y q e
  obtain ⟨Z, hZ⟩ : ∃ Z, Z = countRemoval Y q e := ⟨_, rfl⟩
  rw [← hZ] at hd' c1
  have hAf := leaveTrack_form d n
  rw [← hA] at hAf
  have hroute : q.route = r.route := by rw [hq]; exact imprintEnd_route r e
  have hXf := hX
  rw [hAf] at hXf
  have hYf := r1
  rw [hXf] at hYf
  have hZf := c1
  rw [hYf] at hZf
  obtain ⟨C3, z1, z2⟩ := reportRemoval_form Z q e d.tally.batch batch queue d.report offered fits d.reportRoom
    d.responseWaiting d.tally.page (d.num 0 0 0) (d.num 0 0 1) (by rw [hZf]; rfl) (by rw [hZf]; rfl) (by rw [hZf])
    (by rw [hZf, hqueue]) (by rw [hZf]) (by rw [hZf]; rfl) (by rw [hZf]; rfl) (by rw [hZf]) hbatch hoff hfits
  rw [z1, hZf] at hd'
  have hb : ∀ k, X.bin k = d.bin k := by intro k; rw [hXf]; rfl
  have hm : ∀ a b c, X.num a b c = d.num a b c := by intro a b c; rw [hXf]; rfl
  simp only [hb, hm] at r2 r3
  rw [← hqueue] at hd'
  refine ⟨I, B, C3, hd', ?_, fun t ht => r2 t (hroute.trans ht), fun k hk => r3 k (by rw [hroute]; exact hk), ?_, ?_,
    ?_, ?_, ?_, ?_⟩
  · intro i
    rw [z2 i]
    have e2 : Z.tally.counters = C2 := congrArg (fun x : Device => x.tally.counters) c1
    have e3 : Y.tally.counters = C1 := (congrArg (fun x : Device => x.tally.counters) r1).trans (congrArg
        (fun x : Device => x.tally.counters) hX)
    have e4 : A.tally.counters = d.tally.counters := by
      have h := congrArg (fun x : Device => x.tally.counters) hAf
      exact h
    rw [e2, c2 i, e3, i2 i, e4]
  all_goals have e5 : A.imprint = d.imprint := by have h := congrArg (fun x : Device => x.imprint) hAf; exact h
  · rw [← hn, ← e5]; exact i3
  · rw [← hn, ← e5]; exact i4
  all_goals rw [← e5]; assumption

/-- R98: the print in progress, aborted at the entry to HALTED. -/
theorem haltPrint_form (d : Device) (printing : Option RecNo) (hp : printing = d.imprint.printing.map Printing.number) :
    haltPrint d = { d with
      track := { d.track with queue := d.track.queue.map (fun r =>
          if printing = some r.number then
            { r with imprint := .aborted, disposition := some .uncancelled, cancel := none }
          else r) }
      imprint := { d.imprint with
        printing := none
        printFault := d.imprint.printFault || printing.isSome
        printCol := if printing.isSome then 0 else d.imprint.printCol
        ring := d.imprint.ring.filter (fun c => decide (printing ≠ some c.number)) }
      tally := { d.tally with counters :=
        if printing.isSome then upd d.tally.counters 49 (d.tally.counters[(49 : Fin 56)] + 1)
        else d.tally.counters } } := by
  unfold haltPrint abortPrint
  rcases d with ⟨inputs, tables, track, classifier, imprint, clock, stacker, tally, feed, command, window, report, line,
      attention⟩
  rcases imprint with ⟨builder, ring, alloc, sequence, printFault, pr, printCol, strobes⟩
  cases pr with
  | none =>
    simp only [Option.map_none] at hp
    subst hp
    simp
  | some p =>
    simp only [Option.map_some] at hp
    subst hp
    have hmap : (fun r : ItemRecord => if some p.number = some r.number then
          { r with imprint := .aborted, disposition := some .uncancelled, cancel := none }
        else r) = (fun r => if r.number = p.number then r.uncancel .aborted else r) := by
      funext r
      by_cases h : r.number = p.number
      · rw [if_pos h, if_pos (by rw [h])]; rfl
      · rw [if_neg h, if_neg (by simpa using Ne.symm h)]
    have hf : (fun c : Holding => decide ((some p.number : Option RecNo) ≠ some c.number)) =
        (fun h => decide (h.number ≠ p.number)) := by
      funext c; simp [eq_comm]
    rw [hmap, hf]
    simp only [Option.isSome_some, Bool.or_true, if_true]
    rfl

/-- R98: the build in progress, dropped at the entry to HALTED. -/
theorem haltBuild_form (d : Device) : haltBuild d = { d with
      track := { d.track with queue := d.track.queue.map (fun r =>
          if d.imprint.builder = some r.number then { r with imprint := .aborted } else r) }
      imprint := { d.imprint with
        builder := none
        ring := d.imprint.ring.filter (fun c => decide (d.imprint.builder ≠ some c.number)) } } := by
  rcases d with ⟨inputs, tables, track, classifier, imprint, clock, stacker, tally, feed, command, window, report, line,
      attention⟩
  rcases imprint with ⟨builder, ring, alloc, sequence, printFault, pr, printCol, strobes⟩
  unfold haltBuild
  cases builder with
  | none => simp
  | some n =>
    have hmap : (fun r : ItemRecord => if some n = some r.number then { r with imprint := .aborted } else r) =
        (fun r => if r.number = n then { r with imprint := .aborted } else r) := by
      funext r
      by_cases h : r.number = n
      · rw [if_pos h, if_pos (by rw [h])]
      · rw [if_neg h, if_neg (by simpa using Ne.symm h)]
    have hf : (fun c : Holding => decide ((some n : Option RecNo) ≠ some c.number)) =
        (fun h => decide (h.number ≠ n)) := by
      funext c; simp [eq_comm]
    simp only [hmap, hf]
    unfold dropImprint; simp only [releaseRing, Device.modify, if_true]
    rfl

/-- R151: the part as the entry to HALTED leaves it before the staged writes are applied. -/
theorem haltedPart_form (d : Device) : let printing := d.imprint.printing.map Printing.number
    clearPending (setMode (haltImprint (freeClassifier (releaseActuators d))) .halted) = { d with
      track := { d.track with
        twist := none
        turn := none
        queue := d.track.queue.map (fun r =>
          if printing = some r.number then
            { r with imprint := .aborted, disposition := some .uncancelled, cancel := none }
          else if d.imprint.builder = some r.number then { r with imprint := .aborted }
          else r) }
      classifier := { d.classifier with busy := none }
      imprint := { d.imprint with
        builder := none
        printing := none
        printFault := d.imprint.printFault || printing.isSome
        printCol := if printing.isSome then 0 else d.imprint.printCol
        ring := d.imprint.ring.filter (fun c =>
          decide (printing ≠ some c.number) && decide (d.imprint.builder ≠ some c.number)) }
      stacker := { d.stacker with gates := Vector.replicate 16 none }
      tally := { d.tally with counters :=
        if printing.isSome then upd d.tally.counters 49 (d.tally.counters[(49 : Fin 56)] + 1)
        else d.tally.counters }
      window := { d.window with groups := [] }
      command := match d.command with
        | .receiving f => .receiving { f with group := [] }
        | .free => .free
        | .waiting rest begun => .waiting rest begun
      line := { d.line with mode := .halted } } := by
  intro printing
  unfold haltImprint
  rw [haltPrint_form (freeClassifier (releaseActuators d)) printing (by rfl), haltBuild_form]
  have hmap : ((fun r : ItemRecord => if d.imprint.builder = some r.number then { r with imprint := .aborted } else r) ∘
      (fun r => if printing = some r.number then
            { r with imprint := .aborted, disposition := some .uncancelled, cancel := none }
          else r)) = (fun r =>
          if printing = some r.number then
            { r with imprint := .aborted, disposition := some .uncancelled, cancel := none }
          else if d.imprint.builder = some r.number then { r with imprint := .aborted }
          else r) := by
    funext r
    simp only [Function.comp]
    by_cases h : printing = some r.number
    · simp only [if_pos h]; split <;> rfl
    · simp only [if_neg h]
  have hf : (fun c : Holding => decide (d.imprint.builder ≠ some c.number) && decide (printing ≠ some c.number)) =
      (fun c => decide (printing ≠ some c.number) && decide (d.imprint.builder ≠ some c.number)) := by
    funext c; exact Bool.and_comm _ _
  have hq := (List.map_map (l := d.track.queue) (f := fun r : ItemRecord => if printing = some r.number then
            { r with imprint := .aborted, disposition := some .uncancelled, cancel := none }
          else r) (g := fun r : ItemRecord => if d.imprint.builder =
              some r.number then { r with imprint := .aborted } else r)).trans
    (congrArg (fun f => d.track.queue.map f) hmap)
  have hr := (List.filter_filter (l := d.imprint.ring) (p :=
      fun c : Holding => decide (d.imprint.builder ≠ some c.number))
    (q := fun c => decide (printing ≠ some c.number))).trans (congrArg (fun f => d.imprint.ring.filter f) hf)
  rw [← hq, ← hr]
  rfl

/-- R151: the staged writes are as they were until they are applied. -/
theorem haltedPart_window (d : Device) :
    (setMode (haltImprint (freeClassifier (releaseActuators d))) .halted).openGroup = d.openGroup ∧
      (setMode (haltImprint (freeClassifier (releaseActuators d))) .halted).window = d.window := by
  unfold haltImprint
  rw [haltPrint_form _ _ rfl, haltBuild_form]
  exact ⟨rfl, rfl⟩

/-- The settled state reads the tables alone. -/
theorem settledSpelled_congr (d d' : Device) (ht : d'.tables = d.tables) (k : Fin 16) (f c : Nat) :
    d'.settledSpelled k f c = d.settledSpelled k f c := by
  unfold Device.settledSpelled Device.num Device.cell; rw [ht]

/-- A route point reads the bins and the tables alone. -/
theorem takesRoutePoint_congr (d d' e : Device) (old : Option Route) (r : ItemRecord) (hs : d'.stacker = d.stacker)
    (ht : d'.tables = d.tables) (h : d'.takesRoutePoint e old r) : d.takesRoutePoint e old r := by
  obtain ⟨h1, h2, h3, h4, h5⟩ := h
  have hb : ∀ k, d'.bin k = d.bin k := fun k => by unfold Device.bin; rw [hs]
  refine ⟨h1, h2, fun row ho hr => ?_, fun ho => (h4 ho).trans hs, fun t ho hr => ?_⟩
  · rw [h3 row ho hr, chooseBin_congr d d' (by rw [hs]) ht]; unfold Device.num Device.cell; rw [ht]
  · rw [h5 t ho hr, hs, hb, settledSpelled_congr d d' ht]

/-- R114: the bin chosen is ACTIVE or DISABLED. -/
theorem chooseBin_open (d : Device) (p : Fin 16) (t : Route) (h : d.chooseBin p = some t) :
    (d.bin t.bin).state = .active ∨ (d.bin t.bin).state = .disabled := by
  unfold Device.chooseBin at h
  split at h
  · next hx => cases h; left; unfold Device.takesRoute at hx; simp at hx; exact hx.1
  · split at h
    · next hx => cases h; left; have := hx.2; unfold Device.takesRoute at this; simp at this; exact this.1
    · split at h
      · next hx => cases h; exact hx
      · cases h

/-- R113 to R115: the route point as the statements say it. -/
theorem routePoint_takes (d : Device) (n : RecNo) (r : ItemRecord) (h : d.find n = some r) :
    ∃ r', (routePoint d n).find n = some r' ∧ r' = { r with route := r'.route } ∧
      d.takesRoutePoint (routePoint d n) r.route r' ∧
      (routePoint d n).attention = if r'.route = r.route then d.attention else d.attention.reported
          (routePoint d n) := by
  have hsame : routePoint d n = d → (∀ row, r.route = none → routeRow r = some row →
      d.chooseBin (Fin.ofNat 16 (d.num 5 row 0)) = none) → ∃ r', (routePoint d n).find n = some r' ∧
          r' = { r with route := r'.route } ∧
      d.takesRoutePoint (routePoint d n) r.route r' ∧
      (routePoint d n).attention = if r'.route = r.route then d.attention else d.attention.reported
          (routePoint d n) := by
    intro he hx
    rw [he]
    exact ⟨r, h, rfl, ⟨fun _ => rfl, fun ho _ => ho, fun row ho hr => ho.trans (hx row ho hr).symm, fun _ => rfl,
      fun t ho ht => (by rw [ho] at ht; cases ht)⟩, (if_pos rfl).symm⟩
  rcases Option.eq_none_or_eq_some r.route with hr | ⟨t, hr⟩
  · rcases Option.eq_none_or_eq_some (routeRow r) with hrow | ⟨row, hrow⟩
    · exact hsame (by unfold routePoint; simp only [h, hr, hrow]) (fun row hn hx => by rw [hrow] at hx; cases hx)
    · rcases Option.eq_none_or_eq_some (d.chooseBin (Fin.ofNat 16 (d.num 5 row 0))) with hc | ⟨route, hc⟩
      · exact hsame (by unfold routePoint; simp only [h, hr, hrow,
        hc]) (fun row' hn hx => by rw [hrow] at hx; cases hx; exact hc)
      · have he : routePoint d n = reportConditions (fixRoute d n route) := by
          unfold routePoint
          simp only [h, hr, hrow, hc]
        have hact := chooseBin_open d _ _ hc
        rw [he]
        refine ⟨{ r with route := some route }, ?_, rfl, ⟨?_, ?_, ?_, ?_, ?_⟩, ?_⟩
        · show ((d.setBin route.bin _).modify n (fun r => { r with route := some route })).find n = _
          rw [find_modify _ n (fun r => { r with route := some route }) (fun _ => rfl)]
          have : ∀ b, (d.setBin route.bin b).find n = d.find n := fun _ => rfl
          rw [this, h]; rfl
        · intro ho; exact absurd hr ho
        · intro _ hrw
          have : routeRow r = none := hrw
          rw [hrow] at this; cases this
        · intro row' _ hrw
          have : routeRow r = some row' := hrw
          rw [hrow] at this; cases this; rw [hc]
        · intro hx; rw [hr] at hx; cases hx
        · intro t _ ht
          cases ht
          show (fixRoute d n route).stacker = _
          show ({ d.stacker with
            bins :=
              upd d.stacker.bins route.bin
                (d.resettle route.bin
                  { d.bin route.bin with committed := (d.bin route.bin).committed + 1 }) } : StackerUnit) = _
          have hno : ¬ ((d.bin route.bin).state = .outPending ∨ (d.bin route.bin).state = .out) := by
            rintro (h | h) <;> rcases hact with h' | h' <;> rw [h] at h' <;> cases h'
          rw [resettle_eq]
          simp only [if_neg hno]
        · rw [if_neg (by rw [hr]; simp)]
          rfl
  · exact hsame (by unfold routePoint; simp only [h, hr]) (fun row hn => (by rw [hr] at hn; cases hn))

/-- R73, R76: what a check concluded does to the Imprint Unit. -/
theorem concludeCheck_imprint (d : Device) (r : ItemRecord) : (concludeCheck d r).imprint =
    (if r.openCheck.any (fun c => !c.assertedSeen) = true ∧ (r.imprint = .building ∨ r.imprint = .built) then
      { d.imprint with
        ring := d.imprint.ring.filter (fun h => decide (h.number ≠ r.number))
        builder := if d.imprint.builder = some r.number then none else d.imprint.builder }
    else d.imprint) ∧ (concludeCheck d r).attention = d.attention := by
  unfold concludeCheck
  cases ho : r.openCheck with
  | none => simp
  | some c =>
    cases ha : c.assertedSeen
    · simp only [Bool.false_eq_true, if_false, Option.any_some, ha, Bool.not_false, true_and]
      unfold failCheck; simp only
      split
      · unfold dropImprint; simp only
        have : (releaseRing (d.modify r.number ItemRecord.failCheck) r.number).imprint.builder =
            d.imprint.builder := rfl
        rw [this]
        split
        · exact ⟨rfl, rfl⟩
        · exact ⟨rfl, rfl⟩
      · exact ⟨rfl, rfl⟩
    · simp only [if_true, Option.any_some, ha, Bool.not_true, Bool.false_eq_true, false_and, if_false]
      exact ⟨rfl, rfl⟩

/-- R192: with the Classifier as it was, the apply point is tested where the builder has been freed. -/
theorem applyIfFreed_builder (d e : Device) (h : e.classifier = d.classifier) :
    applyIfFreed d e = if d.imprint.builder ≠ none ∧ e.imprint.builder = none then applyPoint e else e := by
  unfold applyIfFreed; rw [h]
  cases d.classifier.busy <;> cases d.imprint.builder <;> cases e.imprint.builder <;> simp

/-- R95: a print preempted changes no bin. -/
theorem preemptPrint_stacker (d : Device) : (preemptPrint d).stacker = d.stacker := by
  unfold preemptPrint; split <;> rfl

/-- R93, R94: the print start changes no bin, and of the causes UNDERRUN alone. -/
theorem printDecision_units (d : Device) (n : RecNo) (p : Pos) (i : ImprintStatus) :
    (printDecision d n p i).stacker = d.stacker ∧
    (printDecision d n p i).attention = { d.attention with underrun := (printDecision d n p i).attention.underrun } :=
      by
  unfold printDecision dropImprint
  cases i <;> (try exact ⟨rfl, rfl⟩)
  · simp only; split <;> exact ⟨rfl, rfl⟩
  · simp only; split <;> exact ⟨rfl, rfl⟩

/-- R93, R94: the print start leaves the record's route. -/
theorem printDecision_route (d : Device) (n : RecNo) (p : Pos) (i : ImprintStatus) (r r1 : ItemRecord)
    (h : d.find n = some r) (h1 : (printDecision d n p i).find n = some r1) : r1.route = r.route := by
  have key : ∀ f : ItemRecord → ItemRecord, (∀ r, (f r).number = r.number) → (∀ r, (f r).route = r.route) →
      (printDecision d n p i).track = (d.modify n f).track → r1.route = r.route := by
    intro f hf hr ht
    rw [find_some_of_track ht hf h] at h1
    cases h1; exact hr r
  have same : (printDecision d n p i).track = d.track → r1.route = r.route := by
    intro ht; rw [find_of_track ht, h] at h1; cases h1; rfl
  cases i with
  | none => exact same rfl
  | printing => exact same rfl
  | printed => exact same rfl
  | underrun => exact same rfl
  | aborted => exact same rfl
  | queued => exact key (fun r => r.uncancel .underrun) (fun _ => rfl) (fun _ => rfl) rfl
  | building =>
    refine key (fun r => r.uncancel .underrun) (fun _ => rfl) (fun _ => rfl) ?_
    show (dropImprint (d.modify n _) n).track = _
    exact (onlyRecords_dropImprint _ n).2.1
  | built =>
    cases hr : d.inputs.printReady with
    | true =>
      refine key (fun r => { r with imprint := .printing }) (fun _ => rfl) (fun _ => rfl) ?_
      unfold printDecision; simp only [hr, if_true]; rfl
    | false =>
      refine key (fun r => r.uncancel .aborted) (fun _ => rfl) (fun _ => rfl) ?_
      unfold printDecision; simp only [hr, Bool.false_eq_true, if_false]; rfl

/-- R75: a check concluded writes its own fields of the record alone. -/
theorem concludeCheck_record (d : Device) (n : RecNo) (r q r' : ItemRecord) (h : d.find n = some q)
    (hn : r.number = n) (h' : (concludeCheck d r).find n = some r') :
    r' = { q with
      openCheck := r'.openCheck, faceCheck := r'.faceCheck, disposition := r'.disposition, cancel := r'.cancel,
      imprint := r'.imprint, printStart := r'.printStart } := by
  have fin : ∀ f : ItemRecord → ItemRecord, (∀ r, (f r).number = r.number) →
      (concludeCheck d r).track = (d.modify n f).track → r' = f q := by
    intro f hf ht
    rw [find_some_of_track ht hf h] at h'
    exact (Option.some.inj h').symm
  unfold concludeCheck at fin h'
  cases ho : r.openCheck with
  | none =>
    simp only [ho] at h'
    rw [h] at h'; cases h'; rfl
  | some c =>
    simp only [ho] at fin
    cases ha : c.assertedSeen
    · simp only [ha, Bool.false_eq_true, if_false] at fin
      have ht : (failCheck d r).track = (d.modify n ItemRecord.failCheck).track := by
        unfold failCheck; simp only [hn]
        split
        · exact (onlyRecords_dropImprint (d.modify n ItemRecord.failCheck) n).2.1
        · rfl
      rw [fin ItemRecord.failCheck (fun _ => rfl) ht]; rfl
    · simp only [ha, if_true] at fin
      rw [fin (fun r => { r with faceCheck := some .pass, openCheck := none }) (fun _ => rfl) (by rw [hn])]

/-- R96: what a print preempted leaves of the Imprint Unit. -/
theorem preemptPrint_imprint (d : Device) : (preemptPrint d).imprint =
    { d.imprint with
      ring := d.imprint.ring.filter (fun h => decide (¬ d.imprint.printing.map Printing.number = some h.number))
      printing := none } := by
  unfold preemptPrint
  cases hp : d.imprint.printing with
  | none =>
    have : d.imprint.ring.filter (fun h => decide (¬ (none : Option RecNo) = some h.number)) = d.imprint.ring := by simp
    simp only [Option.map_none]
    rw [this, ← hp]
  | some p =>
    have : (fun h : Holding => decide (¬ (some p).map Printing.number = some h.number)) =
        fun h => decide (h.number ≠ p.number) := by
      funext h; simp [eq_comm]
    rw [this]; rfl

/-- An imprint unit that differs from another in four of its fields. -/
theorem imprint_differs (u v : ImprintUnit) (b : Option RecNo) (l : List Holding) (hb : u.builder = b) (hl : u.ring = l)
    (h : (u.alloc, u.sequence, u.printCol, u.printStrobes, u.strobed) =
      (v.alloc, v.sequence, v.printCol, v.printStrobes, v.strobed)) :
    u = { v with builder := b, ring := l, printing := u.printing, printFault := u.printFault } := by
  cases u; simp_all

/-- R93: what a build abandoned leaves of the Imprint Unit. -/
theorem dropImprint_imprint (d : Device) (n : RecNo) : (dropImprint d n).imprint =
    { d.imprint with
      builder := if d.imprint.builder = some n then none else d.imprint.builder
      ring := d.imprint.ring.filter (fun h => decide (h.number ≠ n)) } := by
  unfold dropImprint
  by_cases hb : d.imprint.builder = some n
  · have : (releaseRing d n).imprint.builder = some n := hb
    simp only [this, if_true, hb]; rfl
  · have : ¬ (releaseRing d n).imprint.builder = some n := hb
    simp only [this, if_false, hb]; rfl

/-- R94: the one field a print start decision writes of the record beside its disposition and its cancel intent. -/
theorem printDecision_record (d : Device) (n : RecNo) (p : Pos) (i : ImprintStatus) (r r' : ItemRecord)
    (h : d.find n = some r) (h' : (printDecision d n p i).find n = some r') :
    r' = { r with imprint := r'.imprint, disposition := r'.disposition, cancel := r'.cancel } := by
  have key : ∀ f : ItemRecord → ItemRecord, (∀ r, (f r).number = r.number) →
      (f r = { r with imprint := (f r).imprint, disposition := (f r).disposition, cancel := (f r).cancel }) →
      (printDecision d n p i).track = (d.modify n f).track →
      r' = { r with imprint := r'.imprint, disposition := r'.disposition, cancel := r'.cancel } := by
    intro f hf hform ht
    rw [find_some_of_track ht hf h] at h'
    cases h'; exact hform
  have same : (printDecision d n p i).track = d.track →
      r' = { r with imprint := r'.imprint, disposition := r'.disposition, cancel := r'.cancel } := by
    intro ht; rw [find_of_track ht, h] at h'; cases h'; rfl
  cases i with
  | queued => exact key (fun r => r.uncancel .underrun) (fun _ => rfl) rfl rfl
  | building =>
    exact key (fun r => r.uncancel .underrun) (fun _ => rfl) rfl (onlyRecords_dropImprint (d.modify n _) n).2.1
  | built =>
    cases hr : d.inputs.printReady with
    | true =>
      refine key (fun r => { r with imprint := .printing }) (fun _ => rfl) rfl ?_
      unfold printDecision; simp only [hr, if_true]; rfl
    | false =>
      refine key (fun r => r.uncancel .aborted) (fun _ => rfl) rfl ?_
      unfold printDecision; simp only [hr, Bool.false_eq_true, if_false]; rfl
  | _ => exact same rfl

/-- R94: what a print start decision leaves of the Imprint Unit. -/
theorem printDecision_imprint (d : Device) (n : RecNo) (p : Pos) (i : ImprintStatus) :
    (printDecision d n p i).imprint =
      { d.imprint with
        builder := if i = .building ∧ d.imprint.builder = some n then none else d.imprint.builder
        ring := d.imprint.ring.filter (fun h =>
          decide (¬ (h.number = n ∧ (i = .building ∨ i = .built ∧ d.inputs.printReady = false))))
        printing := (printDecision d n p i).imprint.printing
        printFault := (printDecision d n p i).imprint.printFault } := by
  have same : (printDecision d n p i).imprint = d.imprint → ¬ i = .building → ¬ i = .built →
      (printDecision d n p i).imprint = { d.imprint with
        builder := if i = .building ∧ d.imprint.builder = some n then none else d.imprint.builder
        ring := d.imprint.ring.filter (fun h =>
          decide (¬ (h.number = n ∧ (i = .building ∨ i = .built ∧ d.inputs.printReady = false))))
        printing := (printDecision d n p i).imprint.printing
        printFault := (printDecision d n p i).imprint.printFault } :=
    fun e h1 h2 => imprint_differs _ _ _ _ (by simp [e, h1]) (by simp [e, h1, h2]) (by rw [e])
  cases i with
  | building =>
    have e : (printDecision d n p .building).imprint =
        (dropImprint (d.modify n (fun r => r.uncancel .underrun)) n).imprint := rfl
    rw [dropImprint_imprint] at e
    exact imprint_differs _ _ _ _ (by rw [e]; simp; rfl) (by rw [e]; simp) (by rw [e]; rfl)
  | built =>
    unfold printDecision
    cases hr : d.inputs.printReady with
    | true => exact imprint_differs _ _ _ _ (by simp) (by simp) rfl
    | false => exact imprint_differs _ _ _ _ (by simp) (by simp) rfl
  | _ => exact same rfl (by simp) (by simp)

/-- R43, R44: everything the scan-suspect counter does. -/
theorem suspectCounter_form (d : Device) (n : RecNo) (b : Bool) :
   let t := d.num 0 0 2
   let d' := freeClassifier (suspectDecision d n b)
   let reached : Prop := t ≠ 0 ∧ b = true ∧ t ≤ d.classifier.suspect + 1
   ∃ at' ln, d' =
       { d with classifier := { busy := none, suspect := d'.classifier.suspect }, attention := at', line := ln } ∧
        (t ≠ 0 → b = true → ¬ reached → d'.classifier.suspect = d.classifier.suspect + 1) ∧
        (t = 0 ∨ ¬ b = true ∨ reached → d'.classifier.suspect = 0) ∧
        (reached → at' = { d.attention with scanSuspect := some (latchOn d.attention.scanSuspect (.scanSuspect n t)) } ∧
          ln = { d.line with scanLock := d.line.scanLock || d.flag 0 0 3 }) ∧
        (¬ reached → at' = d.attention ∧ ln = d.line) := by
  intro t d' reached
  have hd : d' = freeClassifier (suspectDecision d n b) := rfl
  unfold suspectDecision at hd
  have ht : d.suspectThreshold = t := rfl
  simp only [ht] at hd
  by_cases h1 : t = 0 ∨ b = false
  · rw [if_pos h1] at hd
    have hnr : ¬ reached := by rintro ⟨a, b', _⟩; rcases h1 with h | h; exact a h; rw [h] at b'; cases b'
    rw [hd]
    refine ⟨d.attention, d.line, rfl, fun a b' => ?_, fun _ => rfl, fun h => absurd h hnr, fun _ => ⟨rfl, rfl⟩⟩
    rcases h1 with h | h
    · exact absurd h a
    · rw [h] at b'; cases b'
  · rw [if_neg h1] at hd
    have hb : b = true := by cases b <;> simp_all
    have h0 : t ≠ 0 := fun e => h1 (.inl e)
    by_cases h2 : t ≤ d.classifier.suspect + 1
    · rw [if_pos h2] at hd
      have hre : reached := ⟨h0, hb, h2⟩
      have hl : (occur d (.scanSuspect n t)).scanLockEnable = d.flag 0 0 3 := rfl
      rw [hl] at hd
      cases hf : d.flag 0 0 3 <;> rw [hf] at hd <;> simp only [Bool.false_eq_true, if_false,
          if_true] at hd <;> rw [hd]
      · exact ⟨_, _, rfl, fun _ _ h => absurd hre h, fun _ => rfl, fun _ => ⟨rfl, (by rw [Bool.or_false]; rfl)⟩,
            fun h => absurd hre h⟩
      · exact ⟨_, _, rfl, fun _ _ h => absurd hre h, fun _ => rfl, fun _ => ⟨rfl, (by rw [Bool.or_true]; rfl)⟩,
            fun h => absurd hre h⟩
    · rw [if_neg h2] at hd
      have hnr : ¬ reached := fun h => h2 h.2.2
      rw [hd]
      refine ⟨_, _, rfl, fun _ _ _ => rfl, fun h => ?_, fun h => absurd h hnr, fun _ => ⟨rfl, rfl⟩⟩
      rcases h with h | h | h
      · exact absurd h h0
      · exact absurd hb h
      · exact absurd h hnr

/-- R47: the mark kind of a kind code. -/
theorem markKindOf_eq (n : Nat) : markKindOf n =
    if n = 1 then .stamp else if n = 2 then .meter else if n = 3 then .indicia else if n = 4 then .label
    else .nonPostage := by
  unfold markKindOf
  split
  · rfl
  · rfl
  · rfl
  · rfl
  · next h1 h2 h3 h4 => rw [if_neg h1, if_neg h2, if_neg h3, if_neg h4]

/-- The lowest number that passes a test. -/
theorem find_range_some (n i : Nat) (p : Nat → Bool) (h : i < n) (hp : p i = true) (hn : ∀ j, j < i → p j = false) :
    (List.range n).find? p = some i := by
  rw [List.find?_range_eq_some]
  refine ⟨hp, by simpa using h, fun j hj => by simpa using hn j hj⟩

/-- No number passes the test. -/
theorem find_range_none (n : Nat) (p : Nat → Bool) (hn : ∀ j, j < n → p j = false) :
    (List.range n).find? p = none := by
  rw [List.find?_range_eq_none]
  intro j hj; simpa using hn j hj

/-- A bit of columns laid over one another. -/
theorem foldl_or_get (ls : List α) (f : α → BitVec 64) (a : BitVec 64) (n : Nat) :
    (ls.foldl (fun acc l => acc ||| f l) a).getLsbD n = (a.getLsbD n || ls.any (fun l => (f l).getLsbD n)) := by
  induction ls generalizing a with
  | nil => simp
  | cons l ls ih => rw [List.foldl_cons, ih]; simp [Bool.or_assoc]

/-- R89, R90: when the Column Ring has room for a width. -/
theorem ringRoom_iff (d : Device) (w : Nat) : d.ringRoom w = true ↔ ∀ k, k < w → ∀ h ∈ d.imprint.ring,
    h.columns.length ≤ ((d.imprint.alloc + k) % 1024 + 1024 - h.start) % 1024 := by
  simp only [Device.ringRoom, Device.ringHeld, List.all_eq_true, List.mem_range, Bool.not_eq_true', List.any_eq_false,
    decide_eq_true_eq, Nat.not_lt]
  rfl

/-- R84 step 2: the rows of a doubled column. -/
theorem doubleRows_get (g : Word) (m : Nat) : (doubleRows g).getLsbD m = true ↔
    m < 64 ∧ ∃ r, r < 16 ∧ g.getLsbD r = true ∧ (m = 2 * r ∨ m = 2 * r + 1) := by
  have h : doubleRows g = (List.range 16).foldl (fun acc r => acc ||| (if g.getLsbD r then (3#64 <<<
      (2 * r)) else 0#64)) 0#64 := by
    unfold doubleRows
    congr 1
    funext acc r
    split
    · rfl
    · simp
  have h3 : ∀ k, (3#64).getLsbD k = true ↔ k = 0 ∨ k = 1 := by
    intro k
    rcases Nat.lt_or_ge k 64 with hk | hk
    · interval_cases k <;> simp
    · rw [BitVec.getLsbD_of_ge _ _ hk]; simp; omega
  rw [h, foldl_or_get]
  simp only [BitVec.getLsbD_zero, Bool.false_or, List.any_eq_true, List.mem_range]
  constructor
  · rintro ⟨r, hr, hx⟩
    split at hx
    · next hg =>
      rw [BitVec.getLsbD_shiftLeft] at hx
      simp only [Bool.and_eq_true, decide_eq_true_eq, Bool.not_eq_true', decide_eq_false_iff_not] at hx
      have := (h3 _).1 hx.2
      exact ⟨hx.1.1, r, hr, hg, by omega⟩
    · simp at hx
  · rintro ⟨hm, r, hr, hg, hx⟩
    refine ⟨r, hr, ?_⟩
    rw [if_pos hg, BitVec.getLsbD_shiftLeft]
    simp only [Bool.and_eq_true, decide_eq_true_eq, Bool.not_eq_true', decide_eq_false_iff_not]
    exact ⟨⟨hm, by omega⟩, (h3 _).2 (by omega)⟩

/-- R83, R84 step 2: the dots of a line's image. -/
theorem lineImage_get (d : Device) (t line : Nat) (gl : List Glyph) (c n : Nat) (hn : n < 32)
    (hc : c < d.templateWidth t) :
    (d.lineImage t line gl c).getLsbD n = true ↔ d.lineStart t line ≤ c ∧ ∃ g r,
      gl[(c - d.lineStart t line) / 12]? = some (some g) ∧ r < 16 ∧
        (d.cell 11 g ((c - d.lineStart t line) % 12)).getLsbD r = true ∧
        (d.num 8 t (9 + 6 * line) = 0 → n = d.lineOffset t line + r) ∧
        (d.num 8 t (9 + 6 * line) ≠ 0 → n = d.lineOffset t line + 2 * r ∨ n = d.lineOffset t line + 2 * r + 1) := by
  unfold Device.lineImage; simp only
  by_cases hs : d.lineStart t line ≤ c
  · rw [if_neg (by omega)]
    rcases h : gl[(c - d.lineStart t line) / 12]? with _ | _ | g
    · simp
    · simp
    · simp only [hs, true_and]
      have hdbl : d.lineDoubled t line = decide (d.num 8 t (9 + 6 * line) ≠ 0) := rfl
      rw [BitVec.getLsbD_shiftLeft, hdbl]
      by_cases hd : d.num 8 t (9 + 6 * line) = 0
      · rw [hd]
        simp only [ne_eq, not_true_eq_false, decide_false, Bool.false_eq_true, if_false, Bool.and_eq_true,
            decide_eq_true_eq, Bool.not_eq_true', decide_eq_false_iff_not, BitVec.getLsbD_setWidth]
        constructor
        · rintro ⟨⟨h1, h2⟩, h3, h4⟩
          refine ⟨g, n - d.lineOffset t line, rfl, ?_, h4, fun _ => by omega, fun h => h.elim⟩
          by_contra hge
          rw [BitVec.getLsbD_of_ge _ _ (by omega)] at h4; cases h4
        · rintro ⟨g', r, hg, hr, hx, h1, _⟩
          cases hg
          have := h1 trivial
          refine ⟨⟨by omega, by omega⟩, by omega, ?_⟩
          rw [show n - d.lineOffset t line = r by omega]; exact hx
      · have : decide (d.num 8 t (9 + 6 * line) ≠ 0) = true := by simpa using hd
        rw [this]
        simp only [if_true, Bool.and_eq_true, decide_eq_true_eq, Bool.not_eq_true', decide_eq_false_iff_not,
            doubleRows_get]
        constructor
        · rintro ⟨⟨h1, h2⟩, h3, r, hr, hx, h4⟩
          exact ⟨g, r, rfl, hr, hx, fun h => absurd h hd, fun _ => by omega⟩
        · rintro ⟨g', r, hg, hr, hx, _, h1⟩
          cases hg
          have := h1 hd
          exact ⟨⟨by omega, by omega⟩, by omega, r, hr, hx, by omega⟩
  · rw [if_pos (by omega)]
    simp [hs]

/-- R84 step 1: the dots of the bar. -/
theorem barDots_get (d : Device) (t c n : Nat) (hn : n < 32) : (d.barDots t c).getLsbD n = true ↔
    d.num 8 t 2 ≤ 3 ∧ d.num 8 t 4 ≠ 0 ∧ d.num 8 t 3 ≤ c ∧ c < d.num 8 t 3 + d.num 8 t 4 ∧
      (d.cell 12 (64 * d.num 8 t 2 + (c - d.num 8 t 3) % 64) (n / 16)).getLsbD (n % 16) = true := by
  unfold Device.barDots; simp only
  split
  · next h =>
    rw [BitVec.getLsbD_or, BitVec.getLsbD_shiftLeft, BitVec.getLsbD_setWidth, BitVec.getLsbD_setWidth]
    simp only [h, true_and, ne_eq, not_false_eq_true]
    rcases Nat.lt_or_ge n 16 with hl | hl
    · rw [show n / 16 = 0 by omega, show n % 16 = n by omega]
      simp [hl, show n < 64 by omega]
    · rw [show n / 16 = 1 by omega, show n % 16 = n - 16 by omega, BitVec.getLsbD_of_ge _ n hl]
      simp [show ¬ n < 16 by omega, show n < 64 by omega, show n - 16 < 64 by omega]
  · next h =>
    constructor
    · intro hx; simp at hx
    · rintro ⟨h1, h2, h3, h4, _⟩; exact absurd ⟨h1, h2, h3, h4⟩ h

/-- Closing a frame leaves the delimiter. -/
theorem closeFrame_delim (d : Device) : (closeFrame d).feed.delim = d.feed.delim := by
  unfold closeFrame
  split
  · rfl
  · rfl
  · simp only
    split
    · rw [respond, arbiter_feed]; rfl
    · rw [applyPoint_feed, respond, arbiter_feed]; rfl

/-- Every command answers a next state and leaves the queue of commands. -/
theorem exec_after (i : Instr) (s : State) : ∃ e, exec i s = s.after e := by
  cases i <;> exact ⟨_, rfl⟩

section

variable (z l : BitVec 2) (i x : BitVec 1) (c : BitVec 4) (w : BitVec 6)

/-- R28: the bit fields of an observation word. -/
theorem observation_zone : (z ++ l ++ i ++ c ++ w ++ x).extractLsb' 14 2 = z := by
  repeat rw [extract_append_left _ _ _ _ (by decide)]
  rw [extract_all]

theorem observation_lum : (z ++ l ++ i ++ c ++ w ++ x).extractLsb' 12 2 = l := by
  repeat rw [extract_append_left _ _ _ _ (by decide)]
  rw [extract_append_right _ _ _ _ (by decide), extract_all]

theorem observation_ink : (z ++ l ++ i ++ c ++ w ++ x).extractLsb' 11 1 = i := by
  repeat rw [extract_append_left _ _ _ _ (by decide)]
  rw [extract_append_right _ _ _ _ (by decide), extract_all]

theorem observation_confidence : (z ++ l ++ i ++ c ++ w ++ x).extractLsb' 7 4 = c := by
  repeat rw [extract_append_left _ _ _ _ (by decide)]
  rw [extract_append_right _ _ _ _ (by decide), extract_all]

theorem observation_width : (z ++ l ++ i ++ c ++ w ++ x).extractLsb' 1 6 = w := by
  repeat rw [extract_append_left _ _ _ _ (by decide)]
  rw [extract_append_right _ _ _ _ (by decide), extract_all]

end

/-- R166: a head word read back. -/
theorem headWord_read (code n : Nat) (hc : code < 256) (hn : n < 256) :
    headKind (headWord code n) = code ∧ (headQualifier (headWord code n)).toNat = n := by
  unfold headKind headQualifier headWord word
  rw [BitVec.extractLsb'_toNat, BitVec.extractLsb'_toNat, BitVec.toNat_ofNat, Nat.shiftRight_eq_div_pow]
  constructor
  · omega
  · simp only [Nat.shiftRight_zero]; omega

/-- R166: a frame code read back. -/
theorem frameKindOf_frameCode (kind : FrameKind) : frameKindOf (frameCode kind) = some kind ∧ frameCode kind < 256 := by
  rcases kind with s | c
  · cases s <;> exact ⟨rfl, by decide⟩
  · cases c <;> exact ⟨rfl, by decide⟩

/-- R27, R169: a frame row is a frame taken, in a way that may look at the command next in the queue (R110). -/
theorem framed_takeFrame (i : Instr) (kind : FrameKind) (q : BitVec 8) (body : List Word)
    (h : rowFrame i = some (kind, q, body)) :
    ∃ f : List Instr → Device → Device, ∀ s, exec i s = s.after (takeFrame kind q body (f s.pending) s.dev) := by
  cases i <;> first
    | (cases h; exact ⟨fun _ => _, fun _ => rfl⟩)
    | (cases h; exact ⟨fun next d => handOn (pulseNext next) d _ _ _, fun _ => rfl⟩)
    | (cases h)

/-- R176, R178: the arbiter changes no input and no word presented. -/
theorem arbiter_inputs (d : Device) : (arbiter d).inputs = d.inputs := by
  have hp (e : Device) : (placePage e).inputs = e.inputs := by
    unfold placePage
    split
    · rfl
    · split <;> rfl
  have hd (e : Device) : (takeDeferred e).inputs = e.inputs := by unfold takeDeferred; split <;> rfl
  have hr : (placeResponse d).inputs = d.inputs := by
    unfold placeResponse
    split
    · rfl
    · rfl
    · split
      · rfl
      · split <;> rfl
  unfold arbiter settlePage
  rw [hp, hd, hp, hr]

/-- R167, R169: what a head word ends leaves the delimiter with no frame open, and the words behind it in their order.
-/
theorem endOpen_settles (d : Device) : (endOpen d).feed.delim.settled = true ∧
    (endOpen d).feed.presented = d.feed.presented ∧ (endOpen d).inputs = d.inputs := by
  unfold endOpen
  split
  · exact ⟨rfl, rfl, rfl⟩
  · unfold closeFrame
    split
    · exact ⟨rfl, rfl, rfl⟩
    · exact ⟨rfl, rfl, rfl⟩
    · simp only
      split
      · rw [respond, arbiter_feed, arbiter_inputs]; exact ⟨rfl, rfl, rfl⟩
      · rw [applyPoint_feed, (applied_applyPoint _).inputs, respond, arbiter_feed, arbiter_inputs]
        exact ⟨rfl, rfl, rfl⟩
  all_goals next h => rw [h]; exact ⟨rfl, rfl, rfl⟩

/-- R167, R169: a frame that ends an open one whose response does not wait finds that frame ended. -/
theorem takeFrame_endOpen (kind : FrameKind) (q : BitVec 8) (body : List Word) (f : Device → Device) (d : Device)
    (hr : d.inputs.resetLine = false) (hc : d.linkClear = true) (hw : (endOpen d).responseWaiting = false) :
    takeFrame kind q body f d = takeFrame kind q body f (endOpen d) := by
  obtain ⟨h1, h2, h3⟩ := endOpen_settles d
  have hc' : (endOpen d).linkClear = true := by
    unfold Device.linkClear at hc ⊢
    rw [hw, h2, endOpen_fifo]
    simp only [Bool.and_eq_true] at hc
    simp [hc]
  unfold takeFrame
  rw [h3, hr, hc, hc', endOpen_settled _ h1]
  simp

/-- R169, R170: a fixed command row is a frame taken and handed on. -/
theorem framed_handOn (i : Instr) (c : CommandKind) (tag : BitVec 8) (body : List Word)
    (h : rowFrame i = some (.command c, tag, body)) (hb : bodyLength (.command c) tag ≠ none) (s : State) :
    exec i s = s.after (takeFrame (.command c) tag body
      (fun d => handOn (pulseNext s.pending) d (.command c) tag body) s.dev) := by
  have run : ∀ k, k ≠ .closeTally → deliver k tag body s.dev = takeFrame (.command k) tag body
      (fun d => handOn (pulseNext s.pending) d (.command k) tag body) s.dev := fun k hk =>
    congrArg (takeFrame (.command k) tag body · s.dev)
      (funext fun d => (handOn_execute (pulseNext s.pending) d k tag body (.inr hk)).symm)
  cases i <;> first
    | (cases h; rfl)
    | (cases h; exact congrArg s.after (run _ (by decide)))
    | (cases h; exact absurd rfl hb)
    | (cases h)

/-- A number written as its bits has those bits. -/
theorem bitSum_testBit (f : Nat → Bool) (n : Nat) :
    ((List.range n).map (fun k => bit (f k) * 2 ^ k)).sum < 2 ^ n ∧
      ∀ i, i < n → ((List.range n).map (fun k => bit (f k) * 2 ^ k)).sum.testBit i = f i := by
  induction n with
  | zero => exact ⟨Nat.one_pos, fun i h => absurd h (Nat.not_lt_zero i)⟩
  | succ n ih =>
    obtain ⟨h1, h2⟩ := ih
    rw [List.range_succ, List.map_append, List.sum_append]
    simp only [List.map_cons, List.map_nil, List.sum_cons, List.sum_nil, Nat.add_zero]
    rw [Nat.add_comm, Nat.mul_comm]
    have hb : bit (f n) ≤ 1 := by cases f n <;> decide
    constructor
    · have := Nat.mul_le_mul_left (2 ^ n) hb
      rw [Nat.pow_succ]; omega
    · intro i hi
      rw [Nat.testBit_two_pow_mul_add _ h1]
      split
      · next h => exact h2 i h
      · have : i = n := by omega
        subst this
        rw [Nat.sub_self]
        cases f i <;> rfl

/-- 12.4: the mask of the bins that are FULL, bin by bin. -/
theorem binFull_words (d : Device) : ∃ full : Word, d.causeWords .binFull = [full] ∧
    ∀ k : Fin 16, full.getLsbD k.val = decide (k ≠ 0 ∧ (d.bin k).state = .full) := by
  refine ⟨_, rfl, fun k => ?_⟩
  obtain ⟨_, h⟩ := bitSum_testBit (fun j => decide (j ≠ 0) && decide ((d.bin (Fin.ofNat 16 j)).state = .full)) 16
  have he : (List.finRange 16).map (fun k => bit (decide (k.val ≠ 0) && decide ((d.bin k).state = .full)) * 2 ^ k.val) =
      (List.range 16).map (fun j =>
        bit (decide (j ≠ 0) && decide ((d.bin (Fin.ofNat 16 j)).state = .full)) * 2 ^ j) := rfl
  have hk : Fin.ofNat 16 k.val = k := Fin.ext (Nat.mod_eq_of_lt k.isLt)
  have hz : (k.val ≠ 0) = (k ≠ 0) := propext (not_congr (Fin.ext_iff (a := k) (b := 0)).symm)
  rw [he, word, BitVec.getLsbD_ofNat, h k.val k.isLt, hk]
  simp only [hz, Bool.decide_and, k.isLt, decide_true, Bool.true_and]

/-- R181 and the ranges of the tables: the value a field holds when `v` is written to it. -/
theorem heldValue_top (t f top : Nat) (v : Word) (h : ¬ (t = 8 ∧ f = 1)) (ht : fieldMax t f = top) :
    heldValue t f v = if top < v.toNat then word top else v := by
  unfold heldValue
  rw [if_neg h, ht]; rfl

/-! ## The entries to HALTED and IDLE, and a purge -/

/-- R151, R194: the entry to HALTED, from the part as it stands when the staged writes are applied. -/
theorem applied_enterHalted (d : Device) :
    Applied (clearPending (setMode (haltImprint (freeClassifier (releaseActuators d))) .halted)) (enterHalted d) :=
  (applied_applyWrites _ _).trans (applied_reportConditions _)

/-- R150, R194: the drain completion, from the part as it stands when the staged writes are applied. -/
theorem applied_completeDrain (d : Device) :
    Applied (clearPending (setMode (clearCells (releaseActuators d)) .idle)) (completeDrain d) :=
  (applied_applyWrites _ _).trans (applied_reportConditions _)

/-- R24: what purging one record leaves alone. -/
structure PurgeFrame (d d' : Device) : Prop extends RemovalFrame d d' where
  encoder : d'.track.encoder = d.track.encoder
  admission : d'.track.admission = d.track.admission
  inService : d'.track.inService = d.track.inService
  strobes : d'.imprint.printStrobes = d.imprint.printStrobes
  strobed : d'.imprint.strobed = d.imprint.strobed
  bins : ∀ k : Fin 16, (d'.bin k).fill = (d.bin k).fill ∧ (d'.bin k).held = (d.bin k).held

theorem PurgeFrame.refl (d : Device) : PurgeFrame d d :=
  ⟨RemovalFrame.refl d, rfl, rfl, rfl, rfl, rfl, fun _ => ⟨rfl, rfl⟩⟩

theorem PurgeFrame.trans {a b c : Device} (h : PurgeFrame a b) (k : PurgeFrame b c) : PurgeFrame a c :=
  ⟨h.toRemovalFrame.trans k.toRemovalFrame, k.encoder.trans h.encoder, k.admission.trans h.admission,
    k.inService.trans h.inService, k.strobes.trans h.strobes, k.strobed.trans h.strobed,
    fun j => ⟨(k.bins j).1.trans (h.bins j).1, (k.bins j).2.trans (h.bins j).2⟩⟩

/-- R24: every record purged, and what a purge leaves alone. -/
theorem purgeAll_spec (d : Device) :
    (purgeAll d).track.queue = [] ∧ PurgeFrame d (purgeAll d) ∧ (purgeAll d).tally.totals =
    { d.tally.totals with purged := d.tally.totals.purged + BitVec.ofNat 32 d.track.queue.length } := by
  unfold purgeAll
  generalize hq : d.track.queue = q
  induction q generalizing d with
  | nil => exact ⟨hq, PurgeFrame.refl d, by simp⟩
  | cons r q ih =>
    have hf : d.find r.number = some r := by unfold Device.find; rw [hq]; simp
    obtain ⟨I, B, C, h, hC, hb, hb2, -, -, -, -, hI, -⟩ :=
      removeRecord_form d r.number .purged r hf _ rfl _ _ _ _ rfl rfl rfl rfl
    have hq' : (removeRecord d r.number .purged).track.queue = q := by
      rw [h]; show d.track.queue.eraseP _ = q; rw [hq]; simp
    have hseq : I.sequence = d.imprint.sequence := by rw [hI]
    have hstr : I.printStrobes = d.imprint.printStrobes := by rw [hI]
    have hsent : I.strobed = d.imprint.strobed := by rw [hI]
    have hbin : ∀ k : Fin 16, ((removeRecord d r.number .purged).bin k).fill = (d.bin k).fill ∧
        ((removeRecord d r.number .purged).bin k).held = (d.bin k).held := by
      intro k
      have e : (removeRecord d r.number .purged).bin k = B[k] := by rw [h]; rfl
      rw [e]
      cases hr : r.route with
      | none => rw [hb2 k (by rw [hr]; simp)]; exact ⟨rfl, rfl⟩
      | some t =>
        by_cases hk : t.bin = k
        · obtain ⟨-, h2, h3, -⟩ := hb t hr
          subst hk; exact ⟨h3, h2⟩
        · rw [hb2 k (by rw [hr]; simpa using hk)]; exact ⟨rfl, rfl⟩
    have hp : PurgeFrame d (removeRecord d r.number .purged) := by
      refine ⟨?_, by rw [h]; rfl, by rw [h]; rfl, by rw [h]; rfl, by rw [h]; exact hstr, by rw [h]; exact hsent, hbin⟩
      rw [h]
      constructor <;> first | exact hseq | rfl | (intro c; cases c <;> rfl)
    have ht : (removeRecord d r.number .purged).tally.totals =
        { d.tally.totals with purged := d.tally.totals.purged + 1 } := by
      rw [h]; rfl
    obtain ⟨i1, i2, i3⟩ := ih _ hq'
    simp only [List.map_cons, List.foldl_cons]
    refine ⟨i1, hp.trans i2, ?_⟩
    rw [i3, ht]; simp only [List.length_cons]
    congr 1
    rw [show q.length + 1 = 1 + q.length from by omega, BitVec.ofNat_add, ← BitVec.add_assoc]; rfl

/-! ## The room of the Report Queue -/

/-- R143 to R145: what an operation that offers item reports leaves of the Report Queue's room: a report is six words
and the frame of a batch one more, so the words queued and seven for each report held grow by at most `n`. -/
structure Posts (n : Nat) (d d' : Device) : Prop where
  page : d'.tally.page = d.tally.page
  deferred : d'.tally.deferred = d.tally.deferred
  command : d'.command = d.command
  six : (∀ r ∈ d.tally.batch, r.length = 6) → ∀ r ∈ d'.tally.batch, r.length = 6
  words : (∀ r ∈ d.tally.batch, r.length = 6) → d'.report.queue.length + 7 * d'.tally.batch.length ≤
    d.report.queue.length + 7 * d.tally.batch.length + n

theorem Posts.refl (d : Device) : Posts 0 d d := ⟨rfl, rfl, rfl, id, fun _ => Nat.le_refl _⟩

theorem Posts.trans {a b c : Device} {m n : Nat} (h : Posts m a b) (k : Posts n b c) : Posts (m + n) a c :=
  ⟨k.page.trans h.page, k.deferred.trans h.deferred, k.command.trans h.command, fun s => k.six (h.six s), fun s => by
    have h1 := h.words s
    have h2 := k.words (h.six s)
    omega⟩

theorem Posts.of_same {d d' : Device} (h1 : d'.tally.page = d.tally.page) (h2 : d'.tally.deferred = d.tally.deferred)
    (h3 : d'.command = d.command) (h4 : d'.tally.batch = d.tally.batch) (h5 : d'.report.queue = d.report.queue) :
    Posts 0 d d' :=
  ⟨h1, h2, h3, fun s => (by rw [h4]; exact s), fun _ => (by rw [h4, h5]; exact Nat.le_refl _)⟩

/-- Words queued for a batch of reports of six words. -/
theorem batchWords_length (batch : List (List Word)) (h : ∀ r ∈ batch, r.length = 6) :
    (linkFrame (headWord 0x81 batch.length :: batch.flatten)).length = 1 + 6 * batch.length := by
  have : batch.flatten.length = 6 * batch.length := by
    induction batch with
    | nil => rfl
    | cons r rest ih =>
      have h1 := h r List.mem_cons_self
      have h2 := ih (fun x hx => h x (List.mem_cons_of_mem _ hx))
      simp only [List.flatten_cons, List.length_append, List.length_cons, h1, h2]; omega
  simp only [linkFrame, List.length_cons, List.length_map, this]; omega

theorem posts_offerBatch (d : Device) : Posts 0 d (offerBatch d) := by
  unfold offerBatch
  split
  · exact Posts.refl d
  · next hb =>
    have hpos : d.tally.batch.length ≠ 0 := by simpa [List.isEmpty_iff] using hb
    split
    · refine ⟨rfl, rfl, rfl, fun _ r hr => (by cases hr), fun s => ?_⟩
      have := batchWords_length d.tally.batch s
      show (d.report.queue ++ linkFrame (headWord 0x81 d.tally.batch.length :: d.tally.batch.flatten)).length +
        7 * 0 ≤ _
      rw [List.length_append, this]; omega
    · refine ⟨rfl, rfl, rfl, fun _ r hr => (by cases hr), fun s => ?_⟩
      show d.report.queue.length + 7 * 0 ≤ _
      omega

theorem posts_afterWrites (d : Device) (ws : List CellWrite) : Posts 0 d (afterWrites d ws) := by
  unfold afterWrites
  simp only
  refine Posts.trans (m := 0) (n := 0)
    (b := if ws.any (fun w => decide (w.table = 0)) then holdSuspect (gapCheck (offerOnSettings d)) else d)
    ?_ (Posts.of_same rfl rfl rfl rfl rfl)
  split
  · refine Posts.trans (m := 0) (n := 0) (b := offerOnSettings d) ?_ ?_
    · unfold offerOnSettings; split
      · exact posts_offerBatch d
      · exact Posts.refl d
    · refine Posts.trans (m := 0) (n := 0) (b := gapCheck (offerOnSettings d)) ?_ ?_
      · unfold gapCheck; split
        · split
          · exact Posts.of_same rfl rfl rfl rfl rfl
          · exact Posts.refl _
        · exact Posts.refl _
        · exact Posts.refl _
      · unfold holdSuspect; split
        · exact Posts.of_same rfl rfl rfl rfl rfl
        · exact Posts.refl _
  · exact Posts.refl d

theorem posts_applyWrites (d : Device) (ws : List CellWrite) : Posts 0 d (applyWrites d ws) := by
  unfold applyWrites
  split
  · exact Posts.refl d
  · obtain ⟨T, B, hf⟩ := foldWrites_form ws d
    have h1 : Posts 0 d (ws.foldl writeCell d) := by rw [hf]; exact Posts.of_same rfl rfl rfl rfl rfl
    have h2 := posts_afterWrites (ws.foldl writeCell d) ws
    simp only
    split
    · exact Posts.trans (m := 0) (n := 0) (h1.trans h2) ⟨rfl, rfl, rfl, id, fun _ => Nat.le_refl _⟩
    · exact h1.trans h2

theorem posts_applyPoint (d : Device) : Posts 0 d (applyPoint d) := by
  unfold applyPoint
  split
  · have p := posts_applyWrites { d with window := { d.window with groups := [] } } d.window.groups.flatten
    exact ⟨p.page, p.deferred, p.command, p.six, p.words⟩
  · exact Posts.refl d

theorem posts_removeRecord (d : Device) (n : RecNo) (e : ExitKind) (r : ItemRecord) (hf : d.find n = some r) :
    Posts 7 d (removeRecord d n e) := by
  obtain ⟨I, B, C, h, -⟩ := removeRecord_form d n e r hf _ rfl _ _ _ _ rfl rfl rfl rfl
  obtain ⟨batch, hb⟩ : ∃ b, b = (if d.num 0 0 0 ≠ 0 then d.tally.batch ++ [itemReport
      (imprintEnd r e) e] else d.tally.batch) := ⟨_, rfl⟩
  rw [← hb] at h
  obtain ⟨offered, ho⟩ : ∃ o, o = (decide (batch ≠ []) && (decide ((d.track.queue.eraseP (fun q => decide (q.number =
      n))) = []) ||
    decide (d.num 0 0 0 ≠ 0 ∧ max 1 (min 8 (d.num 0 0 1)) ≤ batch.length))) := ⟨_, rfl⟩
  rw [← ho] at h
  have hsix : (∀ x ∈ d.tally.batch, x.length = 6) → ∀ x ∈ batch, x.length = 6 := by
    intro s x hx
    rw [hb] at hx
    split at hx
    · rcases List.mem_append.1 hx with h | h
      · exact s x h
      · rw [List.mem_singleton.1 h]; rfl
    · exact s x hx
  have hlen : batch.length ≤ d.tally.batch.length + 1 := by
    rw [hb]; split <;> simp
  rw [h]
  refine ⟨rfl, rfl, rfl, fun s => ?_, fun s => ?_⟩
  · show ∀ x ∈ (if offered then [] else batch), x.length = 6
    split
    · intro x hx; cases hx
    · exact hsix s
  · show (d.report.queue ++ (if offered && _ then linkFrame (headWord 0x81 batch.length :: batch.flatten) else [])).length +
      7 * (if offered then [] else batch).length ≤ _
    have hw := batchWords_length batch (hsix s)
    cases hoff : offered with
    | false => simp; omega
    | true =>
      have hne : batch.length ≠ 0 := by
        rw [hoff] at ho
        intro h0
        rw [List.length_eq_zero_iff.1 h0] at ho
        simp at ho
      simp only [Bool.true_and, if_true, List.length_append, List.length_nil]
      split
      · rw [hw]; omega
      · simp; omega

/-- R24: the reports of a purge. -/
theorem posts_purgeAll (d : Device) : Posts (7 * d.track.queue.length) d (purgeAll d) := by
  unfold purgeAll
  generalize hq : d.track.queue = q
  induction q generalizing d with
  | nil => exact Posts.refl d
  | cons r q ih =>
    have hf : d.find r.number = some r := by unfold Device.find; rw [hq]; simp
    have hq' : (removeRecord d r.number .purged).track.queue = q := by
      rw [removeRecord_track d r.number .purged r hf]; show d.track.queue.eraseP _ = q; rw [hq]; simp
    have := (posts_removeRecord d r.number .purged r hf).trans (ih _ hq')
    simp only [List.map_cons, List.foldl_cons, List.length_cons]
    rw [show 7 * (q.length + 1) = 7 + 7 * q.length by omega]; exact this

theorem posts_enterHalted (d : Device) (h : d.command = .free) : Posts 0 d (enterHalted d) := by
  have ho := haltedPart_window d
  have he : enterHalted d = reportConditions (applyWrites
      (clearPending (setMode (haltImprint (freeClassifier (releaseActuators d))) .halted))
      ((setMode (haltImprint (freeClassifier (releaseActuators d))) .halted).window.groups.flatten ++
        (setMode (haltImprint (freeClassifier (releaseActuators d))) .halted).openGroup)) := rfl
  rw [he, haltedPart_form d]
  refine Posts.trans (m := 0) (n := 0) (Posts.trans (m := 0) (n := 0) ?_ (posts_applyWrites _ _))
    (Posts.of_same rfl rfl rfl rfl rfl)
  exact Posts.of_same rfl rfl (by simp only [h]) rfl rfl

theorem posts_completeDrain (d : Device) (h : d.command = .free) : Posts 0 d (completeDrain d) := by
  have he : completeDrain d = reportConditions (applyWrites
      (clearPending (setMode (clearCells (releaseActuators d)) .idle))
      ((setMode (clearCells (releaseActuators d)) .idle).window.groups.flatten ++
        (setMode (clearCells (releaseActuators d)) .idle).openGroup)) := rfl
  rw [he]
  refine Posts.trans (m := 0) (n := 0) (Posts.trans (m := 0) (n := 0) ?_ (posts_applyWrites _ _))
    (Posts.of_same rfl rfl rfl rfl rfl)
  refine Posts.of_same rfl rfl ?_ rfl rfl
  show (clearPending _).command = _
  unfold clearPending
  have : (setMode (clearCells (releaseActuators d)) .idle).command = .free := h
  simp only [this, h]

/-- R171, R177: a command answered at once on a clear part, with the reports its effect has offered before it. -/
theorem deliver_posts (kind : CommandKind) (tag : BitVec 8) (body : List Word) (d e : Device) (a : Answer) (m : Nat)
    (h : d.clear (5 + a.words.length + 7 * d.tally.batch.length + m)) (s : ∀ r ∈ d.tally.batch, r.length = 6)
    (p : Posts m (setDelim d (.complete (.command kind) tag)) e)
    (hfd : e.feed = (setDelim d (.complete (.command kind) tag)).feed)
    (hf : runCommand kind body (setDelim d (.complete (.command kind) tag)) = (e, a)) :
    deliver kind tag body d = e.answered kind tag a := by
  obtain ⟨h1, h2, h3, h4⟩ := h
  have hw := p.words s
  have hself : setDelim e (.complete (.command kind) tag) = e := by
    unfold setDelim; rw [hfd]; cases e; simp only at hfd; subst hfd; rfl
  refine deliver_answered kind tag body d e a h1 (by rw [hf, hself]) (p.command.trans h1.1.2.1) (p.page.trans h2)
    (p.deferred.trans h3) ?_
  have e1 : (setDelim d (.complete (.command kind) tag)).report = d.report := rfl
  have e2 : (setDelim d (.complete (.command kind) tag)).tally = d.tally := rfl
  rw [e1, e2] at hw
  have h4' : 5 + a.words.length + 7 * d.tally.batch.length + m ≤ 256 - d.report.queue.length := h4
  show 5 + a.words.length ≤ 256 - e.report.queue.length
  omega

/-! ## Writes taken at once (R185) -/

/-- What the tables take does not depend on the Command Unit, the Feed Link or the window selected. -/
theorem takesWrites_rest (d d' : Device) (ws : List CellWrite) (F : FeedLink) (S : Option Window)
    (h : d.TakesWrites ws d')
    (hw : d.responseWaiting = false) :
    ({ d with command := .free, feed := F, window := { d.window with selection := S } } : Device).TakesWrites ws
      { d' with command := .free, feed := F, window := { d'.window with selection := S } } := by
  have hf : ({ d with command := .free, feed := F, window := { d.window with selection := S } } : Device).batchFits =
      d.batchFits := by
    unfold Device.batchFits; rw [hw]; rfl
  obtain ⟨hi, ht, hm, hc, -⟩ := h.others
  refine { h with offer := fun o ho => ?_, window := ?_, others := ⟨hi, ht, hm, hc, rfl, rfl⟩ }
  · rw [hf]
    exact h.offer o ho
  · show ({ d'.window with selection := S } : WindowUnit) = _
    rw [h.window]; rfl

/-- R169, R185: the part as the tables have it, but for the frame that is open and the cursor. -/
abbrev frameClosed (F : FeedLink) (S : Option Window) (x : Device) : Device :=
  { x with command := .free, feed := F, window := { x.window with selection := S } }

/-- R183: the cursor advanced from a place of the window. -/
theorem Window.advance_place (w : Window) (c : Nat) (h : c < w.size) :
    ({ w with cursor := c } : Window).advance = { w with cursor := match w.overrun with
      | .ignore => c + 1
      | .wrap => (c + 1) % w.size } := by
  by_cases ho : w.overrun = .ignore
  · rw [advance_ignore w c ho h]; simp only [ho]
  · have ho : w.overrun = .wrap := by cases h : w.overrun <;> simp_all
    rw [advance_wrap w c ho h]; simp only [ho]

/-- R184, R185: the words of a frame taken at once. -/
theorem foldWords_writes (F : FeedLink) (S : Option Window) (w : Window) (hw : w.inTable) (words : List Word)
    (x : Device) (f : OpenFrame) (c : Nat)
    (hc : x.command = .receiving f) (hs : x.window.selection = some { w with cursor := c }) (ha : x.active = false)
    (hcan : x.canonical) (hk : f.kind ≠ .nop) (hr : f.refusal = none) (hov : f.overflowed = false)
    (hcur : w.overrun = .ignore → c + words.length ≤ w.size) (hcw : w.overrun = .wrap → c < w.size)
    (hro : ∀ k, k < words.length → cellReadOnly w.table (w.place ((c + k) % w.size)).1 (w.place ((c + k) % w.size)).2 =
        false) :
    ∃ y, words.foldl openFrameWord x = y ∧
      takesInTurn ((List.range words.length).map (fun k =>
        { table := w.table, row := (w.place ((c + k) % w.size)).1, field := (w.place ((c + k) % w.size)).2,
          value := heldValue w.table (w.place ((c + k) % w.size)).2 (words.getD k 0) })) (frameClosed F S x)
              (frameClosed F S y) ∧
      y.command = .receiving { f with bodyWords := f.bodyWords + words.length, written := f.written + words.length } ∧
      y.feed = x.feed ∧ y.window.selection = some { w with cursor := match w.overrun with
          | .ignore => c + words.length
          | .wrap => (c + words.length) % w.size } ∧ Posts 0 (frameClosed F S x) (frameClosed F S y) := by
  induction words generalizing x f c with
  | nil =>
    refine ⟨x, rfl, rfl, hc, rfl, ?_, Posts.refl _⟩
    rw [hs]
    cases ho : w.overrun with
    | ignore => rfl
    | wrap => simp only [List.length_nil, Nat.add_zero, Nat.mod_eq_of_lt (hcw ho)]
  | cons v words ih =>
    have hcs : c < w.size := by
      cases ho : w.overrun with
      | ignore => have := hcur ho; simp only [List.length_cons] at this; omega
      | wrap => exact hcw ho
    have hmod : (c + 0) % w.size = c := Nat.mod_eq_of_lt hcs
    have hro0 := hro 0 (by simp)
    rw [hmod] at hro0
    obtain ⟨cell, hcell⟩ : ∃ cell : CellWrite, cell =
        { table := w.table, row := (w.place c).1, field := (w.place c).2,
          value := heldValue w.table (w.place c).2 v } := ⟨_, rfl⟩
    have hin : cell.inTable := by
      obtain ⟨h1, h2⟩ := w.place_inTable c hw hcs
      rw [hcell]; exact ⟨h1, h2, hro0⟩
    obtain ⟨c', hc'⟩ : ∃ c', c' = (match w.overrun with | .ignore => c + 1 | .wrap => (c + 1) % w.size) := ⟨_, rfl⟩
    obtain ⟨Z, hZ⟩ : ∃ Z, Z = setFrame (setWindow x { w with cursor := c' })
        { f with bodyWords := f.bodyWords + 1, written := f.written + 1 } := ⟨_, rfl⟩
    have hstep : openFrameWord x v = writeNow Z cell := by
      have h1 : ({ w with cursor := c } : Window).atEnd = false := by
        unfold Window.atEnd; simp only [decide_eq_false_iff_not, not_le]; exact hcs
      rw [openFrameWord_writes x f { w with cursor := c } v (w.place c).1 (w.place c).2 hc hs hk hr hov h1 rfl hro0]
      unfold writeWord; rw [ha]; simp only [Bool.false_eq_true, if_false]
      rw [w.advance_place c hcs, ← hc', hZ, hcell]
    have hT : Z.TakesWrites [cell] (writeNow Z cell) :=
      takesWrites_afterWrites [cell] Z (by rw [hZ]; exact hcan) (by simpa using hin)
    have hcl : frameClosed F S Z = frameClosed F S x := by rw [hZ]; rfl
    have hT' : (frameClosed F S x).TakesWrites [cell] (frameClosed F S (writeNow Z cell)) := by
      rw [← hcl]
      exact takesWrites_rest Z _ [cell] F S hT (by rw [hZ]; rfl)
    obtain ⟨-, -, -, -, -, -, -, h8, -, h10, h11⟩ := hT
    have hact : (writeNow Z cell).active = false := by
      have : (writeNow Z cell).line.mode = Z.line.mode := by rw [h10]
      unfold Device.active at ha ⊢; rw [this, hZ]; exact ha
    have hcan' : (writeNow Z cell).canonical := (keeps_writeNow Z cell).canonical (by rw [hZ]; exact hcan)
    have hlen : (v :: words).length = words.length + 1 := rfl
    have hpost : Posts 0 (frameClosed F S x) (frameClosed F S (writeNow Z cell)) := by
      obtain ⟨T, B, hform⟩ := writeCell_form Z cell
      have p := posts_afterWrites (writeCell Z cell) [cell]
      have e : writeNow Z cell = afterWrites (writeCell Z cell) [cell] := rfl
      have t1 : (writeCell Z cell).tally = x.tally := by rw [hform, hZ]; rfl
      have t2 : (writeCell Z cell).report = x.report := by rw [hform, hZ]; rfl
      refine ⟨?_, ?_, rfl, ?_, ?_⟩
      · exact p.page.trans (by rw [t1])
      · exact p.deferred.trans (by rw [t1])
      · intro s6; exact p.six (by rw [t1]; exact s6)
      · intro s6
        have := p.words (by rw [t1]; exact s6)
        rw [t1, t2] at this; exact this
    have hmodk : ∀ k, (c' + k) % w.size = (c + (k + 1)) % w.size := by
      intro k
      rw [hc']
      cases w.overrun with
      | ignore => rw [show c + 1 + k = c + (k + 1) by omega]
      | wrap => simp only; rw [Nat.mod_add_mod, show c + 1 + k = c + (k + 1) by omega]
    obtain ⟨y, y1, y2, y3, y4, y5, y6⟩ := ih (writeNow Z cell)
      { f with bodyWords := f.bodyWords + 1, written := f.written + 1 } c'
      (by rw [h11.2.2.2.2.2, hZ]; rfl) (by rw [h8, hZ]; rfl) hact hcan' hk hr hov
      (by intro ho; have := hcur ho; rw [hc', ho]; simp only [List.length_cons] at this ⊢; omega)
      (by intro ho; rw [hc', ho]; exact Nat.mod_lt _ (by omega))
      (by intro k hk'; rw [hmodk]; exact hro (k + 1) (by simp only [List.length_cons]; omega))
    refine ⟨y, ?_, ?_, ?_, ?_, ?_, ?_⟩
    · rw [List.foldl_cons, hstep]; exact y1
    · rw [hlen, List.range_succ_eq_map, List.map_cons, List.map_map]
      refine ⟨frameClosed F S (writeNow Z cell), ?_, ?_⟩
      · rw [hmod]
        have : ({ table := w.table, row := (w.place c).1, field := (w.place c).2,
                  value := heldValue w.table (w.place c).2 ((v :: words).getD 0 0) } : CellWrite) = cell := by
          rw [hcell]
          rfl
        rw [this]; exact hT'
      · simp only [hmodk] at y2
        exact y2
    · rw [y3, hlen, show f.bodyWords + 1 + words.length = f.bodyWords + (words.length + 1) by omega,
        show f.written + 1 + words.length = f.written + (words.length + 1) by omega]
    · rw [y4, h11.2.2.2.2.1, hZ]; rfl
    · rw [y5, hlen, hc']
      cases ho : w.overrun with
      | ignore => simp only; rw [show c + 1 + words.length = c + (words.length + 1) by omega]
      | wrap => simp only; rw [Nat.mod_add_mod, show c + 1 + words.length = c + (words.length + 1) by omega]
    · exact hpost.trans y6

/-- R184, R185: a WRITE frame taken at once, whole. -/
theorem deliverOpen_writes (s : State) (tag : BitVec 8) (words : List Word) (w : Window) (kind : CommandKind)
    (hkd : kind ≠ .nop) (c : Nat)
    (hcc : c = if kind = .writeWindow then 0 else w.cursor)
    (hcl : s.dev.clear (9 + 7 * s.dev.tally.batch.length)) (h6 : ∀ r ∈ s.dev.tally.batch, r.length = 6)
    (ha : s.dev.active = false) (hcan : s.dev.canonical) (hs : s.dev.window.selection = some w)
    (hin : w.inTable) (h12 : w.table ≤ 12) (h7 : w.table = 7 → s.dev.line.mode = .idle)
    (hcur : w.overrun = .ignore → c + words.length ≤ w.size) (hcw : w.overrun = .wrap → c < w.size)
    (hro : ∀ k, k < words.length → cellReadOnly w.table (w.place ((c + k) % w.size)).1 (w.place ((c + k) % w.size)).2 =
        false) :
    ∃ e, takesInTurn ((List.range words.length).map (fun k =>
        { table := w.table, row := (w.place ((c + k) % w.size)).1, field := (w.place ((c + k) % w.size)).2,
          value := heldValue w.table (w.place ((c + k) % w.size)).2 (words.getD k 0) }))
        { s.dev with window := { s.dev.window with selection := some { w with cursor := match w.overrun with
          | .ignore => c + words.length
          | .wrap => (c + words.length) % w.size } } } e ∧
      deliverOpen kind tag words s.dev = e.answered kind tag (.done [word (min 65535 words.length), word words.length,
          0, 0]) := by
  obtain ⟨hr, hp, hd, hroom⟩ := hcl
  have hwr : s.dev.writeRefusal = none := by
    unfold Device.writeRefusal; rw [hs]; simp only
    rw [if_neg (by omega), if_neg (fun h => h.2 (h7 h.1)), if_neg]
    rintro ⟨h, _⟩; rw [ha] at h; cases h
  obtain ⟨x, hx⟩ : ∃ x, x = setFrame (setWindow (setDelim s.dev (.openEnded
      (.command kind) tag)) { w with cursor := c }) (newFrame kind tag none c) := ⟨_, rfl⟩
  have hopen : openFrame (setDelim s.dev (.openEnded (.command kind) tag)) kind tag = x := by
    unfold openFrame; rw [if_neg hkd]
    have h1 : (setDelim s.dev (.openEnded (.command kind) tag)).writeRefusal = none := hwr
    have h2 : (setDelim s.dev (.openEnded (.command kind) tag)).window.selection = some w := hs
    rw [h1, h2]; simp only
    by_cases hkw : kind = .writeWindow
    · rw [if_pos hkw] at hcc ⊢; subst hcc; rw [hx]
    · rw [if_neg hkw] at hcc ⊢; subst hcc; rw [hx]
  obtain ⟨S, hS⟩ : ∃ S, S = some ({ w with cursor := match w.overrun with
          | .ignore => c + words.length
          | .wrap => (c + words.length) % w.size } : Window) := ⟨_, rfl⟩
  obtain ⟨y, y1, y2, y3, y4, y5, y6⟩ := foldWords_writes s.dev.feed S w hin words x (newFrame kind tag none c) c
    (by rw [hx]; rfl) (by rw [hx]; rfl) (by rw [hx]; exact ha) (by rw [hx]; exact hcan) hkd rfl rfl hcur hcw hro
  have hbase : frameClosed s.dev.feed S x = { s.dev with window := { s.dev.window with selection := S } } := by
    have hcf : s.dev.command = .free := hr.1.2.1
    rw [hx]; unfold frameClosed setFrame setWindow setDelim; simp only [← hcf]
  rw [hbase] at y2 y6
  refine ⟨frameClosed s.dev.feed S y, ?_, ?_⟩
  · rw [hS] at y2 ⊢; exact y2
  · rw [deliverOpen_ready _ _ _ _ hr, hopen, y1]
    obtain ⟨f, hf⟩ : ∃ f, f = { newFrame kind tag none c with bodyWords := words.length, written := words.length } :=
        ⟨_, rfl⟩
    have hans : frameAnswer f = .done [word (min 65535 words.length), word words.length, 0, 0] := by
      rw [hf]; unfold frameAnswer newFrame; simp only; rw [if_neg hkd]; rfl
    have hyc : y.command = .receiving f := by
      rw [y3, hf]
      show CommandState.receiving { newFrame kind tag none c with
        bodyWords := 0 + words.length
        written := 0 + words.length } = _
      rw [Nat.zero_add]
    have hyf : y.feed = { s.dev.feed with delim := .openEnded (.command kind) tag } := by rw [y4, hx]; rfl
    rw [← hans]
    refine (endOpen_answered kind tag y (frameClosed s.dev.feed S y) f (by rw [hf]; rfl) (by rw [hf]; rfl) hyc (by rw [hyf]) ?_ rfl
      (y6.page.trans hp) (y6.deferred.trans hd) ?_).trans (if_pos (by rw [hf]; rfl))
    · have hg : f.group = [] := by rw [hf]; rfl
      have hsel : y.window.selection = S := by rw [y5, hS]
      have hcg : closeGroup (setDelim y (.complete (.command kind) tag)) f =
          setDelim y (.complete (.command kind) tag) := by
        unfold closeGroup; rw [hg]; rfl
      rw [hcg]
      have e1 : y.window = { y.window with selection := S } := by rw [← hsel]
      show { y with feed := { y.feed with delim := .complete (.command kind) tag }, command := .free } =
        { y with
          command := .free
          window := { y.window with selection := S }
          feed := { s.dev.feed with delim := .complete (.command kind) tag } }
      rw [← e1, hyf]
    · have h := y6.words h6
      rw [hans]
      show 5 + 4 ≤ 256 - y.report.queue.length
      have h' : y.report.queue.length + 7 * y.tally.batch.length ≤ s.dev.report.queue.length +
        7 * s.dev.tally.batch.length + 0 := h
      have h'' : 9 + 7 * s.dev.tally.batch.length ≤ 256 - s.dev.report.queue.length := hroom
      omega

/-! ## READ STATUS -/

/-- READ STATUS word 16: the bit of every cause. -/
theorem latchBits_get (d : Device) (n : Nat) : (word d.latchBits).getLsbD n = true ↔
    ∃ c : Cause, c.priority = n ∧ d.attention.latch c ≠ none := by
  have key : ∀ (a b c e f g h i j : Bool) (n : Fin 16),
      (word (([a, b, c, e, f, false, false, g, h, false, i, j].zipIdx.map
          (fun p => bit p.1 * 2 ^ p.2)).sum)).getLsbD n =
        ([a, b, c, e, f, false, false, g, h, false, i, j].getD n false) := by decide
  have hb : d.latchBits = (([d.attention.jam.isSome, d.attention.lost.isSome, d.attention.stray.isSome,
      d.attention.missed.isSome,
      d.attention.queueFull.isSome, false, false, d.attention.scanSuspect.isSome, d.attention.underrun.isSome, false,
      d.attention.linkError.isSome, d.attention.rollover.isSome].zipIdx.map (fun p => bit p.1 * 2 ^ p.2)).sum) := rfl
  by_cases hn : n < 16
  · rw [hb, key _ _ _ _ _ _ _ _ _ ⟨n, hn⟩]
    constructor
    · intro h
      interval_cases n
      all_goals first
        | (refine ⟨.jam, rfl, ?_⟩; intro hh; simp [AttentionUnit.latch] at hh h; simp [hh] at h)
        | (refine ⟨.lost, rfl, ?_⟩; intro hh; simp [AttentionUnit.latch] at hh h; simp [hh] at h)
        | (refine ⟨.stray, rfl, ?_⟩; intro hh; simp [AttentionUnit.latch] at hh h; simp [hh] at h)
        | (refine ⟨.missed, rfl, ?_⟩; intro hh; simp [AttentionUnit.latch] at hh h; simp [hh] at h)
        | (refine ⟨.queueFull, rfl, ?_⟩; intro hh; simp [AttentionUnit.latch] at hh h; simp [hh] at h)
        | (refine ⟨.scanSuspect, rfl, ?_⟩; intro hh; simp [AttentionUnit.latch] at hh h; simp [hh] at h)
        | (refine ⟨.underrun, rfl, ?_⟩; intro hh; simp [AttentionUnit.latch] at hh h; simp [hh] at h)
        | (refine ⟨.linkError, rfl, ?_⟩; intro hh; simp [AttentionUnit.latch] at hh h; simp [hh] at h)
        | (refine ⟨.rollover, rfl, ?_⟩; intro hh; simp [AttentionUnit.latch] at hh h; simp [hh] at h)
        | simp at h
    · rintro ⟨c, rfl, h⟩
      have h' : (d.attention.latch c).isSome = true := by
        cases hh : d.attention.latch c with
        | none => exact absurd hh h
        | some x => rfl
      cases c
      all_goals exact h'
  · constructor
    · intro h; rw [BitVec.getLsbD_of_ge _ _ (by omega)] at h; cases h
    · rintro ⟨c, rfl, _⟩; cases c <;> exact absurd (by decide) hn

end Sys2Proof.Machine
end

