-- ==== Sys2Proof/Tests/Slice0.lean ====
section
/-! SUPPORT. Tests: which scan parts are well formed; for each obligation with hypotheses, states and operands that meet
them, clause by clause; and one step of each command with the values of the manual's worked sequences. -/

namespace Sys2Proof.Tests

set_option Elab.async false

open Sys2Proof Sys2Proof.Machine

/-! ## Small states -/

/-- Hypotheses of the form "for the record found": met by the record that is found. -/
theorem ofSome {α : Type} {o : Option α} {x : α} {P : α → Prop} (h : o = some x) (hp : P x) :
    ∀ r, o = some r → P r := by
  intro r hr
  rw [h] at hr
  exact Option.some.inj hr ▸ hp

/-- Hypotheses of that form where none is found. -/
theorem ofNone {α : Type} {o : Option α} {P : α → Prop} (h : o = none) : ∀ r, o = some r → P r := by
  intro r hr
  rw [h] at hr
  exact absurd hr (by simp)

def dev0 : Device := .reset .reset

/-- Cells written as (table, row, field, value). -/
def withCells (l : List (Nat × Nat × Nat × Nat)) (d : Device) : Device :=
  l.foldl (fun d c => d.setCell c.1 c.2.1 c.2.2.1 (word c.2.2.2)) d

/-- The stations of the worked sequence 1.12, with check span 120. -/
def stations : List (Nat × Nat × Nat × Nat) :=
  [(7, 1, 0, 1600), (7, 1, 1, 40), (7, 1, 3, 200), (7, 2, 0, 2400), (7, 2, 1, 40), (7, 3, 0, 3200), (7, 3, 1, 40),
   (7, 3, 4, 120)] ++
  [(7, 4, 0, 6000), (7, 4, 1, 40), (7, 5, 0, 5200), (7, 5, 1, 40), (7, 6, 0, 4000), (7, 6, 1, 40), (7, 7, 0, 4400),
   (7, 7, 1, 40)]

def withMode (m : Mode) (d : Device) : Device := { d with line := { d.line with mode := m } }
def withReset (d : Device) : Device := { d with inputs := { d.inputs with resetLine := true } }
def withJam (row : Fin 21) (p : Nat) (d : Device) : Device :=
  { d with
    track := { d.track with jam := upd d.track.jam row (some (counts p)) }
    inputs := { d.inputs with blocked := upd d.inputs.blocked row true } }
def withOccupant (row : Fin 21) (n : RecNo) (d : Device) : Device :=
  { d with track := { d.track with occupants := upd d.track.occupants row (.record n) } }
def withBusy (n : RecNo) (d : Device) : Device := { d with classifier := { d.classifier with busy := some n } }
def withBuilder (n : RecNo) (d : Device) : Device := { d with imprint := { d.imprint with builder := some n } }
def withPrinting (n : RecNo) (start column : Nat) (dots : List Dots) (d : Device) : Device :=
  { d with imprint := { d.imprint with
      printing := some { number := n, start := counts start, column := column }
      ring := [{ number := n, start := 0, columns := dots }] } }
def withClock (y mo da h mi se : Nat) (a : Option Int) (d : Device) : Device :=
  { d with clock := { d.clock with
      date := { year := y, month := mo, day := da }, hour := h, minute := mi, second := se, valid := true,
      adjust := a } }
def withBin (k : Fin 16) (fill committed : Nat) (s : BinState) (held : Bool) (d : Device) : Device :=
  d.setBin k { fill := fill, committed := committed, state := s, held := held }
def withFifo (ws : List LinkWord) (d : Device) : Device := { d with feed := { d.feed with fifo := ws } }
def withDelim (x : Delimiter) (d : Device) : Device := { d with feed := { d.feed with delim := x } }
def withReport (n : Nat) (d : Device) : Device :=
  { d with report := { d.report with queue := List.replicate n { head := false, data := 0 } } }
def withUnit (c : CommandState) (d : Device) : Device := { d with command := c }
def withGap (g : Gap) (d : Device) : Device := { d with window := { d.window with gap := g } }
def withWindow (w : Window) (d : Device) : Device := { d with window := { d.window with selection := some w } }
def withGroups (g : List (List CellWrite)) (d : Device) : Device := { d with window := { d.window with groups := g } }
def withHeld (d : Device) : Device := { d with inputs := { d.inputs with feedHeld := true } }
def withReady (d : Device) : Device := { d with inputs := { d.inputs with printReady := true } }
def withPage (d : Device) : Device :=
  let page : TallyPage :=
    { period := 211, causes := { command := true, autoClose := false }, deferred := false, clockValid := false,
      date := d.clock.date, hour := 0, minute := 0, second := 0, admission := 0, counters := d.tally.counters }
  { d with tally := { d.tally with page := some page } }
def withDeferred (d : Device) : Device :=
  { d with tally := { d.tally with deferred := some { command := true, autoClose := false } } }
/-- One second before midnight, with auto close on. -/
def midnight : Device := withCells [(0, 0, 4, 1)] (withClock 2032 2 28 23 59 59 none dev0)

/-- RUN at an encoder position with these records, every gate in service. -/
def runAt (e : Nat) (q : List ItemRecord) : Device :=
  let d := withCells stations (withMode .run dev0)
  { d with
    track := { dev0.track with encoder := counts e, queue := q, inService := Vector.replicate 16 true } }

def idle (d : Device) : Device := withMode .idle d

/-- The command's effect on the part. -/
def did (c : Instr) (d : Device) : Device :=
  match exec c { pending := [], dev := d } with
  | .next t => t.dev
  | .fault _ => d
  | .refused _ => d

/-- The state after so many steps. -/
def stepped : Nat → State → State
  | 0, s => s
  | n + 1, s =>
    match step s with
    | .next t => stepped n t
    | .fault _ => s
    | .refused _ => s

/-- With no command behind it every command answers the state whose part is `did`. -/
theorem exec_did (c : Instr) (d : Device) :
    exec c { pending := [], dev := d } = .next { pending := [], dev := did c d } := by cases c <;> rfl

def r37 : ItemRecord := newRecord 37 10000
def r38 : ItemRecord := newRecord 38 10700
def full24 : List ItemRecord := (List.range 24).map (fun k => newRecord (word k) 0)
def headW (v : Word) : LinkWord := { head := true, data := v }
def bodyW (v : Word) : LinkWord := { head := false, data := v }

def obs (z : Zone) (offset width : Nat) (l : Lum) (ink : Bool) (conf : Nat) (sig : Word) : Observation :=
  { zone := z, offsetMm := BitVec.ofNat 9 offset, widthMm := BitVec.ofNat 6 width, lum := l, inkOver := ink,
    confidence := BitVec.ofNat 4 conf, signature := sig }
def partA (tag : Word) (marks : Nat) (len thick : Nat) (o : List Observation) : ScanPart :=
  { side := .a, tag := tag, marksFound := BitVec.ofNat 8 marks,
    geometry := some { lengthMm := BitVec.ofNat 9 len, thickness := BitVec.ofNat 3 thick }, observations := o }
def partB (tag : Word) (marks : Nat) (o : List Observation) : ScanPart :=
  { side := .b, tag := tag, marksFound := BitVec.ofNat 8 marks, geometry := none, observations := o }
def plain : Observation := obs .top 12 22 .none false 15 1

def routed : ItemRecord := { r37 with route := some { bin := 1, via := .primary } }

/-- The window of 11.9: table 5, rows 6..9, fields 0..1, FIELD_FIRST, IGNORE. -/
def window119 : Window :=
  { table := 5, firstRow := 6, lastRow := 9, firstField := 0, lastField := 1, order := .fieldFirst, overrun := .ignore,
    cursor := 0 }
/-- One field of it, ROW_FIRST. -/
def column119 (cursor : Nat) : Window := { window119 with lastField := 0, order := .rowFirst, cursor := cursor }

def someCell : CellWrite := { table := 5, row := 6, field := 0, value := 6 }

/-- The Command Unit RECEIVING an open-ended frame with this open group. -/
def receiving (kind : CommandKind) (group : List CellWrite) : CommandState :=
  .receiving
    { kind := kind, tag := 1, bodyWords := group.length, refusal := none, start := 0, overflowed := false, group :=
      group,
      written := group.length, pastEnd := 0, readOnly := 0 }

/-- Record 120 of 3.9, with template 1 using clock fields through Text Store row 4 and anchor 0. -/
def r120 : ItemRecord :=
  { newRecord 120 0 with
    state := .classifying, geometry := some { lengthMm := 240, thickness := 2 }, gotA := true, gotB := true,
    obsA := [obs .top 12 22 .phosphor false 12 0x4A10, obs .top 40 25 .phosphor true 9 0x4A10],
    obsB := [obs .bottom 180 30 .none false 14 0x3C05] }
def tables39 : List (Nat × Nat × Nat × Nat) :=
  [(1, 17, 0, 1), (1, 17, 1, 0x4A10), (1, 17, 2, 1), (1, 17, 3, 1), (1, 17, 4, 50), (1, 17, 5, 8), (1, 17, 6, 3),
   (1, 17, 7, 1), (1, 17, 8, 10)] ++
  [(1, 18, 0, 1), (1, 18, 1, 0x4A10), (1, 18, 2, 1), (1, 18, 3, 1), (1, 18, 4, 50), (1, 18, 5, 6), (1, 18, 6, 3),
   (1, 18, 7, 1), (1, 18, 8, 4)] ++
  [(1, 40, 0, 1), (1, 40, 1, 0x3C05), (1, 40, 2, 0), (1, 40, 3, 4), (1, 40, 4, 35), (1, 40, 5, 5), (1, 40, 6, 6),
   (1, 40, 7, 2), (1, 40, 8, 8)] ++
  [(3, 0, 0, 1), (3, 0, 1, 245), (3, 0, 2, 1), (3, 0, 3, 60), (3, 1, 0, 1), (3, 1, 1, 245), (3, 1, 2, 3), (3, 1, 3, 90),
   (3, 2, 0, 1), (3, 2, 1, 511), (3, 2, 2, 7), (3, 2, 3, 150), (5, 32, 1, 1), (8, 1, 0, 96)]

/-! ## Well formed scan parts (R27) -/

theorem test_wellFormed_refuses_nine_observations :
    (Instr.scanPart (partA 1 9 240 1 (List.replicate 9 plain))).wellFormed = false := by decide
theorem test_wellFormed_refuses_side_a_without_geometry :
    (Instr.scanPart { partA 1 0 240 1 [] with geometry := none }).wellFormed = false := by decide
theorem test_wellFormed_refuses_side_b_with_geometry :
    (Instr.scanPart { partB 1 0 [] with geometry := some { lengthMm := 240, thickness := 1 } }).wellFormed = false := by
  decide
theorem test_wellFormed_accepts_eight_observations :
    (Instr.scanPart (partA 1 8 240 1 (List.replicate 8 plain))).wellFormed = true ∧
    (Instr.scanPart (partB 1 0 [])).wellFormed = true := by decide

/-! ## Witnesses: the hypotheses of each obligation are met -/

theorem witness_EveryStepInvariants : ∃ s', step { State.reset with pending := [.encPulse] } = .next s' ∧
    State.reset.dev.balanced ∧ State.reset.dev.canonical ∧ State.reset.dev.bounded ∧ State.reset.dev.modal ∧
    State.reset.dev.cursorHeld ∧ State.reset.dev.clock.legal ∧ State.reset.dev.held ∧ State.reset.dev.staging ∧
    State.reset.dev.books ∧ State.reset.dev.numberFree :=
  ⟨_, rfl, by and_intros <;> decide +kernel⟩

/-- The invariants of the staged writes and of the books with something in them: a group staged and one open, and a
routed record in the queue. -/
theorem witness_EveryStepInvariants_in_RUN :
    let d := withBin 1 4 1 .active false (withUnit (receiving .writeWindow [someCell])
      (withDelim (.openEnded (.command .writeWindow) 1) (withWindow window119 (withGroups [[someCell]]
        (withCells [(6, 1, 0, 1), (6, 1, 1, 6)] (runAt 11000 [routed]))))))
    d.staging ∧ d.books ∧ d.canonical ∧ d.modal ∧ d.cursorHeld ∧
    ({ d with track := { d.track with admission := 38 } } : Device).numberFree := by decide +kernel

theorem witness_LineResetAndItsRelease :
    (withReset dev0).inputs.resetLine = true ∧ dev0.inputs.resetLine = false := by decide +kernel

/-- IDLE and HALTED; and in RUN a record one count before its deadline, with which nothing is due. -/
theorem witness_EncPulseAdvancesTheEncoder :
    (dev0.active = false ∧ (withMode .halted dev0).active = false) ∧
    (let s : State := { pending := [], dev := runAt 11399 [r37] }
     let stations : List Station := [.twist, .turn, .cancel, .exit] ++ (List.finRange 16).map Station.gate
     ∀ c ∈ [37].flatMap (fun n => [.endOfCheckSpan n, .printStart n]) ++
         [.printColumnDue] ++ [37].map .deadline ++ [37].flatMap (fun n => stations.map (.windowExpiry n)) ++
         [.gapMet, .applyPoint, .classifierTake, .buildBegin] ++ (List.finRange 21).map .jamExpiry,
       exec c s = s.after s.dev) := by
  refine ⟨by decide +kernel, fun c hc => (exec_did c _).trans ?_⟩
  exact congrArg (fun d => (.next { pending := [], dev := d } : Host.Outcome State Fault Refusal))
    ((by decide +kernel : ∀ c ∈ _, did c (runAt 11399 [r37]) = runAt 11399 [r37]) c hc)

theorem witness_ScanLeadEdge_ScanTrailingEdge :
    ((runAt 0 (full24.take 23)).inputs.resetLine = false ∧ (runAt 0 (full24.take 23)).active = true ∧
      (runAt 0 (full24.take 23)).track.queue.length < 24) ∧
    ((runAt 0 full24).active = true ∧ ¬ (runAt 0 full24).track.queue.length < 24) ∧
    dev0.line.mode = .idle ∧ (withMode .halted dev0).line.mode = .halted := by decide +kernel

/-- One count before the window of record 37 at TWIST; and after it, where no record is due. -/
theorem witness_StationEdgesStrayOrIgnored :
    (runAt 11559 [r37]).matching .twist ∧
    (∀ r, (runAt 11559 [r37]).firstDue .twist = some r → atOrAfter (runAt 11559 [r37]).track.encoder
      ((runAt 11559 [r37]).expected r .twist - counts ((runAt 11559 [r37]).halfWidth 1)) = false) ∧
    (∀ r, (runAt 0 []).firstDue .exit = some r → atOrAfter (runAt 0 []).track.encoder
      ((runAt 0 []).expected r .exit - counts ((runAt 0 []).halfWidth 4)) = false) ∧
    ¬ dev0.matching (.gate 3) ∧ ¬ (withReset (runAt 0 [])).matching .twist :=
  ⟨by decide +kernel, ofSome (x := r37) (by decide +kernel) (by decide +kernel), ofNone (by decide +kernel),
    by decide +kernel⟩

/-- R15, fourth case: at 11700 record 37's window at TWIST has closed; no record is expected behind it, or one that is.
-/
theorem witness_StationEdgesStrayOrIgnored_lost :
    let edged (d : Device) : Device :=
      { d.cellLevel 1 true with track := { d.track with jam := upd d.track.jam 1 (d.jamFrom 1) } }
    let lost (d : Device) : Device := occur (removeRecord (edged d) 37 .lost) (.lost 37 1 11600)
    let next : ItemRecord := newRecord 38 10100
    let d := runAt 11700 [r37]
    let e := runAt 11700 [r37, next]
    (d.matching .twist ∧ lostInTurn .twist [r37] (edged d) (lost d) ∧ (lost d).firstDue .twist = none) ∧
    (e.matching .twist ∧ lostInTurn .twist [r37] (edged e) (lost e) ∧ (lost e).firstDue .twist = some next ∧
      atOrAfter e.track.encoder ((lost e).expected next .twist - counts ((lost e).halfWidth 1)) = true ∧
      atOrAfter ((lost e).expected next .twist + counts ((lost e).halfWidth 1)) e.track.encoder = true) :=
  by and_intros <;> rfl

/-- Which records are due: at TWIST until SEEN there, at EXIT until SEEN at the routed gate; at a gate no farther than
the routed one, and at none where the routed gate is not in service. -/
theorem witness_StationEdgesStrayOrIgnored_due :
    let d := runAt 0 [r37, routed]
    let off : Device := { d with track := { d.track with inService := upd d.track.inService 1 false } }
    d.firstDue .twist = some r37 ∧ d.firstDue .exit = some r37 ∧ d.due { routed with gateSeen := true } .exit = false ∧
    d.due routed (.gate 1) = true ∧ d.due routed (.gate 2) = false ∧ d.due r37 (.gate 2) = true ∧
    off.due routed (.gate 0) = false ∧ off.watched (.gate 1) = false ∧ off.watched .exit = true := by decide +kernel

/-- The first and the last position of a window. -/
theorem witness_FacingGateAndExitSeen :
    (runAt 11560 [r37]).sees .twist r37 ∧ (runAt 11640 [r37]).sees .twist r37 ∧
    (runAt 12360 [r37]).sees .turn r37 ∧ (runAt 12440 [r37]).sees .turn r37 ∧
    (runAt 13160 [r37]).sees .cancel r37 ∧ (runAt 13240 [r37]).sees .cancel r37 ∧
    (runAt 15960 [r37]).sees .exit r37 ∧ (runAt 16040 [r37]).sees .exit r37 := by decide +kernel

theorem witness_FacingGateAndExitSeen_gates :
    ((runAt 13960 [routed]).sees (.gate 1) routed ∧ routed.route.map Route.bin = some 1) ∧
    ((runAt 14040 [routed]).sees (.gate 1) routed) ∧
    ((runAt 13960 [r37]).sees (.gate 1) r37 ∧ r37.route.map Route.bin ≠ some 1) := by decide +kernel

theorem witness_CancelStationSeen : (runAt 13160 [r37]).checkSpan = 120 ∧ dev0.checkSpan = 0 := by decide +kernel

theorem witness_StationTrailingEdges :
    ((runAt 0 [r37]).matching .twist ∧ (withOccupant 1 37 (runAt 0 [r37])).track.occupants[(1 : Fin 21)] = .record 37) ∧
    (withOccupant 2 37 (runAt 0 [r37])).track.occupants[(2 : Fin 21)] = .record 37 ∧
    (withOccupant 3 37 (runAt 0 [r37])).track.occupants[(3 : Fin 21)] = .record 37 ∧
    ((runAt 0 [r37]).matching (.gate 15) ∧
      (withOccupant 20 37 (runAt 0 [r37])).track.occupants[stationRow (.gate 15)] = .record 37 ∧
      (runAt 0 [r37]).find 37 = some r37 ∧ (r37.route.map Route.bin ≠ some 15 ∨ r37.gateSeen = false)) ∧
    (let r : ItemRecord := { routed with gateSeen := true }
     (withOccupant 6 37 (runAt 0 [r])).matching (.gate 1) ∧
     (withOccupant 6 37 (runAt 0 [r])).track.occupants[stationRow (.gate 1)] = .record 37 ∧
     (runAt 0 [r]).find 37 = some r ∧ r.route.map Route.bin = some 1 ∧ r.gateSeen = true) ∧
    (runAt 0 []).track.occupants[stationRow .cancel] = .nobody := by decide +kernel

theorem witness_RemovalEffects :
    (runAt 0 [r37, routed]).find 37 = some r37 ∧ (runAt 0 [routed]).find 37 = some routed ∧
    routed.route = some { bin := 1, via := .primary } := by decide +kernel

theorem witness_DeadlineAndWindowExpiry_deadline :
    (runAt 11400 [r37]).active = true ∧ (runAt 11400 [r37]).find 37 = some r37 ∧
    (runAt 11400 [r37]).track.encoder =
      r37.lead + counts ((runAt 11400 [r37]).stationOffset 1) - counts (runAt 11400 [r37]).armLead ∧
    r37.state ≠ .decided ∧ r37.state ≠ .late ∧ (runAt 11400 [r37]).find 9 = none := by decide +kernel

theorem witness_DeadlineAndWindowExpiry_window :
    let d := runAt 11641 [r37]
    d.find 37 = some r37 ∧ d.active = true ∧ d.due r37 .twist = true ∧
    d.track.encoder = r37.lead + counts (d.stationOffset 1) + counts (max 4 (d.num 7 1 1)) + 1 := by decide +kernel

theorem witness_EntryToHalted :
    let d := withJam 20 500 (runAt 500 [])
    d.active = true ∧ d.track.jam[(20 : Fin 21)] = some d.track.encoder ∧ d.inputs.blocked[(20 : Fin 21)] = true ∧
    (runAt 500 []).track.jam[(20 : Fin 21)] ≠ some (runAt 500 []).track.encoder := by decide +kernel

/-- Staged writes, those of an open group among them, at an entry to HALTED and at a drain completion. -/
theorem witness_EntryToHalted_FeedHeldAndDrainCompletion_staged :
    let d := withUnit (receiving .writeWindow [someCell]) (withGroups [[someCell]] (runAt 500 []))
    d.canonical ∧ (∀ w ∈ d.window.groups.flatten ++ d.openGroup, w.inTable) ∧
    d.window.groups.flatten ++ d.openGroup = [someCell, someCell] := by decide +kernel

def checked (asserted : Bool) (s : ImprintStatus) : ItemRecord :=
  { r37 with
    checkEnd := some 13320, openCheck := some { sensor := .lead, assertedSeen := asserted }, state := .decided,
    disposition := some .facedPaid, cancel := some { template := 0, startColumn := 0 }, imprint := s,
    printStart := some 13330, classGroup := some 0, plan := some { twist := false, turn := false, group := .lead } }

theorem witness_FaceCheck :
    (runAt 13320 [checked true .built]).find 37 = some (checked true .built) ∧
    (runAt 13320 [checked true .built]).active = true ∧
    (checked true .built).checkEnd = some (runAt 13320 [checked true .built]).track.encoder ∧
    (∀ b, ∀ s, (checked b s).openCheck = some { sensor := .lead, assertedSeen := b }) ∧
    { checked true .built with openCheck := none }.openCheck = none ∧
    (∀ r, (runAt 13320 [r37]).find 37 = some r → (runAt 13320 [r37]).active = false ∨
      r.checkEnd ≠ some (runAt 13320 [r37]).track.encoder) :=
  ⟨by decide +kernel, by decide +kernel, by decide +kernel, fun _ _ => rfl, rfl,
    ofSome (x := r37) (by decide +kernel) (by decide +kernel)⟩

/-- The end of the check span with the print start behind it, and with the print start on the same value. -/
theorem witness_FaceCheck_print_start :
    let d := runAt 13320 [checked true .built]
    let e := runAt 13330 [{ checked true .built with checkEnd := some 13330 }]
    (concludeSpan 37 d).track.queue.map (fun r => decide (r.printStart = some d.track.encoder)) = [false] ∧
    (concludeSpan 37 e).track.queue.map (fun r => decide (r.printStart = some e.track.encoder)) = [true] ∧
    e.spanEnds 37 = true := by decide +kernel

/-- The bin choice: bin 1 takes the record; full, its alternate 2 takes it; with 2 full as well, or with no alternate,
bin 0 does; with bin 0 out none does. -/
theorem witness_FaceCheck_bin_choice :
    let d := withCells [(6, 1, 1, 6), (6, 1, 2, 2), (6, 2, 1, 6)]
      (withBin 1 4 1 .active false (withBin 2 0 0 .active false dev0))
    let accepts (d : Device) (k : Fin 16) : Prop :=
      (d.bin k).state = .active ∧ (k ≠ 0 → (d.bin k).fill + (d.bin k).committed < d.num 6 k.val 1)
    let alternate (d : Device) (k : Fin 16) : Fin 16 := Fin.ofNat 16 (d.num 6 k.val 2)
    let zero (d : Device) : Prop := (d.bin 0).state = .active ∨ (d.bin 0).state = .disabled
    let full := withBin 1 5 1 .full false d
    let both := withBin 2 6 0 .full false full
    accepts d 1 ∧ (¬ accepts full 1 ∧ alternate full 1 ≠ 1 ∧ accepts full (alternate full 1)) ∧
    (¬ accepts both 1 ∧ ¬ accepts both (alternate both 1) ∧ zero both) ∧
    (¬ accepts dev0 0 ∧ alternate dev0 0 = 0 ∧ zero dev0) ∧ ¬ zero (withBin 0 0 0 .out false both) := by
  decide +kernel

def printing (s : ImprintStatus) : ItemRecord := { checked true s with checkEnd := none, openCheck := none }

theorem witness_PrintStartDecides_route_point :
    routeRow (printing .queued) = some 0 ∧ (printing .queued).route = none ∧ routed.route ≠ none ∧ routeRow r37 = none ∧
    ((runAt 0 []).chooseBin 0).map Route.bin = some 0 := by decide +kernel

theorem witness_PrintStartDecides : ∀ s ∈ [ImprintStatus.built, .building, .queued],
    let x := concludeSpan 37 (runAt 13330 [printing s])
    x.find 37 = some (printing s) ∧ x.active = true ∧ (printing s).printStart = some x.track.encoder ∧
      (printing s).imprint = s := by decide +kernel

/-- The other record still printing at a print start; and a print start dropped before it came. -/
theorem witness_PrintStartDecides_behind_a_print :
    (let x := concludeSpan 37 (withPrinting 38 13300 30 [1, 2] (runAt 13330 [printing .built, r38]))
     x.imprint.printing = some { number := 38, start := 13300, column := 30 } ∧ x.find 38 = some r38) ∧
    (∀ r, (concludeSpan 37 (runAt 0 [r37])).find 37 = some r → (concludeSpan 37 (runAt 0 [r37])).active = false ∨
      r.printStart ≠ some (concludeSpan 37 (runAt 0 [r37])).track.encoder) :=
  ⟨by decide +kernel, ofSome (x := r37) (by decide +kernel) (by decide +kernel)⟩

theorem witness_PrintColumnDue :
    let d := withPrinting 37 13330 3 [5, 6] (runAt 13333 [printing .printing])
    let e := withPrinting 37 13330 3 [5] (runAt 13333 [{ printing .printing with clip := some 13333 }])
    d.imprint.printing = some { number := 37, start := 13330, column := 3 } ∧ d.active = true ∧
    d.track.encoder = 13330 + counts 3 ∧ 1 < (d.heldColumns 37).length ∧ d.heldColumns 37 = [5, 6] ∧
    (e.heldColumns 37).length ≤ 1 ∧ (e.find 37).map (fun r => r.clip) = some (some 13333) ∧
    atOrAfter e.track.encoder 13333 = true ∧ (runAt 0 []).imprint.printing = none := by decide +kernel

theorem witness_ClassifierTakesAndDecides_take :
    let r : ItemRecord := { r38 with state := .ready }
    let d := runAt 0 [r37, r]
    d.active = true ∧ d.classifier.busy = none ∧ d.track.queue = [r37] ++ r :: [] ∧
    (∀ q ∈ [r37], q.state ≠ .ready) ∧ r.state = .ready ∧ (∀ q ∈ (runAt 0 [r37]).track.queue, q.state ≠ .ready) := by
  decide +kernel

def classifying (fault : Bool) : ItemRecord := { r37 with state := .classifying, scanFault := fault }

theorem witness_ClassifierTakesAndDecides_decision :
    let d := withBusy 37 (runAt 0 [classifying true])
    let e := withCells [(0, 0, 2, 2)] { d with classifier := { busy := some 37, suspect := 1 } }
    d.find 37 = some (classifying true) ∧ d.classifier.busy = some 37 ∧ (classifying true).state = .classifying ∧
    (d.num 0 0 2 = 0) ∧ (e.num 0 0 2 = 2 ∧ e.num 0 0 2 ≤ e.classifier.suspect + 1) ∧
    (¬ (withCells [(0, 0, 2, 3)] e).num 0 0 2 ≤ e.classifier.suspect + 1) ∧ (runAt 0 [r37]).classifier.busy ≠ some 37 :=
      by
  decide +kernel

/-- An observation classed by Mark Class row 17, and one by the Default row of its luminescence. -/
theorem witness_ClassifierTakesAndDecides_classes :
    let d := withCells tables39 dev0
    let fits (o : Observation) (lum row : Nat) : Prop :=
      d.num 1 row 0 ≠ 0 ∧ d.cell 1 row 1 = o.signature ∧ d.num 1 row 2 = lum ∧ d.num 1 row 8 ≤ o.confidence.toNat
    (fits (obs .top 12 22 .phosphor false 12 0x4A10) 1 17 ∧
      ∀ j, j < 17 → ¬ fits (obs .top 12 22 .phosphor false 12 0x4A10) 1 j) ∧
    ∀ row, row < 512 → ¬ fits plain 0 row := by decide +kernel

/-- The choices of the decision: none, chosen and AMBIGUOUS, among the live marks and among those with ink over. -/
theorem witness_ClassifierTakesAndDecides_choices :
    let d := withCells tables39 dev0
    let marks (r : ItemRecord) : List Classed :=
      (r.obsA.map (d.classify .a) ++ r.obsB.map (d.classify .b)).filter (fun c => decide (c.kind ≠ .nonPostage))
    let live (r : ItemRecord) : Choice := choose 240 ((marks r).filter (fun c => !c.obs.inkOver))
    let used (r : ItemRecord) : Choice := choose 240 ((marks r).filter (fun c => c.obs.inkOver))
    let stamp (offset : Nat) (ink : Bool) : Observation := obs .top offset 22 .phosphor ink 12 0x4A10
    let of (l : List Observation) : ItemRecord := { r120 with obsA := l, obsB := [] }
    r120.scanFault = false ∧ r120.geometry = some { lengthMm := 240, thickness := 2 } ∧
    live (of [stamp 12 false, stamp 200 false]) = .ambiguous ∧
    (live (of [stamp 12 true, stamp 200 true]) = .none ∧ used (of [stamp 12 true, stamp 200 true]) = .ambiguous) ∧
    (live (of []) = .none ∧ used (of []) = .none) ∧
    (live (of [stamp 12 true]) = .none ∧
      used (of [stamp 12 true]) = .chosen (d.classify .a (stamp 12 true)) 0) ∧
    live r120 = .chosen (d.classify .a (stamp 12 false)) 0 := by decide +kernel

/-- The rows of the Rate Table about the letter of 240 mm and thickness 2, and none for one of 512 mm; a cancel intent,
a dated template with the clock valid and not, and one that is not dated. -/
theorem witness_ClassifierTakesAndDecides_rates :
    let d := withCells tables39 dev0
    let covers (length thickness i : Nat) : Prop :=
      d.num 3 i 0 ≠ 0 ∧ length ≤ d.num 3 i 1 ∧ thickness ≤ d.num 3 i 2
    let dated (d : Device) (t : Nat) : Prop :=
      ∃ line place, line < d.num 8 t 5 ∧ place < d.num 8 t (8 + 6 * line) ∧
        128 ≤ d.num 9 (4 * t + line) place ∧ d.num 9 (4 * t + line) place ≤ 132
    let e := withCells [(8, 1, 5, 1), (8, 1, 8, 1), (9, 4, 0, 128)] d
    (covers 240 2 1 ∧ ∀ j, j < 1 → ¬ covers 240 2 j) ∧ (∀ i, i < 16 → ¬ covers 512 2 i) ∧
    (d.num 5 32 1 ≠ 0 ∧ d.num 5 33 1 = 0) ∧ ¬ dated d 1 ∧ (dated e 1 ∧ e.clock.valid = false) ∧
    (withClock 2031 3 7 14 5 0 none e).clock.valid = true := by
  refine ⟨by decide +kernel, by decide +kernel, by decide +kernel, ?_, ⟨⟨0, 0, by decide +kernel⟩, by decide +kernel⟩,
    by decide +kernel⟩
  rintro ⟨line, place, h, _⟩
  exact absurd h (by
    rw [show (withCells tables39 dev0).num 8 1 5 = 0 by decide +kernel]
    exact Nat.not_lt_zero _)

theorem witness_PositionCodeAndChoice :
    let a : Classed := { side := .a, obs := plain, row := .markClass 0, kind := .stamp, value := 1, priority := 8,
                         group := 0, template := 0 }
    let b : Classed := { a with side := .b }
    let c : Classed := { a with priority := 3 }
    plain.zone = .top ∧ positionCode 240 a ≠ positionCode 240 b ∧
    (∀ m ∈ [a, b], m.priority ≤ a.priority ∧ m.priority ≤ b.priority) ∧
    (∀ m ∈ [a, c], m.priority ≤ a.priority) ∧ ¬ (∀ m ∈ [a, c], m.priority ≤ c.priority) := by decide +kernel

def queued : ItemRecord := { r37 with imprint := .queued, cancel := some { template := 2, startColumn := 8 } }

theorem witness_BuildBeginAndComplete :
    let d := runAt 0 [r38, queued]
    d.active = true ∧ d.imprint.builder = none ∧
    d.track.queue.filter (fun q => decide (q.imprint = .queued)) = [queued] ∧
    queued.cancel = some { template := 2, startColumn := 8 } ∧ d.ringRoom (max 1 (d.num 8 2 0)) = true ∧
    (withPrinting 38 0 0 (List.replicate 1024 0) d).ringRoom (max 1 (d.num 8 2 0)) = false ∧
    (withBuilder 37 d).imprint.builder = some 37 ∧ (∀ q ∈ (runAt 0 [r37]).track.queue, q.imprint ≠ .queued) := by
  decide +kernel

/-- The ring with 1000 columns held from column 0: from the allocation point 1000 there is room for 24 more. -/
theorem witness_BuildBeginAndComplete_room :
    let d := withPrinting 37 0 0 (List.replicate 1000 0) dev0
    let x : Device := { d with imprint := { d.imprint with alloc := 1000 } }
    x.ringRoom 24 = true ∧ x.ringRoom 25 = false := by decide +kernel

/-- The last second of a day, one second into it, and a step to its first second and to one before it. -/
theorem witness_SecondPulseMovesTheClock :
    let t (d : Device) : Int := d.clock.hour * 3600 + d.clock.minute * 60 + d.clock.second + 1 + d.clock.adjust.getD 0
    t (withClock 2032 2 28 23 59 58 none dev0) = 86399 ∧ t (withClock 2032 2 28 23 59 59 none dev0) = 86400 + 0 ∧
    t (withClock 2032 2 28 0 0 58 (some (-59)) dev0) = 0 ∧ t (withClock 2032 2 28 0 0 50 (some (-60)) dev0) < 0 ∧
    (withClock 2032 2 28 0 0 0 none dev0).clock.valid = true ∧ dev0.clock.valid = false := by decide +kernel

/-- Auto close on, at each of the four states a request finds, the rollover's own hypotheses holding. -/
theorem witness_SecondPulseMovesTheClock_auto_close :
    midnight.flag 0 0 4 = true ∧ midnight.inputs.resetLine = false ∧ midnight.clock.valid = true ∧
    midnight.tally.page = none ∧ midnight.tally.deferred = none ∧
    (withPage midnight).tally.page ≠ none ∧ (withPage midnight).tally.deferred = none ∧
    (withDeferred (withPage midnight)).tally.page ≠ none ∧
    (withDeferred (withPage midnight)).tally.deferred ≠ none := by decide +kernel

/-- A close request next in the queue: CLOSE TALLY by its row and by its word, and commands that are none. -/
theorem witness_SecondPulseMovesTheClock_beside :
    midnight.closeTallyNext [.closeTally 9] = true ∧ midnight.closeTallyNext [.nop 9 []] = false ∧
    (withFifo [headW 0x3109] midnight).closeTallyNext [.frameDelimiterTake] = true ∧
    (withFifo [headW 0x2109] midnight).closeTallyNext [.frameDelimiterTake] = false ∧
    (withFifo [headW 0x3109] midnight).closeTallyNext [.closeTally 9] = false ∧
    midnight.closeTallyNext [] = false ∧ (withReport 136 (withPage midnight)).reportRoom = 120 ∧
    (withReport 17 (withPage midnight)).reportRoom = 239 ∧ (withReport 16 (withPage midnight)).reportRoom = 240 ∧
    (withDeferred midnight).tally.page = none ∧ (withDeferred midnight).tally.deferred ≠ none := by decide +kernel

/-- The room a rollover's page finds: 120 words, one fewer, and a response waiting before it. -/
theorem witness_SecondPulseMovesTheClock_room :
    let six := List.replicate 6 (bodyW 0)
    let d := withUnit (.waiting six false) (withReport 251 midnight)
    (withReport 136 midnight).reportRoom = 120 ∧ (withReport 137 midnight).reportRoom = 119 ∧
    midnight.responseWaiting = false ∧ d.command = .waiting six false ∧ d.reportRoom < six.length ∧
    six.length ≤ 256 ∧ d.tally.page = none ∧ d.tally.deferred = none := by decide +kernel

theorem witness_ClosesAndPages :
    (withDeferred dev0).tally.page = none ∧ (withDeferred dev0).tally.deferred ≠ none ∧
    (withDeferred dev0).responseWaiting = false ∧ 120 ≤ (withReport 136 dev0).reportRoom ∧
    (withReport 137 dev0).reportRoom < 120 ∧ (withPage dev0).tally.page ≠ none ∧
    (withReport 17 (withDeferred (withPage dev0))).reportRoom < 240 ∧ 240 ≤ (withReport 16 dev0).reportRoom ∧
    (withUnit (.waiting [] false) dev0).responseWaiting = true := by decide +kernel

/-- A response of 6 words with room for exactly 6, and one of 7; a long one behind an empty queue and behind a full one.
-/
theorem witness_ReportQueueWords :
    let six := List.replicate 6 (bodyW 0)
    let long := List.replicate 257 (bodyW 0)
    let d := withUnit (.waiting six false) (withReport 250 dev0)
    d.command = .waiting six false ∧ d.tally.page = none ∧ d.tally.deferred = none ∧ six.length ≤ d.reportRoom ∧
    (withPage d).tally.page ≠ none ∧ (withReport 251 d).reportRoom < six.length ∧ six.length ≤ 256 ∧
    (withUnit (.waiting long false) dev0).reportRoom < long.length ∧ 256 < long.length ∧ dev0.report.queue = [] ∧
    six.length + 120 ≤ (withReport 130 d).reportRoom ∧ (withReport 1 dev0).report.queue = bodyW 0 :: [] ∧
    dev0.inputs.reportHold = false ∧ dev0.command = .free := by decide +kernel

/-- REPORT-HOLD asserted behind a word begun, behind one not begun, and behind an empty queue; and deasserted, with words
queued and with none. -/
theorem witness_ReportQueueWords_held :
    let hold (n : Nat) (begun : Bool) : Device :=
      { dev0 with
        inputs := { dev0.inputs with reportHold := true }
        report := { (withReport n dev0).report with begun := begun } }
    ((hold 2 true).report.queue = bodyW 0 :: [bodyW 0] ∧ (hold 2 true).report.begun = true) ∧
    ((hold 1 false).inputs.reportHold = true ∧ (hold 1 false).report.begun = false) ∧
    (hold 1 false).report.queue ≠ [] ∧ (hold 0 false).report.queue = [] ∧
    (withReport 2 dev0).inputs.reportHold = false ∧ (withReport 2 dev0).report.queue = bodyW 0 :: [bodyW 0] ∧
    dev0.inputs.reportHold = false ∧ dev0.report.queue = [] := by decide +kernel

theorem witness_FeedHeldAndDrainCompletion :
    let d := withHeld (withMode .drain dev0)
    d.line.mode = .drain ∧ d.track.queue = [] ∧ d.inputs.feedHeld = true ∧ dev0.line.mode ≠ .drain ∧
    (runAt 0 [r37]).track.queue ≠ [] ∧ dev0.inputs.feedHeld = false := by decide +kernel

theorem witness_BinOutSwitches :
    (withReset dev0).inputs.resetLine = true ∧ (runAt 0 []).inputs.resetLine = false ∧ (runAt 0 []).active = true ∧
    ((3 : Fin 16) ≠ 0 ∨ dev0.active = false) ∧ ((0 : Fin 16) = 0) := by decide +kernel

theorem witness_FeedLinkWordTaken :
    let full := withFifo (List.replicate 512 (bodyW 7)) dev0
    let waiting := { withDelim .discard full with feed :=
      { (withDelim .discard full).feed with presented := [bodyW 9] } }
    (withFifo (List.replicate 511 (bodyW 7)) dev0).feed.fifo.length < 512 ∧ 512 ≤ full.feed.fifo.length ∧
    full.feed.presented = [] ∧ waiting.command = .free ∧ waiting.feed.delim = .discard ∧ (bodyW 7).head = false ∧
    waiting.feed.fifo = bodyW 7 :: List.replicate 511 (bodyW 7) ∧ waiting.feed.presented = bodyW 9 :: [] := by
  decide +kernel

/-- Body words by the delimiter's state, and head words that open nothing, a fixed frame, a complete one. -/
theorem witness_DelimiterTakesWords :
    let d := withFifo [bodyW 5] dev0
    let h (v : Word) := withFifo [headW v] dev0
    (d.feed.fifo = bodyW 5 :: [] ∧ d.feed.presented = [] ∧ d.command = .free ∧ d.feed.delim = .noFrame) ∧
    (withDelim .stray d).feed.delim = .stray ∧
    (withDelim (.complete (.command .halt) 3) d).feed.delim = .complete (.command .halt) 3 ∧
    (withDelim (.excess (.command .halt) 3) d).feed.delim = .excess (.command .halt) 3 ∧
    (withDelim (.opened (.scan .a) 0 [1]) d).feed.delim = .opened (.scan .a) 0 [1] ∧
    (bodyLength (.scan .a) 0 = some 3 ∧ [(1 : Word)].length + 1 < 3) ∧
    bodyLength (.scan .a) 0 = some ([(1 : Word), 2].length + 1) ∧
    (h 0xFF00).feed.delim.settled = true ∧ frameKindOf (headKind 0xFF00) = none ∧
    (frameKindOf (headKind 0x0109) = some (.scan .a) ∧ 8 < (headQualifier 0x0109).toNat) ∧
    (headQualifier 0x0108).toNat ≤ 8 ∧
    (frameKindOf (headKind 0x2D07) = some (.command .readWindow) ∧
      bodyLength (.command .readWindow) (headQualifier 0x2D07) = some (0 + 1)) ∧
    (frameKindOf (headKind 0x2105) = some (.command .readStatus) ∧
      bodyLength (.command .readStatus) (headQualifier 0x2105) = some 0) ∧
    (withUnit (.waiting [] false) d).responseWaiting = true ∧ dev0.feed.fifo = [] := by decide +kernel

/-- Opening a WRITE WINDOW frame: with no window, a read-only one, the Station Table out of IDLE, 32 groups, and taken.
-/
theorem witness_DelimiterTakesWords_opens :
    let w (t : Nat) : Window := { window119 with table := t }
    let d (t : Nat) : Device := withWindow (w t) (runAt 0 [])
    (runAt 0 []).window.selection = none ∧ (d 14).window.selection = some (w 14) ∧
    ((d 7).window.selection = some (w 7) ∧ (d 7).line.mode ≠ .idle) ∧
    ((d 5).active = true ∧ 32 ≤ (withGroups (List.replicate 32 []) (d 5)).window.groups.length) ∧
    (withGroups (List.replicate 31 []) (d 5)).window.groups.length < 32 := by decide +kernel

/-- Words of an open-ended frame: past the end, at a read-only cell, staged, overflowing at 256 cells, and at once in
IDLE; and its end by a head word, with room for the response. -/
theorem witness_DelimiterTakesWords_receives :
    let f : OpenFrame :=
      { kind := .writeWindow, tag := 1, bodyWords := 1, refusal := none, start := 0, overflowed := false,
        group := [someCell], written := 1, pastEnd := 0, readOnly := 0 }
    let d (h : LinkWord) (w : Window) : Device := withUnit (.receiving f)
      (withDelim (.openEnded (.command .writeWindow) 1) (withFifo [h] (withWindow w (runAt 0 []))))
    let w : Window := { window119 with cursor := 1 }
    let past : Window := { window119 with cursor := 8 }
    let fixed : Window := { window119 with table := 6, firstField := 3, lastField := 3, cursor := 0 }
    let x := d (bodyW 7) w
    (x.feed.fifo = bodyW 7 :: [] ∧ x.feed.presented = [] ∧ x.feed.delim = .openEnded (.command .writeWindow) 1 ∧
      x.command = .receiving f ∧ x.window.selection = some w ∧ f.kind ≠ .nop) ∧
    past.size ≤ past.cursor ∧
    (fixed.cursor < fixed.size ∧ cellReadOnly fixed.table (fixed.place 0).1 (fixed.place 0).2 = true) ∧
    (w.cursor < w.size ∧ cellReadOnly w.table (w.place 1).1 (w.place 1).2 = false ∧ x.active = true ∧
      x.window.groups.flatten.length + f.group.length < 256) ∧
    256 ≤ (withGroups [List.replicate 255 someCell] x).window.groups.flatten.length + f.group.length ∧
    ((idle x).active = false ∧ (idle x).canonical ∧ w.inTable) ∧
    (let y := d (headW 0x2105) w
     y.tally.page = none ∧ y.tally.deferred = none ∧ 5 + (frameAnswer f).words.length ≤ y.reportRoom ∧
     (closeFrame { y with feed := { y.feed with delim := .complete (.command .writeWindow) 1 } }).responseWaiting =
       false) ∧
    (let y := withReport 248 (d (headW 0x2105) w)
     (closeFrame { y with feed := { y.feed with delim := .complete (.command .writeWindow) 1 } }).responseWaiting =
       true) := by decide +kernel

/-- A fixed frame (READ WINDOW, tag 7, n 12) standing at the head of the FIFO, with a word behind it and with none. -/
theorem witness_FixedFrameWordByWordIsItsRow :
    let d (rest : List LinkWord) : Device :=
      withFifo (headW 0x2D07 :: [(12 : Word)].map (fun v => { head := false, data := v }) ++ rest) dev0
    ((d [bodyW 1]).listening ∧ (d [bodyW 1]).feed.presented = [] ∧
      frameKindOf (headKind 0x2D07) = some (.command .readWindow) ∧
      bodyLength (.command .readWindow) (headQualifier 0x2D07) = some [(12 : Word)].length ∧
      frameRow (.command .readWindow) (headQualifier 0x2D07) [12] = some (.readWindow 7 12) ∧
      (d [bodyW 1]).feed.fifo = [headW 0x2D07, bodyW 12, bodyW 1]) ∧
    (d []).feed.fifo = [headW 0x2D07, bodyW 12] ∧ dev0.ready := by decide +kernel

theorem witness_FixedFrameWordByWordIsItsRow_scan :
    frameKindOf (headKind 0x0200) = some (.scan .b) ∧ (headQualifier 0x0200).toNat ≤ 8 ∧
    bodyLength (.scan .b) (headQualifier 0x0200) = some 2 ∧
    frameRow (.scan .b) (headQualifier 0x0200) [37, 0] = some (.scanPart (partB 37 0 [])) := by decide +kernel

def late (tag : Option Word) (gotA : Bool) : ItemRecord :=
  { r37 with state := .late, disposition := some .late, tag := tag, gotA := gotA }
def partial38 : ItemRecord := { r38 with state := .partial_, tag := some 901, gotA := true }

theorem witness_ScanPartsNotStored :
    (runAt 0 []).ready ∧ 8 < (partA 1 9 240 1 (List.replicate 9 plain)).observations.length ∧ dev0.ready ∧
    (partA 1 8 240 1 (List.replicate 8 plain)).observations.length ≤ 8 ∧ dev0.active = false ∧
    ((runAt 0 [late (some 900) true]).track.queue = [] ++ late (some 900) true :: [] ∧
      (late (some 900) true).got .b = false ∧ (late (some 900) true).state = .late) ∧
    ((∀ q ∈ (runAt 0 [partial38, late none false]).track.queue, q.tag ≠ some 902) ∧
      (∀ q ∈ [partial38], q.tag ≠ none) ∧ (late none false).tag = none) := by decide +kernel

theorem witness_ScanPartBinds :
    (runAt 0 [partial38, r37]).active = true ∧
    ((∀ q ∈ ([] : List ItemRecord), q.tag ≠ some 901) ∧ partial38.tag = some 901 ∧ partial38.got .b = false ∧
      partial38.state ≠ .late) ∧
    ((∀ q ∈ (runAt 0 [partial38, r37]).track.queue, q.tag ≠ some 902) ∧ (∀ q ∈ [partial38], q.tag ≠ none) ∧
      r37.tag = none ∧ r37.state ≠ .late) := by decide +kernel

theorem witness_OrphanAndDuplicateParts :
    ((∀ q ∈ (runAt 0 [partial38]).track.queue, q.tag ≠ some 902) ∧
      (∀ q ∈ (runAt 0 [partial38]).track.queue, q.tag ≠ none)) ∧
    (runAt 0 [r37, partial38]).track.queue = [r37] ++ partial38 :: [] ∧ (∀ q ∈ [r37], q.tag ≠ some 901) ∧
    partial38.got .a = true := by decide +kernel

theorem witness_ResponsesWaitAndFramesWithThem :
    rowFrame (.halt 1) = some (.command .halt, 1, []) ∧ (withReset dev0).inputs.resetLine = true ∧
    (withUnit (.waiting [] false) dev0).responseWaiting = true ∧ (withFifo [bodyW 5] dev0).feed.fifo ≠ [] ∧
    (withReport 251 dev0).ready ∧ (withReport 251 dev0).tally.page = none ∧ (withReport 251 dev0).reportRoom < 6 := by
  decide +kernel

/-- A frame that ends an open-ended one whose response finds no room; and commands whose own response finds none. -/
theorem witness_ResponsesWaitAndFramesWithThem_behind :
    let d := withUnit (receiving .nop []) (withDelim (.openEnded (.command .nop) 1) (withReport 251 dev0))
    let x := withReport 251 dev0
    let y := runCommand .halt [] { x with feed := { x.feed with delim := .complete (.command .halt) 1 } }
    (d.responseWaiting = false ∧ d.feed.fifo = [] ∧ d.feed.presented = [] ∧ (endOpen d).responseWaiting = true) ∧
    (d.feed.delim = .openEnded (.command .nop) 1 ∧ d.command = receiving .nop [] ∧ d.tally.deferred = none ∧
      d.reportRoom < 6) ∧
    (bodyLength (.command .halt) 1 ≠ none ∧ y.1.tally.page = none ∧ y.1.tally.deferred = none ∧
      y.1.reportRoom < 5 + y.2.words.length ∧ 5 + y.2.words.length ≤ 256) ∧
    ((withPage x).tally.page ≠ none ∧ (withPage x).reportRoom < 6) := by decide +kernel

/-- A frame that ends an open one whose response does not wait: a fixed frame one word short, an open-ended one with
room for exactly its 6 words, and no frame open. -/
theorem witness_ResponsesWaitAndFramesWithThem_ended :
    let fixed := withDelim (.opened (.command .adjustClock) 1 []) dev0
    let openEnded := withUnit (receiving .nop []) (withDelim (.openEnded (.command .nop) 1) (withReport 250 dev0))
    (∀ d ∈ [fixed, openEnded, dev0], d.inputs.resetLine = false ∧ d.responseWaiting = false ∧ d.feed.fifo = [] ∧
      d.feed.presented = [] ∧ (endOpen d).responseWaiting = false) ∧
    bodyLength (.command .adjustClock) 1 = some 1 ∧ dev0.feed.delim.settled = true ∧
    openEnded.tally.page = none ∧ openEnded.tally.deferred = none ∧ openEnded.reportRoom = 6 := by decide +kernel

/-- Room for a response of 261 words does not exist; for one of 126, 29 and 6 words it does, to the word. -/
theorem witness_clear :
    (withReport 130 dev0).clear 126 ∧ (withReport 227 dev0).clear 29 ∧ (withReport 250 dev0).clear 6 ∧ dev0.clear 256 ∧
    ¬ dev0.clear 261 := by decide +kernel

/-- The check of the Station Table at a boundary of each row: a good table; row 1 at the arm lead; 2 at 1; 3 at 2; 4 at
3; a gate at row 3; a gate at EXIT. -/
theorem witness_EnterRunAnswered :
    let d := withCells ((6, 0, 0, 1) :: stations) dev0
    (d.clear 7 ∧ d.line.mode = .idle ∧ 0 < (d.num 7 1 0 : Int) - d.num 7 1 3 ∧ d.num 7 1 0 < d.num 7 2 0 ∧
      d.num 7 2 0 < d.num 7 3 0 ∧ (d.num 7 1 0 : Int) - d.num 7 1 3 < (d.num 7 3 0 : Int) - max 4 (d.num 7 3 1) ∧
      d.num 7 3 0 < d.num 7 4 0 ∧ d.num 7 5 0 < d.num 7 4 0 ∧ d.num 7 3 0 < d.num 7 5 0 ∧
      (∀ k : Fin 16, k ≠ 0 → d.num 6 k.val 0 = 0)) ∧
    ¬ 0 < ((withCells [(7, 1, 3, 1600)] d).num 7 1 0 : Int) - (withCells [(7, 1, 3, 1600)] d).num 7 1 3 ∧
    ¬ d.num 7 1 0 < (withCells [(7, 2, 0, 1600)] d).num 7 2 0 ∧
    ¬ d.num 7 3 0 < (withCells [(7, 4, 0, 3200)] d).num 7 4 0 ∧
    ¬ (withCells [(7, 5, 0, 6000)] d).num 7 5 0 < d.num 7 4 0 ∧
      ¬ d.num 7 3 0 < (withCells [(7, 5, 0, 3200)] d).num 7 5 0 := by
  decide +kernel

theorem witness_EnterRunAnswered_cells :
    let d := withJam 20 9 (withCells [(7, 20, 2, 50), (6, 15, 0, 1)] dev0)
    (d.inputs.blocked[(20 : Fin 21)] = true ∧ d.num 6 (20 - 5) 0 ≠ 0 ∧ d.num 7 20 2 ≠ 0) ∧
    (d.inputs.blocked[(19 : Fin 21)] = false) ∧ ¬ (14 < 5 ∨ (withJam 14 9 d).num 6 (14 - 5) 0 ≠ 0) := by decide +kernel

theorem witness_DrainHaltResume_PurgeTrackAndSoftReset :
    (runAt 0 [r37]).line.mode = .run ∧ (runAt 0 [r37]).track.queue ≠ [] ∧ (runAt 0 []).inputs.feedHeld = false ∧
    (withHeld (runAt 0 [])).clear 7 ∧ (withHeld (runAt 0 [])).inputs.feedHeld = true ∧
    (withMode .drain dev0).line.mode = .drain ∧ (withMode .halted dev0).clear 7 ∧
    (withMode .halted dev0).track.queue = [] ∧ (withMode .halted (runAt 0 [r37])).track.queue ≠ [] ∧
    dev0.line.mode ≠ .halted := by decide +kernel

/-- An item report of six words in the batch buffer, with room to the word for it and the answer; and one record to
purge. -/
theorem witness_DrainHaltResume_PurgeTrackAndSoftReset_room :
    let batched (n : Nat) (d : Device) : Device :=
      withReport n { d with tally := { d.tally with batch := [List.replicate 6 0] } }
    let d := batched 242 (withHeld (runAt 0 []))
    let e := withMode .halted (batched 236 (runAt 0 [r37]))
    (d.clear (7 + 7 * d.tally.batch.length) ∧ (∀ r ∈ d.tally.batch, r.length = 6) ∧ d.line.mode = .run ∧
      d.track.queue = [] ∧ d.inputs.feedHeld = true) ∧
    (e.clear (6 + 7 * (e.tally.batch.length + e.track.queue.length)) ∧ (∀ r ∈ e.tally.batch, r.length = 6) ∧
      e.line.mode = .halted ∧ e.ready) ∧ ¬ (batched 243 dev0).clear (7 + 7 * 1) := by decide +kernel

theorem witness_SelectWindowAnswered :
    (14 < (15 : Word).toNat ∧ tableRows 5 ≤ (41 : Word).toNat ∧ (5 : Word).toNat < (6 : Word).toNat ∧
      tableFields 5 ≤ (3 : Word).toNat ∧ 3 < (4 : Word).toNat) ∧
    ¬ 14 < (14 : Word).toNat ∧ ¬ tableRows 5 ≤ (40 : Word).toNat ∧ ¬ tableFields 5 ≤ (2 : Word).toNat ∧
    ¬ 3 < (3 : Word).toNat := by decide +kernel

/-- The greatest values at a value they hold and at one above. -/
theorem witness_SelectWindowAnswered_held :
    heldValue 8 4 320 = 320 ∧ heldValue 8 4 321 = 320 ∧ heldValue 8 27 1 = 1 ∧ heldValue 8 29 2 = 1 ∧
    heldValue 8 1 321 = 320 ∧ heldValue 8 1 (BitVec.ofInt 16 (-321)) = BitVec.ofInt 16 (-320) ∧
    heldValue 12 1 65535 = 65535 ∧ heldValue 5 2 5 = 4 := by decide +kernel

/-- Reads at the start, at the end under IGNORE, and under WRAP. -/
theorem witness_ReadsAnswered :
    (let w : Window := { window119 with cursor := 8 }
     (withWindow w dev0).clear (6 + (250 : Word).toNat) ∧ (withWindow w dev0).window.selection = some w ∧
     (withWindow w dev0).cursorHeld ∧ w.overrun = .ignore ∧ 1 ≤ (250 : Word).toNat ∧ (250 : Word).toNat ≤ 255) ∧
    (let w : Window := { window119 with cursor := 7, overrun := .wrap }
     (withWindow w dev0).clear (6 + (1 : Word).toNat) ∧ (withWindow w dev0).window.selection = some w ∧
     (withWindow w dev0).cursorHeld ∧ w.overrun = .wrap ∧ 1 ≤ (1 : Word).toNat ∧ (1 : Word).toNat ≤ 255) ∧
    ¬ (withWindow { window119 with cursor := 8, overrun := .wrap } dev0).cursorHeld ∧
    (dev0.clear 5 ∧ dev0.window.selection = none) ∧ ((0 : Word).toNat < 1 ∧ 255 < (256 : Word).toNat) := by
  decide +kernel

/-- Reads of 251 and of 255 words, on an empty Report Queue, behind a word of it, and behind a page. -/
theorem witness_ReadsAnswered_long :
    let d := withWindow window119 dev0
    (251 ≤ (251 : Word).toNat ∧ (255 : Word).toNat ≤ 255) ∧
    (d.ready ∧ d.tally.page = none ∧ d.tally.deferred = none ∧ d.cursorHeld ∧ d.report.queue = []) ∧
    (withReport 1 d).report.queue ≠ [] ∧ (withPage d).tally.page ≠ none := by decide +kernel

/-- The cells read: a record in its row of the Tracking Queue view, a row beyond the queue, and an applied cell. -/
theorem witness_ReadsAnswered_cells :
    (runAt 0 [r37, r38]).track.queue[1]? = some r38 ∧ (runAt 0 [r37, r38]).track.queue.length ≤ 2 ∧
    (runAt 0 [r37, r38]).readCell 14 1 1 = 38 ∧ (runAt 0 []).readCell 7 3 0 = 3200 ∧
    (withBin 3 4 1 .full true dev0).readCell 6 3 5 = 1 := by decide +kernel

theorem witness_WriteFrames_refused :
    (dev0.clear 9 ∧ dev0.window.selection = none) ∧
    (let w : Window := { window119 with table := 13 }
     (withWindow w dev0).clear 9 ∧ (withWindow w dev0).window.selection = some w ∧ w.table = 13) ∧
    (let w : Window := { window119 with table := 7 }
     let d := withWindow w (runAt 0 [])
     d.clear 9 ∧ d.window.selection = some w ∧ w.table = 7 ∧ d.line.mode ≠ .idle) ∧
    (let d := withGroups (List.replicate 32 []) (withWindow window119 (runAt 0 []))
     d.clear 9 ∧ d.window.selection = some window119 ∧ window119.table ≠ 13 ∧ window119.table ≠ 14 ∧
     window119.table ≠ 7 ∧ d.active = true ∧ 32 ≤ d.window.groups.length) := by decide +kernel

theorem cellReadOnly_route (row : Nat) : cellReadOnly 5 row 0 = false := by simp [cellReadOnly]

/-- Staging four words from the start and one from place 3; at 252 cells there is room for 4, at 253 not. -/
theorem witness_WriteFrames_staged :
    let w := column119 3
    let d := withWindow w (runAt 0 [])
    (∀ row, cellReadOnly w.table row w.firstField = false) ∧
    (d.clear 9 ∧ d.active = true ∧ d.window.selection = some w ∧ w.firstField = w.lastField ∧ w.order = .rowFirst ∧
      w.overrun = .ignore ∧ w.table ≠ 7 ∧ d.window.groups.length < 32) ∧
    ([6, 6, 7, 7] : List Word).length ≤ w.lastRow - w.firstRow + 1 ∧
    w.cursor + ([6] : List Word).length ≤ w.lastRow - w.firstRow + 1 ∧
    (withGroups [List.replicate 252 someCell] d).window.groups.flatten.length + 4 ≤ 256 ∧
    256 < (withGroups [List.replicate 253 someCell] d).window.groups.flatten.length + 4 :=
  ⟨cellReadOnly_route, by decide +kernel⟩

/-- The last cell of the Font Store and the last of the Bar Patterns, in IDLE and in HALTED. -/
theorem witness_WritesTakeEffectAtOnce :
    let w (t r f : Nat) : Window :=
      { table := t, firstRow := r, lastRow := r, firstField := f, lastField := f, order := .rowFirst, overrun :=
        .ignore,
        cursor := 0 }
    let met (d : Device) (w : Window) : Prop :=
      d.clear 9 ∧ d.active = false ∧ d.canonical ∧ d.window.selection = some w ∧ w.lastRow = w.firstRow ∧
      w.lastField = w.firstField ∧ w.overrun = .ignore ∧ 8 ≤ w.table ∧ w.table ≤ 12 ∧ w.firstRow < tableRows w.table ∧
      w.firstField < tableFields w.table ∧ w.cursor = 0
    met (withWindow (w 11 127 11) dev0) (w 11 127 11) ∧
    met (withWindow (w 12 255 1) (withMode .halted dev0)) (w 12 255 1) ∧
    dev0.stagedValue 11 127 11 = 0 := by
  refine ⟨?_, ?_, by decide +kernel⟩ <;> decide +kernel

/-- In IDLE: two words through a window of the Settings Table across fields under IGNORE, three through a bin's two
first fields under WRAP, and one of the Station Table; with an item report in the batch buffer. -/
theorem witness_WritesTakeEffectAtOnce_any_table :
    let w (t r f g c : Nat) (o : Overrun) : Window :=
      { table := t, firstRow := r, lastRow := r, firstField := f, lastField := g, order := .rowFirst, overrun := o,
        cursor := c }
    let d (v : Window) : Device :=
      withWindow v { withReport 240 dev0 with tally := { dev0.tally with batch := [List.replicate 6 0] } }
    let met (v : Window) : Prop :=
      (d v).clear (9 + 7 * (d v).tally.batch.length) ∧ (∀ r ∈ (d v).tally.batch, r.length = 6) ∧ (d v).active = false ∧
      (d v).canonical ∧ (d v).window.selection = some v ∧ (d v).cursorHeld ∧ v.inTable ∧ v.table ≤ 12 ∧
      (d v).line.mode = .idle
    (met (w 0 0 7 8 0 .ignore) ∧ 0 + 2 ≤ (8 - 7 + 1 : Nat) ∧ cellReadOnly 0 0 7 = false ∧ cellReadOnly 0 0 8 = false) ∧
    (met (w 6 15 0 1 1 .wrap) ∧ cellReadOnly 6 15 0 = false ∧ cellReadOnly 6 15 1 = false) ∧
    (met (w 7 20 2 2 0 .ignore) ∧ cellReadOnly 7 20 2 = false) ∧
    (let c : CellWrite := { table := 6, row := 15, field := 1, value := heldValue 6 1 9 }
     c.inTable ∧ (d (w 6 15 0 1 1 .wrap)).readCell 6 15 1 = 0) := by
  refine ⟨⟨?_, by decide +kernel⟩, ⟨?_, by decide +kernel⟩, ⟨?_, by decide +kernel⟩,
    by decide +kernel⟩ <;> decide +kernel

theorem witness_CompareWriteAnswered :
    let d := withGroups [[someCell]] (runAt 0 [])
    (14 < (15 : Word).toNat ∧ tableRows 5 ≤ (41 : Word).toNat ∧ tableFields 5 ≤ (3 : Word).toNat) ∧
    d.clear 6 ∧ d.active = true ∧ cellReadOnly 13 0 0 = true ∧ cellReadOnly 5 6 0 = false ∧ cellReadOnly 7 1 0 = false ∧
    d.line.mode ≠ .idle ∧ d.stagedValue 5 6 0 = 6 ∧ d.stagedValue 5 6 0 ≠ 7 ∧
    32 ≤ (withGroups (List.replicate 32 []) d).window.groups.length ∧
    256 ≤ (withGroups [List.replicate 256 someCell] d).window.groups.flatten.length ∧
    ¬ (32 ≤ d.window.groups.length ∨ 256 ≤ d.window.groups.flatten.length) ∧
    (d.window.gap ≠ .met ∧ d.clear (6 + 7 * d.tally.batch.length) ∧ (withGap .met d).window.gap = .met) := by
  decide +kernel

theorem witness_GapAndApplyPoint_apply :
    let d := withGap .met (withGroups [[someCell]] (runAt 0 []))
    (d.active = true ∧ d.window.groups ≠ [] ∧ d.window.gap = .met ∧ d.classifier.busy = none ∧
      d.imprint.builder = none) ∧
    d.canonical ∧ d.window.groups.flatten ≠ [] ∧
    (∀ w ∈ d.window.groups.flatten, w.row < tableRows w.table ∧ w.field < tableFields w.table ∧
      cellReadOnly w.table w.row w.field = false) ∧ (runAt 0 []).window.gap ≠ .met := by decide +kernel

/-- The latches of one cause, a build that waits for the ring and one that does not; and a page that waits behind the 29
words of the response. -/
theorem witness_NopAndReadStatus :
    let d := occur (withPrinting 38 0 0 (List.replicate 1024 0) (runAt 0 [queued])) (.stray 3 9)
    (d.clear 29 ∧ d.line.mode = .run ∧ d.imprint.builder = none ∧
      d.track.queue.filter (fun r => decide (r.imprint = .queued)) = queued :: [] ∧
      queued.cancel.map CancelIntent.template = some 2 ∧ d.ringRoom (max 1 (d.num 8 2 0)) = false) ∧
    ((word d.latchBits).getLsbD (Cause.priority .stray) = true ∧ d.attention.latch .stray ≠ none) ∧
    (runAt 0 [queued]).ringRoom (max 1 ((runAt 0 [queued]).num 8 2 0)) = true ∧
    (let e := withPage (withReport 108 dev0)
     e.ready ∧ e.tally.page ≠ none ∧ 29 ≤ e.reportRoom ∧ e.reportRoom < 149) := by decide +kernel

/-- At the gap distance, 64, and one count before it. -/
theorem witness_GapAndApplyPoint_gap :
    let d := withGap (.opened 50000) (runAt 50064 [])
    let e := withGap (.opened 50000) (runAt 50063 [])
    d.window.gap = .opened 50000 ∧ d.active = true ∧ d.num 0 0 7 ≤ (d.track.encoder - 50000).toNat ∧
    (e.track.encoder - 50000).toNat < e.num 0 0 7 := by decide +kernel

theorem witness_ExchangeCounter_CloseTallyAnswered :
    (55 : Word).toNat = (55 : Fin 56).val ∧ 55 < (56 : Word).toNat ∧ dev0.clear 6 ∧
    (withPage (withReport 131 dev0)).ready ∧ (withPage (withReport 131 dev0)).tally.page ≠ none ∧
    7 ≤ (withPage (withReport 131 dev0)).reportRoom ∧ (withPage (withReport 131 dev0)).reportRoom < 126 ∧
    ((withDeferred dev0).tally.page = none ∧ (withDeferred dev0).tally.deferred ≠ none) := by decide +kernel

/-- CLOSE_TALLY at the limits of the room: with the page buffer empty 126, 125, 6 and 5 words; behind a page 126, 245
and 246. -/
theorem witness_CloseTallyAnswered_room :
    (withReport 130 dev0).clear 126 ∧ (withReport 131 dev0).clear 6 ∧ (withReport 131 dev0).reportRoom = 125 ∧
    (withReport 250 dev0).clear 6 ∧ (withReport 251 dev0).ready ∧ (withReport 251 dev0).tally.page = none ∧
    (withReport 251 dev0).tally.deferred = none ∧ (withReport 251 dev0).reportRoom = 5 ∧
    (∀ n ∈ [130, 11, 10], (withReport n (withPage dev0)).ready ∧ (withReport n (withPage dev0)).tally.page ≠ none) ∧
    (withReport 130 dev0).reportRoom = 126 ∧ (withReport 11 dev0).reportRoom = 245 ∧
    (withReport 10 dev0).reportRoom = 246 := by decide +kernel

/-- A SECOND pulse that closes next in the queue, and one that does not. -/
theorem witness_CloseTallyAnswered_beside :
    midnight.clear 246 ∧ midnight.rollsOver ∧ (withReport 130 midnight).clear 126 ∧
    (withReport 130 (withPage midnight)).ready ∧ (withReport 130 (withPage midnight)).rollsOver ∧ ¬ dev0.rollsOver ∧
    ¬ (withClock 2032 2 28 23 59 58 none midnight).rollsOver ∧
    (withClock 2032 2 28 23 59 58 (some 1) midnight).rollsOver := by decide +kernel

/-- 29 February of a leap year and of another; the limits of an adjustment. -/
theorem witness_ClockCommandsAnswered :
    monthLength 2032 2 = 29 ∧ monthLength 2031 2 = 28 ∧ monthLength 2000 2 = 29 ∧
    (BitVec.ofInt 16 (-3600)).toInt = -3600 ∧ (BitVec.ofInt 16 (-3601)).toInt < -3600 ∧
    3600 < (3601 : Word).toInt ∧ (withClock 2032 2 28 0 0 0 (some 9) dev0).clock.adjust ≠ none ∧
    dev0.clock.adjust = none ∧ dev0.clock.valid = false ∧
    (withClock 2032 2 28 0 0 0 none dev0).clock.date = { year := 2032, month := 2, day := 28 } := by decide +kernel

/-- Nothing qualifies after reset; of STRAY and ROLLOVER latched, STRAY comes first. -/
theorem witness_AttentionCommandsAnswered :
    let a := occur (occur dev0 (.stray 3 9)) (.rollover { year := 2032, month := 2, day := 29 })
    dev0.clear 11 ∧ a.clear 11 ∧ (∀ c ∈ allCauses, dev0.attention.qualifies c = false) ∧
    a.attention.qualifies .stray = true ∧
    (∀ c ∈ allCauses, a.attention.qualifies c = true → Cause.priority .stray ≤ c.priority) := by decide +kernel

/-- A cause with a latch and one without. -/
theorem witness_AttentionCommandsAnswered_details :
    let a := occur (occur dev0 (.stray 3 65541)) (.stray 4 7)
    (a.attention.stray.isSome = true ∧ a.causeWords .stray = [3, 1, 5] ∧ a.attention.repeatCount .stray = 1) ∧
    dev0.attention.latch .stray = none := by decide +kernel

theorem witness_BinCommandsAnswered :
    let d := withBin 3 4 1 .active true (runAt 0 [])
    15 < (16 : Word).toNat ∧ (15 : Word).toNat = (15 : Fin 16).val ∧ d.clear 8 ∧ d.active = true ∧
    ((3 : Fin 16) ≠ 0 ∨ d.active = false) ∧ (d.bin 3).held = true ∧ (d.bin 0).held = false := by decide +kernel

/-! ## Resets and the belt -/

theorem test_POWER_ON_RESET : did .powerOnReset (runAt 9990 [r37]) = dev0 := by decide +kernel
theorem test_LINE_RESET_keeps_the_artwork :
    let d := did .lineReset (withCells [(11, 65, 3, 99), (5, 6, 0, 3)] (runAt 9990 [r37]))
    d.num 11 65 3 = 99 ∧ d.num 5 6 0 = 0 ∧ d.inputs.resetLine = true ∧ d.line.mode = .idle := by decide +kernel
theorem test_RESET_RELEASE : did .resetRelease (withReset dev0) = dev0 := by decide +kernel
theorem test_ENC_PULSE_counts_round : (did .encPulse (idle (runAt 16777215 []))).track.encoder = 0 := by decide +kernel
/-- A deadline left over at its position is taken before the encoder moves (log 2). -/
theorem test_ENC_PULSE_takes_what_is_due :
    let d := did .encPulse (runAt 11400 [r37])
    d.track.encoder = 11401 ∧ d.track.queue.map (fun r => r.state) = [.late] := by decide +kernel

/-! ## The worked sequence 1.12: cells, facing orders, a loss -/

theorem test_SCAN_CELL_LEAD_EDGE :
    let d := runAt 10000 []
    (did .scanCellLeadEdge { d with track := { d.track with admission := 37 } }).track.queue = [r37] :=
      by decide +kernel
theorem test_SCAN_CELL_TRAILING_EDGE :
    (did .scanCellTrailingEdge (withOccupant 0 37 (runAt 10480 [r37]))).track.queue.map (fun r => r.length) =
      [some 480] := by decide +kernel

def planned : ItemRecord :=
  { r37 with state := .decided, plan := some { twist := true, turn := false, group := .lead } }

theorem test_STATION_LEAD_EDGE_gives_the_twist_order :
    let d := did (.stationLeadEdge .twist) (runAt 11598 [planned, r38])
    d.twistLine = true ∧ d.track.twist = some 37 ∧ (did (.stationTrailingEdge .twist) d).twistLine = false := by
  decide +kernel
theorem test_STATION_TRAILING_EDGE_stacks_at_the_routed_gate :
    let d := withBin 1 3 1 .active false (withOccupant 6 37 (runAt 14483 [{ routed with gateSeen := true }]))
    let e := did (.stationTrailingEdge (.gate 1)) d
    e.track.queue = [] ∧ (e.bin 1).fill = 4 ∧ (e.bin 1).committed = 0 ∧ e.tally.totals.stacked = 1 := by decide +kernel
theorem test_DEADLINE : (did (.deadline 37) (runAt 11400 [r37])).track.queue.map (fun r => r.disposition) =
    [some .late] := by decide +kernel
theorem test_WINDOW_EXPIRY_loses_record_38 :
    let d := did (.windowExpiry 38 .cancel) (runAt 13941 [r38])
    d.track.queue = [] ∧ d.attention.lost = some { detail := .lost 38 3 13900, repeats := 0 } ∧
    did (.windowExpiry 38 .cancel) (runAt 13940 [r38]) = runAt 13940 [r38] := by decide +kernel
theorem test_JAM_EXPIRY :
    let d := did (.jamExpiry 20) (withJam 20 500 (runAt 500 []))
    d.line.mode = .halted ∧ d.stop = true ∧ d.attention.jam = some { detail := .jam 20 none, repeats := 0 } := by
  decide +kernel

/-! ## The worked sequences 2.8 and 3.9: parts, the scan fault and the decision -/

theorem test_SCAN_PART_binds_and_makes_partial :
    (did (.scanPart (partA 900 2 235 1 [plain, plain])) (runAt 0 [r37, r38])).track.queue.map
      (fun r => (r.tag, r.state, r.scanFault)) = [(some 900, .partial_, false), (none, .awaitScan, false)] := by
  decide +kernel
theorem test_SCAN_PART_offset_beyond_the_letter :
    let one := did (.scanPart (partA 902 1 200 1 [plain])) (runAt 0 [r37])
    (did (.scanPart (partB 902 2 [obs .top 86 20 .none false 9 1,
      obs .top 212 20 .none false 9 1])) one).track.queue.map
      (fun r => (r.state, r.scanFault)) = [(.ready, true)] := by decide +kernel

theorem test_CLASSIFIER_TAKE :
    let d := did .classifierTake (runAt 0 [r37, { r38 with state := .ready }])
    d.classifier.busy = some 38 ∧ d.track.queue.map (fun r => r.state) = [.awaitScan, .classifying] := by decide +kernel

theorem test_DECISION_COMPLETE_of_3_9 :
    let d := did (.decisionComplete 120) (withBusy 120 (withCells tables39 (withClock 2031 3 7 14 5 0 none (runAt 0 [r120]))))
    d.find 120 = some { r120 with
      state := .decided, disposition := some .shortPaid, positionCode := some 0, classGroup := some 3,
      totalValue := some 85, requiredValue := some 90, imprint := .queued,
      plan := some { twist := false, turn := false, group := .lead },
      cancel := some { template := 1, startColumn := 24 },
      chosen := some { side := .a, zone := .top, offsetMm := 12, widthMm := 22, lum := .phosphor,
                       row := .markClass 17 } } ∧
    d.classifier.busy = none := by decide +kernel

/-! ## The worked sequences 4.5 and 5.7: the face check, the print and the build -/

theorem test_END_OF_CHECK_SPAN_fails_record_71 :
    let d := did (.endOfCheckSpan 37) (withBuilder 37 (withCells [(5, 39, 0, 0), (6, 0, 0, 1), (6, 0, 1, 500)]
      (runAt 13320 [checked false .building])))
    d.track.queue.map (fun r => (r.faceCheck, r.disposition, r.cancel, r.imprint)) =
      [(some .fail, some .faceFault, none, .aborted)] ∧
    d.track.queue.map (fun r => r.route.isSome) = [true] ∧ d.imprint.builder = none := by decide +kernel
theorem test_FCHK_ASSERTION :
    let at_ (line : Sensor) := (did (.fchkAssertion line true) (runAt 13240 [checked false .built])).track.queue.map
      (fun r => r.openCheck)
    at_ .lead = [some { sensor := .lead, assertedSeen := true }] ∧
    at_ .trail = [some { sensor := .lead, assertedSeen := false }] := by decide +kernel
/-- R21, step 3: a print start that equals the end of the check span is taken in the one event. -/
theorem test_END_OF_CHECK_SPAN_takes_an_equal_print_start :
    let r : ItemRecord := { checked true .built with checkEnd := some 13330 }
    let d := did (.endOfCheckSpan 37) (withReady (runAt 13330 [r]))
    d.imprint.printing = some { number := 37, start := 13330, column := 0 } ∧
    d.track.queue.map (fun r => (r.faceCheck, r.checkEnd, r.printStart, r.imprint)) =
      [(some .pass, none, none, .printing)] := by decide +kernel
theorem test_PRINT_START :
    let d := did (.printStart 37) (withReady (runAt 13330 [printing .built]))
    d.imprint.printing = some { number := 37, start := 13330, column := 0 } ∧
    (did (.printStart 37) (runAt 13330 [printing .built])).imprint.printFault = true := by decide +kernel
theorem test_PRINT_COLUMN_DUE :
    let d := did .printColumnDue (withPrinting 37 13330 3 [5, 6] (runAt 13333 [printing .printing]))
    d.imprint.printCol = 5 ∧ d.imprint.printStrobes = 1 := by decide +kernel
theorem test_PRINT_COLUMN_DUE_sends_the_last_column :
    let d := did .printColumnDue (withPrinting 37 13330 3 [6] (runAt 13333 [printing .printing]))
    d.imprint.strobed = some 6 ∧ d.imprint.printCol = 0 ∧ d.imprint.printStrobes = 1 ∧ d.imprint.printing = none := by
  decide +kernel
theorem test_PRINT_READY_DEASSERTED :
    let d := did .printReadyDeasserted (withPrinting 37 13330 3 [5, 6] (withReady (runAt 13331 [printing .printing])))
    d.track.queue.map (fun r => r.imprint) = [.aborted] ∧ d.attention.printFault = .activeNew ∧
    (did .printReadyAsserted d).attention.printFault = .inactive := by decide +kernel

/-- 5.7: the template, the texts, March, the glyph columns the example looks at, and two columns of Bar Pattern 1. -/
def art57 : List (Nat × Nat × Nat × Nat) :=
  [(0, 0, 5, 12), (8, 2, 0, 96), (8, 2, 1, 65526), (8, 2, 2, 1), (8, 2, 3, 72), (8, 2, 4, 24), (8, 2, 5, 2)] ++
  [(8, 2, 8, 2), (8, 2, 13, 16), (8, 2, 14, 1), (8, 2, 16, 1), (9, 8, 0, 128), (9, 8, 1, 129), (9, 9, 0, 133)] ++
  [(10, 2, 0, 77), (10, 2, 1, 65), (10, 2, 2, 82), (11, 48, 1, 0x7E0), (11, 48, 2, 0x1FF8), (11, 55, 2, 0x18)] ++
  [(11, 77, 2, 0x3FFC), (11, 54, 2, 0xFF0), (11, 49, 1, 0x10), (12, 64, 0, 0x3C3C), (12, 64, 1, 0x3C3C),
   (12, 87, 0, 0x3C3C), (12, 87, 1, 0x3C3C)]

/-- The state of 5.7 at the build: the ring held at 800..999, the counter at 6310. -/
def before57 : Device :=
  let d := withCells art57 (withClock 2031 3 7 14 5 0 none (runAt 0 [queued]))
  { d with imprint := { d.imprint with
      alloc := 1000, sequence := 6310,
      ring := [{ number := 9, start := 800, columns := List.replicate 200 0 }] } }

theorem test_BUILD_BEGIN_of_5_7 :
    let e := did .buildBegin before57
    e.imprint.alloc = 72 ∧ e.imprint.sequence = 6311 ∧ e.imprint.builder = some 37 ∧ (e.heldColumns 37).length = 96 ∧
    e.ringFree = 728 ∧ e.track.queue.map (fun r => (r.imprint, r.sequence, r.buildDate)) =
      [(.building, some 6311, some { year := 2031, month := 3, day := 7 })] := by decide +kernel
/-- The columns 2, 14, 26, 61, 62, 72 and 95 of the example. -/
theorem test_BUILD_BEGIN_columns_of_5_7 :
    let columns := before57.compose 2 6311
    [2, 14, 26, 61, 62, 72, 95].map (fun c => columns.getD c 0) =
      [0x1FF81FF8, 0x1FF80018, 0x0FF03FFC, 0x00100000, 0x00100000, 0x3C3C3C3C, 0x3C3C3C3C] := by decide +kernel
theorem test_BUILD_COMPLETE :
    (did (.buildComplete 37) (withBuilder 37 (runAt 0 [queued]))).track.queue.map (fun r => r.imprint) = [.built] := by
  decide +kernel

/-! ## The worked sequence 6.5: the Day Clock -/

theorem test_SECOND_PULSE_crosses_midnight :
    let d := did .secondPulse (withClock 2032 2 28 23 58 30 (some 120) dev0)
    d.clock = (withClock 2032 2 29 0 0 31 none dev0).clock ∧
    d.attention.rollover = some { detail := .rollover { year := 2032, month := 2, day := 29 }, repeats := 0 } := by
  decide +kernel
theorem test_SECOND_PULSE_is_clamped :
    let d := did .secondPulse (withClock 2032 2 29 0 0 50 (some (-60)) dev0)
    (d.clock.hour, d.clock.minute, d.clock.second, d.clock.clamped) = (0, 0, 0, true) ∧ d.clock.date.day = 29 := by
  decide +kernel
theorem test_SET_CLOCK :
    (did (.setClock 1 2031 3 7 14 5 0) dev0).clock = (withClock 2031 3 7 14 5 0 none dev0).clock ∧
    (did (.setClock 1 2031 2 29 0 0 0) dev0).clock = dev0.clock := by decide +kernel
theorem test_ADJUST_CLOCK : (did (.adjustClock 1 120) dev0).clock.adjust = some 120 ∧
    (did (.adjustClock 1 0xFFC4) dev0).clock.adjust = some (-60) := by decide +kernel

/-! ## The worked sequences 7.9 and 8.8: bins and tallies -/

/-- Bin 3 with capacity 6, fill 4 and committed 1. -/
def bin79 (d : Device) : Device := withCells [(6, 3, 0, 1), (6, 3, 1, 6)] (withBin 3 4 1 .active false d)

theorem test_BIN_OUT_SWITCH_ASSERTION :
    ((did (.binOutSwitchAssertion 3) (bin79 dev0)).bin 3).state = .outPending := by decide +kernel
theorem test_BIN_OUT_SWITCH_RELEASE :
    (did (.binOutSwitchRelease 3) (withBin 3 5 0 .out true (bin79 dev0))).bin 3 =
      { fill := 0, committed := 0, state := .active, held := false } := by decide +kernel
theorem test_BIN_OUT : ((did (.binOut 1 3) (withBin 3 4 0 .active false (bin79 dev0))).bin 3).state = .out := by
  decide +kernel
theorem test_BIN_RETURN_is_refused_while_held :
    did (.binReturn 1 3) (withBin 3 5 0 .out true (bin79 dev0)) =
      (withBin 3 5 0 .out true (bin79 dev0)).answered .binReturn 1
        { code := .switchHeld, detail := 0, words := [word BinState.out.code, 5, 0] } := by decide +kernel

/-- The last row of R110, the rollover first: the page it froze stays for CLOSE TALLY, which is deferred behind it; its
step then has the response, that page and the page of the deferred close leave. -/
theorem test_R110_rollover_then_CLOSE_TALLY :
    let s : State := { pending := [.secondPulse, .closeTally 9], dev := midnight }
    let a := (stepped 1 s).dev
    let b := (stepped 2 s).dev
    (a.tally.page.map (fun p => p.causes) = some { command := false, autoClose := true } ∧ a.report.queue = []) ∧
    b.report.queue[1]? = some (bodyW (headWord (commandCode .closeTally) ResultCode.deferred.code)) ∧
    (b.report.queue[6]? = some (headW 0x8200) ∧ b.report.queue[7]? = some (bodyW 0)) ∧
    (b.report.queue[126]? = some (headW 0x8200) ∧ b.report.queue[127]? = some (bodyW 1)) ∧
    b.report.queue.length = 246 ∧ b.tally.period = 2 ∧ b.tally.page = none := by decide +kernel
/-- The same row, CLOSE TALLY first: its page stays for the rollover, whose auto close is deferred behind it. -/
theorem test_R110_CLOSE_TALLY_then_rollover :
    let s : State := { pending := [.closeTally 9, .secondPulse], dev := midnight }
    let a := (stepped 1 s).dev
    let b := (stepped 2 s).dev
    (a.tally.page.map (fun p => p.causes) = some { command := true, autoClose := false } ∧
      a.report.queue.length = 6) ∧
    (b.report.queue[6]? = some (headW 0x8200) ∧ b.report.queue[8]? = some (bodyW 9)) ∧
    (b.report.queue[126]? = some (headW 0x8200) ∧ b.report.queue[128]? = some (bodyW 14)) ∧
    b.report.queue.length = 246 ∧ b.tally.period = 2 ∧ b.tally.page = none := by decide +kernel
/-- The same row with CLOSE TALLY taken from the Feed Input FIFO; and with another event between the two, upon which the
page has left and CLOSE TALLY closes the next period. -/
theorem test_R110_CLOSE_TALLY_from_the_FIFO_and_apart :
    let fifo := withFifo [headW 0x3109] midnight
    let a := (stepped 2 { pending := [.secondPulse, .frameDelimiterTake], dev := fifo }).dev
    let b := (stepped 3 { pending := [.secondPulse, .tallyPageQueued, .closeTally 9], dev := midnight }).dev
    a.report.queue[1]? = some (bodyW (headWord (commandCode .closeTally) ResultCode.deferred.code)) ∧
    b.report.queue[121]? = some (bodyW (headWord (commandCode .closeTally) ResultCode.done.code)) := by decide +kernel
/-- R177: a page that fits is placed in the step that closes the period, CLOSE TALLY's behind its response; a response
that comes later stands behind it. -/
theorem test_R177_page_placed_at_the_close :
    let a := did .secondPulse midnight
    let b := did (.closeTally 9) midnight
    (a.tally.page = none ∧ a.report.queue.length = 120 ∧ (did (.nop 5 []) a).report.queue[0]? = some (headW 0x8200)) ∧
    (b.tally.page = none ∧ b.report.queue.length = 126 ∧ b.report.queue[0]? = some (headW 0x8009) ∧
      b.report.queue[6]? = some (headW 0x8200)) := by decide +kernel
/-- The fourth row of R179: a batch offered after the close finds the page waiting and is dropped. -/
theorem test_R179_batch_behind_a_close :
    let d := did .secondPulse (withReport 200 midnight)
    let b := offerBatch { d with tally := { d.tally with batch := [List.replicate 6 0] } }
    b.report.queue = d.report.queue ∧ b.tally.counters[(54 : Fin 56)] = 1 := by decide +kernel
theorem test_CLOSE_TALLY_behind_a_page :
    (did (.closeTally 9) (withReport 200 (withPage dev0))).tally.deferred =
      some { command := true, autoClose := false } := by
  decide +kernel
theorem test_EXCHANGE_COUNTER :
    let d := dev0.countBy 16 1501
    did (.exchangeCounter 1 16 0 0) d = dev0.answered .exchangeCounter 1 (.done [0, 1501]) := by decide +kernel
theorem test_TALLY_PAGE_QUEUED_takes_the_deferred_close :
    let d := did .tallyPageQueued (withReport 100 (withDeferred (withPage dev0)))
    d.tally.deferred = none ∧ d.tally.period = 1 ∧ d.report.queue.length = 220 ∧ d.tally.page.isSome = true := by
  decide +kernel
theorem test_DEFERRED_CLOSE : (did .deferredClose (withReport 200 (withDeferred dev0))).tally.page.isSome = true := by
  decide +kernel

/-! ## Lines, modes and attention -/

theorem test_FEED_HELD_CHANGE :
    (did (.feedHeldChange true) (withMode .drain dev0)).line.mode = .idle ∧
    (did (.feedHeldChange true) (runAt 0 [])).handshake = 3 := by decide +kernel
theorem test_DRAIN_COMPLETION : (did .drainCompletion (withHeld (withMode .drain dev0))).line.mode = .idle := by
  decide +kernel
theorem test_ENTER_RUN :
    (did (.enterRun 1) (withCells stations dev0)).line.mode = .run ∧ (did (.enterRun 1) dev0).line.mode = .idle := by
  decide +kernel
theorem test_DRAIN : (did (.drain 1) (runAt 0 [r37])).line.mode = .drain ∧
    (did (.drain 1) (withHeld (runAt 0 []))).line.mode = .idle := by decide +kernel
theorem test_HALT : (did (.halt 1) (runAt 0 [r37])).line.mode = .halted ∧
    (did (.halt 1) (runAt 0 [r37])).report.queue.length = 7 := by decide +kernel
theorem test_RESUME : (did (.resume 1) (withMode .halted dev0)).line.mode = .idle ∧
    (did (.resume 1) (withMode .halted (runAt 0 [r37]))).line.mode = .halted := by decide +kernel
theorem test_PURGE_TRACK : (did (.purgeTrack 1) (withMode .halted (runAt 0 [r37, r38]))).tally.totals.purged = 2 := by
  decide +kernel
theorem test_SOFT_RESET : (did (.softReset 1) (runAt 77 [r37, r38])).line.mode = .idle ∧
    (did (.softReset 1) (runAt 77 [r37, r38])).track.encoder = 77 := by decide +kernel
theorem test_HOLD_FEED : (did (.holdFeed 1) (runAt 0 [])).feedStop = true ∧
    (did (.releaseFeed 1) (did (.holdFeed 1) (runAt 0 []))).feedStop = false := by decide +kernel
theorem test_CLEAR_SCAN_LOCK :
    (did (.clearScanLock 1) { dev0 with line := { dev0.line with scanLock := true } }).line.scanLock = false := by
  decide +kernel
theorem test_ACK_ATTENTION :
    let d := occur dev0 (.stray 3 9)
    d.attn = true ∧ (did (.ackAttention 1) d).attn = false := by decide +kernel
theorem test_SET_ATTENTION_MASK_leaves_JAM :
    (did (.setAttentionMask 1 0xFFFF) dev0).attention.mask = 0xFFE := by decide +kernel

/-! ## The links -/

theorem test_READ_STATUS_has_29_words : (did (.readStatus 1) dev0).report.queue.length = 29 := by decide +kernel
theorem test_READ_STATUS_waits_at_240_words :
    (did (.readStatus 1) (withReport 240 dev0)).responseWaiting = true ∧
    (did .responsePlaced (withReport 227 (did (.readStatus 1) (withReport 240 dev0)))).report.queue.length = 256 := by
  decide +kernel
/-- NOP with tag 5 and two words: head 8005h, the echo 2000h, DONE with one result word, no excess, 2. -/
theorem test_NOP : (did (.nop 5 [7, 8]) dev0).report.queue =
    [headW 0x8005, bodyW 0x2000, bodyW 1, bodyW 0, bodyW 0, bodyW 2] := by decide +kernel
theorem test_REPORT_WORD_TRANSMITTED :
    let d := did .reportWordTransmitted (did (.nop 5 [7, 8]) dev0)
    d.report.sent = some (headW 0x8005) ∧ d.report.queue.length = 5 := by decide +kernel
/-- R179: the word begun at the assertion of REPORT-HOLD is completed, and none after it. -/
theorem test_REPORT_HOLD_CHANGE_lets_the_word_begun_go :
    let d := did (.reportHoldChange (.asserted true)) (did (.nop 5 [7, 8]) dev0)
    let e := did .reportWordTransmitted d
    d.report.begun = true ∧ e.report.queue.length = 5 ∧ did .reportWordTransmitted e = e := by decide +kernel
/-- R179, the other outcome: a word transmitted, and then REPORT-HOLD with no word begun; no word leaves. -/
theorem test_REPORT_HOLD_CHANGE_begins_no_word :
    let d := did (.reportHoldChange (.asserted false)) (did .reportWordTransmitted (did (.nop 5 [7, 8]) dev0))
    d.report.queue.length = 5 ∧ did .reportWordTransmitted d = d := by decide +kernel
/-- A row that comes while a response waits stands in the FIFO and is taken behind it, in link order. -/
theorem test_row_behind_a_response_that_waits :
    let d := did (.halt 9) (did (.readStatus 1) (withReport 240 dev0))
    d.feed.fifo = [headW 0x2409] ∧ d.line.mode = .idle ∧ did .frameDelimiterTake d = d ∧
    (did .frameDelimiterTake (did .responsePlaced (withReport 0 d))).line.mode = .halted := by decide +kernel
theorem test_FEED_LINK_WORD_raises_LINK_BUSY :
    (did (.feedLinkWord (bodyW 7)) (withFifo (List.replicate 479 (bodyW 7)) dev0)).feed.busy = true ∧
    (did (.feedLinkWord (bodyW 7)) (withFifo (List.replicate 478 (bodyW 7)) dev0)).feed.busy = false :=
      by decide +kernel
theorem test_FRAME_DELIMITER_TAKE :
    (did .frameDelimiterTake (withFifo [headW 0x2105] dev0)).report.queue.length = 29 ∧
    (did .frameDelimiterTake (withFifo [bodyW 5] dev0)).attention.linkError =
      some { detail := .linkError .strayBody, repeats := 0 } := by decide +kernel

/-! ## The worked sequence 11.9: staged writes -/

def rows119 : List (Nat × Nat × Nat × Nat) :=
  [(5, 6, 0, 3), (5, 7, 0, 3), (5, 8, 0, 4), (5, 9, 0, 4), (5, 8, 1, 1), (5, 9, 1, 1)]
def route119 : Device := withCells rows119 (runAt 0 [])

theorem test_SELECT_WINDOW :
    did (.selectWindow 1 5 6 9 0 1 1) route119 =
      (withWindow window119 route119).answered .selectWindow 1 (.done [8]) := by decide +kernel
theorem test_WRITE_WINDOW_stages_the_group :
    let d := did (.writeWindow 1 [6, 6, 7, 7, 1, 1, 0, 1, 9, 9]) (withWindow window119 route119)
    d.window.groups.map (fun g => g.map (fun c => (c.row, c.field, c.value))) =
      [[(6, 0, 6), (7, 0, 6), (8, 0, 7), (9, 0, 7), (6, 1, 1), (7, 1, 1), (8, 1, 0), (9, 1, 1)]] ∧
    d.report.queue = linkFrame (responseWords .writeWindow 1 0 (.done [10, 8, 2, 0])) ∧
    d.window.selection = some { window119 with cursor := 8 } := by decide +kernel
theorem test_WRITE_CONTINUE :
    let d := did (.writeContinue 1 [9]) (withWindow { window119 with cursor := 7 } route119)
    d.window.groups = [[{ table := 5, row := 9, field := 1, value := 1 }]] := by decide +kernel
theorem test_READ_WINDOW :
    (did (.readWindow 1 8) (withWindow window119 route119)).report.queue =
      linkFrame (responseWords .readWindow 1 0 (.done [0, 3, 3, 4, 4, 0, 0, 1, 1])) := by decide +kernel
theorem test_READ_CONTINUE_past_the_end :
    (did (.readContinue 1 3) (withWindow { window119 with cursor := 7 } route119)).report.queue =
      linkFrame (responseWords .readContinue 1 0 (.done [2, 1, 0, 0])) := by decide +kernel
def staged119 : Device := withGroups [[{ table := 5, row := 8, field := 1, value := 0 },
  { table := 5, row := 8, field := 0, value := 7 }]] route119
theorem test_COMPARE_WRITE :
    (did (.compareWrite 1 5 8 1 0 1) staged119).window.groups.length = 2 ∧
    did (.compareWrite 1 5 8 0 4 7) staged119 =
      staged119.answered .compareWrite 1 { code := .mismatch, detail := 0, words := [7] } := by decide +kernel
theorem test_APPLY_POINT :
    let d := did .applyPoint (withGap .met (withGroups [[{ table := 0, row := 0, field := 8, value := 1 }],
      [{ table := 5, row := 6, field := 0, value := 6 }]] route119))
    d.num 5 6 0 = 6 ∧ d.window.groups = [] ∧ d.line.gapPulses = 1 := by decide +kernel
/-- R193: a group that writes the scan-suspect threshold 0 and then 5 keeps the counter (log 20); one that leaves it 0 holds
the counter at 0 (log 19). -/
theorem test_APPLY_POINT_tests_the_threshold_once :
    let threshold (v : Word) : CellWrite := { table := 0, row := 0, field := 2, value := v }
    let after (vs : List Word) : Device :=
      let d := withGap .met (withGroups [vs.map threshold] (withCells [(0, 0, 2, 9)] (runAt 0 [])))
      did .applyPoint { d with classifier := { d.classifier with suspect := 3 } }
    ((after [0, 5]).classifier.suspect = 3 ∧ (after [0, 5]).num 0 0 2 = 5) ∧
    (after [5, 0]).classifier.suspect = 0 := by decide +kernel
theorem test_GAP_MET : (did .gapMet (withGap (.opened 50000) (runAt 50064 []))).window.gap = .met := by decide +kernel
/-- R192: with the gap met the writes take force at the close of their frame, and so the value of a COMPARE WRITE. -/
theorem test_apply_point_at_the_close :
    let met := withGap .met (withWindow (column119 0) route119)
    (did (.writeWindow 1 [6]) met).num 5 6 0 = 6 ∧ (did (.writeWindow 1 [6]) met).window.groups = [] ∧
    (did (.compareWrite 1 5 6 0 3 9) met).num 5 6 0 = 9 := by decide +kernel
/-- R192: and at the end of what held them back: the gap's run, the classification, the build. -/
theorem test_apply_point_at_the_first_event :
    let staged (q : List ItemRecord) : Device := withGap .met (withGroups [[someCell]] (runAt 50064 q))
    (did .gapMet (withGap (.opened 50000) (staged []))).num 5 6 0 = 6 ∧
    (did (.decisionComplete 37) (withBusy 37 (staged [classifying false]))).num 5 6 0 = 6 ∧
    (did (.buildComplete 37) (withBuilder 37 (staged [queued]))).num 5 6 0 = 6 := by decide +kernel

/-! ## No row gives bits -/

theorem test_no_word_spells_a_command (n w : Nat) :
    decodeTableWord n w = none ∧ State.reset.withFetchWord n w = State.reset := ⟨rfl, rfl⟩

end Sys2Proof.Tests
end

/-! PROOFS. What binding answers for a part it cannot bind: an ORPHAN_PART (R34) and a DUPLICATE_PART (R35). -/

namespace Sys2Proof.Machine

/-- R168, R34, R35: the model's link error is the count and the latch that the statements spell out. -/
theorem linkError_eq_erred (d : Device) (e : LinkError) : linkError d e = d.erred e := rfl

/-- R34: with no record of the part's tag and none untagged, both searches of the queue come back empty. -/
theorem bindPart_orphan (d : Device) (p : ScanPart) (hcarried : ∀ q ∈ d.track.queue, q.tag ≠ some p.tag)
    (htagged : ∀ q ∈ d.track.queue, q.tag ≠ none) : bindPart d p = d.erred (.orphanPart p.side p.tag) := by
  have noCarrier : d.track.queue.find? (fun r => decide (r.tag = some p.tag)) = none :=
    List.find?_eq_none.2 fun q hq => by simpa using hcarried q hq
  have noUntagged : d.track.queue.find? (fun r => decide (r.tag = none)) = none :=
    List.find?_eq_none.2 fun q hq => by simpa using htagged q hq
  unfold bindPart
  rw [noCarrier, noUntagged]
  exact linkError_eq_erred d _

/-- R31: a part whose tag is carried goes to the oldest record that carries it. -/
theorem bindPart_tagged (d : Device) (p : ScanPart) (older rest : List ItemRecord) (r : ItemRecord)
    (hqueue : d.track.queue = older ++ r :: rest) (holder : ∀ q ∈ older, q.tag ≠ some p.tag)
    (htag : r.tag = some p.tag) : bindPart d p = bindTagged d r p := by
  have carrier : d.track.queue.find? (fun r => decide (r.tag = some p.tag)) = some r := by
    rw [hqueue]
    exact find_past older rest r _ (fun q hq => decide_eq_false (holder q hq)) (decide_eq_true htag)
  unfold bindPart
  rw [carrier]

/-- R35: the side is looked at before the record's state, so a LATE record has a duplicate as any other. -/
theorem bindTagged_duplicate (d : Device) (r : ItemRecord) (p : ScanPart) (hgot : r.got p.side = true) :
    bindTagged d r p = d.erred (.duplicatePart p.side p.tag r.number) := by
  unfold bindTagged
  rw [if_pos hgot]
  exact linkError_eq_erred d _

/-- Settles O40: a part that is ready comes to binding, which finds no record for an orphan, and for a duplicate the
record of its tag with the side received. -/
theorem orphanAndDuplicateParts : Obligations.OrphanAndDuplicateParts := by
  unfold Obligations.OrphanAndDuplicateParts
  constructor
  · intro s p d hready hactive hlength hcarried htagged
    rw [exec_scanPart_active s p hready hactive hlength, bindPart_orphan (d.received p) p hcarried htagged]
  · intro s p older rest r d hready hactive hlength hqueue holder htag hgot
    rw [exec_scanPart_active s p hready hactive hlength,
      bindPart_tagged (d.received p) p older rest r hqueue holder htag, bindTagged_duplicate (d.received p) r p hgot]

end Sys2Proof.Machine

/-! PROOFS. EXCHANGE_COUNTER (R140): what it does to the counters, and its answer with no page waiting and behind a page
that does not fit. -/

namespace Sys2Proof.Machine

/-- The two words of a new counter value, upper half first, are the value's two halves. -/
theorem ofNat_words_eq_append (upper lower : Word) :
    BitVec.ofNat 32 (upper.toNat * 65536 + lower.toNat) = upper ++ lower := by
  apply BitVec.eq_of_toNat_eq
  have hlower := lower.isLt
  have hupper := upper.isLt
  rw [BitVec.toNat_ofNat, Nat.mod_eq_of_lt (by omega), BitVec.toNat_append,
    ← Nat.shiftLeft_add_eq_or_of_lt hlower, Nat.shiftLeft_eq]

/-- R140: the counter of the number given takes the new value, and its old value is answered. -/
theorem cmdExchangeCounter_counter (number upper lower : Word) (d : Device) (i : Fin 56) (hi : number.toNat = i.val) :
    cmdExchangeCounter number upper lower d =
      ({ d with tally := { d.tally with counters := upd d.tally.counters i (upper ++ lower) } },
        .done [(d.tally.counters[i]).extractLsb' 16 16, (d.tally.counters[i]).extractLsb' 0 16]) := by
  have hlt : number.toNat < 56 := hi ▸ i.isLt
  obtain rfl : i = ⟨number.toNat, hlt⟩ := Fin.ext hi.symm
  unfold cmdExchangeCounter
  rw [dif_pos hlt, ofNat_words_eq_append, ← countWords_eq]

/-- R140: a number above 55 changes nothing. -/
theorem cmdExchangeCounter_above (number upper lower : Word) (d : Device) (h : 55 < number.toNat) :
    cmdExchangeCounter number upper lower d = (d, { code := .badParameter, detail := 1, words := [0, 0] }) := by
  unfold cmdExchangeCounter
  rw [dif_neg (by omega)]

/-- R170, R177: a fixed command whose response fits is answered at once on a part that is clear, and as well behind a
page that does not fit behind the response. -/
theorem exec_answered_fits (s : State) (c : Instr) (kind : CommandKind) (tag : BitVec 8) (body : List Word)
    (e : Device) (a : Answer) (hx : exec c s = s.after (deliver kind tag body s.dev))
    (hroom : s.dev.clear (5 + a.words.length) ∨ s.dev.ready ∧ s.dev.tally.page ≠ none ∧
      5 + a.words.length ≤ s.dev.reportRoom ∧ s.dev.reportRoom < 125 + a.words.length)
    (hf : runCommand kind body (setDelim s.dev (.complete (.command kind) tag)) =
      (setDelim e (.complete (.command kind) tag), a))
    (hc : e.command = s.dev.command) (hp : e.tally.page = s.dev.tally.page)
    (hd : e.tally.deferred = s.dev.tally.deferred) (hq : e.report.queue = s.dev.report.queue) :
    exec c s = s.after (e.answered kind tag a) := by
  rcases hroom with hclear | ⟨hready, hpage, hfits, hbehind⟩
  · exact exec_answered s c kind tag body _ e a hx hclear hf hc hp hd hq (Nat.le_refl _)
  · have hsame : e.reportRoom = s.dev.reportRoom := by unfold Device.reportRoom; rw [hq]
    rw [hx, deliver_responds kind tag body s.dev hready, hf]
    obtain ⟨⟨-, hfree, -⟩, -, -⟩ := hready
    exact congrArg s.after
      (respond_behind_page e kind tag a (hc.trans hfree) (hp ▸ hpage) (hsame ▸ hfits) (hsame ▸ hbehind))

/-- R137: with the page buffer empty a deferred close freezes the counters and the period as it finds them. -/
theorem takeDeferred_takes (d : Device) (causes : CloseCauses) (hpage : d.tally.page = none)
    (hdeferred : d.tally.deferred = some causes) :
    takeDeferred d = closePeriod { d with tally := { d.tally with deferred := none } } causes true := by
  unfold takeDeferred
  rw [hpage, hdeferred]

/-- Settles O54: by the command's two cases, each answered at once in the room given, and by the close that a deferred
close is. -/
theorem exchangeCounter : Obligations.ExchangeCounter := by
  unfold Obligations.ExchangeCounter
  constructor
  · intro s tag number upper lower d hroom
    constructor
    · intro i hi
      exact exec_answered_fits s _ .exchangeCounter tag [number, upper, lower] _ _ rfl hroom
        (cmdExchangeCounter_counter number upper lower _ i hi) rfl rfl rfl rfl
    · intro habove
      exact exec_answered_fits s _ .exchangeCounter tag [number, upper, lower] d _ rfl hroom
        (cmdExchangeCounter_above number upper lower _ habove) rfl rfl rfl rfl
  · intro d causes hpage hdeferred
    rw [takeDeferred_takes d causes hpage hdeferred]
    exact ⟨_, rfl, rfl, rfl⟩

end Sys2Proof.Machine

/-! PROOFS. The invariants: every command keeps each of them, and so does every step (the obligations EveryStepKeeps…). -/

namespace Sys2Proof.Machine

/-- R4: admission takes a number, so SCAN_CELL_LEAD_EDGE is the one command that needs more than the books themselves. -/
theorem sums_exec (c : Instr) (s : State) (hc : c ≠ .scanCellLeadEdge) :
    ∃ d, exec c s = s.after d ∧ Sums s.dev d := by
  cases c with
  | scanCellLeadEdge => exact absurd rfl hc
  | powerOnReset => exact ⟨_, rfl, sums_powerOnReset _⟩
  | lineReset => exact ⟨_, rfl, sums_lineReset _⟩
  | resetRelease => exact ⟨_, rfl, sums_resetRelease _⟩
  | encPulse => exact ⟨_, rfl, sums_encPulse _⟩
  | scanCellTrailingEdge => exact ⟨_, rfl, sums_scanCellTrailingEdge _⟩
  | stationLeadEdge st => exact ⟨_, rfl, sums_stationLeadEdge st _⟩
  | stationTrailingEdge st => exact ⟨_, rfl, sums_stationTrailingEdge st _⟩
  | deadline n => exact ⟨_, rfl, sums_deadline n _⟩
  | windowExpiry n st => exact ⟨_, rfl, sums_windowExpiry n st _⟩
  | jamExpiry row => exact ⟨_, rfl, sums_jamExpiry row _⟩
  | endOfCheckSpan n => exact ⟨_, rfl, sums_endOfCheckSpan n _⟩
  | fchkAssertion line level => exact ⟨_, rfl, sums_fchkAssertion line level _⟩
  | printStart n => exact ⟨_, rfl, sums_printStart n _⟩
  | printColumnDue => exact ⟨_, rfl, (keeps_printColumnDue _).sums (account_printColumnDue _)⟩
  | printReadyDeasserted => exact ⟨_, rfl, (keeps_printReadyDeasserted _).sums (account_abortPrint _)⟩
  | printReadyAsserted => exact ⟨_, rfl, sums_printReadyAsserted _⟩
  | classifierTake => exact ⟨_, rfl, sums_classifierTake _⟩
  | decisionComplete n => exact ⟨_, rfl, sums_decisionComplete n _⟩
  | buildBegin => exact ⟨_, rfl, sums_buildBegin _⟩
  | buildComplete n => exact ⟨_, rfl, sums_buildComplete n _⟩
  | secondPulse => exact ⟨_, rfl, (safe_secondPulse _ _).sums (account_secondPulse _ _)⟩
  | deferredClose => exact ⟨_, rfl, (keeps_deferredClose _).sums (account_deferredClose _)⟩
  | tallyPageQueued => exact ⟨_, rfl, (keeps_settlePage _).sums (account_settlePage _)⟩
  | feedHeldChange level => exact ⟨_, rfl, sums_feedHeldChange level _⟩
  | drainCompletion => exact ⟨_, rfl, sums_drainTest _⟩
  | binOutSwitchAssertion k => exact ⟨_, rfl, sums_binSwitchAssertion k _⟩
  | binOutSwitchRelease k => exact ⟨_, rfl, sums_binSwitchRelease k _⟩
  | feedLinkWord w => exact ⟨_, rfl, (safe_feedLinkWord w _).sums (account_feedLinkWord w _)⟩
  | frameDelimiterTake => exact ⟨_, rfl, sums_frameDelimiterTake _ _⟩
  | scanPart p => exact ⟨_, rfl, sums_deliverPart p _⟩
  | responsePlaced => exact ⟨_, rfl, (keeps_arbiter _).sums (account_arbiter _)⟩
  | reportWordTransmitted => exact ⟨_, rfl, (keeps_transmitWord _).sums (account_transmitWord _)⟩
  | reportHoldChange level => exact ⟨_, rfl, (keeps_reportHoldChange level _).sums (by cases level <;> rfl)⟩
  | applyPoint => exact ⟨_, rfl, sums_applyPoint _⟩
  | gapMet => exact ⟨_, rfl, sums_gapMet _⟩
  | nop _ _ | writeWindow _ _ | writeContinue _ _ => exact ⟨_, rfl, sums_deliverOpen _ _ _ _⟩
  | closeTally tag => exact ⟨_, rfl, sums_deliverCloseTally _ tag _⟩
  | readStatus _ | enterRun _ | drain _ | halt _ | resume _ | purgeTrack _ | softReset _ | holdFeed _
  | releaseFeed _ | selectWindow _ _ _ _ _ _ _ | readWindow _ _ | readContinue _ _ | compareWrite _ _ _ _ _ _
  | exchangeCounter _ _ _ _ | setClock _ _ _ _ _ _ _ | adjustClock _ _ | ackAttention _ | setAttentionMask _ _
  | clearScanLock _ | binOut _ _ | binReturn _ _ => exact ⟨_, rfl, sums_deliver _ _ _ _⟩

/-- Every command keeps every invariant but the books, whose one premise beyond them is SCAN_CELL_LEAD_EDGE's. -/
theorem sound_exec (c : Instr) (s : State) : ∃ d, exec c s = s.after d ∧ Sound s.dev d := by
  by_cases hc : c = .scanCellLeadEdge
  · subst hc
    exact ⟨_, rfl, (keeps_scanCellLeadEdge s.dev).safe.toSound⟩
  · obtain ⟨d, hd, hs⟩ := sums_exec c s hc
    exact ⟨d, hd, hs.toSound⟩

/-- A step is sound: it runs one command or idles. -/
theorem sound_step (s s' : State) (h : step s = .next s') : Sound s.dev s'.dev := by
  unfold step at h
  split at h
  · cases h
    exact Sound.refl _
  · next c rest _ =>
    obtain ⟨d, hd, hs⟩ := sound_exec c { s with pending := rest }
    rw [hd] at h
    cases h
    exact hs

/-- R1, R115, R117: with the next record number free, a command keeps the books. -/
theorem books_exec (c : Instr) (s : State) (hn : s.dev.numberFree) (hm : s.dev.modal) (hc : s.dev.canonical)
    (hs : s.dev.staging) (hb : s.dev.books) : ∃ d, exec c s = s.after d ∧ d.books := by
  by_cases hlead : c = .scanCellLeadEdge
  · subst hlead
    exact ⟨_, rfl, books_scanCellLeadEdge s.dev hn hb⟩
  · obtain ⟨d, hd, hsums⟩ := sums_exec c s hlead
    exact ⟨d, hd, hsums.books hm hc hs hb⟩
/-- As `books_exec`, for a step. -/
theorem books_step (s s' : State) (hn : s.dev.numberFree) (hm : s.dev.modal) (hc : s.dev.canonical)
    (hs : s.dev.staging) (hb : s.dev.books) (h : step s = .next s') : s'.dev.books := by
  unfold step at h
  split at h
  · cases h
    exact hb
  · next c rest _ =>
    obtain ⟨d, hd, hbooks⟩ := books_exec c { s with pending := rest } hn hm hc hs hb
    rw [hd] at h
    cases h
    exact hbooks

/-- Settles O4: the balance is one of the invariants that every command keeps. -/
theorem everyStepKeepsTheBalance : Obligations.EveryStepKeepsTheBalance := by
  intro s s' hinv h
  exact (sound_step s s' h).balanced hinv

/-- Settles O5: the store is changed only by operations that keep its canonical form. -/
theorem everyStepKeepsTheTableStoreCanonical : Obligations.EveryStepKeepsTheTableStoreCanonical := by
  intro s s' hinv h
  exact (sound_step s s' h).canonical hinv

/-- Settles O6: every queue is lengthened only behind a test of its room. -/
theorem everyStepKeepsTheCapacities : Obligations.EveryStepKeepsTheCapacities := by
  intro s s' hinv h
  exact (sound_step s s' h).bounded hinv

/-- Settles O7: every entry to a mode clears what the mode may not hold. -/
theorem everyStepKeepsTheModeInvariant : Obligations.EveryStepKeepsTheModeInvariant := by
  intro s s' hinv h
  exact (sound_step s s' h).modal hinv

/-- Settles O8: the cursor moves only inside its window; that an open frame began there rests on the mode invariant. -/
theorem everyStepKeepsTheCursorInItsWindow : Obligations.EveryStepKeepsTheCursorInItsWindow := by
  rintro s s' ⟨hmodal, hcursor⟩ h
  have hsound := sound_step s s' h
  exact ⟨hsound.modal hmodal, hsound.cursor hmodal hcursor⟩

/-- Settles O9: both halves are invariants that every command keeps. -/
theorem everyStepKeepsTheClockLegalAndTheHeldRanges : Obligations.EveryStepKeepsTheClockLegalAndTheHeldRanges :=
  ⟨fun s s' hlegal h => (sound_step s s' h).legal hlegal, fun s s' hheld h => (sound_step s s' h).held hheld⟩

/-- Settles O59: staging is kept by every command of a part whose modes hold what they may. -/
theorem everyStepKeepsTheStagedWritesInTheirRoom : Obligations.EveryStepKeepsTheStagedWritesInTheirRoom := by
  rintro s s' ⟨hmodal, hstaging⟩ h
  have hsound := sound_step s s' h
  exact ⟨hsound.modal hmodal, hsound.staging hmodal hstaging⟩

/-- Settles O60: by `books_step`, whose one case beside the summed effects of a command is the admission. -/
theorem everyStepKeepsTheBooks : Obligations.EveryStepKeepsTheBooks := by
  intro s s' hmodal hcanonical hstaging hbooks hfree h
  exact books_step s s' hfree hmodal hcanonical hstaging hbooks h

/-- Settles O1: `step` by its two cases. -/
theorem stepRunsTheFrontCommand : Obligations.StepRunsTheFrontCommand :=
  ⟨fun _ _ _ => rfl, fun _ => rfl⟩

/-- Settles O2: every command's meaning is a change of the device alone. -/
theorem everyCommandAnswersANextState : Obligations.EveryCommandAnswersANextState :=
  exec_after

end Sys2Proof.Machine

/-! PROOFS. The resets and the encoder: the state a reset leaves, and the events an ENC pulse takes before it counts. -/

namespace Sys2Proof.Machine

/-! ## The resets -/

/-- R26: the modes hold nothing right after a reset. -/
theorem modal_reset (inp : Inputs) : (Device.reset inp).modal :=
  modal_of_rest _ (fun h => by cases h) (fun _ => rfl) rfl rfl rfl rfl rfl (fun h => by cases h)

/-- R117, R161: bin 0 is DISABLED and nothing is masked right after a reset. -/
theorem held_reset (inp : Inputs) : (Device.reset inp).held := by
  refine ⟨?_, Nat.zero_le _, ?_⟩
  · show (0 : BitVec 12).getLsbD 0 = false
    decide
  · simp [Device.bin, Device.reset, StackerUnit.reset, Bin.reset]

/-- Settles O3: every queue is empty and every count 0 after a reset. -/
theorem invariantsHoldAtReset : Obligations.InvariantsHoldAtReset := by
  refine ⟨fun inp => ⟨rfl, rfl, ?bounded, modal_reset inp, ?cursor, ?legal, held_reset inp, ?staging, books_reset inp,
    ?free⟩, rfl, rfl⟩
  case bounded =>
    exact ⟨Nat.zero_le _, Nat.zero_le _, fun _ h => (List.not_mem_nil h).elim, Nat.zero_le _, fun h => absurd rfl h⟩
  case cursor => exact fun w hw => by cases hw
  case legal =>
    show DayClock.reset.legal
    decide
  case staging => exact staging_of_empty rfl rfl (fun w hw => by cases hw)
  case free => exact fun r hr => (List.not_mem_nil hr).elim

/-- R196: the cells that do not reset to 0 are fields 1, 6 and 7 of Settings. -/
theorem cellReset_cellKey (t r f : Nat) (hr : r < 512) (hf : f < 32) :
    cellReset (cellKey t r f) = if t = 0 ∧ r = 0 ∧ f = 1 then 1 else if t = 0 ∧ r = 0 ∧ f = 6 then 48
      else if t = 0 ∧ r = 0 ∧ f = 7 then 64 else 0 := by
  have hkey : ∀ g, g < 32 → (cellKey t r f = cellKey 0 0 g ↔ t = 0 ∧ r = 0 ∧ f = g) := fun g hg =>
    cellKey_inj t r f 0 0 g hr hf (by omega) hg
  simp only [cellReset, hkey 1 (by omega), hkey 6 (by omega), hkey 7 (by omega)]

/-- R80, R82, R101: a line reset keeps the cells of tables 9 to 12 alone. -/
theorem cell_lineReset (d : Device) (t r f : Nat) (hr : r < 512) (hf : f < 32) :
    (lineReset d).cell t r f = if 9 ≤ t then d.cell t r f else cellReset (cellKey t r f) := by
  have hkept : keptByLineReset (cellKey t r f, 0) = decide (9 ≤ t) :=
    decide_eq_decide.2 (by unfold cellKey; omega)
  show storeGet (d.tables.filter keptByLineReset) (cellKey t r f) = _
  rw [storeGet_filter keptByLineReset (fun _ _ _ => rfl), hkept]
  simp only [decide_eq_true_eq]
  rfl

/-- R130: the bins after a power-on or line reset, their switches at the levels of their lines. -/
theorem stackerReset_bin (levels : Vector Bool 16) (k : Fin 16) :
    (StackerUnit.reset levels).bins[k] = { fill := 0, committed := 0, state := .disabled, held := levels[k] } := by
  simp [StackerUnit.reset, Bin.reset]

/-- R119: no GATE line is asserted after a reset. -/
theorem stackerReset_gate (levels : Vector Bool 16) (k : Fin 16) : (StackerUnit.reset levels).gates[k] = none := by
  simp [StackerUnit.reset]

/-- R14, R18, R26: after a reset no gate is in service, no cell is occupied and no jam timed. -/
theorem trackReset_cells : (∀ k : Fin 16, TrackUnit.reset.inService[k] = false) ∧
    ∀ row : Fin 21, TrackUnit.reset.occupants[row] = .nobody ∧ TrackUnit.reset.jam[row] = none := by
  simp [TrackUnit.reset]

/-- R146: every period counter is 0 after a reset. -/
theorem tallyReset_counter (i : Fin 56) : TallyUnit.reset.counters[i] = 0 := by
  simp [TallyUnit.reset]

/-- R158: no cause stands after a reset. -/
theorem attentionReset_cause (c : Cause) :
    AttentionUnit.reset.latch c = none ∧ AttentionUnit.reset.condition c = .inactive := by
  cases c <;> exact ⟨rfl, rfl⟩

/-- Settles O10: block by block, the cells by `cellReset_cellKey`. -/
theorem powerOnResetValues : Obligations.PowerOnResetValues := by
  intro s
  refine ⟨powerOnReset s.dev, rfl, rfl, rfl, rfl, rfl, rfl, rfl, rfl, trackReset_cells.1, trackReset_cells.2, rfl, rfl,
    ?gates, fun t r f hr hf => cellReset_cellKey t r f hr hf, rfl, rfl, rfl, rfl, rfl, rfl, rfl, rfl, rfl, rfl, rfl,
    rfl, rfl, rfl, rfl, stackerReset_bin _, tallyReset_counter, rfl, rfl, rfl, rfl, rfl, rfl, rfl, rfl, rfl, rfl, rfl,
    rfl, attentionReset_cause, rfl⟩
  intro k
  exact congrArg Option.isSome (stackerReset_gate s.dev.inputs.binOut k)

/-- Settles O11: the line reset block by block as the power-on reset, and its release by the level of RESET. -/
theorem lineResetAndItsRelease : Obligations.LineResetAndItsRelease := by
  constructor
  · intro s
    refine ⟨lineReset s.dev, rfl, rfl, rfl, rfl, rfl, rfl, rfl, rfl, trackReset_cells.1, trackReset_cells.2, rfl, rfl,
      ?gates, ?cells, rfl, rfl, rfl, rfl, rfl, rfl, rfl, rfl, rfl, rfl, rfl, rfl, rfl, rfl, rfl, stackerReset_bin _,
      tallyReset_counter, rfl, rfl, rfl, rfl, rfl, rfl, rfl, rfl, rfl, rfl, rfl, rfl, attentionReset_cause, rfl⟩
    case gates => exact fun k => congrArg Option.isSome (stackerReset_gate s.dev.inputs.binOut k)
    case cells =>
      intro t r f hr hf
      rw [cell_lineReset s.dev t r f hr hf, cellReset_cellKey t r f hr hf]
  · intro s
    have hexec : exec .resetRelease s = s.after (resetRelease s.dev) := rfl
    constructor
    · intro hasserted
      refine ⟨_, hexec, ?_, fun k => ?_⟩
      · rw [resetRelease, if_pos hasserted]
      · rw [resetRelease, if_pos hasserted]
        simp [Device.bin]
    · intro hreleased
      rw [hexec, resetRelease, if_neg (by simp [hreleased])]

/-! ## The ENC pulse -/

/-- The row of the opcode table that is the event an ENC pulse may find due. -/
def DueEvent.row : DueEvent → Instr
  | .columnDue => .printColumnDue
  | .endOfCheckSpan n => .endOfCheckSpan n
  | .printStart n => .printStart n
  | .deadline n => .deadline n
  | .windowExpiry n st => .windowExpiry n st
  | .gapMet => .gapMet
  | .applyPoint => .applyPoint
  | .classifierTake => .classifierTake
  | .buildBegin => .buildBegin
  | .jamExpiry row => .jamExpiry row

/-- An event's row is the event taken. -/
theorem exec_row (e : DueEvent) (s : State) : exec e.row s = s.after (takeEvent s.dev e) := by
  cases e <;> rfl

/-- The rows of a list of events, run in order, are the events taken in order. -/
theorem run_rows (events : List DueEvent) (s : State) :
    s.run (events.map DueEvent.row) = { s with dev := events.foldl takeEvent s.dev } := by
  induction events generalizing s with
  | nil => rfl
  | cons e events ih =>
    rw [List.map_cons, State.run, exec_row]
    exact ih _

/-- R10: where no event of the list has come, taking them all changes nothing. -/
theorem foldl_takeEvent_none (d : Device) (events : List DueEvent) (h : ∀ e ∈ events, takeEvent d e = d) :
    events.foldl takeEvent d = d := by
  induction events with
  | nil => rfl
  | cons e events ih =>
    rw [List.foldl_cons, h e List.mem_cons_self]
    exact ih fun e' he' => h e' (List.mem_cons_of_mem e he')

/-- Settles O12: the rows of the statement are those of `Device.candidates`, which the pulse takes. -/
theorem encPulseAdvancesTheEncoder : Obligations.EncPulseAdvancesTheEncoder := by
  intro s numbers stations rows due
  have hrows : rows = s.dev.candidates.map DueEvent.row := by
    simp [rows, numbers, stations, Device.candidates, allStations, DueEvent.row, List.map_flatMap, Function.comp_def]
  have hdue : due = takeDue s.dev := by
    show (s.run rows).dev = _
    rw [hrows, run_rows]
    rfl
  have hexec : exec .encPulse s = s.after (advance (takeDue s.dev)) := rfl
  refine ⟨?_, ?_, ?_, ?_⟩
  · rw [hexec, hdue]
    rfl
  · intro hnone
    have htake : takeDue s.dev = s.dev := by
      refine foldl_takeEvent_none s.dev _ fun e he => ?_
      have h := hnone e.row (hrows ▸ List.mem_map_of_mem he)
      rw [exec_row] at h
      exact congrArg State.dev (Host.Outcome.next.inj h)
    rw [hexec, htake]
    rfl
  · refine ⟨_, hexec, ?_⟩
    rw [← (safe_takeDue s.dev).encoder]
    rfl
  · intro hidle
    rw [hexec, takeDue_inactive s.dev hidle]
    rfl

end Sys2Proof.Machine

/-! PROOFS. SCAN-CELL (R2 to R6): the lead edge and the trailing edge. -/

namespace Sys2Proof.Machine

/-- R147: RUN and DRAIN are the active modes. -/
theorem mode_of_active (d : Device) (h : d.active = true) : d.line.mode = .run ∨ d.line.mode = .drain := by
  unfold Device.active at h
  cases hm : d.line.mode with
  | run => exact .inl rfl
  | drain => exact .inr rfl
  | idle => rw [hm] at h; cases h
  | halted => rw [hm] at h; cases h

/-- R4, R5: in RUN and DRAIN the lead edge starts the jam timing and closes the gap; room in the Tracking Queue decides
whether the letter is admitted. -/
theorem scanCellLeadEdge_active (d : Device) (hreset : d.inputs.resetLine = false) (hactive : d.active = true) :
    scanCellLeadEdge d =
      let e := setGap (startJam (d.cellLevel 0 true) 0) .closed
      if d.track.queue.length < 24 then admitItem e else occur (leaveUntracked e) (.queueFull d.track.encoder) := by
  have hreset' : (setBlocked d 0 true).inputs.resetLine = false := hreset
  unfold scanCellLeadEdge
  simp only [hreset', Bool.false_eq_true, if_false]
  rcases mode_of_active d hactive with hm | hm <;> simp only [setBlocked_line, hm] <;> rfl

/-- Settles O13: by the mode; in RUN and DRAIN by the room in the Tracking Queue. -/
theorem scanLeadEdge : Obligations.ScanLeadEdge := by
  refine ⟨fun s => ?_, fun _ _ => rfl⟩
  intro d e
  have hexec : exec .scanCellLeadEdge s = s.after (scanCellLeadEdge d) := rfl
  refine ⟨fun hreset hactive hroom => ?_, fun hreset hactive hfull => ?_, fun hreset hidle => ?_, fun hignored => ?_⟩
  · rw [hexec, scanCellLeadEdge_active d hreset hactive, if_pos hroom]
    rfl
  · rw [hexec, scanCellLeadEdge_active d hreset hactive, if_neg hfull]
    rfl
  · have hreset' : (setBlocked d 0 true).inputs.resetLine = false := hreset
    rw [hexec]
    unfold scanCellLeadEdge
    simp only [hreset', Bool.false_eq_true, if_false, setBlocked_line, hidle]
    rfl
  · rw [hexec]
    unfold scanCellLeadEdge
    rcases hignored with hreset | hhalted
    · have hreset' : (setBlocked d 0 true).inputs.resetLine = true := hreset
      rw [if_pos hreset']
      rfl
    · simp only [setBlocked_line, hhalted, ite_self]
      rfl

/-- R6: the occupant of SCAN-CELL, where it is a record, gets its length. -/
theorem writeLength_eq (d : Device) : writeLength d =
    { d with track := { d.track with queue := d.track.queue.map (fun r =>
        if d.track.occupants[(0 : Fin 21)] = .record r.number then { r with length := some (d.track.encoder - r.lead) }
        else r) } } := by
  unfold writeLength
  cases ho : d.track.occupants[(0 : Fin 21)] with
  | record n =>
    simp only [Occupant.record.injEq, eq_comm (a := n)]
    rfl
  | nobody | untracked | stray => simp

/-- R191, R192: a gap opened now is met at once by a distance of 0, and the apply point is then tested. -/
theorem gapMet_opened_now (d : Device) (hactive : d.active = true) :
    gapMet (setGap d (.opened d.track.encoder)) =
      if d.gapDistance = 0 then applyPoint (setGap d .met) else setGap d (.opened d.track.encoder) := by
  rw [gapMet, gapCheck_setGap d _ rfl hactive]
  split
  · rfl
  · exact applyPoint_of_not _ (by simp [Device.applyReady, setGap])

/-- R6, R191: in RUN and DRAIN the trailing edge writes the length, vacates the cell and opens the gap. -/
theorem scanCellTrailingEdge_active (d : Device) (hreset : d.inputs.resetLine = false) (hactive : d.active = true) :
    scanCellTrailingEdge d =
      gapMet (setGap (vacate (writeLength (d.cellLevel 0 false)) 0) (.opened d.track.encoder)) := by
  have hreset' : (setBlocked d 0 false).inputs.resetLine = false := hreset
  unfold scanCellTrailingEdge
  simp only [hreset', Bool.false_eq_true, if_false]
  rcases mode_of_active d hactive with hm | hm <;> simp only [setBlocked_line, hm] <;> rfl

/-- Settles O14: by the mode; in RUN and DRAIN the gap is met at once by a distance of 0. -/
theorem scanTrailingEdge : Obligations.ScanTrailingEdge := by
  intro s d e
  have hexec : exec .scanCellTrailingEdge s = s.after (scanCellTrailingEdge d) := rfl
  refine ⟨fun hreset hactive => ?_, fun hreset hidle => ?_, fun hignored => ?_, fun _ _ => rfl⟩
  · intro x
    have hx : x = { vacate (writeLength e) 0 with
        window := { d.window with gap := if d.gapDistance = 0 then .met else .opened d.track.encoder } } := by
      rw [writeLength_eq]
      rfl
    have hencoder : (vacate (writeLength e) 0).track.encoder = d.track.encoder := by
      rw [writeLength_eq]
      rfl
    have hline : (vacate (writeLength e) 0).active = true := by
      rw [writeLength_eq]
      exact hactive
    have hgap : (vacate (writeLength e) 0).gapDistance = d.gapDistance := by
      rw [writeLength_eq]
      rfl
    have hwindow : (vacate (writeLength e) 0).window = d.window := by
      rw [writeLength_eq]
      rfl
    rw [hexec, scanCellTrailingEdge_active d hreset hactive, ← hencoder, gapMet_opened_now _ hline, hgap, hx]
    congr 1
    split <;> simp only [setGap, hwindow, hencoder]
  · have hreset' : (setBlocked d 0 false).inputs.resetLine = false := hreset
    rw [hexec]
    unfold scanCellTrailingEdge
    simp only [hreset', Bool.false_eq_true, if_false, setBlocked_line, hidle]
    rfl
  · rw [hexec]
    unfold scanCellTrailingEdge
    rcases hignored with hreset | hhalted
    · have hreset' : (setBlocked d 0 false).inputs.resetLine = true := hreset
      rw [if_pos hreset']
      rfl
    · simp only [setBlocked_line, hhalted, ite_self]
      rfl

end Sys2Proof.Machine

/-! PROOFS. The stations (R11 to R23): the lead edge that is a STRAY, ignored or SEEN, and the trailing edge. -/

namespace Sys2Proof.Machine

/-! ## What a station expects (R13, R14) -/

/-- R2: a record was SEEN at a station where one of its entries says so. -/
theorem ItemRecord.seenAt_iff (r : ItemRecord) (st : Station) : r.seenAt st = true ↔ ∃ e ∈ r.seen, e.station = st := by
  simp [ItemRecord.seenAt]

/-- R14: only the cell of a gate out of service is not watched. -/
theorem watched_iff (d : Device) (st : Station) :
    d.watched st = true ↔ ∀ k : Fin 16, st = .gate k → d.track.inService[k] = true := by
  cases st with
  | gate k =>
    refine ⟨fun h j hj => ?_, fun h => h k rfl⟩
    cases hj
    exact h
  | twist | turn | cancel | exit => exact iff_of_true rfl (fun _ h => nomatch h)

/-- R13: at TWIST, TURN and CANCEL a record is due until it is SEEN there. -/
theorem due_before_gates (d : Device) (r : ItemRecord) (st : Station) (h : st = .twist ∨ st = .turn ∨ st = .cancel) :
    d.due r st = true ↔ ¬ ∃ e ∈ r.seen, e.station = st := by
  rw [← r.seenAt_iff st]
  rcases h with rfl | rfl | rfl <;> simp [Device.due]

/-- R13: where a record is due at a gate, with log 30's reading of a routed gate that is not in service. -/
theorem due_gate (d : Device) (r : ItemRecord) (k : Fin 16) :
    d.due r (.gate k) = true ↔ d.track.inService[k] = true ∧ (¬ ∃ e ∈ r.seen, e.station = .gate k) ∧
      ∀ t, r.route = some t → d.num 7 (5 + k.val) 0 ≤ d.num 7 (5 + t.bin.val) 0 ∧
        (¬ ∃ e ∈ r.seen, e.station = .gate t.bin) ∧ d.track.inService[t.bin] = true := by
  simp only [← r.seenAt_iff]
  unfold Device.due Device.stationOffset
  cases r.route <;> simp [and_assoc]

/-- R13: the record expected is the first of the queue that is due. -/
theorem firstDue_eq_some_iff (d : Device) (st : Station) (r : ItemRecord) :
    d.firstDue st = some r ↔ ∃ before after, d.track.queue = before ++ r :: after ∧ d.due r st = true ∧
      ∀ q ∈ before, d.due q st = false := by
  unfold Device.firstDue
  rw [List.find?_eq_some_iff_append]
  constructor
  · rintro ⟨hdue, before, after, hqueue, hbefore⟩
    exact ⟨before, after, hqueue, hdue, fun q hq => by simpa using hbefore q hq⟩
  · rintro ⟨before, after, hqueue, hdue, hbefore⟩
    exact ⟨hdue, before, after, hqueue, fun q hq => by simpa using hbefore q hq⟩

/-! ## The lead edge (R15) -/

/-- R15, first two cases: an edge before the window of the record expected, or with none expected, is a STRAY. -/
theorem matchEdge_stray (fuel : Nat) (d : Device) (st : Station) (h : ∀ r, d.firstDue st = some r →
    atOrAfter d.track.encoder (d.expected r st - counts (d.halfWidth (stationRow st).val)) = false) :
    matchEdge (fuel + 1) d st = strayEdge d st := by
  unfold matchEdge
  cases hdue : d.firstDue st with
  | none => rfl
  | some r => simp only [h r hdue, if_true]

/-- R15, third case: an edge within the window of the record expected is a SEEN. -/
theorem matchEdge_seen (fuel : Nat) (d : Device) (st : Station) (r : ItemRecord) (hdue : d.firstDue st = some r)
    (hopen : atOrAfter d.track.encoder (d.expected r st - counts (d.halfWidth (stationRow st).val)) = true)
    (hnot : atOrAfter (d.expected r st + counts (d.halfWidth (stationRow st).val)) d.track.encoder = true) :
    matchEdge (fuel + 1) d st = seeRecord d st r := by
  unfold matchEdge
  simp only [hdue, hopen, hnot, Bool.true_eq_false, if_false, if_true]

/-- R14, R15: an edge that is not matched changes the cell's level alone. -/
theorem stationEdges_ignored (d : Device) (st : Station) (h : ¬ d.matching st) :
    stationLeadEdge st d = d.cellLevel (stationRow st) true ∧
      stationTrailingEdge st d = d.cellLevel (stationRow st) false :=
  ⟨if_neg h, if_neg h⟩

/-- R15: a matched lead edge, the tests at its end told from the part before the edge. -/
theorem exec_leadEdge (s : State) (st : Station) (h : s.dev.matching st) : exec (.stationLeadEdge st) s =
    s.after (afterRemovals s.dev (matchEdge (s.dev.track.queue.length + 1)
      (startJam (s.dev.cellLevel (stationRow st) true) (stationRow st)) st)) :=
  congrArg s.after (stationLeadEdge_matching s.dev st h)

/-- Settles O15: the edge by R15's cases, the records lost in turn by `matchEdge_lost`, and R13, R14 for what is due and
watched. -/
theorem stationEdgesStrayOrIgnored : Obligations.StationEdgesStrayOrIgnored := by
  refine ⟨fun _ _ => rfl, fun st s => ?_⟩
  intro d row
  refine ⟨fun hmatching hearly => ?_, fun h => ?_, fun h => ?_, fun lost y hmatching hlost => ?_, watched_iff d st, rfl,
    fun r => ⟨rfl, due_before_gates d r st, ?_, ?_, firstDue_eq_some_iff d st r⟩⟩
  · rw [exec_leadEdge s st hmatching,
      matchEdge_stray d.track.queue.length (startJam (d.cellLevel row true) row) st hearly,
      afterRemovals_still d (strayEdge (startJam (d.cellLevel row true) row) st) rfl rfl rfl]
    rfl
  · exact congrArg s.after (stationEdges_ignored d st h).1
  · exact congrArg s.after (stationEdges_ignored d st h).2
  · obtain ⟨fuel, hrest, hencoder⟩ := matchEdge_lost st lost _ _ y hlost (Nat.le_refl _)
    have hexec : exec (.stationLeadEdge st) s = s.after (afterRemovals d (matchEdge (fuel + 1) y st)) :=
      (exec_leadEdge s st hmatching).trans (congrArg (fun e => s.after (afterRemovals d e)) hrest)
    have hencoder : y.track.encoder = d.track.encoder := hencoder
    rw [hexec, ← hencoder]
    refine ⟨fun hearly => ?_, fun r hdue hopen hnot => ?_⟩
    · rw [matchEdge_stray fuel y st hearly]
      rfl
    · rw [matchEdge_seen fuel y st r hdue hopen hnot]
  · rintro rfl
    simp [Device.due]
  · rintro k rfl
    exact due_gate d r k

/-! ## SEEN at TWIST, TURN, a gate, EXIT and CANCEL (R15, R19, R21, R23, R119) -/

/-- R19: an order is taken by a DECIDED record whose plan asks for the action. -/
theorem facingOrder_eq (r : ItemRecord) (wanted : FacingPlan → Bool) :
    facingOrder r wanted = true ↔ r.state = .decided ∧ r.plan.any wanted = true := by
  unfold facingOrder
  cases r.state <;> cases r.plan <;> simp

/-- R15: the part once the record is SEEN and occupies the cell, before the station acts. -/
def seenPart (d : Device) (st : Station) (r : ItemRecord) : Device :=
  { d.cellLevel (stationRow st) true with
    track := { d.track with
      queue := seenNow st d.track.encoder r.number id d.track.queue
      occupants := upd d.track.occupants (stationRow st) (.record r.number)
      jam := upd d.track.jam (stationRow st) (d.jamFrom (stationRow st)) } }

/-- R15: a lead edge at which the record `r` is SEEN: the station acts, and what a removal calls for is tested. -/
theorem exec_leadEdge_sees (s : State) (st : Station) (r : ItemRecord) (h : s.dev.sees st r) :
    exec (.stationLeadEdge st) s =
      s.after (afterRemovals s.dev (stationSeen (seenPart s.dev st r) st r s.dev.track.encoder)) :=
  congrArg s.after (stationLeadEdge_sees s.dev st r h)

/-- R15: where the station's action takes no record and no work from the part, the step ends with the action. -/
theorem exec_leadEdge_seen (s : State) (st : Station) (r : ItemRecord) (e : Device) (h : s.dev.sees st r)
    (haction : stationSeen (seenPart s.dev st r) st r s.dev.track.encoder = e)
    (hqueue : e.track.queue.isEmpty = (seenPart s.dev st r).track.queue.isEmpty)
    (hbusy : e.classifier = s.dev.classifier) (hbuilder : e.imprint = s.dev.imprint) :
    exec (.stationLeadEdge st) s = s.after e := by
  have hqueue' : e.track.queue.isEmpty = s.dev.track.queue.isEmpty := by
    rw [hqueue]
    exact List.isEmpty_map
  rw [exec_leadEdge_sees s st r h, haction,
    afterRemovals_still s.dev e hqueue' (congrArg _ hbusy) (congrArg _ hbuilder)]

/-- R15: what the station writes into the record seen comes with its SEEN. -/
theorem seenPart_modify (d : Device) (st : Station) (r : ItemRecord) (f : ItemRecord → ItemRecord) :
    (seenPart d st r).modify r.number f = { seenPart d st r with
      track := { (seenPart d st r).track with queue := seenNow st d.track.encoder r.number f d.track.queue } } := by
  have hrecord : (fun q : ItemRecord => if q.number = r.number then f q else q) ∘
      (fun q => if q.number = r.number then id { q with seen := { station := st, pos := d.track.encoder } :: q.seen }
        else q) = fun q => if q.number = r.number then
          f { q with seen := { station := st, pos := d.track.encoder } :: q.seen } else q := by
    funext q
    by_cases h : q.number = r.number <;> simp [h]
  unfold Device.modify seenPart
  simp only [List.map_map, hrecord]

/-- R23, R119: at its routed gate a record is marked and takes the gate's order; at another it is only SEEN. -/
theorem stationSeen_gate (d : Device) (k : Fin 16) (r : ItemRecord) (p : Pos) :
    stationSeen d (.gate k) r p = if r.route.map Route.bin = some k then
      assertGate (d.modify r.number (fun r => { r with gateSeen := true })) k r.number else d := by
  unfold stationSeen
  cases r.route with
  | none => rfl
  | some t => simp only [Option.map_some, Option.some.injEq]

/-- Settles O16: what each station does at a SEEN. -/
theorem facingGateAndExitSeen : Obligations.FacingGateAndExitSeen := by
  refine ⟨fun s r => ?_, fun s r k => ?_⟩
  · intro d
    refine ⟨fun hsees => ?_, fun hsees => ?_⟩
    · refine exec_leadEdge_seen s .twist r _ hsees ?_ rfl rfl rfl
      simp only [stationSeen, facingOrder_eq]
      split <;> rfl
    · refine exec_leadEdge_seen s .turn r _ hsees ?_ rfl rfl rfl
      simp only [stationSeen, facingOrder_eq]
      split <;> rfl
  · intro d row x
    refine ⟨fun hsees hrouted => ?_, fun hsees hother => ?_, fun hsees => ?_⟩
    · refine exec_leadEdge_seen s (.gate k) r _ hsees ?_ ?_ rfl rfl
      · rw [stationSeen_gate, if_pos hrouted, seenPart_modify]
        rfl
      · simp [seenPart, d]
    · refine exec_leadEdge_seen s (.gate k) r _ hsees ?_ rfl rfl rfl
      rw [stationSeen_gate, if_neg hother]
      rfl
    · exact exec_leadEdge_sees s .exit r hsees

/-- R71: the check CANCEL SEEN opens, by the group of the plan. -/
theorem openCheckFor_eq (d : Device) (r : ItemRecord) : d.openCheckFor r =
    match r.plan, r.chosen with
    | some plan, some mark =>
      if mark.lum = .none then none
      else if plan.group = .lead then some { sensor := .lead, assertedSeen := d.inputs.fchkL }
      else some { sensor := .trail, assertedSeen := d.inputs.fchkT }
    | _, _ => none := by
  unfold Device.openCheckFor
  rcases r.plan with _ | ⟨twist, turn, group⟩ <;> rcases r.chosen with _ | mark <;> try rfl
  cases group <;> rfl

/-! ## The apply point tested twice in one step (R192) -/

/-- R193: the apply point leaves no complete group, and so does not stand behind itself. -/
theorem applyPoint_not_ready (d : Device) : (applyPoint d).applyReady = false := by
  unfold applyPoint
  split
  · have hgroups := (applied_applyWrites { d with window := { d.window with groups := [] } }
      d.window.groups.flatten).groups
    simp [Device.applyReady, hgroups]
  · next hnot => simpa using hnot

/-- R192: the apply point stands in `e` only where it stood in `d`: what has been freed since has been tested. -/
def Tested (d e : Device) : Prop := e.applyReady = true → d.applyReady = true

theorem Tested.trans {a b c : Device} (h : Tested a b) (k : Tested b c) : Tested a c := fun hc => h (k hc)

/-- R192: a part tested already is not changed by the test at the end of the step. -/
theorem Tested.applyIfFreed_eq {d e : Device} (h : Tested d e) : applyIfFreed d e = e := by
  unfold applyIfFreed
  split
  · next hfreed =>
    refine applyPoint_of_not e ?_
    cases hready : e.applyReady with
    | false => rfl
    | true =>
      have hd := h hready
      simp only [Device.applyReady, Bool.and_eq_true, Option.isNone_iff_eq_none] at hd
      simp [hd] at hfreed
  · rfl

/-- R192: a test after changes that touch neither the groups, the gap nor the mode leaves the part tested. -/
theorem tested_applyIfFreed (d x : Device) (h : OnlyRecords d x) : Tested d (applyIfFreed d x) := by
  intro hready
  unfold applyIfFreed at hready
  split at hready
  · rw [applyPoint_not_ready] at hready
    cases hready
  · next hkept =>
    simp only [Device.applyReady, Device.active, h.line, h.window, h.classifier, Bool.and_eq_true] at hready ⊢
    have hbuilder : ¬ d.imprint.builder.isSome = true := fun h => hkept (by simp [h, hready.2])
    exact ⟨hready.1, by simpa using hbuilder⟩

/-- R94: a print start event rewrites records and the Imprint Unit, and ends with the test. -/
theorem tested_takePrintStart (d : Device) (r : ItemRecord) (p : Pos) (h : d.find r.number = some r) :
    Tested d (takePrintStart d r p) := by
  have hcleared := find_modify_some (f := fun r => { r with printStart := none }) (fun _ => rfl) h
  obtain ⟨_, hended, honly₁, hnone, -⟩ := preemptPrint_spec _ _ _ hcleared
  obtain ⟨_, hdecided, honly₂, -⟩ := printDecision_spec _ _ _ p r.imprint hended hnone
  obtain ⟨_, _, _, _, _, _, honly₃, _⟩ := routePoint_spec _ _ _ hdecided
  refine tested_applyIfFreed d _ ?_
  have honly := (((onlyRecords_modify d r.number _).trans honly₁).trans honly₂).trans honly₃
  exact { honly with
    track := honly.track, inputs := honly.inputs, tables := honly.tables, classifier := honly.classifier
    clock := honly.clock, feed := honly.feed, command := honly.command, window := honly.window
    report := honly.report, line := honly.line, gates := honly.gates, totals := honly.totals }

/-- R94: as `tested_takePrintStart`, where the print start may not have come. -/
theorem tested_startIfDue (n : RecNo) (d : Device) : Tested d (startIfDue n d) := by
  unfold startIfDue
  split
  · exact id
  · next r hfind =>
    split
    · exact tested_takePrintStart d r _ (by rw [find_number d n r hfind]; exact hfind)
    · exact id

/-- R21: the end of a check span rewrites records and the Imprint Unit, and ends with the test. -/
theorem tested_concludeSpan (n : RecNo) (d : Device) : Tested d (concludeSpan n d) := by
  unfold concludeSpan
  split
  · exact id
  · next r hfind =>
    split
    · have hcleared := find_modify_some (f := fun r => { r with checkEnd := none }) (fun _ => rfl) hfind
      obtain ⟨q, hconcluded, _, _, _, _, _, _, _, honly, _⟩ :=
        concludeCheck_spec _ n r _ hcleared rfl (find_number d n r hfind)
      refine tested_applyIfFreed d _ (((onlyRecords_modify d n _).trans honly).trans ?_)
      unfold routeWithoutCancel
      rw [hconcluded]
      simp only
      split
      · obtain ⟨_, _, _, _, _, _, hrouted, _⟩ := routePoint_spec _ _ _ hconcluded
        exact hrouted
      · exact OnlyRecords.refl _
    · exact id

/-- R21: the whole event of the end of a check span has made its tests. -/
theorem tested_endOfCheckSpan (n : RecNo) (d : Device) : Tested d (endOfCheckSpan n d) := by
  unfold endOfCheckSpan
  split
  · exact (tested_concludeSpan n d).trans (tested_startIfDue n _)
  · exact id

/-- R71, R86, R87: what CANCEL SEEN fixes for a record, the record's own absences spelled out. -/
theorem cancelSeen_eq (d : Device) (p : Pos) (q : ItemRecord) : d.cancelSeen p q = { q with
    checkEnd := some (p + counts d.checkSpan)
    openCheck := match q.plan, q.chosen with
      | some plan, some mark =>
        if mark.lum = .none then none
        else if plan.group = .lead then some { sensor := .lead, assertedSeen := d.inputs.fchkL }
        else some { sensor := .trail, assertedSeen := d.inputs.fchkT }
      | _, _ => none
    printStart := q.cancel.map (fun c => d.printStartAt p c.startColumn)
    clip := q.cancel.bind (fun _ => q.length.map (fun len => p + counts d.headOffset + len)) } := by
  unfold Device.cancelSeen
  rw [openCheckFor_eq]
  cases q.cancel <;> cases q.length <;> rfl

/-- Settles O17: CANCEL SEEN writes the record; a check span of 0 ends in the same step, which has then made its tests. -/
theorem cancelStationSeen : Obligations.CancelStationSeen := by
  intro s r d p spanEnd seen hsees
  have hseen : (seenPart d .cancel r).modify r.number ((seenPart d .cancel r).cancelSeen p) = seen := by
    rw [funext (cancelSeen_eq (seenPart d .cancel r) p), seenPart_modify]
    rfl
  have hqueue : seen.track.queue.isEmpty = d.track.queue.isEmpty := List.isEmpty_map
  have haction : stationSeen (seenPart d .cancel r) .cancel r p =
      if d.checkSpan = 0 then endOfCheckSpan r.number seen else seen := by
    unfold stationSeen
    simp only [hseen]
    rfl
  rw [exec_leadEdge_sees s .cancel r hsees, haction]
  by_cases hspan : d.checkSpan = 0
  · rw [if_pos hspan, afterRemovals_same d _ ((endOfCheckSpan_isEmpty r.number seen).trans hqueue)]
    exact congrArg s.after (tested_endOfCheckSpan r.number seen).applyIfFreed_eq
  · rw [if_neg hspan, afterRemovals_still d seen hqueue rfl rfl]

/-! ## The trailing edge (R17, R23, R87) -/

/-- R17: a trailing edge that is matched, the tests at its end told from the part before the edge. -/
theorem exec_trailingEdge (s : State) (st : Station) (h : s.dev.matching st) : exec (.stationTrailingEdge st) s =
    s.after (afterRemovals s.dev
      (vacate (trailOf (s.dev.cellLevel (stationRow st) false) st) (stationRow st))) :=
  congrArg s.after (if_pos h)

/-- R17: where the trailing edge takes no record and no work from the part, the step ends with it. -/
theorem exec_trailingEdge_still (s : State) (st : Station) (e : Device) (h : s.dev.matching st)
    (htrail : trailOf (s.dev.cellLevel (stationRow st) false) st = e)
    (hqueue : e.track.queue.isEmpty = s.dev.track.queue.isEmpty) (hbusy : e.classifier = s.dev.classifier)
    (hbuilder : e.imprint = s.dev.imprint) :
    exec (.stationTrailingEdge st) s = s.after (vacate e (stationRow st)) := by
  rw [exec_trailingEdge s st h, htrail,
    afterRemovals_still s.dev (vacate e (stationRow st)) hqueue (congrArg _ hbusy) (congrArg _ hbuilder)]

/-- R17: the station acts on the trailing edge of a record. -/
theorem trailOf_record (d : Device) (st : Station) (n : RecNo) (h : d.track.occupants[stationRow st] = .record n) :
    trailOf d st = stationTrail d st n := by
  unfold trailOf
  rw [h]

/-- R17: with no record in the cell the station does nothing. -/
theorem trailOf_other (d : Device) (st : Station) (h : ∀ n, d.track.occupants[stationRow st] ≠ .record n) :
    trailOf d st = d := by
  unfold trailOf
  split
  · next n hn => exact absurd hn (h n)
  all_goals rfl

/-- R87: the trailing edge at CANCEL moves the clip position of a record that has intent, never to a later place. -/
theorem clipAtTrail_eq (d : Device) (t : Pos) (r : ItemRecord) : d.clipAtTrail t r =
    if r.cancel.isSome = true ∧ r.clip.all (fun old => !atOrAfter (t + counts d.headOffset) old) = true then
      { r with clip := some (t + counts d.headOffset) }
    else r := by
  unfold Device.clipAtTrail
  cases r.cancel with
  | none => rfl
  | some c =>
    cases r.clip with
    | none => rfl
    | some old => cases h : atOrAfter (t + counts d.headOffset) old <;> simp [h]

/-- R23: at its routed gate, having been SEEN there, the record is stacked. -/
theorem stationTrail_stacks (d : Device) (k : Fin 16) (n : RecNo) (r : ItemRecord) (hfind : d.find n = some r)
    (hroute : r.route.map Route.bin = some k) (hseen : r.gateSeen = true) :
    stationTrail d (.gate k) n = removeRecord d n .stacked := by
  obtain ⟨t, ht, hbin⟩ := Option.map_eq_some_iff.1 hroute
  simp only [stationTrail, hfind, ht, hbin, hseen, and_self, if_true]

/-- R23: at another gate, or with its route fixed too late (log 12), it is left. -/
theorem stationTrail_leaves (d : Device) (k : Fin 16) (n : RecNo) (r : ItemRecord) (hfind : d.find n = some r)
    (h : r.route.map Route.bin ≠ some k ∨ r.gateSeen = false) : stationTrail d (.gate k) n = d := by
  unfold stationTrail
  simp only [hfind]
  split
  · next t ht =>
    refine if_neg ?_
    rintro ⟨hbin, hseen⟩
    rcases h with hother | hunseen
    · exact hother (by rw [ht, Option.map_some, hbin])
    · simp [hunseen] at hseen
  · rfl

/-- Settles O18: what each station does at the trailing edge of its occupant. -/
theorem stationTrailingEdges : Obligations.StationTrailingEdges := by
  intro s d vacant
  refine ⟨fun n hmatching hocc => ?_, fun n hmatching hocc => ?_, fun n hmatching hocc => ?_,
    fun k n r hmatching hocc hfind hroute hseen => ?_, fun k n r hmatching hocc hfind hleft => ?_,
    fun st hmatching hnone => ?_⟩
  · exact exec_trailingEdge_still s .twist _ hmatching (trailOf_record (d.cellLevel 1 false) .twist n hocc) rfl rfl rfl
  · exact exec_trailingEdge_still s .turn _ hmatching (trailOf_record (d.cellLevel 2 false) .turn n hocc) rfl rfl rfl
  · have hrecord : ∀ r : ItemRecord, (if r.number = n then (d.cellLevel 3 false).clipAtTrail d.track.encoder r else r) =
        if r.number = n ∧ r.cancel.isSome = true ∧
          r.clip.all (fun old => !atOrAfter (d.track.encoder + counts d.headOffset) old) = true then
          { r with clip := some (d.track.encoder + counts d.headOffset) }
        else r := by
      intro r
      rw [clipAtTrail_eq]
      by_cases h : r.number = n
      · simp only [h, true_and, if_true]
        rfl
      · simp only [h, false_and, if_false]
    have htrail := congrArg (fun f => { d.cellLevel 3 false with track := { d.track with
      queue := d.track.queue.map f } }) (funext hrecord)
    exact exec_trailingEdge_still s .cancel _ hmatching
      ((trailOf_record (d.cellLevel 3 false) .cancel n hocc).trans htrail) List.isEmpty_map rfl rfl
  · rw [exec_trailingEdge s (.gate k) hmatching, trailOf_record (d.cellLevel _ false) (.gate k) n hocc,
      stationTrail_stacks (d.cellLevel _ false) k n r hfind hroute hseen]
    rfl
  · exact exec_trailingEdge_still s (.gate k) _ hmatching
      ((trailOf_record (d.cellLevel _ false) (.gate k) n hocc).trans
        (stationTrail_leaves (d.cellLevel _ false) k n r hfind hleft)) rfl rfl rfl
  · refine exec_trailingEdge_still s st (d.cellLevel (stationRow st) false) hmatching ?_ rfl rfl rfl
    rcases hnone with hnone | rfl
    · exact trailOf_other (d.cellLevel _ false) st hnone
    · unfold trailOf
      split <;> rfl

end Sys2Proof.Machine

/-! PROOFS. Removal, the deadline and the window expiry, and the entry to HALTED (R8, R16, R18, R22, R151). -/

namespace Sys2Proof.Machine

/-- Settles O19: `removeRecord_form` gives the part a removal leaves, and the conditions are reported as it stands. -/
theorem removalEffects : Obligations.RemovalEffects := by
  refine ⟨rfl, fun d n e r hfind => ?_⟩
  intro d' q batch offered fits one
  obtain ⟨I, B, C, hform, hcounters, hbin, hbins, hring, hbuilder, hprinted, hprinting, hunit, hsame⟩ :=
    removeRecord_form d n e r hfind q rfl batch
      (decide (batch ≠ []) && (decide (d.track.queue.eraseP (fun q => decide (q.number = n)) = []) ||
        decide (d.num 0 0 0 ≠ 0 ∧ max 1 (min 8 (d.num 0 0 1)) ≤ batch.length))) fits _ rfl rfl rfl rfl
  have hd' : d' = _ := hform
  have hoffered : offered = (decide (batch ≠ []) &&
      (decide (d.track.queue.eraseP (fun q => decide (q.number = n)) = []) ||
        decide (d.num 0 0 0 ≠ 0 ∧ max 1 (min 8 (d.num 0 0 1)) ≤ batch.length))) := by
    simp only [offered, hd', reportConditions_track]
  rw [hoffered]
  clear_value d'
  subst hd'
  refine ⟨rfl, rfl, rfl, ?totals, fun i => ?counter, rfl, rfl, itemReport_words q e, hbin, hbins, hring, hbuilder,
    hprinted, hprinting, hunit, hsame, rfl, rfl, rfl, rfl, rfl, rfl, rfl, rfl, rfl, rfl, rfl⟩
  case totals => cases e <;> rfl
  case counter =>
    refine Eq.trans (b := C[i]) rfl ?_
    simpa only [one, decide_eq_true_eq] using hcounters i

/-! ## The deadline and the window expiry (R8, R16) -/

/-- R7: a record waits for its decision until it is DECIDED or LATE. -/
theorem ItemRecord.undecided_iff (r : ItemRecord) : r.undecided = true ↔ r.state ≠ .decided ∧ r.state ≠ .late := by
  unfold ItemRecord.undecided
  cases r.state <;> simp

/-- R46: a classification abandoned leaves the Classifier free of that record and of nothing else. -/
theorem abandonClassification_eq (d : Device) (n : RecNo) : abandonClassification d n =
    { d with classifier := { d.classifier with
        busy := if d.classifier.busy = some n then none else d.classifier.busy } } := by
  unfold abandonClassification
  split <;> rfl

/-- R192: with the builder as it was, the test at the end of a step is that of a Classifier freed. -/
theorem applyIfFreed_classifier (d e : Device) (h : e.imprint.builder = d.imprint.builder) : applyIfFreed d e =
    if d.classifier.busy ≠ none ∧ e.classifier.busy = none then applyPoint e else e := by
  have hbuilder : (d.imprint.builder.isSome && e.imprint.builder.isNone) = false := by
    rw [h]
    cases d.imprint.builder <;> rfl
  unfold applyIfFreed
  rw [hbuilder, Bool.or_false]
  simp only [Bool.and_eq_true, Option.isSome_iff_ne_none, Option.isNone_iff_eq_none]

/-- R8: a deadline that has come for an undecided record. -/
theorem deadline_taken (n : RecNo) (d : Device) (r : ItemRecord) (hfind : d.find n = some r)
    (hdue : d.active = true ∧ d.track.encoder = d.deadlinePos r ∧ r.undecided = true) :
    deadline n d = applyIfFreed d (abandonClassification (d.modify n ItemRecord.makeLate) n) := by
  unfold deadline
  rw [hfind]
  exact if_pos hdue

/-- R8: a deadline that has not come, or of a record decided. -/
theorem deadline_idle (n : RecNo) (d : Device)
    (h : ∀ r, d.find n = some r → ¬ (d.active = true ∧ d.track.encoder = d.deadlinePos r ∧ r.undecided = true)) :
    deadline n d = d := by
  unfold deadline
  split
  · rfl
  · next r hfind => exact if_neg (h r hfind)

/-- R16: an expiry that has come. -/
theorem windowExpiry_taken (n : RecNo) (st : Station) (d : Device) (r : ItemRecord) (hfind : d.find n = some r)
    (hdue : d.active = true ∧ d.due r st = true ∧ d.track.encoder = d.expiry r st) :
    windowExpiry n st d = afterRemovals d (loseRecord d r st) := by
  unfold windowExpiry
  rw [hfind]
  exact if_pos hdue

/-- R16: an expiry that has not come, or of a record no longer due. -/
theorem windowExpiry_idle (n : RecNo) (st : Station) (d : Device)
    (h : ∀ r, d.find n = some r → ¬ (d.active = true ∧ d.due r st = true ∧ d.track.encoder = d.expiry r st)) :
    windowExpiry n st d = d := by
  unfold windowExpiry
  split
  · rfl
  · next r hfind => exact if_neg (h r hfind)

/-- R150, R192: the tests at the end of a step that may have removed records, in their order. -/
theorem afterRemovals_eq (before after : Device) : afterRemovals before after =
    let x := if before.track.queue ≠ [] ∧ after.track.queue = [] ∧ after.line.mode = .drain ∧
        after.inputs.feedHeld = true then completeDrain after else after
    if (before.classifier.busy ≠ none ∧ x.classifier.busy = none) ∨
        (before.imprint.builder ≠ none ∧ x.imprint.builder = none) then applyPoint x else x := by
  have hdrain : (if before.track.queue.isEmpty = false ∧ after.track.queue.isEmpty = true then drainTest after
      else after) = if before.track.queue ≠ [] ∧ after.track.queue = [] ∧ after.line.mode = .drain ∧
        after.inputs.feedHeld = true then completeDrain after else after := by
    simp only [List.isEmpty_iff, List.isEmpty_eq_false_iff, drainTest, Device.drainDone, Bool.and_eq_true,
      decide_eq_true_eq]
    by_cases hbefore : before.track.queue = [] <;> by_cases hafter : after.track.queue = [] <;>
      simp [hbefore, hafter]
  unfold afterRemovals applyIfFreed
  rw [hdrain]
  simp only [Bool.or_eq_true, Bool.and_eq_true, Option.isSome_iff_ne_none, Option.isNone_iff_eq_none]

/-- Settles O20: each event by whether it has come, and the tests at the end of the step by `afterRemovals_eq`. -/
theorem deadlineAndWindowExpiry : Obligations.DeadlineAndWindowExpiry := by
  refine ⟨fun s n => ?_, fun s n st => ?_, afterRemovals_eq⟩
  · intro d
    have hexec : exec (.deadline n) s = s.after (deadline n d) := rfl
    refine ⟨fun r hfind hactive hpos hundecided hontime => ?_, fun hnot => ?_⟩
    · intro x
      have hfreed : (d.classifier.busy ≠ none ∧
          (if d.classifier.busy = some n then none else d.classifier.busy) = none) ↔ d.classifier.busy = some n := by
        by_cases hbusy : d.classifier.busy = some n <;> simp [hbusy]
      have habandon : abandonClassification (d.modify n ItemRecord.makeLate) n = x := abandonClassification_eq _ n
      rw [hexec, deadline_taken n d r hfind ⟨hactive, hpos, r.undecided_iff.2 ⟨hundecided, hontime⟩⟩, habandon,
        applyIfFreed_classifier d x rfl]
      exact congrArg s.after (if_congr hfreed rfl rfl)
    · rw [hexec, deadline_idle n d]
      rintro r hfind ⟨hactive, hpos, hundecided⟩
      have hstate := r.undecided_iff.1 hundecided
      rcases hnot r hfind with h | h | h | h
      · simp [h] at hactive
      · exact h hpos
      · exact hstate.1 h
      · exact hstate.2 h
  · intro d e expiry
    have hexec : exec (.windowExpiry n st) s = s.after (windowExpiry n st d) := rfl
    refine ⟨fun r hfind hactive hdue hpos => ?_, fun hnot => ?_⟩
    · rw [hexec, windowExpiry_taken n st d r hfind ⟨hactive, hdue, hpos⟩]
      unfold loseRecord
      rw [find_number d n r hfind]
      rfl
    · rw [hexec, windowExpiry_idle n st d]
      rintro r hfind ⟨hactive, hdue, hpos⟩
      rcases hnot r hfind with h | h | h
      · simp [h] at hactive
      · simp [h] at hdue
      · exact h hpos

/-! ## The entry to HALTED (R18, R151) -/

/-- R194: the entry to HALTED applies what was staged to the part as `haltedPart_form` gives it. -/
theorem enterHalted_eq (d : Device) : enterHalted d = reportConditions (applyWrites
    (clearPending (setMode (haltImprint (freeClassifier (releaseActuators d))) .halted))
    (d.window.groups.flatten ++ d.openGroup)) := by
  obtain ⟨hopen, hwindow⟩ := haltedPart_window d
  simp only [enterHalted, applyAll, hopen, hwindow]

/-- Settles O21: the jam latched and the line halted; the entry frees every unit before the staged writes are applied. -/
theorem entryToHalted : Obligations.EntryToHalted := by
  refine ⟨fun s row => ?_, fun d => ?_⟩
  · intro d
    have hexec : exec (.jamExpiry row) s = s.after (jamExpiry row d) := rfl
    refine ⟨fun hactive hjam hblocked => ?_, fun hnot => ?_⟩
    · rw [hexec, jamExpiry, if_pos ⟨hactive, hjam, hblocked⟩]
      unfold occur Occupant.recordNumber
      cases d.track.occupants[row] <;> rfl
    · rw [hexec, jamExpiry, if_neg]
      rintro ⟨hactive, hjam, hblocked⟩
      rcases hnot with h | h | h
      · simp [h] at hactive
      · exact h hjam
      · simp [h] at hblocked
  · intro d' printing staged h
    have hpart : clearPending (setMode (haltImprint (freeClassifier (releaseActuators d))) .halted) = h :=
      haltedPart_form d
    have happlied := applied_enterHalted d
    rw [hpart] at happlied
    have hd' : d' = reportConditions (applyWrites h staged) := by
      show enterHalted d = _
      rw [enterHalted_eq, hpart]
    have hopen : d'.openGroup = [] := by
      have hstaged := clearPending_spec (setMode (haltImprint (freeClassifier (releaseActuators d))) .halted)
      rw [hpart] at hstaged
      unfold Device.openGroup
      rw [happlied.command]
      exact hstaged.2.1
    refine ⟨happlied.mode, ?stop, ?twist, ?turn, fun k => ?gate, happlied.classifier, happlied.groups, hopen,
      happlied.track, happlied.imprint, happlied.gates, happlied.command, happlied.inputs, happlied.clock,
      happlied.feed, happlied.totals, happlied.period, happlied.selection, happlied.latch, happlied.mask, ?taken⟩
    case stop => exact decide_eq_true happlied.mode
    case twist => exact congrArg (fun t : TrackUnit => t.twist.isSome) happlied.track
    case turn => exact congrArg (fun t : TrackUnit => t.turn.isSome) happlied.track
    case gate =>
      have hgates : d'.stacker.gates = Vector.replicate 16 none := happlied.gates
      unfold Device.gateLine
      rw [hgates]
      simp
    case taken =>
      intro hcanonical hstaged
      have hentry := takesWrites_entry staged h hcanonical hstaged
      rw [hd']
      exact hentry

end Sys2Proof.Machine

/-! PROOFS. The end of the check span, the bin choice and the face-check sensors (R21, R72 to R76, R111 to R115), and the
print start (R94, R96). -/

namespace Sys2Proof.Machine

/-! ## The end of the check span (R21) -/

/-- R2: rewriting records leaves the encoder. -/
theorem OnlyRecords.encoder {d d' : Device} (h : OnlyRecords d d') : d'.track.encoder = d.track.encoder := by
  rw [h.track]

/-- R113: the route point of a tracked record, `t` being its route after it. -/
theorem routePoint_total (d : Device) (n : RecNo) (q : ItemRecord) (h : d.find n = some q) :
    ∃ t, let e := routePoint d n
      e.find n = some { q with route := t } ∧ d.takesRoutePoint e q.route { q with route := t } ∧
      e.attention = (if t = q.route then d.attention else d.attention.reported e) ∧
      (∀ m, m ≠ n → e.find m = d.find m) ∧ OnlyRecords d e ∧ e.tally = d.tally ∧ e.imprint = d.imprint := by
  obtain ⟨r', hfind, hr', -, -, hothers, honly, htally, himprint, -⟩ := routePoint_spec d n q h
  obtain ⟨r'', hfind', -, htakes, hattention⟩ := routePoint_takes d n q h
  obtain rfl : r'' = r' := Option.some.inj (hfind'.symm.trans hfind)
  rw [hr'] at hfind htakes
  exact ⟨r''.route, hfind, htakes, hattention, hothers, honly, htally, himprint⟩

/-- R21: the route point that follows the check: `t` is the record's route after it. -/
theorem routeWithoutCancel_spec (d : Device) (n : RecNo) (q : ItemRecord) (h : d.find n = some q) :
    ∃ t, let e := routeWithoutCancel d n
      e.find n = some { q with route := t } ∧
      (q.cancel.isSome = true → t = q.route ∧ e.stacker = d.stacker) ∧
      (q.cancel = none → d.takesRoutePoint e q.route { q with route := t }) ∧
      e.attention = (if t = q.route then d.attention else d.attention.reported e) ∧
      (∀ m, m ≠ n → e.find m = d.find m) ∧ OnlyRecords d e ∧ e.tally = d.tally ∧ e.imprint = d.imprint := by
  have heq : routeWithoutCancel d n = if q.cancel = none then routePoint d n else d := by
    unfold routeWithoutCancel
    rw [h]
  by_cases hcancel : q.cancel = none
  · rw [heq, if_pos hcancel]
    obtain ⟨t, hfind, htakes, hattention, hrest⟩ := routePoint_total d n q h
    exact ⟨t, hfind, fun hsome => by simp [hcancel] at hsome, fun _ => htakes, hattention, hrest⟩
  · rw [heq, if_neg hcancel]
    exact ⟨q.route, h, fun _ => ⟨rfl, rfl⟩, fun hnone => absurd hnone hcancel, (if_pos rfl).symm, fun _ _ => rfl,
      OnlyRecords.refl d, rfl, rfl⟩

/-- R21: the two steps of the end of a check span that has come, with the test of a build abandoned (R192). -/
theorem concludeSpan_due (n : RecNo) (d : Device) (r : ItemRecord) (hfind : d.find n = some r)
    (hactive : d.active = true) (hend : r.checkEnd = some d.track.encoder) : concludeSpan n d =
      applyIfFreed d
        (routeWithoutCancel (concludeCheck (d.modify n (fun r => { r with checkEnd := none })) r) n) := by
  unfold concludeSpan
  rw [hfind]
  exact if_pos ⟨hactive, hend⟩

/-- R10: the end of the check span has come in RUN and DRAIN at the position recorded. -/
theorem spanEnds_eq (d : Device) (n : RecNo) (r : ItemRecord) (hfind : d.find n = some r) :
    d.spanEnds n = (d.active && decide (r.checkEnd = some d.track.encoder)) := by
  unfold Device.spanEnds
  rw [hfind]

/-- R114: a bin takes a route while ACTIVE, one of bins 1..15 with room. -/
theorem takesRoute_iff (d : Device) (k : Fin 16) : d.takesRoute k = true ↔
    (d.bin k).state = .active ∧ (k ≠ 0 → (d.bin k).fill + (d.bin k).committed < d.num 6 k.val 1) := by
  unfold Device.takesRoute Device.binCapacity
  by_cases hzero : k = 0 <;> simp [hzero]

/-- R111, R112: the Route Table row of every outcome. -/
theorem routeRow_eq (r : ItemRecord) : routeRow r = match r.disposition with
    | none => none
    | some .facedPaid => r.classGroup.bind (fun g => r.plan.map (fun p =>
        2 * g.val + if p.group = .trail then 1 else 0))
    | some .shortPaid => some 32
    | some .outOfGauge => some 33
    | some .reused => some 34
    | some .noMark => some 35
    | some .ambiguous => some 36
    | some .scanFault => some 37
    | some .late => some 38
    | some .faceFault => some 39
    | some .uncancelled => some 40 := by
  unfold routeRow
  rcases r.disposition with _ | x
  · rfl
  · cases x with
    | facedPaid =>
      rcases r.classGroup with _ | g
      · rfl
      · rcases r.plan with _ | ⟨twist, turn, group⟩
        · rfl
        · cases group <;> rfl
    | _ => rfl

/-- R72: an assertion marks the open check that samples the line, whatever else the record holds. -/
theorem ItemRecord.sees_eq (line : Sensor) (r : ItemRecord) : r.sees line = { r with
    openCheck := r.openCheck.map (fun c => if c.sensor = line then { c with assertedSeen := true } else c) } := by
  unfold ItemRecord.sees
  cases hcheck : r.openCheck with
  | none => cases r; cases hcheck; rfl
  | some c =>
    by_cases hline : c.sensor = line
    · simp only [hline, if_true, Option.map_some]
    · simp only [hline, if_false, Option.map_some]
      cases r; cases hcheck; rfl

/-- Settles O22: the check is concluded by its three cases, and the route point follows it; then R114 by its steps. -/
theorem faceCheck : Obligations.FaceCheck := by
  refine ⟨fun s n => ?_, fun d p => ?_, routeRow_eq, fun s line level => ?_⟩
  · intro d
    refine ⟨fun r hfind hactive hend => ?_, fun hnot => ?_⟩
    · have hcleared := find_modify_some (f := fun r => { r with checkEnd := none }) (fun _ => rfl) hfind
      have hnumber := find_number d n r hfind
      obtain ⟨q, hq, hqend, hqopen, hqroute, hnone, hpass, hfail, hothers, honly, htally, hstacker⟩ :=
        concludeCheck_spec _ n r _ hcleared rfl hnumber
      have hrecord := concludeCheck_record _ n r _ q hcleared hnumber hq
      obtain ⟨himprint, hattention⟩ := concludeCheck_imprint (d.modify n (fun r => { r with checkEnd := none })) r
      obtain ⟨t, ht, hkept, hroutes, hreports, hothers', honly', htally', himprint'⟩ :=
        routeWithoutCancel_spec _ n q hq
      have honly'' := (onlyRecords_modify d n (fun r => { r with checkEnd := none })).trans (honly.trans honly')
      have hspan : concludeSpan n d = _ := (concludeSpan_due n d r hfind hactive hend).trans
        (applyIfFreed_builder d _ honly''.classifier)
      have hdue : d.spanEnds n = true := by
        rw [spanEnds_eq d n r hfind, hactive, decide_eq_true hend]
        rfl
      refine ⟨_, { q with route := t }, hspan, ?rows, ?idle, ht, hqend, hqopen, ?record, hnone, hpass, hfail, ?imprint,
        ?kept, ?routes, ?reports, ?others, honly''.track, honly''.inputs, honly''.tables, honly''.classifier,
        honly''.clock, htally'.trans htally, honly''.feed, honly''.command, honly''.window, honly''.report,
        honly''.line, honly''.gates⟩
      case rows =>
        exact congrArg s.after (endOfCheckSpan_due n d hdue)
      case idle =>
        intro hnotstart
        have htrack : (concludeSpan n d).track = _ :=
          (congrArg Device.track (concludeSpan_due n d r hfind hactive hend)).trans (applyIfFreed_track d _)
        have hencoder : (concludeSpan n d).track.encoder = d.track.encoder :=
          (congrArg TrackUnit.encoder htrack).trans honly''.encoder
        have hidle : startIfDue n (concludeSpan n d) = concludeSpan n d := by
          refine startIfDue_idle n _ fun r₂ hr₂ => .inr ?_
          rw [find_of_track htrack, ht] at hr₂
          rw [← Option.some.inj hr₂, hencoder]
          exact hnotstart
        exact congrArg s.after ((endOfCheckSpan_due n d hdue).trans (hidle.trans hspan))
      case record =>
        refine (congrArg (fun x : ItemRecord => { x with route := t }) hrecord).trans ?_
        rw [hqopen]
      case imprint =>
        rw [himprint', himprint, hnumber]
        rfl
      case kept =>
        intro hsome
        obtain ⟨hroute, hsame⟩ := hkept hsome
        exact ⟨hroute.trans hqroute, hsame.trans hstacker⟩
      case routes =>
        intro hnocancel
        rw [← hqroute]
        exact takesRoutePoint_congr _ _ _ _ _ hstacker honly.tables (hroutes hnocancel)
      case reports =>
        rw [hreports, hattention, hqroute]
        rfl
      case others =>
        intro m hm
        rw [hothers' m hm, hothers m hm, find_modify_ne hm]
        exact fun _ => rfl
    · have hexec : exec (.endOfCheckSpan n) s = s.after (endOfCheckSpan n d) := rfl
      rw [hexec, endOfCheckSpan_idle n d]
      cases hfind : d.find n with
      | none => simp [Device.spanEnds, hfind]
      | some r =>
        rw [spanEnds_eq d n r hfind]
        rcases hnot r hfind with h | h <;> simp [h]
  · intro accepts a zero
    have haccepts : ∀ k, accepts k ↔ d.takesRoute k = true := fun k => (takesRoute_iff d k).symm
    have ha : d.binAlternate p = a := rfl
    simp only [haccepts]
    unfold Device.chooseBin
    rw [ha]
    refine ⟨fun hp => ?_, fun hp hother halt => ?_, fun hp halt hzero => ?_, fun hp halt hzero => ?_⟩
    · rw [if_pos hp]
    · rw [if_neg hp, if_pos ⟨hother, halt⟩]
    · rw [if_neg hp, if_neg (by tauto), if_pos hzero]
    · rw [if_neg hp, if_neg (by tauto), if_neg hzero]
  · intro d
    have hexec : exec (.fchkAssertion line level) s = s.after (fchkAssertion line level d) := rfl
    rw [hexec]
    by_cases hmarks : level = true ∧ d.active = true
    · have hmarks' : level = true ∧ (setSensor d line level).active = true := hmarks
      rw [fchkAssertion, if_pos hmarks', if_pos hmarks, markAsserted, funext (ItemRecord.sees_eq line)]
      cases line <;> rfl
    · have hmarks' : ¬ (level = true ∧ (setSensor d line level).active = true) := hmarks
      rw [fchkAssertion, if_neg hmarks', if_neg hmarks]
      cases line <;> rfl

/-! ## The print start (R94, R96) -/

/-- R94: a print start that has come. -/
theorem startIfDue_due (n : RecNo) (d : Device) (r : ItemRecord) (hfind : d.find n = some r)
    (hactive : d.active = true) (hstart : r.printStart = some d.track.encoder) :
    startIfDue n d = takePrintStart d r d.track.encoder := by
  unfold startIfDue
  rw [hfind]
  exact if_pos ⟨hactive, hstart⟩

/-- R94, R96, R21: the part after the print start event, before the test of R192. -/
def startedPart (d : Device) (n : RecNo) (p : Pos) (i : ImprintStatus) : Device :=
  reportConditions (routePoint
    (printDecision (preemptPrint (d.modify n (fun r => { r with printStart := none }))) n p i) n)

/-- R94, R192: the print start event ends with its test. -/
theorem takePrintStart_eq (d : Device) (r : ItemRecord) (p : Pos) :
    takePrintStart d r p = applyIfFreed d (startedPart d r.number p r.imprint) := rfl

/-- R160: conditions reported twice as one part stands are as reported once. -/
theorem reported_reported (a : AttentionUnit) (x : Device) : (a.reported x).reported x = a.reported x := by
  simp only [AttentionUnit.reported, on_idem]

/-- R96, R94: of the Imprint Unit a print start changes the print in progress, its fault and what the decision
releases. -/
theorem printDecision_preemptPrint_imprint (d : Device) (n : RecNo) (p : Pos) (i : ImprintStatus) :
    let e := printDecision (preemptPrint d) n p i
    e.imprint = { d.imprint with
      builder := if i = .building ∧ d.imprint.builder = some n then none else d.imprint.builder
      ring := d.imprint.ring.filter (fun h => decide (¬ (d.imprint.printing.map Printing.number = some h.number ∨
        h.number = n ∧ (i = .building ∨ i = .built ∧ d.inputs.printReady = false))))
      printing := e.imprint.printing, printFault := e.imprint.printFault } := by
  intro e
  have hinputs : (preemptPrint d).inputs = d.inputs := by
    unfold preemptPrint
    split <;> rfl
  have he : e.imprint = _ := printDecision_imprint (preemptPrint d) n p i
  rw [preemptPrint_imprint, hinputs] at he
  refine he.trans ?_
  have hboth : (fun h : Holding => decide (¬ (h.number = n ∧ (i = .building ∨ i = .built ∧
      d.inputs.printReady = false))) && decide (¬ d.imprint.printing.map Printing.number = some h.number)) =
      fun h => decide (¬ (d.imprint.printing.map Printing.number = some h.number ∨
        h.number = n ∧ (i = .building ∨ i = .built ∧ d.inputs.printReady = false))) := by
    funext h
    simp only [not_or, Bool.decide_and, Bool.and_comm]
  simp only [List.filter_filter, hboth]
  rfl

/-- Settles O23: the print in progress is ended, the decision taken, the route point after it, and the conditions are
reported; each by the lemma that says what it does. -/
theorem printStartDecides : Obligations.PrintStartDecides := by
  intro s n x
  have hexec : exec (.printStart n) s = s.after (startIfDue n x) := rfl
  refine ⟨fun r hfind hactive hstart => ?_, fun hnot => ?_⟩
  · have hnumber := find_number x n r hfind
    have hcleared := find_modify_some (f := fun r => { r with printStart := none }) (fun _ => rfl) hfind
    obtain ⟨i, hended, honly₁, hnone, hfault, hattention₁, habort₁, hunder₁, hpreempts⟩ :=
      preemptPrint_spec _ n _ hcleared
    obtain ⟨r₁, hdecided, honly₂, hprintStart, -, hbegun, hmissed, hunderrun, hbuilding, hothers₂, hprinted₂⟩ :=
      printDecision_spec _ n _ x.track.encoder r.imprint hended hnone
    have hrecord := printDecision_record _ n x.track.encoder r.imprint _ r₁ hended hdecided
    have hroute := printDecision_route _ n x.track.encoder r.imprint _ r₁ hended hdecided
    have himprint := printDecision_preemptPrint_imprint (x.modify n (fun r => { r with printStart := none })) n
      x.track.encoder r.imprint
    obtain ⟨hstacker, hattention₂⟩ := printDecision_units
      (preemptPrint (x.modify n (fun r => { r with printStart := none }))) n x.track.encoder r.imprint
    obtain ⟨t, hrouted, htakes, hattention₃, hothers₃, honly₃, htally₃, himprint₃⟩ := routePoint_total _ n r₁ hdecided
    have honly := (((onlyRecords_modify x n (fun r => { r with printStart := none })).trans honly₁).trans
      honly₂).trans honly₃
    have hclassifier : (startedPart x n x.track.encoder r.imprint).classifier = x.classifier := honly.classifier
    have htaken : startIfDue n x = _ := (startIfDue_due n x r hfind hactive hstart).trans
      (by rw [takePrintStart_eq, hnumber, applyIfFreed_builder x _ hclassifier])
    have hunit : (startedPart x n x.track.encoder r.imprint).imprint = _ := himprint₃
    have hcounters : (startedPart x n x.track.encoder r.imprint).tally = _ := htally₃
    have hreported : (startedPart x n x.track.encoder r.imprint).attention = AttentionUnit.reported
        { x.attention with underrun := (printDecision (preemptPrint (x.modify n
          (fun r => { r with printStart := none }))) n x.track.encoder r.imprint).attention.underrun }
        (startedPart x n x.track.encoder r.imprint) := by
      rw [hattention₁] at hattention₂
      refine Eq.trans ?_ (congrArg (AttentionUnit.reported · (startedPart x n x.track.encoder r.imprint)) hattention₂)
      refine (congrArg (AttentionUnit.reported · (startedPart x n x.track.encoder r.imprint)) hattention₃).trans ?_
      split
      · rfl
      · exact reported_reported _ _
    have hunderrun' := congrArg AttentionUnit.underrun hreported
    refine ⟨startedPart x n x.track.encoder r.imprint, { r₁ with route := t }, congrArg s.after htaken, hrouted,
      hprintStart, congrArg (fun q : ItemRecord => { q with route := t }) hrecord, ?imprint,
      fun hbuilt hready => ?begun, fun hbuilt hunready => ?missed, fun hstatus => ?underrun, ?building, ?preempts,
      ?takes, ?reports, honly.track, honly.totals, honly.inputs, honly.tables, honly.classifier, honly.clock,
      honly.feed, honly.command, honly.window, honly.report, honly.line⟩
    case imprint =>
      rw [hunit]
      exact himprint
    case begun =>
      obtain ⟨hprinting, hdisposition, hcancel, hprint, hkept⟩ := hbegun hbuilt (honly₁.inputs ▸ hready)
      rw [hunit]
      exact ⟨hprinting, hdisposition, hcancel, hprint, hkept.trans hfault⟩
    case missed =>
      obtain ⟨haborted, hdisposition, hcancel, hprint, hlatched, hcounted⟩ := hmissed hbuilt (honly₁.inputs ▸ hunready)
      rw [hunit, hcounters]
      exact ⟨haborted, hdisposition, hcancel, hlatched, hprint, hcounted.trans (congrArg (· + 1) habort₁)⟩
    case underrun =>
      obtain ⟨himp, hdisposition, hcancel, hprint, hlatched, hcounted⟩ := hunderrun hstatus
      rw [hunit, hcounters]
      rw [hattention₁] at hlatched
      exact ⟨himp, hdisposition, hcancel, hprint, hunderrun'.trans hlatched,
        hcounted.trans (congrArg (· + 1) hunder₁)⟩
    case building =>
      rw [hunit]
      exact hbuilding
    case preempts =>
      intro p q hprinting hother hp
      obtain ⟨hended', hcounted⟩ := hpreempts p q hprinting hother (by
        rw [find_modify_ne hother, hp]
        exact fun _ => rfl)
      refine ⟨((hothers₃ _ hother).trans (hothers₂ _ hother)).trans hended', ?_⟩
      rw [hcounters]
      exact hprinted₂.trans hcounted
    case takes =>
      have hstacker' := hstacker.trans (preemptPrint_stacker (x.modify n (fun r => { r with printStart := none })))
      rw [hroute] at htakes
      exact takesRoutePoint_congr x _ _ _ _ hstacker' (honly₁.trans honly₂).tables htakes
    case reports =>
      rw [hunderrun']
      exact hreported
  · rw [hexec, startIfDue_idle n x hnot]

end Sys2Proof.Machine

/-! PROOFS. The print (R95, R97, R100): the column due, and the edges of PRINT-READY. -/

namespace Sys2Proof.Machine

/-- R87, R95: the column due of print `p` lies at or after the clip position of its record. -/
def Device.clipsAt (d : Device) (p : Printing) : Prop :=
  ∃ r c, d.find p.number = some r ∧ r.clip = some c ∧ atOrAfter p.due c = true

/-- R87, R95: a column at or after the clip position is not sent. -/
theorem sendColumn_clipped (d : Device) (p : Printing) (h : d.clipsAt p) : sendColumn d p = d := by
  obtain ⟨r, c, hfind, hclip, hafter⟩ := h
  unfold sendColumn
  simp only [hfind, hclip, hafter]

/-- R95: the first column held is sent where it is not clipped. -/
theorem sendColumn_sent (d : Device) (p : Printing) (dots : Dots) (rest : List Dots)
    (hheld : d.heldColumns p.number = dots :: rest) (h : ¬ d.clipsAt p) : sendColumn d p = strobeColumn d dots := by
  unfold sendColumn
  cases hfind : d.find p.number with
  | none => simp only [hheld]
  | some r =>
    cases hclip : r.clip with
    | none => simp only [hheld, hclip]
    | some c =>
      have hbefore : atOrAfter p.due c = false := by
        simpa using fun hafter => h ⟨r, c, hfind, hclip, hafter⟩
      simp only [hheld, hclip, hbefore]

/-- R95: with no column held none is sent. -/
theorem sendColumn_none (d : Device) (p : Printing) (hheld : d.heldColumns p.number = []) : sendColumn d p = d := by
  unfold sendColumn
  simp only [hheld]
  split
  · next hcons => cases hcons
  · rfl
  · rfl

/-- R95: of the whole part a column due changes PRINT-COL, the count of strobes and the column last strobed. -/
theorem sendColumn_form (d : Device) (p : Printing) : ∃ col strobes strobed, sendColumn d p =
    { d with imprint := { d.imprint with printCol := col, printStrobes := strobes, strobed := strobed } } := by
  by_cases hclips : d.clipsAt p
  · exact ⟨_, _, _, sendColumn_clipped d p hclips⟩
  · cases hheld : d.heldColumns p.number with
    | nil => exact ⟨_, _, _, sendColumn_none d p hheld⟩
    | cons dots rest => exact ⟨_, _, _, sendColumn_sent d p dots rest hheld hclips⟩

/-- R95: a column that is due is sent and released; the last one ends the print. -/
theorem printColumnDue_due (d : Device) (p : Printing) (hprinting : d.imprint.printing = some p)
    (hactive : d.active = true) (hdue : d.track.encoder = p.due) : printColumnDue d =
      let e := releaseColumn (sendColumn d p) p.number
      if (e.heldColumns p.number).isEmpty then setPrintCol (endPrinted e p.number) 0
      else setPrinting e (some { p with column := p.column + 1 }) := by
  unfold printColumnDue
  rw [hprinting]
  exact if_pos ⟨hactive, hdue⟩

/-- R95: with no column due nothing happens. -/
theorem printColumnDue_idle (d : Device)
    (h : ∀ p, d.imprint.printing = some p → d.active = false ∨ d.track.encoder ≠ p.due) : printColumnDue d = d := by
  unfold printColumnDue
  split
  · rfl
  · next p hprinting =>
    refine if_neg ?_
    rintro ⟨hactive, hdue⟩
    rcases h p hprinting with hidle | hlate
    · simp [hidle] at hactive
    · exact hlate hdue

/-- Settles O24: the column by `sendColumn_form`, and the end of the print by the columns still held. -/
theorem printColumnDue_statement : Obligations.PrintColumnDue := by
  intro s d
  have hexec : exec .printColumnDue s = s.after (printColumnDue d) := rfl
  refine ⟨fun p hprinting hactive hdue => ?_, fun hnot => ?_⟩
  · intro clipped
    have hclips : clipped ↔ d.clipsAt p := by
      show (∃ r c, _) ↔ _
      rw [hdue]
      rfl
    obtain ⟨col, strobes, strobed, hsend⟩ := sendColumn_form d p
    have hsame : ∀ m, (sendColumn d p).heldColumns m = d.heldColumns m := fun m => by
      rw [hsend]
      rfl
    have hown : (releaseColumn (sendColumn d p) p.number).heldColumns p.number = (d.heldColumns p.number).tail := by
      rw [heldColumns_releaseColumn, hsame]
    have hothers : ∀ m, m ≠ p.number →
        (releaseColumn (sendColumn d p) p.number).heldColumns m = d.heldColumns m := fun m hm => by
      rw [heldColumns_releaseColumn_other _ _ _ hm, hsame]
    have hstep : printColumnDue d = _ := printColumnDue_due d p hprinting hactive hdue
    have hsent : ∀ dots rest, d.heldColumns p.number = dots :: rest → ¬ clipped →
        strobes = d.imprint.printStrobes + 1 ∧ strobed = some dots ∧ col = dots := fun dots rest hheld hnot => by
      have h := congrArg Device.imprint
        (hsend.symm.trans (sendColumn_sent d p dots rest hheld (fun h => hnot (hclips.2 h))))
      exact ⟨congrArg ImprintUnit.printStrobes h, congrArg ImprintUnit.strobed h, congrArg ImprintUnit.printCol h⟩
    have hkept : clipped → strobes = d.imprint.printStrobes ∧ strobed = d.imprint.strobed ∧
        col = d.imprint.printCol := fun hclipped => by
      have h := congrArg Device.imprint (hsend.symm.trans (sendColumn_clipped d p (hclips.1 hclipped)))
      exact ⟨congrArg ImprintUnit.printStrobes h, congrArg ImprintUnit.strobed h, congrArg ImprintUnit.printCol h⟩
    rw [hsend] at hown hothers hstep
    simp only [hown] at hstep
    by_cases hlast : (d.heldColumns p.number).length ≤ 1
    · have hempty : (d.heldColumns p.number).tail = [] := by
        cases hheld : d.heldColumns p.number with
        | nil => rfl
        | cons dots rest => simpa [hheld] using hlast
      rw [hempty, List.isEmpty_nil, if_pos rfl] at hstep
      refine ⟨_, hexec.trans (congrArg s.after hstep), (heldColumns_releaseRing _ _).trans hempty.symm,
        fun dots rest hheld hnot => ⟨(hsent dots rest hheld hnot).1, (hsent dots rest hheld hnot).2.1, fun hrest => ?_⟩,
        fun hclipped => ⟨(hkept hclipped).1, (hkept hclipped).2.1, fun hmore => absurd hlast (Nat.not_le.2 hmore)⟩,
        fun hmore => absurd hlast (Nat.not_le.2 hmore), fun _ => ⟨rfl, rfl, rfl, rfl⟩, rfl, rfl, rfl, rfl, rfl, rfl,
        rfl, rfl, rfl, rfl, rfl, rfl, rfl, rfl, rfl,
        fun m hm => (heldColumns_releaseRing_other _ _ m hm).trans (hothers m hm)⟩
      rw [hheld] at hempty
      exact absurd hempty hrest
    · have hmore : (d.heldColumns p.number).tail.isEmpty = false := by
        cases hheld : d.heldColumns p.number with
        | nil => simp [hheld] at hlast
        | cons dots rest => simpa [hheld] using hlast
      rw [hmore, if_neg Bool.false_ne_true] at hstep
      refine ⟨_, hexec.trans (congrArg s.after hstep), hown,
        fun dots rest hheld hnot => ?_, fun hclipped => ?_, fun _ => ⟨rfl, rfl, rfl⟩, fun hfew => absurd hfew hlast, rfl,
        rfl, rfl, rfl, rfl, rfl, rfl, rfl, rfl, rfl, rfl, rfl, rfl, rfl, rfl, hothers⟩
      · obtain ⟨hcount, hshown, hcol⟩ := hsent dots rest hheld hnot
        exact ⟨hcount, hshown, fun _ => hcol⟩
      · obtain ⟨hcount, hshown, hcol⟩ := hkept hclipped
        exact ⟨hcount, hshown, fun _ => hcol⟩
  · rw [hexec, printColumnDue_idle d hnot]

/-- Settles O25: the print in progress, if there is one, is aborted, and the latch is cleared in RUN and DRAIN. -/
theorem printReadyEdges : Obligations.PrintReadyEdges := by
  intro s d low
  have hexec : exec .printReadyDeasserted s = s.after (reportConditions (abortPrint low)) := rfl
  have hexec' : exec .printReadyAsserted s = s.after (printReadyAsserted d) := rfl
  refine ⟨fun hnone => ?_, fun p hprinting => ?_, ?_⟩
  · have hnone' : low.imprint.printing = none := hnone
    rw [hexec, abortPrint, hnone']
  · have hprinting' : low.imprint.printing = some p := hprinting
    rw [hexec, abortPrint, hprinting']
    rfl
  · rw [hexec', printReadyAsserted]
    cases hactive : d.active with
    | true =>
      have hactive' : ({ d with inputs := { d.inputs with printReady := true } } : Device).active = true := hactive
      rw [if_pos hactive', Bool.not_true, Bool.and_false]
      rfl
    | false =>
      have hactive' : ¬ ({ d with inputs := { d.inputs with printReady := true } } : Device).active = true := by
        rw [show ({ d with inputs := { d.inputs with printReady := true } } : Device).active = d.active from rfl, hactive]
        exact Bool.false_ne_true
      rw [if_neg hactive', Bool.not_false, Bool.and_true]

end Sys2Proof.Machine

/-! PROOFS. The Mark Classifier: the take, the decision complete, the class of an observation, the decision (R39 to
R67), and the choice among marks (R55, R56). -/

namespace Sys2Proof.Machine

/-! ## The take and the decision complete (R39, R42, R47) -/

/-- R39: the record the Classifier takes is the oldest READY one. -/
theorem takeReady_oldest (d : Device) (older rest : List ItemRecord) (r : ItemRecord) (hactive : d.active = true)
    (hfree : d.classifier.busy = none) (hqueue : d.track.queue = older ++ r :: rest)
    (holder : ∀ q ∈ older, q.state ≠ .ready) (hready : r.state = .ready) : d.takeReady = some r.number := by
  unfold Device.takeReady
  rw [if_pos ⟨hactive, hfree⟩, hqueue,
    find_past older rest r _ (fun q hq => decide_eq_false (holder q hq)) (decide_eq_true hready)]
  rfl

/-- R39: outside RUN and DRAIN, with the Classifier at work, or with no READY record, none is taken. -/
theorem takeReady_none (d : Device)
    (h : d.active = false ∨ d.classifier.busy ≠ none ∨ ∀ q ∈ d.track.queue, q.state ≠ .ready) :
    d.takeReady = none := by
  unfold Device.takeReady
  split
  · next hcan =>
    obtain ⟨hactive, hfree⟩ := hcan
    rcases h with h | h | h
    · simp [h] at hactive
    · exact absurd hfree h
    · rw [List.find?_eq_none.2 fun q hq => by simpa using h q hq]
      rfl
  · rfl

/-- R42: a decision qualifies where it is SCAN_FAULT or the record holds no observation. -/
theorem qualifyingDecision_iff (r : ItemRecord) (x : Decision) :
    qualifyingDecision r x = true ↔ x.disposition = .scanFault ∨ (r.obsA = [] ∧ r.obsB = []) := by
  simp [qualifyingDecision]

/-- R47: the decision complete of the record the Classifier holds. -/
theorem decisionComplete_taken (n : RecNo) (d : Device) (r : ItemRecord) (hfind : d.find n = some r)
    (hbusy : d.classifier.busy = some n) (hstate : r.state = .classifying) : decisionComplete n d =
      applyPoint (freeClassifier (suspectDecision (d.modify n (fun q => q.decided (d.decision r))) n
        (qualifyingDecision r (d.decision r)))) := by
  have hboth : d.classifier.busy = some n ∧ r.state = .classifying := ⟨hbusy, hstate⟩
  unfold decisionComplete
  rw [hfind]
  exact if_pos hboth

/-- R8: a decision of a record the Classifier does not hold is void. -/
theorem decisionComplete_void (n : RecNo) (d : Device)
    (h : ∀ r, d.find n = some r → d.classifier.busy ≠ some n ∨ r.state ≠ .classifying) : decisionComplete n d = d := by
  unfold decisionComplete
  split
  · rfl
  · next r hfind =>
    refine if_neg ?_
    rintro ⟨hbusy, hstate⟩
    rcases h r hfind with h | h
    · exact h hbusy
    · exact h hstate

/-! ## The class of an observation (R50 to R52) -/

/-- R50: what makes a Mark Class Table row match. -/
theorem matchesRow_iff (d : Device) (o : Observation) (row : Nat) : d.matchesRow o row = true ↔
    d.num 1 row 0 ≠ 0 ∧ d.cell 1 row 1 = o.signature ∧ d.num 1 row 2 = lumCode o.lum ∧
      d.num 1 row 8 ≤ o.confidence.toNat := by
  simp [Device.matchesRow, Device.flag, and_assoc]

/-- R50: the lowest matching row gives the class. -/
theorem classify_markClass (d : Device) (side : Side) (o : Observation) (row : Nat) (hrow : row < 512)
    (hfits : d.matchesRow o row = true) (hlower : ∀ j, j < row → d.matchesRow o j = false) : d.classify side o =
      { side := side, obs := o, row := .markClass row, kind := markKindOf (d.num 1 row 3), value := d.num 1 row 4,
        priority := d.num 1 row 5, group := Fin.ofNat 16 (d.num 1 row 6), template := d.num 1 row 7 } := by
  unfold Device.classify
  rw [find_range_some 512 row _ hrow hfits hlower]

/-- R51: with no row that matches, the Default Class Row of the lum kind gives it. -/
theorem classify_default (d : Device) (side : Side) (o : Observation)
    (hnone : ∀ j, j < 512 → d.matchesRow o j = false) : d.classify side o =
      { side := side, obs := o, row := .default (lumCode o.lum),
        kind := if d.num 2 (lumCode o.lum) 5 ≤ o.confidence.toNat then markKindOf (d.num 2 (lumCode o.lum) 0)
          else .nonPostage,
        value := d.num 2 (lumCode o.lum) 1, priority := d.num 2 (lumCode o.lum) 2,
        group := Fin.ofNat 16 (d.num 2 (lumCode o.lum) 3), template := d.num 2 (lumCode o.lum) 4 } := by
  unfold Device.classify
  rw [find_range_none 512 _ hnone]

/-! ## The decision (R48, R57 to R65) -/

/-- R48: the decision of a record without scan fault, by the choices among its live marks and among the others. -/
theorem decision_measured (d : Device) (r : ItemRecord) (g : Geometry) (hfault : r.scanFault = false)
    (hgeometry : r.geometry = some g) : d.decision r =
      match choose g.lengthMm.toNat ((d.postage r).filter (fun c => !c.obs.inkOver)) with
      | .ambiguous => .bare .ambiguous
      | .chosen c code => d.decideLive g ((d.postage r).filter (fun c => !c.obs.inkOver)) c code
      | .none =>
        match choose g.lengthMm.toNat ((d.postage r).filter (fun c => c.obs.inkOver)) with
        | .ambiguous => .bare .ambiguous
        | .chosen c code => d.decideReused c code
        | .none => .bare .noMark := by
  unfold Device.decision
  rw [hfault, hgeometry]
  rfl

/-- R60: the first row that covers the letter, if one does. -/
theorem rateCovers_iff (d : Device) (length thickness i : Nat) : d.rateCovers length thickness i = true ↔
    d.num 3 i 0 ≠ 0 ∧ length ≤ d.num 3 i 1 ∧ thickness ≤ d.num 3 i 2 := by
  simp [Device.rateCovers, Device.flag, and_assoc]

/-- R63: a template uses the clock where a place of one of its lines holds a code of a clock field. -/
theorem usesClock_iff (d : Device) (t : Nat) : d.usesClock t = true ↔
    ∃ line place, line < d.num 8 t 5 ∧ place < d.num 8 t (8 + 6 * line) ∧
      128 ≤ d.num 9 (4 * t + line) place ∧ d.num 9 (4 * t + line) place ≤ 132 := by
  unfold Device.usesClock Device.lineCount Device.lineChars Device.textCode
  simp

/-- R62 to R65: cancel intent by its three cases, `row` being the Route Table row looked up. -/
theorem withCancel_cases (d : Device) (length : Nat) (c : Classed) (plan : FacingPlan) (x : Decision) (row t : Nat)
    (hrow : cancelRow x.disposition c.group plan = row) (ht : d.templateFor row c = t) :
    (d.num 5 row 1 = 0 → d.withCancel length c plan x = x) ∧
    (d.num 5 row 1 ≠ 0 → d.usesClock t = true → d.clock.valid = false →
      d.withCancel length c plan x = { x with disposition := .uncancelled }) ∧
    (d.num 5 row 1 ≠ 0 → d.usesClock t = false ∨ d.clock.valid = true → d.withCancel length c plan x =
      { x with
        cancel := some
          { template := t
            startColumn := d.startColumn t (facedOffset length c.obs.offsetMm.toNat c.obs.widthMm.toNat plan.turn) } }) := by
  subst hrow ht
  have hflag : d.flag 5 (cancelRow x.disposition c.group plan) 1 = false ↔
      d.num 5 (cancelRow x.disposition c.group plan) 1 = 0 := by
    simp [Device.flag]
  unfold Device.withCancel
  refine ⟨fun hzero => if_pos (hflag.2 hzero), fun hasked huses hinvalid => ?_, fun hasked hclear => ?_⟩
  · rw [if_neg (fun h => hasked (hflag.1 h)), if_pos ⟨huses, hinvalid⟩]
  · rw [if_neg (fun h => hasked (hflag.1 h)), if_neg]
    rintro ⟨huses, hinvalid⟩
    rcases hclear with h | h
    · simp [h] at huses
    · simp [h] at hinvalid

/-- R61: a Facing Table row as a plan. -/
theorem facingPlan_eq (d : Device) (code : Fin 8) : d.facingPlan code =
    { twist := decide (d.num 4 code.val 0 ≠ 0), turn := decide (d.num 4 code.val 1 ≠ 0),
      group := if d.num 4 code.val 2 ≠ 0 then .trail else .lead } := by
  simp [Device.facingPlan, Device.flag]

/-- R60: what is required of a letter: the value of the first row that covers it, or none. -/
theorem rateRow_required (d : Device) (length thickness : Nat) (required : Option Nat)
    (h : (required = none ∧ ∀ i, i < 16 → ¬ d.rateCovers length thickness i = true) ∨
      ∃ i, i < 16 ∧ d.rateCovers length thickness i = true ∧ (∀ j, j < i → ¬ d.rateCovers length thickness j = true) ∧
        required = some (d.num 3 i 3)) :
    (d.rateRow length thickness).map (fun row => d.num 3 row 3) = required := by
  unfold Device.rateRow
  rcases h with ⟨rfl, hnone⟩ | ⟨i, hi, hcovers, hbefore, rfl⟩
  · rw [find_range_none 16 _ fun j hj => by simpa using hnone j hj]
    rfl
  · rw [find_range_some 16 i _ hi hcovers fun j hj => by simpa using hbefore j hj]
    rfl

/-- R62: the Route Table row looked up for the disposition that a required value gives. -/
theorem cancelRow_required (required : Option Nat) (total : Nat) (group : Fin 16) (plan : FacingPlan) :
    cancelRow (match required with
      | none => .outOfGauge
      | some v => if total < v then .shortPaid else .facedPaid) group plan =
    match required with
    | none => 33
    | some v => if total < v then 32 else 2 * group.val + if plan.group = .trail then 1 else 0 := by
  have hgroup : plan.group.code = if plan.group = .trail then 1 else 0 := by cases plan.group <;> rfl
  cases required with
  | none => rfl
  | some v =>
    by_cases hshort : total < v
    · simp only [hshort, if_true, cancelRow]
    · simp only [hshort, if_false, cancelRow, hgroup]

/-- Settles O26: the take, the decision complete, the class and the decision, each by its cases. -/
theorem classifierTakesAndDecides : Obligations.ClassifierTakesAndDecides := by
  refine ⟨fun s => ?_, fun s n => ?_, fun d side o => ?_, fun d r g hfault hgeometry => ?_⟩
  · intro d
    have hexec : exec .classifierTake s = s.after (classifierTake d) := rfl
    refine ⟨fun older r rest hactive hfree hqueue holder hready => ?_, fun hnot => ?_⟩
    · rw [hexec, classifierTake, takeReady_oldest d older rest r hactive hfree hqueue holder hready]
      rfl
    · rw [hexec, classifierTake, takeReady_none d hnot]
  · intro d
    refine ⟨fun r hfind hbusy hstate => ?_, fun hnot => ?_⟩
    · intro x t q reached
      obtain ⟨attention, line, hform, hcounts, hclears, hreached, hnotReached⟩ :=
        suspectCounter_form (d.modify n (fun r => r.decided x)) n (qualifyingDecision r x)
      have hq : qualifyingDecision r x = true ↔ q := qualifyingDecision_iff r x
      simp only [hq] at hcounts hclears hreached hnotReached
      have hrecords : (freeClassifier (suspectDecision (d.modify n (fun r => r.decided x)) n
          (qualifyingDecision r x))).track = (d.modify n (fun r => r.decided x)).track := by rw [hform]
      have hattention := congrArg Device.attention hform
      have hline := congrArg Device.line hform
      refine ⟨_, congrArg s.after (decisionComplete_taken n d r hfind hbusy hstate),
        find_some_of_track hrecords (fun _ => rfl) hfind, congrArg (fun e : Device => e.classifier.busy) hform, hcounts,
        hclears, fun h => ?reached, fun h => ?notReached, fun h => if_pos h, fun m hm => ?others, ?track,
        (congrArg Device.inputs hform :), (congrArg Device.tables hform :), (congrArg Device.imprint hform :),
        (congrArg Device.clock hform :), (congrArg Device.stacker hform :), (congrArg Device.tally hform :),
        (congrArg Device.feed hform :), (congrArg Device.command hform :), (congrArg Device.window hform :),
        (congrArg Device.report hform :)⟩
      case reached => exact ⟨hattention.trans (hreached h).1, hline.trans (hreached h).2⟩
      case notReached => exact ⟨hattention.trans (hnotReached h).1, hline.trans (hnotReached h).2⟩
      case others => exact find_ne_of_track hrecords hm (fun _ => rfl)
      case track =>
        rw [hrecords]
        rfl
    · exact congrArg s.after (decisionComplete_void n d hnot)
  · intro lum kind fits
    have hlum : lum = lumCode o.lum := by
      simp only [lum]
      cases o.lum <;> rfl
    have hkind : ∀ n, markKindOf n = kind n := markKindOf_eq
    have hfits : ∀ row, fits row ↔ d.matchesRow o row = true := fun row => by
      rw [matchesRow_iff, ← hlum]
    have hfails : ∀ row, ¬ fits row → d.matchesRow o row = false := fun row h => by
      simpa using fun hmatch => h ((hfits row).2 hmatch)
    refine ⟨fun row hrow hrowFits hlower => ?_, fun hnone => ?_⟩
    · rw [classify_markClass d side o row hrow ((hfits row).1 hrowFits) (fun j hj => hfails j (hlower j hj)), hkind]
    · rw [classify_default d side o (fun j hj => hfails j (hnone j hj)), ← hlum, hkind]
      by_cases hconf : o.confidence.toNat < d.num 2 lum 5
      · rw [if_pos hconf, if_neg (Nat.not_le.2 hconf)]
      · rw [if_neg hconf, if_pos (Nat.not_lt.1 hconf)]
  · intro length marks live used bare plan faced covers
    have hdecision := decision_measured d r g hfault hgeometry
    have hlive : (d.postage r).filter (fun c => !c.obs.inkOver) = live := rfl
    have hused : (d.postage r).filter (fun c => c.obs.inkOver) = used := rfl
    have hlength : g.lengthMm.toNat = length := rfl
    rw [hlive, hused, hlength] at hdecision
    have hplan : ∀ k, d.facingPlan k = plan k := facingPlan_eq d
    have hreused : ∀ c k, d.decideReused c k = faced .reused c k := fun c k => by
      unfold Device.decideReused
      rw [hplan]
      rfl
    refine ⟨fun h => ?_, fun h h' => ?_, fun h h' => ?_, fun c k h h' => ?_, fun c k required h hrequired => ?_⟩
    · rw [hdecision, h]
      rfl
    · rw [hdecision, h, h']
      rfl
    · rw [hdecision, h, h']
      rfl
    · rw [hdecision, h, h']
      exact hreused c k
    · intro total y row paid t dated offset
      have hpaid : d.decision r = d.withCancel length c (plan k) paid := by
        rw [hdecision, h]
        show d.decideLive g live c k = _
        simp only [← rateCovers_iff, covers] at hrequired
        have hvalue := rateRow_required d length g.thickness.toNat required hrequired
        unfold Device.decideLive
        simp only [hlength, hvalue, hplan]
        rfl
      have hrow : cancelRow paid.disposition c.group (plan k) = row := cancelRow_required required total c.group (plan k)
      obtain ⟨hplain, hclockless, hcancels⟩ := withCancel_cases d length c (plan k) paid row t hrow rfl
      have hdated : d.usesClock t = true ↔ dated := usesClock_iff d t
      rw [hpaid]
      refine ⟨hplain, fun hasked huses => hclockless hasked (hdated.2 huses), fun hasked hclear => ?_⟩
      refine hcancels hasked (hclear.imp_left fun hnot => ?_)
      simpa using fun huses => hnot (hdated.1 huses)

end Sys2Proof.Machine

/-! PROOFS. The position code and the choice among marks (R55, R56). -/

namespace Sys2Proof.Machine

/-- R55: the position code is the sum of its side, its edge and its end. -/
theorem positionCode_val (lengthMm : Nat) (c : Classed) (hzone : c.obs.zone = .top ∨ c.obs.zone = .bottom) :
    (positionCode lengthMm c).val =
      (if c.side = .b then 4 else 0) + (if c.obs.zone = .bottom then 2 else 0) +
        (if 2 * c.obs.offsetMm.toNat + c.obs.widthMm.toNat < lengthMm then 0 else 1) := by
  unfold positionCode
  rcases hzone with hzone | hzone <;> cases hside : c.side <;>
    by_cases htrail : 2 * c.obs.offsetMm.toNat + c.obs.widthMm.toNat < lengthMm <;> simp [hzone, htrail]

/-- R56: the marks of greatest priority. -/
def candidates (marks : List Classed) : List Classed := marks.filter (fun c => decide (c.priority = topPriority marks))

/-- R56: a candidate is a mark that none exceeds in priority. -/
theorem mem_candidates (marks : List Classed) (c : Classed) :
    c ∈ candidates marks ↔ c ∈ marks ∧ ∀ m ∈ marks, m.priority ≤ c.priority := by
  unfold candidates
  rw [List.mem_filter, decide_eq_true_eq]
  exact and_congr_right fun hc => topPriority_iff marks c hc

/-- R56: of marks there are, one has the greatest priority. -/
theorem candidates_ne_nil (marks : List Classed) (h : marks ≠ []) : candidates marks ≠ [] := by
  obtain ⟨c, hc⟩ : ∃ c ∈ marks, c.priority = topPriority marks := by
    obtain ⟨-, -, hzero | hmem⟩ := foldl_max_spec (marks.map (fun c => c.priority)) 0
    · obtain ⟨c, hc⟩ := List.exists_mem_of_ne_nil marks h
      have hle := (foldl_max_spec (marks.map (fun c => c.priority)) 0).2.1 c.priority (List.mem_map_of_mem hc)
      refine ⟨c, hc, ?_⟩
      unfold topPriority
      omega
    · obtain ⟨c, hc, heq⟩ := List.mem_map.1 hmem
      exact ⟨c, hc, heq⟩
  exact List.ne_nil_of_mem (List.mem_filter.2 ⟨hc.1, decide_eq_true hc.2⟩)

/-- R56: the choice by the candidate of least offset and the position codes of all. -/
theorem choose_eq (lengthMm : Nat) (marks : List Classed) : choose lengthMm marks =
    match leastOffset (candidates marks) with
    | none => .none
    | some c =>
      if (candidates marks).all (fun x => decide (positionCode lengthMm x = positionCode lengthMm c)) then
        .chosen c (positionCode lengthMm c)
      else .ambiguous := rfl

/-- Settles O27: the position code by its three parts, and the choice by whether the candidates share it. -/
theorem positionCodeAndChoice : Obligations.PositionCodeAndChoice := by
  refine ⟨positionCode_val, fun lengthMm marks => ?_⟩
  intro top
  have htop : ∀ c, top c ↔ c ∈ candidates marks := fun c => (mem_candidates marks c).symm
  have hleast : ∀ c, leastOffset (candidates marks) = some c → c ∈ candidates marks := fun c hc => by
    obtain ⟨before, after, heq, -⟩ := (leastOffset_spec _).2 c hc
    rw [heq]
    exact List.mem_append_right _ List.mem_cons_self
  refine ⟨?_, ?_, fun hmarks hshared => ?_⟩
  · rintro rfl
    rfl
  · rintro ⟨a, b, ha, hb, hdiffer⟩
    rw [htop] at ha hb
    rw [choose_eq]
    cases hc : leastOffset (candidates marks) with
    | none =>
      rw [(leastOffset_spec _).1.1 hc] at ha
      cases ha
    | some c =>
      refine if_neg fun hall => hdiffer ?_
      have hcode : ∀ x ∈ candidates marks, positionCode lengthMm x = positionCode lengthMm c := by simpa using hall
      rw [hcode a ha, hcode b hb]
  · cases hc : leastOffset (candidates marks) with
    | none => exact absurd ((leastOffset_spec _).1.1 hc) (candidates_ne_nil marks hmarks)
    | some c =>
      obtain ⟨before, after, heq, hsmallest, hfirst⟩ := (leastOffset_spec _).2 c hc
      obtain ⟨before', after', hsplit, hbefore⟩ := filter_split _ _ _ _ _ heq
      have hctop := (htop c).2 (hleast c hc)
      refine ⟨c, before', after', ?_, hctop, hsplit, fun m hm => hsmallest m ((htop m).1 hm), fun m hm hmtop => ?_⟩
      · have hall : (candidates marks).all
            (fun x => decide (positionCode lengthMm x = positionCode lengthMm c)) = true :=
          List.all_eq_true.2 fun x hx => decide_eq_true (hshared x c ((htop x).2 hx) hctop)
        rw [choose_eq, hc]
        exact if_pos hall
      · refine hfirst m (hbefore ▸ List.mem_filter.2 ⟨hm, ?_⟩)
        exact (List.mem_filter.1 ((htop m).1 hmtop)).2

end Sys2Proof.Machine

/-! PROOFS. The build and the columns composed (R79 to R84, R89 to R93). -/

namespace Sys2Proof.Machine

/-- R90: the builder begins the head of the Build Queue that has a template and room. -/
theorem buildReady_head (d : Device) (r : ItemRecord) (rest : List ItemRecord) (c : CancelIntent)
    (hactive : d.active = true) (hfree : d.imprint.builder = none) (hqueue : d.buildQueue = r :: rest)
    (hcancel : r.cancel = some c) (hroom : d.ringRoom (d.templateWidth c.template) = true) :
    d.buildReady = some (r.number, c.template) := by
  unfold Device.buildReady
  rw [if_neg (by simp [hactive, hfree])]
  simp only [hqueue, hcancel, hroom, if_true]

/-- R90: the builder stands where the mode, the builder, the queue or the ring forbids it. -/
theorem buildReady_none (d : Device)
    (h : d.active = false ∨ d.imprint.builder ≠ none ∨ d.buildQueue = [] ∨
      ∃ r rest c, d.buildQueue = r :: rest ∧ r.cancel = some c ∧ d.ringRoom (d.templateWidth c.template) = false) :
    d.buildReady = none := by
  unfold Device.buildReady
  rcases h with hidle | hbusy | hempty | ⟨r, rest, c, hqueue, hcancel, hroom⟩
  · exact if_pos (Or.inl hidle)
  · exact if_pos (Or.inr hbusy)
  · simp only [hempty, ite_self]
  · simp only [hqueue, hcancel, hroom, Bool.false_eq_true, if_false, ite_self]

/-- R84: an imprint has the columns of its template's width. -/
theorem compose_length (d : Device) (t seq : Nat) : (d.compose t seq).length = d.templateWidth t := by
  simp [Device.compose]

/-- R92: the sequence number runs from 1 to 999999. -/
theorem nextSequence_eq (n : Nat) : nextSequence n = if n < 999999 then n + 1 else 1 := by
  show (if 999999 ≤ n then 1 else n + 1) = _
  by_cases hlast : 999999 ≤ n
  · rw [if_pos hlast, if_neg (Nat.not_lt.2 hlast)]
  · rw [if_neg hlast, if_pos (Nat.lt_of_not_le hlast)]

/-- R91: the begin of a build written as one record of the whole part. -/
theorem beginBuild_eq (d : Device) (n : RecNo) (t : Nat) : beginBuild d n t =
    let seq := if d.imprint.sequence < 999999 then d.imprint.sequence + 1 else 1
    { d with
      track := { d.track with queue := d.track.queue.map (fun q =>
        if q.number = n then
          { q with
            imprint := .building
            sequence := some seq
            buildDate := if d.clock.valid then some d.clock.date else none }
        else q) }
      imprint := { d.imprint with
        builder := some n
        ring := d.imprint.ring ++ [{ number := n, start := d.imprint.alloc, columns := d.compose t seq }]
        alloc := (d.imprint.alloc + max 1 (d.num 8 t 0)) % 1024
        sequence := seq }
      tally := { d.tally with
        counters := upd d.tally.counters 51 (d.tally.counters[(51 : Fin 56)] + 1) } } := by
  have halloc (seq : Nat) : (d.imprint.alloc + (d.compose t seq).length) % 1024 =
      (d.imprint.alloc + max 1 (d.num 8 t 0)) % 1024 := by
    rw [compose_length]
    rfl
  unfold beginBuild
  rw [nextSequence_eq, ← halloc]
  rfl

/-- R93: the completion of the build in progress. -/
theorem buildComplete_taken (n : RecNo) (d : Device) (h : d.imprint.builder = some n) :
    buildComplete n d = applyPoint (freeBuilder (d.modify n (fun r => { r with imprint := .built }))) := if_pos h

/-- R93: the completion of another build is void. -/
theorem buildComplete_void (n : RecNo) (d : Device) (h : d.imprint.builder ≠ some n) : buildComplete n d = d :=
  if_neg h

/-- R90 to R93: the begin and the completion of a build. -/
theorem build_events (s : State) : let d := s.dev
    (∀ r rest c, d.active = true → d.imprint.builder = none → d.buildQueue = r :: rest → r.cancel = some c →
      d.ringRoom (d.templateWidth c.template) = true → exec .buildBegin s = s.after (beginBuild d r.number c.template)) ∧
    (d.buildReady = none → exec .buildBegin s = s.after d) := by
  intro d
  have hexec : exec .buildBegin s = s.after (buildBegin d) := rfl
  rw [hexec]
  unfold buildBegin
  refine ⟨fun r rest c hactive hfree hqueue hcancel hroom => ?_, fun hnone => ?_⟩
  · rw [buildReady_head d r rest c hactive hfree hqueue hcancel hroom]
  · rw [hnone]

/-- R84 step 3: the dots of a line are its image and the shadows of the image. -/
theorem lineDots_get (d : Device) (t line : Nat) (gl : List Glyph) (c n : Nat) (hn : n < 32) :
    (d.lineDots t line gl c).getLsbD n = true ↔ (d.lineImage t line gl c).getLsbD n = true ∨
      (d.num 8 t (10 + 6 * line) ≠ 0 ∧ 0 < c ∧ (d.lineImage t line gl (c - 1)).getLsbD n = true) ∨
      (d.num 8 t (11 + 6 * line) ≠ 0 ∧ 0 < n ∧ (d.lineImage t line gl c).getLsbD (n - 1) = true) := by
  have hright : (if d.lineRightShadow t line ∧ 0 < c then d.lineImage t line gl (c - 1) else 0).getLsbD n = true ↔
      d.num 8 t (10 + 6 * line) ≠ 0 ∧ 0 < c ∧ (d.lineImage t line gl (c - 1)).getLsbD n = true := by
    split
    · next h => simp_all [Device.lineRightShadow, Device.flag]
    · next h => simp_all [Device.lineRightShadow, Device.flag]
  have hdown : (if d.lineDownShadow t line then d.lineImage t line gl c <<< 1 else 0).getLsbD n = true ↔
      d.num 8 t (11 + 6 * line) ≠ 0 ∧ 0 < n ∧ (d.lineImage t line gl c).getLsbD (n - 1) = true := by
    split
    · next h =>
      have hshadow : d.num 8 t (11 + 6 * line) ≠ 0 := by simpa [Device.lineDownShadow, Device.flag] using h
      rw [BitVec.getLsbD_shiftLeft]
      simp only [hshadow, ne_eq, not_false_eq_true, true_and, Bool.and_eq_true, decide_eq_true_eq, Bool.not_eq_true',
        decide_eq_false_iff_not, Nat.not_lt, show n < 64 by omega]
      rfl
    · next h => simp_all [Device.lineDownShadow, Device.flag]
  unfold Device.lineDots
  rw [BitVec.getLsbD_or, BitVec.getLsbD_or, Bool.or_eq_true, Bool.or_eq_true, hright, hdown, or_assoc]

/-- R84 steps 4 and 5: a column is the union of the bar and the lines. -/
theorem compose_get (d : Device) (t seq c n : Nat) (dots : Dots) (hn : n < 32)
    (hc : (d.compose t seq)[c]? = some dots) : c < d.templateWidth t ∧
      (dots.getLsbD n = true ↔ (d.barDots t c).getLsbD n = true ∨ ∃ line, line < d.lineCount t ∧
        (d.lineDots t line (d.lineGlyphs t line seq) c).getLsbD n = true) := by
  obtain ⟨hlt, hget⟩ := List.getElem?_eq_some_iff.1 hc
  rw [compose_length] at hlt
  refine ⟨hlt, ?_⟩
  subst hget
  simp only [Device.compose, List.getElem_map, List.getElem_range, Device.composeColumn, BitVec.getLsbD_setWidth, hn,
    decide_true, Bool.true_and, foldl_or_get, Bool.or_eq_true, List.any_map, List.any_eq_true, List.mem_range,
    Function.comp_apply]

/-- R81: the glyph positions of each code. -/
theorem renderCode_spec (d : Device) (seq code : Nat) :
    let digit (x : Nat) : Option Nat := if d.num 0 0 6 + x % 10 ≤ 127 then some (d.num 0 0 6 + x % 10) else none
    let two (x : Nat) : List (Option Nat) := if d.clock.valid then [digit (x / 10), digit x] else [none, none]
    let month (j : Nat) : Option Nat :=
      if d.num 10 (d.clock.date.month - 1) j ≤ 127 then some (d.num 10 (d.clock.date.month - 1) j) else none
    (code ≤ 127 → d.renderCode seq code = [some code]) ∧ (134 < code → d.renderCode seq code = [none]) ∧
    d.renderCode seq 128 = two d.clock.date.day ∧
    d.renderCode seq 129 = (if d.clock.valid then [month 0, month 1, month 2] else [none, none, none]) ∧
    d.renderCode seq 130 = (if d.clock.valid then
      [digit (d.clock.date.year / 1000), digit (d.clock.date.year / 100), digit (d.clock.date.year / 10),
        digit d.clock.date.year] else [none, none, none, none]) ∧
    d.renderCode seq 131 = two d.clock.hour ∧ d.renderCode seq 132 = two d.clock.minute ∧
    d.renderCode seq 133 = [digit (seq / 100000), digit (seq / 10000), digit (seq / 1000), digit (seq / 100),
      digit (seq / 10), digit seq] ∧
    d.renderCode seq 134 = [digit (d.num 0 0 5 / 100), digit (d.num 0 0 5 / 10), digit (d.num 0 0 5)] := by
  intro digit two month
  have hdigits : ∀ w x, d.digits w x = (List.range w).map (fun i => digit (x / 10 ^ (w - 1 - i))) := fun _ _ => rfl
  have htwo : ∀ x, d.clockDigits 2 x = two x := fun x => by
    simp [Device.clockDigits, hdigits, List.range_succ, two]
  have hfour : ∀ x, d.clockDigits 4 x = if d.clock.valid then
      [digit (x / 1000), digit (x / 100), digit (x / 10), digit x] else [none, none, none, none] := fun x => by
    simp only [Device.clockDigits, hdigits, List.range_succ]
    simp
  refine ⟨fun hcode => if_pos hcode, fun hcode => ?_, htwo _, rfl, hfour _, htwo _, htwo _, ?_, ?_⟩
  · unfold Device.renderCode
    iterate 8 rw [if_neg (by omega)]
  · exact (hdigits 6 seq).trans (by simp [List.range_succ])
  · exact (hdigits 3 (d.num 0 0 5)).trans (by simp [List.range_succ])

/-- Settles O28: the build by its forms, the columns bit by bit, the codes one at a time and the ring by its columns. -/
theorem buildBeginAndComplete : Obligations.BuildBeginAndComplete := by
  refine ⟨fun s => ?_, fun d t seq => ?_, renderCode_spec, ringRoom_iff⟩
  · intro d
    obtain ⟨hbegin, hidle⟩ := build_events s
    refine ⟨fun r rest c hactive hfree hqueue hcancel hroom => ?_, fun h => ?_, fun n hn => ?_, fun n hn => ?_⟩
    · exact (hbegin r rest c hactive hfree hqueue hcancel hroom).trans
        (congrArg s.after (beginBuild_eq d r.number c.template))
    · refine hidle (buildReady_none d ?_)
      refine h.imp_right (Or.imp_right (Or.imp_left fun hnone => ?_))
      unfold Device.buildQueue
      rw [List.filter_eq_nil_iff]
      exact fun q hq => by simpa using hnone q hq
    · exact congrArg s.after (buildComplete_taken n d hn)
    · exact congrArg s.after (buildComplete_void n d hn)
  · intro width glyphs image bar
    refine ⟨compose_length d t seq, fun c n dots hn hc => ?_⟩
    obtain ⟨hwidth, hdots⟩ := compose_get d t seq c n dots hn hc
    have himage : ∀ line c n, n < 32 → c < d.templateWidth t →
        ((d.lineImage t line (d.lineGlyphs t line seq) c).getLsbD n = true ↔ image line c n) :=
      fun line c n hn hc => lineImage_get d t line _ c n hn hc
    rw [hdots]
    refine or_congr (barDots_get d t c n hn) (exists_congr fun line => and_congr_right fun _ => ?_)
    rw [lineDots_get d t line _ c n hn, himage line c n hn hwidth, himage line (c - 1) n hn (by omega),
      himage line c (n - 1) (by omega) hwidth]

end Sys2Proof.Machine

/-! PROOFS. The Report Queue and its arbiter: pages, closes and responses (R136 to R139, R176 to R179). -/

namespace Sys2Proof.Machine

/-! ## The arbiter's test -/

/-- R136: the page that the close deferred freezes. -/
def Device.deferredPage (d : Device) (causes : CloseCauses) : TallyPage :=
  { period := d.tally.period, causes := causes, deferred := true, clockValid := d.clock.valid,
    date := d.clock.date, hour := d.clock.hour, minute := d.clock.minute, second := d.clock.second,
    admission := d.track.admission, counters := d.tally.counters }

/-- R177: with no response waiting the arbiter tests the page alone. -/
theorem arbiter_pages (d : Device) (h : d.responseWaiting = false) : arbiter d = settlePage d := by
  rw [arbiter, placeResponse_none d h]

/-- R138: a page that does not fit waits, and so does the close behind it. -/
theorem settlePage_waits (d : Device) (hpage : d.tally.page ≠ none)
    (hroom : d.responseWaiting = true ∨ d.reportRoom < 120) : settlePage d = d := by
  rw [settlePage, placePage_waits d fun _ => hroom, takeDeferred_none d (.inl hpage), placePage_waits d fun _ => hroom]

/-- R138: the page that fits is placed. -/
theorem arbiter_places (d : Device) (p : TallyPage) (hpage : d.tally.page = some p) (hdeferred : d.tally.deferred = none)
    (hwaiting : d.responseWaiting = false) (hroom : 120 ≤ d.reportRoom) : arbiter d =
      { d with
        tally := { d.tally with page := none }
        report := { d.report with queue := d.report.queue ++ linkFrame p.words } } := by
  rw [arbiter_pages d hwaiting, settlePage_placed d p hpage hdeferred hwaiting hroom]
  rfl

/-- R138: the page that does not fit stays in the page buffer. -/
theorem arbiter_stays (d : Device) (hpage : d.tally.page ≠ none) (hwaiting : d.responseWaiting = false)
    (hroom : d.reportRoom < 120) : arbiter d = d := by
  rw [arbiter_pages d hwaiting, settlePage_waits d hpage (.inr hroom)]

/-- R137, R138: the page that fits is placed, and the close behind it freezes its page, which is offered in turn. -/
theorem settlePage_both (d : Device) (p : TallyPage) (causes : CloseCauses) (hpage : d.tally.page = some p)
    (hdeferred : d.tally.deferred = some causes) (hwaiting : d.responseWaiting = false) (hroom : 120 ≤ d.reportRoom) :
    settlePage d =
      if d.reportRoom < 240 then
        { d with
          tally := { d.tally with
            page := some (d.deferredPage causes), deferred := none
            counters := Vector.replicate 56 0, period := d.tally.period + 1 }
          report := { d.report with queue := d.report.queue ++ linkFrame p.words } }
      else
        { d with
          tally := { d.tally with
            page := none, deferred := none, counters := Vector.replicate 56 0, period := d.tally.period + 1 }
          report := { d.report with
            queue := d.report.queue ++ linkFrame p.words ++ linkFrame (d.deferredPage causes).words } } := by
  let taken : Device := { d with
    tally := { d.tally with
      page := some (d.deferredPage causes), deferred := none
      counters := Vector.replicate 56 0, period := d.tally.period + 1 }
    report := { d.report with queue := d.report.queue ++ linkFrame p.words } }
  have htaken : settlePage d = placePage taken := by
    rw [settlePage, placePage_fits d p hpage hwaiting hroom]
    unfold takeDeferred
    simp only [Device.enqueue, hdeferred]
    rfl
  have hleft : taken.reportRoom = d.reportRoom - 120 := by
    rw [← pageFrame_length p]
    exact reportRoom_enqueue d (linkFrame p.words)
  rw [htaken]
  split
  · exact placePage_waits taken fun _ => .inr (by omega)
  · exact placePage_fits taken _ rfl hwaiting (by omega)

/-- R178: the response that neither fits nor may begin waits whole. -/
theorem placeResponse_full (d : Device) (rest : List LinkWord) (hcommand : d.command = .waiting rest false)
    (hroom : d.reportRoom < rest.length) (hwhole : rest.length ≤ 256 ∨ d.report.queue ≠ []) : placeResponse d = d := by
  have hbegin : (false || (decide (Config.reportWords < rest.length) && d.report.queue.isEmpty)) = false := by
    rcases hwhole with hshort | hqueue
    · simp [show ¬ Config.reportWords < rest.length from Nat.not_lt.2 hshort]
    · simp [hqueue]
  unfold placeResponse
  simp only [hcommand]
  rw [if_neg (Nat.not_le.2 hroom), if_neg (by simp only [hbegin]; exact Bool.false_ne_true)]

/-- R178: the response begun, or one longer than the queue that finds it empty, enters as far as there is room. -/
theorem placeResponse_begins (d : Device) (rest : List LinkWord) (begun : Bool)
    (hcommand : d.command = .waiting rest begun) (hroom : d.reportRoom < rest.length)
    (hbegin : begun = true ∨ 256 < rest.length ∧ d.report.queue = []) :
    placeResponse d =
      { d with
        command := .waiting (rest.drop d.reportRoom) true
        report := { d.report with queue := d.report.queue ++ rest.take d.reportRoom } } := by
  have hbegun : (begun || (decide (Config.reportWords < rest.length) && d.report.queue.isEmpty)) = true := by
    rcases hbegin with rfl | ⟨hlong, hqueue⟩
    · rfl
    · simp [hqueue, show Config.reportWords < rest.length from hlong]
  unfold placeResponse
  simp only [hcommand]
  rw [if_neg (Nat.not_le.2 hroom), if_pos hbegun]
  rfl

/-- R177, R178: a response waits. -/
theorem responseWaiting_waiting (d : Device) (rest : List LinkWord) (begun : Bool)
    (h : d.command = .waiting rest begun) : d.responseWaiting = true := by
  simp [Device.responseWaiting, h]

/-- R177: behind a response that waits whole nothing moves. -/
theorem arbiter_full (d : Device) (rest : List LinkWord) (hcommand : d.command = .waiting rest false)
    (hpage : d.tally.page ≠ none ∨ d.tally.deferred = none)
    (hroom : d.reportRoom < rest.length) (hwhole : rest.length ≤ 256 ∨ d.report.queue ≠ []) : arbiter d = d := by
  rw [arbiter, placeResponse_full d rest hcommand hroom hwhole,
    settlePage_waiting d hpage (responseWaiting_waiting d rest false hcommand)]

/-! ## What the arbiter leaves waiting -/

/-- R178: the response that still waits after its placing is longer than the room. -/
theorem placeResponse_room (d : Device) (rest : List LinkWord) (begun : Bool)
    (h : (placeResponse d).command = .waiting rest begun) : (placeResponse d).reportRoom < rest.length := by
  cases hcommand : d.command with
  | free => simp [placeResponse, hcommand] at h
  | receiving f => simp [placeResponse, hcommand] at h
  | waiting whole b =>
    by_cases hfits : whole.length ≤ d.reportRoom
    · rw [placeResponse_fits d whole b hcommand hfits] at h
      cases h
    · by_cases hbegin : b = true ∨ 256 < whole.length ∧ d.report.queue = []
      · have hroom := reportRoom_enqueue d (whole.take d.reportRoom)
        rw [placeResponse_begins d whole b hcommand (by omega) hbegin] at h ⊢
        cases h
        show (d.enqueue _).reportRoom < _
        rw [hroom, List.length_take, List.length_drop]
        omega
      · rw [not_or, Bool.not_eq_true, not_and_or, Nat.not_lt] at hbegin
        obtain ⟨rfl, hwhole⟩ := hbegin
        rw [placeResponse_full d whole hcommand (by omega) hwhole] at h ⊢
        rw [hcommand] at h
        cases h
        omega

/-- R177: a page in the buffer after its placing waits behind a response or for room. -/
theorem placePage_left (d : Device) (h : (placePage d).tally.page ≠ none) :
    placePage d = d ∧ (d.responseWaiting = true ∨ d.reportRoom < 120) := by
  cases hpage : d.tally.page with
  | none =>
    rw [placePage_waits d fun hsome => absurd hpage hsome] at h
    exact absurd hpage h
  | some p =>
    by_cases hfits : d.responseWaiting = false ∧ 120 ≤ d.reportRoom
    · rw [placePage_fits d p hpage hfits.1 hfits.2] at h
      exact absurd rfl h
    · have hwaits : d.responseWaiting = true ∨ d.reportRoom < 120 := by
        by_contra hneither
        rw [not_or, Bool.not_eq_true, Nat.not_lt] at hneither
        exact hfits hneither
      exact ⟨placePage_waits d fun _ => hwaits, hwaits⟩

/-- R137: a close still deferred after its test is behind a page. -/
theorem takeDeferred_left (d : Device) (h : (takeDeferred d).tally.deferred ≠ none) :
    takeDeferred d = d ∧ d.tally.page ≠ none := by
  cases hpage : d.tally.page with
  | some p =>
    have hstays := takeDeferred_none d (.inl (by simp [hpage]))
    exact ⟨hstays, by simp⟩
  | none =>
    cases hdeferred : d.tally.deferred with
    | none =>
      rw [takeDeferred_none d (.inr hdeferred)] at h
      exact absurd hdeferred h
    | some causes =>
      unfold takeDeferred at h
      simp only [hpage, hdeferred] at h
      exact absurd rfl h

/-- R137, R177: a close deferred after the test of the pages is behind a page that waits. -/
theorem settlePage_deferred_left (d : Device) (h : (settlePage d).tally.deferred ≠ none) :
    (settlePage d).tally.page ≠ none := by
  have hkept : (settlePage d).tally.deferred = (takeDeferred (placePage d)).tally.deferred := by
    unfold settlePage
    generalize takeDeferred (placePage d) = e
    unfold placePage
    split
    · rfl
    · split <;> rfl
  rw [hkept] at h
  obtain ⟨hstays, hpage⟩ := takeDeferred_left _ h
  obtain ⟨hplaced, hwaits⟩ := placePage_left d hpage
  rw [hplaced] at hpage
  rwa [settlePage_waits d hpage hwaits]

/-- R177: behind a response that waits the Report Queue stands. -/
theorem settlePage_report (d : Device) (h : d.responseWaiting = true) : (settlePage d).report = d.report := by
  have hplace : ∀ e : Device, e.responseWaiting = true → placePage e = e := fun e he => placePage_waits e fun _ => .inl he
  have htake : (takeDeferred d).report = d.report ∧ (takeDeferred d).responseWaiting = true := by
    unfold takeDeferred
    split <;> exact ⟨rfl, h⟩
  rw [settlePage, hplace d h, hplace _ htake.2, htake.1]

/-! ## The closes and pages -/

/-- DEFERRED_CLOSE (R137): with the page buffer empty the close deferred is taken. -/
theorem deferredClose_taken (d : Device) (causes : CloseCauses) (hpage : d.tally.page = none)
    (hdeferred : d.tally.deferred = some causes) : deferredClose d = arbiter
      { d with tally := { d.tally with
        deferred := none, page := some (d.deferredPage causes), counters := Vector.replicate 56 0
        period := d.tally.period + 1 } } := by
  unfold deferredClose takeDeferred
  simp only [hpage, hdeferred]
  rfl

/-- DEFERRED_CLOSE (R137): behind a page, or with no close deferred, nothing is taken. -/
theorem deferredClose_void (d : Device) (h : d.tally.page ≠ none ∨ d.tally.deferred = none) : deferredClose d = d := by
  unfold deferredClose
  split
  · next hpage hdeferred => simp [hpage, hdeferred] at h
  · rfl
  · rfl

/-- 12.6: the words of a page, and its eight leading ones. -/
theorem page_words (p : TallyPage) : p.words.length = 120 ∧
    p.words.take 8 =
      [0x8200, p.period,
        word ((if p.causes.command then 1 else 0) + (if p.causes.autoClose then 2 else 0) +
          (if p.deferred then 4 else 0) + (if p.clockValid then 8 else 0)),
        word p.date.year, word (256 * p.date.month + p.date.day), word (256 * p.hour + p.minute), word p.second,
        p.admission] := by
  have hlength := linkFrame_length p.words
  rw [pageFrame_length] at hlength
  refine ⟨hlength.symm, ?_⟩
  have hflags : ∀ (b : Bool) (k : Nat), k * bit b = if b then k else 0 := by
    intro b k
    cases b <;> simp [bit]
  unfold TallyPage.words
  rw [Nat.mul_comm 256 p.date.month, Nat.mul_comm 256 p.hour, ← hflags, ← hflags, ← hflags, ← hflags, Nat.one_mul]
  rfl

/-- Settles O30: the closes by the arbiter's test, and what that test leaves waiting. -/
theorem closesAndPages : Obligations.ClosesAndPages := by
  refine ⟨fun s => ?_, fun p => ⟨(page_words p).1, (page_words p).2, pageWords_get p⟩, fun d => ?_⟩
  · intro d pageOf
    have hclose : exec .deferredClose s = s.after (deferredClose d) := rfl
    have hqueued : exec .tallyPageQueued s = s.after (settlePage d) := rfl
    rw [hclose, hqueued]
    refine ⟨fun causes hpage hdeferred => ?_, fun h => ?_, fun p hpage hdeferred hwaiting hroom => ?_,
      fun p causes hpage hdeferred hwaiting hroom hless => ?_, fun p causes hpage hdeferred hwaiting hroom => ?_,
      fun p hpage hwaits => ?_⟩
    · intro x
      exact ⟨congrArg s.after (deferredClose_taken d causes hpage hdeferred),
        fun hwaiting hroom => arbiter_places x (pageOf causes) rfl rfl hwaiting hroom,
        fun hwaiting hroom => arbiter_stays x (fun hnone => by cases hnone) hwaiting hroom⟩
    · rw [deferredClose_void d h]
    · rw [settlePage_placed d p hpage hdeferred hwaiting hroom]
      rfl
    · rw [settlePage_both d p causes hpage hdeferred hwaiting hroom, if_pos hless]
      rfl
    · rw [settlePage_both d p causes hpage hdeferred hwaiting (by omega), if_neg (by omega)]
      rfl
    · rw [settlePage_waits d (by simp [hpage]) hwaits]
  · intro e
    refine ⟨fun rest begun hcommand => ?_, fun hpage => ?_, settlePage_deferred_left (placeResponse d)⟩
    · have hplaced : (placeResponse d).command = .waiting rest begun := by
        rw [← hcommand]
        exact (settlePage_command _).symm
      have hroom := placeResponse_room d rest begun hplaced
      unfold Device.reportRoom at hroom ⊢
      rwa [show e.report = (placeResponse d).report from
        settlePage_report _ (responseWaiting_waiting _ rest begun hplaced)]
    · obtain ⟨hsame, hwaits⟩ := placePage_left (takeDeferred (placePage (placeResponse d))) hpage
      rwa [show e = takeDeferred (placePage (placeResponse d)) from hsame]

/-! ## The words of the Report Queue -/

/-- R177: with nothing waiting the arbiter changes nothing. -/
theorem arbiter_idle (d : Device) (hcommand : d.command = .free) (hpage : d.tally.page = none)
    (hdeferred : d.tally.deferred = none) : arbiter d = d := by
  rw [arbiter_pages d (responseWaiting_free d hcommand), settlePage_idle d hpage hdeferred]

/-- R176: the head word under way leaves with one strobe. -/
theorem transmitWord_sends (d : Device) (w : LinkWord) (rest : List LinkWord) (hqueue : d.report.queue = w :: rest)
    (hway : d.inputs.reportHold = false ∨ d.report.begun = true) : transmitWord d = arbiter
      { d with report := { queue := rest, begun := false, sent := some w, strobes := d.report.strobes + 1 } } := by
  have hunder : d.underWay = true := by
    rcases hway with h | h <;> simp [Device.underWay, h]
  unfold transmitWord
  simp only [hqueue]
  exact if_pos hunder

/-- R176: with no word under way none leaves. -/
theorem transmitWord_void (d : Device)
    (h : d.report.queue = [] ∨ d.inputs.reportHold = true ∧ d.report.begun = false) : transmitWord d = d := by
  unfold transmitWord
  split
  · rfl
  · next w rest hqueue =>
    rcases h with hempty | ⟨hhold, hbegun⟩
    · rw [hempty] at hqueue
      cases hqueue
    · exact if_neg (by simp [Device.underWay, hhold, hbegun])

/-- R177: of the Report Link the arbiter changes the queue alone. -/
theorem arbiter_report (d : Device) : ∃ queue, (arbiter d).report = { d.report with queue := queue } := by
  have hresponse : ∃ queue, (placeResponse d).report = { d.report with queue := queue } := by
    unfold placeResponse
    split
    · exact ⟨_, rfl⟩
    · exact ⟨_, rfl⟩
    · split
      · exact ⟨_, rfl⟩
      · split <;> exact ⟨_, rfl⟩
  have hpage : ∀ e : Device, ∃ queue, (placePage e).report = { e.report with queue := queue } := fun e => by
    unfold placePage
    split
    · exact ⟨_, rfl⟩
    · split <;> exact ⟨_, rfl⟩
  have htake : ∀ e : Device, (takeDeferred e).report = e.report := fun e => by
    unfold takeDeferred
    split <;> rfl
  obtain ⟨_, hfirst⟩ := hpage (placeResponse d)
  obtain ⟨queue, hsecond⟩ := hpage (takeDeferred (placePage (placeResponse d)))
  obtain ⟨_, hplaced⟩ := hresponse
  refine ⟨queue, ?_⟩
  rw [arbiter, settlePage, hsecond, htake, hfirst, hplaced]

/-- R176: a word sent is on RL-DATA with one strobe more, and none is begun behind it. -/
theorem transmitWord_sent (d : Device) (w : LinkWord) (rest : List LinkWord) (hqueue : d.report.queue = w :: rest)
    (hway : d.inputs.reportHold = false ∨ d.report.begun = true) :
    (transmitWord d).report.sent = some w ∧ (transmitWord d).report.strobes = d.report.strobes + 1 ∧
      (transmitWord d).report.begun = false ∧ (transmitWord d).inputs = d.inputs := by
  rw [transmitWord_sends d w rest hqueue hway]
  obtain ⟨queue, hreport⟩ := arbiter_report { d with report :=
    { queue := rest, begun := false, sent := some w, strobes := d.report.strobes + 1 } }
  rw [hreport]
  exact ⟨rfl, rfl, rfl, arbiter_inputs _⟩

/-- R176: after a word that leaves while REPORT-HOLD is asserted no other leaves. -/
theorem transmitWord_once (d : Device) (h : d.inputs.reportHold = true) :
    transmitWord (transmitWord d) = transmitWord d := by
  by_cases hvoid : d.report.queue = [] ∨ d.report.begun = false
  · have hstays := transmitWord_void d (hvoid.imp_right fun hbegun => ⟨h, hbegun⟩)
    rw [hstays, hstays]
  · obtain ⟨hqueue, hbegun⟩ := not_or.1 hvoid
    obtain ⟨w, rest, hcons⟩ := List.exists_cons_of_ne_nil hqueue
    obtain ⟨-, -, hnone, hinputs⟩ := transmitWord_sent d w rest hcons (.inr (by simpa using hbegun))
    exact transmitWord_void _ (.inr ⟨by rw [hinputs, h], hnone⟩)

/-- R176, R179: an assertion of REPORT-HOLD while it is deasserted finds the head word begun or not. -/
theorem reportHoldChange_asserted (d : Device) (begun : Bool) (h : d.inputs.reportHold = false) :
    reportHoldChange (.asserted begun) d =
      { d with
        inputs := { d.inputs with reportHold := true }
        report := { d.report with begun := begun && decide (d.report.queue ≠ []) } } := by
  unfold reportHoldChange
  simp only [h, Bool.false_eq_true, if_false, Bool.and_comm begun]
  cases d.report.queue <;> rfl

/-- R176: with REPORT-HOLD asserted already an assertion leaves a head word as it is, and finds none in an empty
queue. -/
theorem reportHoldChange_again (d : Device) (begun : Bool) (h : d.inputs.reportHold = true) :
    reportHoldChange (.asserted begun) d =
      { d with report := { d.report with begun := decide (d.report.queue ≠ []) && d.report.begun } } := by
  have hinputs : { d.inputs with reportHold := true } = d.inputs := by rw [← h]
  unfold reportHoldChange
  simp only [hinputs, h, if_true]
  cases d.report.queue <;> rfl

/-- R178: the response that fits is placed whole. -/
theorem arbiter_response (d : Device) (rest : List LinkWord) (begun : Bool) (hcommand : d.command = .waiting rest begun)
    (hfits : rest.length ≤ d.reportRoom) : arbiter d =
      settlePage { d with command := .free, report := { d.report with queue := d.report.queue ++ rest } } := by
  rw [arbiter, placeResponse_fits d rest begun hcommand hfits]
  rfl

/-- R178, R179: the words of the Report Link under REPORT-HOLD. -/
theorem reportHold_run (s : State) (h : s.dev.inputs.reportHold = false) :
    let one := s.run [.reportHoldChange (.asserted true), .reportWordTransmitted]
    (∀ w rest, s.dev.report.queue = w :: rest →
      one.dev.report.sent = some w ∧ one.dev.report.strobes = s.dev.report.strobes + 1) ∧
    s.run [.reportHoldChange (.asserted true), .reportWordTransmitted, .reportWordTransmitted] = one ∧
    s.run [.reportHoldChange (.asserted false), .reportWordTransmitted] =
      s.run [.reportHoldChange (.asserted false)] := by
  intro one
  have hone : one = { s with dev := transmitWord (reportHoldChange (.asserted true) s.dev) } := rfl
  have htwo : s.run [.reportHoldChange (.asserted true), .reportWordTransmitted, .reportWordTransmitted] =
      { s with dev := transmitWord (transmitWord (reportHoldChange (.asserted true) s.dev)) } := rfl
  have hnone : s.run [.reportHoldChange (.asserted false), .reportWordTransmitted] =
      { s with dev := transmitWord (reportHoldChange (.asserted false) s.dev) } := rfl
  have hstill : s.run [.reportHoldChange (.asserted false)] =
      { s with dev := reportHoldChange (.asserted false) s.dev } := rfl
  have hheld : ∀ begun, (reportHoldChange (.asserted begun) s.dev).inputs.reportHold = true := fun _ => rfl
  refine ⟨fun w rest hqueue => ?_, ?_, ?_⟩
  · have hbegun : (reportHoldChange (.asserted true) s.dev).report.begun = true := by
      rw [reportHoldChange_asserted s.dev true h, hqueue]
      rfl
    obtain ⟨hsent, hstrobes, -⟩ := transmitWord_sent (reportHoldChange (.asserted true) s.dev) w rest hqueue (.inr hbegun)
    rw [hone]
    exact ⟨hsent, hstrobes⟩
  · rw [hone, htwo, transmitWord_once _ (hheld true)]
  · have hbegun : (reportHoldChange (.asserted false) s.dev).report.begun = false := by
      rw [reportHoldChange_asserted s.dev false h]
      rfl
    rw [hnone, hstill, transmitWord_void _ (.inr ⟨hheld false, hbegun⟩)]

/-- Settles O31: the response and the page by the arbiter's test, the words one at a time, the hold by its level. -/
theorem reportQueueWords : Obligations.ReportQueueWords := by
  intro s d
  have hplaced : exec .responsePlaced s = s.after (arbiter d) := rfl
  have hsent : exec .reportWordTransmitted s = s.after (transmitWord d) := rfl
  have hhold : ∀ level, exec (.reportHoldChange level) s = s.after (reportHoldChange level d) := fun _ => rfl
  simp only [hplaced, hsent, hhold]
  refine ⟨fun rest begun hcommand hpage hdeferred hfits => ?_, fun rest begun p hcommand hpage hdeferred hfits => ?_,
    fun rest begun hcommand hpage hroom hbegin => ?_, fun rest hcommand hpage hroom hwhole => ?_,
    fun w rest hqueue hway => ?_, fun hvoid => ?_, rfl, fun begun hdown => ?_, fun begun hup hqueue => ?_,
    fun begun hup hqueue => ?_, reportHold_run s⟩
  · rw [arbiter_response d rest begun hcommand hfits]
    exact congrArg s.after (settlePage_idle _ (by exact hpage) hdeferred)
  · let placed : Device := { d with command := .free, report := { d.report with queue := d.report.queue ++ rest } }
    have hleft : placed.reportRoom = d.reportRoom - rest.length := reportRoom_enqueue d rest
    rw [arbiter_response d rest begun hcommand hfits]
    split
    · next hboth =>
      rw [settlePage_placed placed p hpage hdeferred rfl (by omega)]
      rfl
    · next hless => rw [settlePage_waits placed (by simp [placed, hpage]) (.inr (by omega))]
  · rw [arbiter, placeResponse_begins d rest begun hcommand hroom hbegin]
    exact congrArg s.after (settlePage_waiting _ (by exact hpage) rfl)
  · rw [arbiter_full d rest hcommand hpage hroom hwhole]
  · exact ⟨congrArg s.after (transmitWord_sends d w rest hqueue hway),
      fun hcommand hpage hdeferred => arbiter_idle _ hcommand hpage hdeferred⟩
  · rw [transmitWord_void d hvoid]
  · rw [reportHoldChange_asserted d begun hdown]
  · rw [reportHoldChange_again d begun hup]
    simp only [hqueue, ne_eq, not_false_eq_true, decide_true, Bool.true_and]
  · rw [reportHoldChange_again d begun hup]
    simp only [hqueue, ne_eq, not_true_eq_false, decide_false, Bool.false_and]

end Sys2Proof.Machine

/-! PROOFS. The Day Clock (R103 to R105, R108, R110): the SECOND pulse and what it calls for. -/

namespace Sys2Proof.Machine

/-! ## The calendar -/

/-- R103: the lengths of the months. -/
theorem monthLength_eq (y m : Nat) : monthLength y m = if m = 2 then if y % 4 = 0 then 29 else 28
    else if m = 4 ∨ m = 6 ∨ m = 9 ∨ m = 11 then 30 else 31 := by
  unfold monthLength
  split
  · rfl
  · rfl
  · rfl
  · rfl
  · rfl
  · next h2 h4 h6 h9 h11 =>
    have hlong : ¬ (m = 4 ∨ m = 6 ∨ m = 9 ∨ m = 11) := by
      rintro (h | h | h | h)
      · exact h4 h
      · exact h6 h
      · exact h9 h
      · exact h11 h
    rw [if_neg h2, if_neg hlong]

/-! ## The pulse -/

/-- R103, R108: the second since midnight that a pulse reaches. -/
def DayClock.pulseTarget (c : DayClock) : Int := c.hour * 3600 + c.minute * 60 + c.second + 1 + c.adjust.getD 0

/-- R103: a pulse under RESET, or with Clock Valid off, changes nothing. -/
theorem secondPulse_void (beside : Bool) (d : Device) (h : d.inputs.resetLine = true ∨ d.clock.valid = false) :
    secondPulse beside d = d := if_pos h

/-- R103, R105, R108: a pulse taken moves the clock within the day, past midnight, or to midnight. -/
theorem secondPulse_taken (beside : Bool) (d : Device) (hreset : d.inputs.resetLine = false)
    (hvalid : d.clock.valid = true) : secondPulse beside d =
      let c := { d.clock with adjust := none }
      if 86400 ≤ d.clock.pulseTarget then
        rollover beside d { c.atSecond (d.clock.pulseTarget - 86400).toNat with date := nextDate c.date }
      else if d.clock.pulseTarget < 0 then { d with clock := { c.atSecond 0 with clamped := true } }
      else { d with clock := c.atSecond d.clock.pulseTarget.toNat } := by
  have htaken : ¬ (d.inputs.resetLine = true ∨ d.clock.valid = false) := by simp [hreset, hvalid]
  have htarget : ((({ d.clock with adjust := none } : DayClock).secondOfDay : Nat) : Int) + d.clock.pulseSeconds =
      d.clock.pulseTarget := by
    simp only [DayClock.secondOfDay, DayClock.pulseSeconds, DayClock.pulseTarget]
    push_cast
    omega
  unfold secondPulse
  rw [if_neg htaken]
  unfold moveClock
  simp only [htarget]

/-- R105: the part after a rollover to second `n` of the next day, before any close. -/
def Device.nextDay (d : Device) (n : Nat) : Device :=
  { d with
    clock := { d.clock with
      date := nextDate d.clock.date, hour := n / 3600, minute := n / 60 % 60, second := n % 60, adjust := none }
    imprint := { d.imprint with sequence := 0 }
    attention := { d.attention with
      rollover := some (latchOn d.attention.rollover (.rollover (nextDate d.clock.date))) } }

/-- R105: with auto close off a rollover requests no close; with it on the close follows. -/
theorem secondPulse_rollover (beside : Bool) (d : Device) (n : Nat) (hreset : d.inputs.resetLine = false)
    (hvalid : d.clock.valid = true) (h : d.clock.pulseTarget = 86400 + n) : secondPulse beside d =
      if d.num 0 0 4 ≠ 0 then
        if beside then requestClose (d.nextDay n) { command := false, autoClose := true }
        else arbiter (requestClose (d.nextDay n) { command := false, autoClose := true })
      else d.nextDay n := by
  have hsecond : (d.clock.pulseTarget - 86400).toNat = n := by omega
  rw [secondPulse_taken beside d hreset hvalid]
  simp only [if_pos (show 86400 ≤ d.clock.pulseTarget by omega), hsecond]
  show (if decide (d.num 0 0 4 ≠ 0) = true then _ else _) = _
  simp only [decide_eq_true_eq]
  rfl

/-! ## A CLOSE TALLY that arrives together (R110) -/

/-- R110: when a CLOSE TALLY stands next in the queue. -/
theorem closeTallyNext_spec (d : Device) (rest : List Instr) :
    (∀ tag, d.closeTallyNext (.closeTally tag :: rest) = true ↔
      d.command = .free ∧ d.feed.fifo = [] ∧ d.feed.presented = []) ∧
    (d.closeTallyNext (.frameDelimiterTake :: rest) = true ↔ d.command = .free ∧
      ∃ w ws, d.feed.fifo = w :: ws ∧ w.head = true ∧ frameKindOf (headKind w.data) = some (.command .closeTally)) ∧
    ∀ i, (∀ tag, i ≠ .closeTally tag) → i ≠ .frameDelimiterTake → d.closeTallyNext (i :: rest) = false := by
  refine ⟨fun tag => decide_eq_true_iff, ?_, fun i htally htake => ?_⟩
  · unfold Device.closeTallyNext
    cases hfifo : d.feed.fifo with
    | nil => simp
    | cons w ws => simp [and_assoc]
  · cases i with
    | closeTally tag => exact absurd rfl (htally tag)
    | frameDelimiterTake => exact absurd rfl htake
    | _ => rfl

/-- Settles O29: the pulse by where it takes the clock, and the close it requests by what the page buffer holds. -/
theorem secondPulseMovesTheClock : Obligations.SecondPulseMovesTheClock := by
  intro s d c t
  have hexec : exec .secondPulse s = s.after (secondPulse (d.closeTallyNext s.pending) d) := rfl
  rw [hexec]
  refine ⟨fun hvoid => ?_, fun hreset hvalid hlow hhigh n hn => ?_, fun hreset hvalid hlow => ?_,
    fun hreset hvalid n hn => ?_, closeTallyNext_spec d, rfl, monthLength_eq, fun _ _ _ => rfl⟩
  · rw [secondPulse_void _ d hvoid]
  · have hsecond : d.clock.pulseTarget = n := hn
    rw [secondPulse_taken _ d hreset hvalid]
    simp only [hsecond, if_neg (show ¬ (86400 : Int) ≤ n by omega), if_neg (show ¬ (n : Int) < 0 by omega),
      Int.toNat_natCast]
    rfl
  · have htarget : d.clock.pulseTarget < 0 := hlow
    rw [secondPulse_taken _ d hreset hvalid]
    simp only [if_neg (show ¬ 86400 ≤ d.clock.pulseTarget by omega), if_pos htarget]
    rfl
  · intro x tested full page closed
    rw [secondPulse_rollover _ d n hreset hvalid hn]
    have hfull : ∀ (z : Device) rest, z.command = d.command → z.report = d.report →
        z.tally.page ≠ none ∨ z.tally.deferred = none → full rest → arbiter z = z := by
      rintro z rest hcommand hreport hpage ⟨hrest, hroom, hwhole⟩
      refine arbiter_full z rest (hcommand.trans hrest) hpage ?_ (hreport ▸ hwhole)
      unfold Device.reportRoom
      rwa [hreport]
    refine ⟨fun hoff => ?_, fun hon hpage hdeferred => ?_, fun p hon hpage => ?_, fun causes hon hpage hdeferred => ?_⟩
    · exact congrArg s.after (if_neg (not_not.2 hoff))
    · have hclosed : requestClose (d.nextDay n) { command := false, autoClose := true } = closed :=
        (requestClose_taken (d.nextDay n) _ hpage hdeferred).trans (congrArg (fun valid =>
          ({ closed with tally := { closed.tally with page := some { page with clockValid := valid } } } : Device)) hvalid)
      rw [if_pos hon, hclosed]
      exact ⟨rfl, fun hwaiting hroom => arbiter_places closed page rfl hdeferred hwaiting hroom,
        fun hwaiting hroom => arbiter_stays closed (fun hnone => by cases hnone) hwaiting hroom,
        fun rest hrest => hfull closed rest rfl rfl (.inr hdeferred) hrest⟩
    · intro causes z behind
      have hz : requestClose (d.nextDay n) { command := false, autoClose := true } = z := by
        cases hdeferred : d.tally.deferred with
        | none =>
          rw [requestClose_deferred (d.nextDay n) _ p hpage hdeferred]
          simp only [z, causes, hdeferred]
          rfl
        | some b =>
          rw [requestClose_joined (d.nextDay n) _ b hdeferred]
          simp only [z, causes, hdeferred, Bool.or_false, Bool.or_true]
          rfl
      have hzpage : z.tally.page ≠ none := by simp [z, hpage]
      rw [if_pos hon, hz]
      refine ⟨rfl, fun hwaiting hroom => arbiter_stays z hzpage hwaiting hroom,
        fun rest hrest => hfull z rest rfl rfl (.inl hzpage) hrest, fun hwaiting hroom => ?_⟩
      rw [arbiter_pages z hwaiting, settlePage_both z p causes hpage rfl hwaiting hroom]
      have hbehind : z.deferredPage causes = behind :=
        congrArg (fun valid => ({ behind with clockValid := valid } : TallyPage)) hvalid
      by_cases hless : d.reportRoom < 240
      · rw [if_pos (show z.reportRoom < 240 from hless), if_pos hless, if_pos hless, List.append_nil, hbehind]
      · rw [if_neg (show ¬ z.reportRoom < 240 from hless), if_neg hless, if_neg hless, hbehind]
    · rw [if_pos hon, requestClose_joined (d.nextDay n) _ causes hdeferred]
      simp only [Bool.or_false, Bool.or_true]
      rfl

end Sys2Proof.Machine

/-! PROOFS. The drain completion (R150, R194) and the switches of the bins (R117, R124 to R127). -/

namespace Sys2Proof.Machine

/-! ## The drain completion -/

/-- R150: in DRAIN, with the queue empty and FEED-HELD asserted, the drain completes. -/
theorem drainTest_done (d : Device) (hmode : d.line.mode = .drain) (hqueue : d.track.queue = [])
    (hheld : d.inputs.feedHeld = true) : drainTest d = completeDrain d :=
  if_pos (by simp [Device.drainDone, hmode, hqueue, hheld])

/-- R150: without one of the three the drain is not complete. -/
theorem drainTest_open (d : Device)
    (h : d.line.mode ≠ .drain ∨ d.track.queue ≠ [] ∨ d.inputs.feedHeld = false) : drainTest d = d := by
  rcases h with hmode | hrest
  · exact if_neg (by simp [Device.drainDone, hmode])
  · exact drainTest_not_done d hrest

/-- R194: the entry to IDLE applies what was staged once the cells and the actuators are freed. -/
theorem completeDrain_eq (d : Device) : completeDrain d = reportConditions (applyWrites
    (clearPending (setMode (clearCells (releaseActuators d)) .idle)) (d.window.groups.flatten ++ d.openGroup)) := rfl

/-- Settles O32: the test of R150 in both steps, and the completion by what the application of the staged writes
keeps. -/
theorem feedHeldAndDrainCompletion : Obligations.FeedHeldAndDrainCompletion := by
  refine ⟨fun s level => ?_, fun d => ?_⟩
  · intro d x
    have hchange : exec (.feedHeldChange level) s = s.after (if level then drainTest x else x) := rfl
    have htest : exec .drainCompletion s = s.after (drainTest d) := rfl
    rw [hchange, htest]
    refine ⟨fun hlevel hmode hqueue => ?_, fun hopen => ?_, fun hmode hqueue hheld => ?_, fun hopen => ?_⟩
    · rw [if_pos hlevel, drainTest_done x hmode hqueue hlevel]
    · rcases hopen with hlow | hmode | hqueue
      · rw [hlow]
        rfl
      · rw [drainTest_open x (.inl hmode), ite_self]
      · rw [drainTest_open x (.inr (.inl hqueue)), ite_self]
    · rw [drainTest_done d hmode hqueue hheld]
    · rw [drainTest_open d hopen]
  · intro d' staged i
    have happlied : Applied i d' := applied_completeDrain d
    have hopen : d'.openGroup = [] := by
      unfold Device.openGroup
      rw [happlied.command]
      exact (clearPending_spec (setMode (clearCells (releaseActuators d)) .idle)).2.1
    refine ⟨happlied.mode, fun row => ?cells, ?twist, ?turn, fun k => ?gate, happlied.groups, hopen, happlied.track,
      happlied.command, happlied.inputs, happlied.clock, happlied.feed, happlied.imprint, happlied.totals,
      happlied.period, happlied.selection, happlied.latch, happlied.mask, ?taken⟩
    case cells => simp [happlied.track, i]
    case twist => exact congrArg (fun t : TrackUnit => t.twist.isSome) happlied.track
    case turn => exact congrArg (fun t : TrackUnit => t.turn.isSome) happlied.track
    case gate =>
      have hgates : d'.stacker.gates = Vector.replicate 16 none := happlied.gates
      unfold Device.gateLine
      rw [hgates]
      simp
    case taken =>
      intro hcanonical hstaged
      have hd' : d' = reportConditions (applyWrites i staged) := completeDrain_eq d
      have hentry := takesWrites_entry staged i hcanonical hstaged
      rw [hd']
      exact hentry

/-! ## The switches of the bins -/

/-- A bin is as it was last set. -/
theorem bin_setBin_same (d : Device) (k : Fin 16) (b : Bin) : (d.setBin k b).bin k = b := by
  rw [bin_setBin, if_pos rfl]

/-- The line of a switch is no part of a bin. -/
theorem bin_setBinOutLine (d : Device) (k j : Fin 16) (level : Bool) : (setBinOutLine d k level).bin j = d.bin j := rfl

/-- R125, R127: an out request not taken leaves the switch held. -/
theorem binSwitchAssertion_barred (k : Fin 16) (d : Device) (hreset : d.inputs.resetLine = false) (hk : k = 0)
    (hactive : d.active = true) :
    binSwitchAssertion k d = (setBinOutLine d k true).setBin k { d.bin k with held := true } := by
  have hline : (setBinOutLine d k true).inputs.resetLine ≠ true := by simp [setBinOutLine, hreset]
  have hbarred : (setHeld (setBinOutLine d k true) k true).outBarred k = true := by
    rw [Device.outBarred, decide_eq_true hk]
    exact hactive
  unfold binSwitchAssertion
  simp only [if_neg hline, if_pos hbarred]
  rfl

/-- R124, R127: an out request taken puts the bin OUT, or OUT_PENDING while a route is committed to it. -/
theorem binSwitchAssertion_taken (k : Fin 16) (d : Device) (hreset : d.inputs.resetLine = false)
    (hopen : k ≠ 0 ∨ d.active = false) :
    binSwitchAssertion k d = reportConditions ((setBinOutLine d k true).setBin k
      { d.bin k with
        held := true
        state := if (d.bin k).state = .out ∨ (d.bin k).state = .outPending then (d.bin k).state
          else if (d.bin k).committed = 0 then .out else .outPending }) := by
  have hline : (setBinOutLine d k true).inputs.resetLine ≠ true := by simp [setBinOutLine, hreset]
  have hbarred : (setHeld (setBinOutLine d k true) k true).outBarred k ≠ true := by
    rintro hbar
    obtain ⟨hk, hactive⟩ := (Bool.and_eq_true _ _).mp hbar
    rcases hopen with hother | hidle
    · exact hother (of_decide_eq_true hk)
    · exact Bool.false_ne_true (hidle.symm.trans hactive)
  unfold binSwitchAssertion
  simp only [if_neg hline, if_neg hbarred]
  rw [outRequest_eq, setHeld, setBin_setBin]
  simp only [bin_setBin_same, bin_setBinOutLine]

/-- R126, R127: a return request settles the bin, its fill kept if it was OUT_PENDING and 0 if not. -/
theorem binSwitchRelease_taken (k : Fin 16) (d : Device) (hreset : d.inputs.resetLine = false) :
    let fill := if (d.bin k).state = .outPending then (d.bin k).fill else 0
    binSwitchRelease k d = reportConditions ((setBinOutLine d k false).setBin k
      { d.bin k with
        held := false
        fill := fill
        state := if d.binEnable k = false then .disabled
          else if k = 0 then .active
          else if fill + (d.bin k).committed < d.binCapacity k then .active
          else .full }) := by
  intro fill
  have hline : (setBinOutLine d k false).inputs.resetLine ≠ true := by simp [setBinOutLine, hreset]
  unfold binSwitchRelease
  simp only [if_neg hline]
  unfold returnRequest setHeld
  simp only [setBin_setBin, bin_setBin_same, bin_setBinOutLine, fill]
  split <;> rfl

/-- Settles O33: the edges by whether RESET is asserted and by whether the out request is taken. -/
theorem binOutSwitches : Obligations.BinOutSwitches := by
  intro s k d b lined
  have hassert : exec (.binOutSwitchAssertion k) s = s.after (binSwitchAssertion k d) := rfl
  have hrelease : exec (.binOutSwitchRelease k) s = s.after (binSwitchRelease k d) := rfl
  rw [hassert, hrelease]
  exact ⟨fun hreset => ⟨congrArg s.after (if_pos hreset), congrArg s.after (if_pos hreset)⟩,
    fun hreset hk hactive => congrArg s.after (binSwitchAssertion_barred k d hreset hk hactive),
    fun hreset hopen => congrArg s.after (binSwitchAssertion_taken k d hreset hopen),
    fun hreset => congrArg s.after (binSwitchRelease_taken k d hreset)⟩

end Sys2Proof.Machine

/-! PROOFS. The words of the Feed Link (R164 to R169, R184 to R186): what the FIFO takes and what the delimiter makes of
the word at its head. -/

namespace Sys2Proof.Machine

/-! ## The Feed Input FIFO -/

/-- R164, R165: a word accepted is the last of the FIFO, and brings LINK-BUSY where it is the 480th. -/
theorem acceptWord_eq (d : Device) (w : LinkWord) : acceptWord d w = { d with feed := { d.feed with
    fifo := d.feed.fifo ++ [w], busy := d.feed.busy || decide (d.feed.fifo.length = 479) } } := by
  have hbusy : ((d.feed.fifo ++ [w]).length = Config.busyAt) = (d.feed.fifo.length = 479) := by
    simp [Config.busyAt]
  unfold acceptWord
  simp only [hbusy]

/-- R164, R165: a word that leaves the full FIFO makes room for the word presented first, with LINK-BUSY kept. -/
theorem popWord_full (d : Device) (v w : LinkWord) (rest ps : List LinkWord) (hfifo : d.feed.fifo = v :: rest)
    (hfull : rest.length = 511) (hpresented : d.feed.presented = w :: ps) :
    popWord d = { d with feed := { d.feed with fifo := rest ++ [w], presented := ps } } := by
  unfold popWord
  simp [hfifo, hpresented, hfull, acceptWord_eq, Config.releaseAt]

/-- R167: a body word goes to the delimiter as its state has it. -/
theorem take_body (pulse : Bool) (d : Device) (w : LinkWord) (rest : List LinkWord) (hfifo : d.feed.fifo = w :: rest)
    (hwaiting : d.responseWaiting = false) (hbody : w.head = false) :
    frameDelimiterTake pulse d = takeBody pulse (popWord d) w.data := by
  simp [frameDelimiterTake, hfifo, hwaiting, hbody]

/-- R167: a head word first ends what is open, and waits while the response of what it ended waits. -/
theorem take_head (pulse : Bool) (d : Device) (w : LinkWord) (rest : List LinkWord) (hfifo : d.feed.fifo = w :: rest)
    (hwaiting : d.responseWaiting = false) (hhead : w.head = true) :
    frameDelimiterTake pulse d =
      if (endOpen d).responseWaiting then endOpen d else openHead pulse (popWord (endOpen d)) w.data := by
  simp [frameDelimiterTake, hfifo, hwaiting, hhead]

/-- R164: nothing is taken from an empty FIFO or while a response waits. -/
theorem take_none (pulse : Bool) (d : Device) (h : d.feed.fifo = [] ∨ d.responseWaiting = true) :
    frameDelimiterTake pulse d = d := by
  unfold frameDelimiterTake
  split
  · rfl
  · next w rest hfifo =>
    rcases h with hempty | hwaiting
    · rw [hempty] at hfifo
      cases hfifo
    · exact if_pos hwaiting

/-- R167: a head word that ends nothing opens its frame. -/
theorem take_head_settled (pulse : Bool) (d : Device) (w : LinkWord) (rest : List LinkWord)
    (hfifo : d.feed.fifo = w :: rest) (hpresented : d.feed.presented = []) (hwaiting : d.responseWaiting = false)
    (hhead : w.head = true) (hsettled : d.feed.delim.settled = true) :
    frameDelimiterTake pulse d = openHead pulse (d.shrunk rest) w.data := by
  rw [take_head pulse d w rest hfifo hwaiting hhead, endOpen_settled d hsettled, hwaiting,
    popWord_shrunk d w rest hfifo hpresented]
  rfl

/-- Settles O34: the word presented by the room of the FIFO, and the word that leaves it. -/
theorem feedLinkWordTaken : Obligations.FeedLinkWordTaken := by
  intro s w d
  have hexec : exec (.feedLinkWord w) s = s.after (feedLinkWord w d) := rfl
  have htake : exec .frameDelimiterTake s = s.after (frameDelimiterTake (pulseNext s.pending) d) := rfl
  rw [hexec, htake]
  unfold feedLinkWord
  refine ⟨fun hreset => ?_, fun hreset hnone hroom => ?_, fun hreset hfull => ?_,
    fun v rest ps hcommand hdelim hbody hfifo hfull hpresented => ?_⟩
  · rw [if_pos hreset]
  · rw [if_neg (by simp [hreset]), if_pos ⟨hnone, hroom⟩, acceptWord_eq]
  · rw [if_neg (by simp [hreset]), if_neg]
    rintro ⟨hnone, hroom⟩
    rcases hfull with hsome | hless
    · exact hsome hnone
    · exact absurd hless (Nat.not_le.2 hroom)
  · rw [take_body _ d v rest hfifo (responseWaiting_free d hcommand) hbody,
      popWord_full d v w rest ps hfifo hfull hpresented]
    unfold takeBody
    simp only [hdelim]

/-! ## A head word opens its frame (R167, R168) -/

theorem openHead_unknown (pulse : Bool) (d : Device) (w : Word) (h : frameKindOf (headKind w) = none) :
    openHead pulse d w = (setDelim d .discard).erred (.unknownKind w) := by
  simp only [openHead, h, linkError_eq_erred]

theorem openHead_badCount (pulse : Bool) (d : Device) (w : Word) (side : Side)
    (h : frameKindOf (headKind w) = some (.scan side)) (hcount : 8 < (headQualifier w).toNat) :
    openHead pulse d w = (setDelim d .discard).erred (.badCount side (headQualifier w).toNat) := by
  simp only [openHead, h, linkError_eq_erred]
  exact if_pos hcount

theorem openHead_part (pulse : Bool) (d : Device) (w : Word) (side : Side)
    (h : frameKindOf (headKind w) = some (.scan side)) (hcount : (headQualifier w).toNat ≤ 8) :
    openHead pulse d w = setDelim d (.opened (.scan side) (headQualifier w) []) := by
  simp only [openHead, h]
  exact if_neg (Nat.not_lt.2 hcount)

theorem openHead_fixed (pulse : Bool) (d : Device) (w : Word) (c : CommandKind) (n : Nat)
    (h : frameKindOf (headKind w) = some (.command c))
    (hlength : bodyLength (.command c) (headQualifier w) = some (n + 1)) :
    openHead pulse d w = setDelim d (.opened (.command c) (headQualifier w) []) := by
  simp only [openHead, h, hlength]

theorem openHead_whole (pulse : Bool) (d : Device) (w : Word) (c : CommandKind)
    (h : frameKindOf (headKind w) = some (.command c)) (hlength : bodyLength (.command c) (headQualifier w) = some 0) :
    openHead pulse d w = handOn pulse (setDelim d (.complete (.command c) (headQualifier w))) (.command c)
      (headQualifier w) [] := by
  simp only [openHead, h, hlength]

theorem openHead_openEnded (pulse : Bool) (d : Device) (w : Word) (c : CommandKind)
    (h : frameKindOf (headKind w) = some (.command c)) (hlength : bodyLength (.command c) (headQualifier w) = none) :
    openHead pulse d w = openFrame (setDelim d (.openEnded (.command c) (headQualifier w))) c (headQualifier w) := by
  simp only [openHead, h, hlength]

/-! ## An open-ended frame opens (R184) -/

/-- R184: a write frame refused at its opening. -/
theorem openFrame_refused (d : Device) (kind : CommandKind) (q : BitVec 8) (r : ResultCode) (hkind : kind ≠ .nop)
    (h : d.writeRefusal = some r) : openFrame d kind q = setFrame d (newFrame kind q (some r) 0) := by
  unfold openFrame
  rw [if_neg hkind, h]

/-- R184: a write frame opens at cursor 0, or continues at the cursor. -/
theorem openFrame_writes (d : Device) (kind : CommandKind) (q : BitVec 8) (v : Window) (hkind : kind ≠ .nop)
    (h : d.writeRefusal = none) (hwindow : d.window.selection = some v) :
    openFrame d kind q = setFrame (setWindow d { v with cursor := if kind = .writeWindow then 0 else v.cursor })
      (newFrame kind q none (if kind = .writeWindow then 0 else v.cursor)) := by
  unfold openFrame
  rw [if_neg hkind, h]
  simp only [hwindow]
  split <;> rfl

/-- R184: why a write frame is refused: no window, a table not written, table 7 outside IDLE, no group left. -/
theorem writeRefusal_spec (d : Device) :
    (d.window.selection = none → d.writeRefusal = some .noWindow) ∧
    ∀ v, d.window.selection = some v →
      (v.table = 13 ∨ v.table = 14 → d.writeRefusal = some .readOnly) ∧
      (v.table = 7 → d.line.mode ≠ .idle → d.writeRefusal = some .refusedMode) ∧
      (v.table ≠ 13 → v.table ≠ 14 → (v.table = 7 → d.line.mode = .idle) →
        (d.active = true → 32 ≤ d.window.groups.length → d.writeRefusal = some .pendingFull) ∧
        (d.active = false ∨ d.window.groups.length < 32 → d.writeRefusal = none)) := by
  unfold Device.writeRefusal
  refine ⟨fun hnone => by simp only [hnone], fun v hsome => ?_⟩
  simp only [hsome]
  refine ⟨fun hread => if_pos hread, fun hseven hmode => ?_, fun h13 h14 h7 => ?_⟩
  · rw [if_neg (by omega), if_pos ⟨hseven, hmode⟩]
  · rw [if_neg (by tauto), if_neg (by tauto)]
    refine ⟨fun hactive hfull => if_pos ⟨hactive, hfull⟩, fun hroom => if_neg ?_⟩
    rintro ⟨hactive, hfull⟩
    rcases hroom with hidle | hless
    · simp [hidle] at hactive
    · exact absurd hfull (Nat.not_le.2 hless)

/-! ## A body word (R167, R168, R184, R185) -/

/-- The delimiter set to the state it is in. -/
theorem setDelim_same (d : Device) (x : Delimiter) (h : d.feed.delim = x) : setDelim d x = d := by
  rw [← h]
  rfl

theorem takeBody_stray (pulse : Bool) (d : Device) (v : Word) (h : d.feed.delim = .noFrame) :
    takeBody pulse d v = (setDelim d .stray).erred .strayBody := by
  simp only [takeBody, h, linkError_eq_erred]

theorem takeBody_ignored (pulse : Bool) (d : Device) (v : Word) (h : d.feed.delim = .stray ∨ d.feed.delim = .discard) :
    takeBody pulse d v = d := by
  rcases h with h | h <;> simp only [takeBody, h]

theorem takeBody_complete (pulse : Bool) (d : Device) (v : Word) (kind : FrameKind) (q : BitVec 8)
    (h : d.feed.delim = .complete kind q) :
    takeBody pulse d v = (countExcess (setDelim d (.excess kind q)) kind).erred (.excessBody kind q) := by
  simp only [takeBody, h, linkError_eq_erred]

theorem takeBody_excess (pulse : Bool) (d : Device) (v : Word) (kind : FrameKind) (q : BitVec 8)
    (h : d.feed.delim = .excess kind q) :
    takeBody pulse d v = countExcess (setDelim d (.excess kind q)) kind := by
  rw [setDelim_same d _ h]
  simp only [takeBody, h]

theorem takeBody_opened (pulse : Bool) (d : Device) (v : Word) (kind : FrameKind) (q : BitVec 8) (body : List Word)
    (n : Nat) (h : d.feed.delim = .opened kind q body) (hlength : bodyLength kind q = some n)
    (hless : body.length + 1 < n) : takeBody pulse d v = setDelim d (.opened kind q (body ++ [v])) := by
  simp only [takeBody, h, hlength, Option.getD_some, List.length_append, List.length_singleton]
  exact if_neg (Nat.not_le.2 hless)

theorem takeBody_last (pulse : Bool) (d : Device) (v : Word) (kind : FrameKind) (q : BitVec 8) (body : List Word)
    (h : d.feed.delim = .opened kind q body) (hlength : bodyLength kind q = some (body.length + 1)) :
    takeBody pulse d v = handOn pulse (setDelim d (.complete kind q)) kind q (body ++ [v]) := by
  simp only [takeBody, h, hlength, Option.getD_some, List.length_append, List.length_singleton]
  exact if_pos (Nat.le_refl _)

theorem takeBody_openEnded (pulse : Bool) (d : Device) (v : Word) (kind : FrameKind) (q : BitVec 8) (f : OpenFrame)
    (h : d.feed.delim = .openEnded kind q) (hcommand : d.command = .receiving f) :
    takeBody pulse d v = frameWord d f v := by
  simp only [takeBody, h, openFrameWord, hcommand]

/-- R184: a word of a frame that writes nothing is counted. -/
theorem frameWord_idle (d : Device) (f : OpenFrame) (v : Word)
    (h : f.kind = .nop ∨ f.refusal ≠ none ∨ f.overflowed = true) :
    frameWord d f v = setFrame d { f with bodyWords := f.bodyWords + 1 } := if_pos h

/-- R184: a word of a frame that writes, past the window's end, at a cell not written or at one that is. -/
theorem frameWord_places (d : Device) (f : OpenFrame) (w : Window) (v : Word) (hkind : f.kind ≠ .nop)
    (hrefusal : f.refusal = none) (hoverflow : f.overflowed = false) (hwindow : d.window.selection = some w) :
    let g := { f with bodyWords := f.bodyWords + 1 }
    let place := w.place w.cursor
    (w.size ≤ w.cursor → frameWord d f v = setFrame (setWindow d w) { g with pastEnd := f.pastEnd + 1 }) ∧
    (w.cursor < w.size → cellReadOnly w.table place.1 place.2 = true →
      frameWord d f v = setFrame (setWindow d w.advance) { g with readOnly := f.readOnly + 1 }) ∧
    (w.cursor < w.size → cellReadOnly w.table place.1 place.2 = false →
      frameWord d f v = writeWord d g w
        { table := w.table, row := place.1, field := place.2, value := heldValue w.table place.2 v }) := by
  intro g place
  have hwrites : ¬ (f.kind = .nop ∨ f.refusal ≠ none ∨ f.overflowed = true) := by simp [hkind, hrefusal, hoverflow]
  have hsame : setWindow d w = d := by
    unfold setWindow
    rw [← hwindow]
  have hend : w.atEnd = decide (w.size ≤ w.cursor) := rfl
  unfold frameWord
  simp only [hwindow, if_neg hwrites, hend, decide_eq_true_eq]
  refine ⟨fun hpast => ?_, fun hin hread => ?_, fun hin hwrite => ?_⟩
  · rw [if_pos hpast, hsame]
  · rw [if_neg (Nat.not_le.2 hin), if_pos hread]
  · rw [if_neg (Nat.not_le.2 hin), if_neg (by simp [place, hwrite])]

/-! ## A head word ends the frame that is open (R167 to R169, R186) -/

/-- R168: a fixed frame that a head word cuts short. -/
theorem endOpen_opened (d : Device) (kind : FrameKind) (q : BitVec 8) (body : List Word) (n : Nat)
    (h : d.feed.delim = .opened kind q body) (hlength : bodyLength kind q = some n) :
    endOpen d = (setDelim d .discard).erred (.shortFrame kind body.length n) := by
  simp only [endOpen, h, hlength, Option.getD_some, linkError_eq_erred]

/-- R169: an open-ended frame is closed. -/
theorem endOpen_openEnded (d : Device) (kind : FrameKind) (q : BitVec 8) (h : d.feed.delim = .openEnded kind q) :
    endOpen d = closeFrame (setDelim d (.complete kind q)) := by
  simp only [endOpen, h]

/-- R167: what a head word ends is ended once: the take is that of the part in which it has ended. -/
theorem take_head_ended (pulse : Bool) (d e : Device) (w : LinkWord) (rest : List LinkWord)
    (hfifo : d.feed.fifo = w :: rest) (hwaiting : d.responseWaiting = false) (hhead : w.head = true)
    (hended : endOpen d = e) (hefifo : e.feed.fifo = w :: rest) (hewaiting : e.responseWaiting = false) :
    frameDelimiterTake pulse d = frameDelimiterTake pulse e := by
  have hsettled : endOpen e = e := by
    rw [← hended]
    exact endOpen_settled _ (endOpen_settles d).1
  rw [take_head pulse d w rest hfifo hwaiting hhead, take_head pulse e w rest hefifo hewaiting hhead, hsettled, hended]

/-- R168: a head word that cuts a fixed frame short is taken in the part with the error counted. -/
theorem take_head_short (pulse : Bool) (d : Device) (w : LinkWord) (rest : List LinkWord) (kind : FrameKind)
    (q : BitVec 8) (body : List Word) (n : Nat) (hfifo : d.feed.fifo = w :: rest) (hwaiting : d.responseWaiting = false)
    (hhead : w.head = true) (hdelim : d.feed.delim = .opened kind q body) (hlength : bodyLength kind q = some n) :
    frameDelimiterTake pulse d =
      frameDelimiterTake pulse ((setDelim d .discard).erred (.shortFrame kind body.length n)) :=
  take_head_ended pulse d _ w rest hfifo hwaiting hhead (endOpen_opened d kind q body n hdelim hlength) hfifo hwaiting

/-- R186: a frame closed, its response fitting, with no page in the way. -/
theorem closeFrame_answers (d : Device) (f : OpenFrame) (hcommand : d.command = .receiving f)
    (hpage : d.tally.page = none) (hdeferred : d.tally.deferred = none)
    (hroom : 5 + (frameAnswer f).words.length ≤ d.reportRoom) :
    let z : Device :=
      { d with
        command := .free
        feed := { d.feed with excess := 0 }
        window := { d.window with groups := if f.group = [] then d.window.groups else d.window.groups ++ [f.group] }
        report := { d.report with
          queue := d.report.queue ++ linkFrame (responseWords f.kind f.tag d.feed.excess (frameAnswer f)) } }
    closeFrame d = if f.group = [] then z else applyPoint z := by
  intro z
  have hanswered : respond (closeGroup d f) f.kind f.tag (frameAnswer f) = z := by
    rw [respond_fits (closeGroup d f) f.kind f.tag (frameAnswer f) hroom]
    refine (settlePage_idle _ ?_ ?_).trans ?_
    · exact hpage
    · exact hdeferred
    · simp only [z, closeGroup, Device.enqueue, List.isEmpty_iff]
  unfold closeFrame
  simp only [hcommand, hanswered, List.isEmpty_iff]

/-- R185: a word written at once in IDLE and HALTED. -/
theorem writeWord_now (d : Device) (f : OpenFrame) (w : Window) (cell : CellWrite) (h : d.active = false) :
    writeWord d f w cell = writeNow (setFrame (setWindow d w.advance) { f with written := f.written + 1 }) cell := by
  simp [writeWord, h]

/-- R185, R186: a word staged in RUN and DRAIN, or the frame that overflows. -/
theorem writeWord_staged (d : Device) (f : OpenFrame) (w : Window) (cell : CellWrite) (h : d.active = true) :
    writeWord d f w cell =
      if d.window.groups.flatten.length + f.group.length < 256 then
        setFrame (setWindow d w.advance) { f with group := f.group ++ [cell], written := f.written + 1 }
      else setFrame (setWindow d { w with cursor := f.start }) { f with group := [], overflowed := true } :=
  if_pos h

/-- Settles O35: the word at the head by its mark and the delimiter's state, through `take_body` and `take_head`. -/
theorem delimiterTakesWords : Obligations.DelimiterTakesWords := by
  intro s d
  have hexec : ∀ e : Device, exec .frameDelimiterTake { s with dev := e } =
      s.after (frameDelimiterTake (pulseNext s.pending) e) := fun _ => rfl
  have htake : exec .frameDelimiterTake s = s.after (frameDelimiterTake (pulseNext s.pending) d) := rfl
  rw [htake]
  refine ⟨fun hnone => ?_, fun w rest hfifo hpresented hcommand => ?_,
    fun w rest kind q f hfifo hpresented hdelim hcommand => ?_,
    fun w rest kind q body n hfifo hwaiting hhead hdelim hlength => ?_⟩
  · rw [take_none _ d hnone]
  · intro moved counted
    have hwaiting := responseWaiting_free d hcommand
    have hbody : w.head = false → frameDelimiterTake (pulseNext s.pending) d =
        takeBody (pulseNext s.pending) (d.shrunk rest) w.data := fun hbody => by
      rw [take_body _ d w rest hfifo hwaiting hbody, popWord_shrunk d w rest hfifo hpresented]
    have hhead : w.head = true → d.feed.delim.settled = true → frameDelimiterTake (pulseNext s.pending) d =
        openHead (pulseNext s.pending) (d.shrunk rest) w.data :=
      take_head_settled _ d w rest hfifo hpresented hwaiting
    have hcounted : ∀ kind q, countExcess (setDelim (d.shrunk rest) (.excess kind q)) kind = counted kind q := by
      intro kind q
      cases kind <;> rfl
    refine ⟨fun hw => ?_, fun hw hsettled => ?_, fun hw kind q body n c m hdelim hlength hkind hnext => ?_,
      fun hw kind q body hdelim hlength => ?_, fun hw hsettled c hkind => ?_⟩
    · rw [hbody hw]
      refine ⟨fun hdelim => ?_, fun hdelim => ?_, fun kind q hdelim => ?_, fun kind q hdelim => ?_,
        fun kind q body n hdelim hlength hless => ?_⟩
      · rw [takeBody_stray _ (d.shrunk rest) _ hdelim]
        rfl
      · rw [takeBody_ignored _ (d.shrunk rest) _ hdelim]
      · rw [takeBody_complete _ (d.shrunk rest) _ kind q hdelim, hcounted]
      · rw [takeBody_excess _ (d.shrunk rest) _ kind q hdelim, hcounted]
      · rw [takeBody_opened _ (d.shrunk rest) _ kind q body n hdelim hlength hless]
        rfl
    · rw [hhead hw hsettled]
      refine ⟨fun hkind => ?_, fun side hkind hcount => ?_, fun side hkind hcount => ?_, fun c n hkind hlength => ?_⟩
      · rw [openHead_unknown _ _ _ hkind]
        rfl
      · rw [openHead_badCount _ _ _ side hkind hcount]
        rfl
      · rw [openHead_part _ _ _ side hkind hcount]
        rfl
      · rw [openHead_fixed _ _ _ c n hkind hlength]
        rfl
    · let cut := (setDelim d .discard).erred (.shortFrame kind body.length n)
      rw [take_head_short _ d w rest kind q body n hfifo hwaiting hw hdelim hlength,
        take_head_settled _ cut w rest hfifo hpresented hwaiting hw rfl, openHead_fixed _ _ _ c m hkind hnext]
      rfl
    · rw [hbody hw, takeBody_last _ (d.shrunk rest) _ kind q body hdelim hlength]
      rfl
    · intro q opened x
      rw [hhead hw hsettled]
      have hx : ∀ r, x.writeRefusal = r → (d.shrunk rest).writeRefusal = r := fun _ h => h
      refine ⟨fun hlength => ?_, fun hnop => ?_, fun hwrite => ?_⟩
      · rw [openHead_whole _ _ _ c hkind hlength]
        rfl
      · subst hnop
        rw [openHead_openEnded _ _ _ .nop hkind rfl]
        rfl
      · have hlength : bodyLength (.command c) q = none := by rcases hwrite with rfl | rfl <;> rfl
        have hnop : c ≠ .nop := by rcases hwrite with rfl | rfl <;> exact fun h => by cases h
        rw [openHead_openEnded _ _ _ c hkind hlength]
        obtain ⟨hnone, hsome⟩ := writeRefusal_spec x
        have hrefused : ∀ r, x.writeRefusal = some r → s.after (openFrame x c q) =
            s.after { x with command := opened (some r) 0 } := fun r h =>
          congrArg s.after (openFrame_refused x c q r hnop h)
        refine ⟨fun hwindow => hrefused _ (hnone hwindow), fun v hwindow => ?_⟩
        obtain ⟨hread, hmode, hopen⟩ := hsome v hwindow
        refine ⟨fun h => hrefused _ (hread h), fun h7 h => hrefused _ (hmode h7 h), fun h13 h14 h7 => ?_⟩
        obtain ⟨hfull, hroom⟩ := hopen h13 h14 h7
        exact ⟨fun hactive hgroups => hrefused _ (hfull hactive hgroups),
          fun hgroups => congrArg s.after (openFrame_writes x c q v hnop (hroom hgroups) hwindow)⟩
  · intro g placed
    have hwaiting : d.responseWaiting = false := by simp [Device.responseWaiting, hcommand]
    have hbody : w.head = false → frameDelimiterTake (pulseNext s.pending) d = frameWord (d.shrunk rest) f w.data := by
      intro hbody
      rw [take_body _ d w rest hfifo hwaiting hbody, popWord_shrunk d w rest hfifo hpresented,
        takeBody_openEnded _ (d.shrunk rest) _ kind q f hdelim hcommand]
    refine ⟨fun hw hidle => ?_, fun hw hkind hrefusal hoverflow v hwindow => ?_, fun hw => ?_⟩
    · rw [hbody hw, frameWord_idle _ f _ hidle]
      rfl
    · intro place cell cells
      rw [hbody hw]
      obtain ⟨hpast, hread, hwrite⟩ := frameWord_places (d.shrunk rest) f v w.data hkind hrefusal hoverflow hwindow
      refine ⟨fun hend => ?_, fun hin hro => ?_, fun hin hro hactive hroom => ?_, fun hin hro hactive hfull => ?_,
        fun hin hro hidle hcanonical htable => ?_⟩
      · rw [hpast hend]
        rfl
      · rw [hread hin hro]
        rfl
      · rw [hwrite hin hro, writeWord_staged (d.shrunk rest) _ _ _ hactive, if_pos (by exact hroom)]
        rfl
      · rw [hwrite hin hro, writeWord_staged (d.shrunk rest) _ _ _ hactive, if_neg (by exact Nat.not_lt.2 hfull)]
        rfl
      · refine ⟨_, by rw [hwrite hin hro, writeWord_now (d.shrunk rest) _ _ _ hidle], ?_⟩
        obtain ⟨hrow, hfield⟩ := v.place_inTable v.cursor htable hin
        refine takesWrites_afterWrites [cell] _ hcanonical fun x hx => ?_
        rw [List.mem_singleton.1 hx]
        exact ⟨hrow, hfield, hro⟩
    · intro e
      have hended : endOpen d = e := endOpen_openEnded d kind q hdelim
      have hefifo : e.feed.fifo = w :: rest := (closeFrame_fifo _).trans hfifo
      refine ⟨fun hewaiting => ?_, fun hewaiting => ?_, fun hpage hdeferred hroom => ?_⟩
      · rw [take_head _ d w rest hfifo hwaiting hw, hended, if_pos hewaiting]
      · rw [hexec, take_head_ended _ d e w rest hfifo hwaiting hw hended hefifo hewaiting]
      · exact closeFrame_answers _ f hcommand hpage hdeferred hroom
  · rw [hexec, take_head_short _ d w rest kind q body n hfifo hwaiting hhead hdelim hlength]
    rfl

end Sys2Proof.Machine

/-! PROOFS. A fixed frame word by word (R167, R169, R170), and the scan parts (R28 to R38). -/

namespace Sys2Proof.Machine

/-! ## A fixed frame word by word -/

/-- R167, R169: a head word opens the fixed frame that its words in the FIFO complete. -/
theorem openHead_fixedFrame (pulse : Bool) (d : Device) (w : Word) (kind : FrameKind) (n : Nat)
    (hkind : frameKindOf (headKind w) = some kind) (hcount : ∀ side, kind = .scan side → (headQualifier w).toNat ≤ 8)
    (hlength : bodyLength kind (headQualifier w) = some n) :
    openHead pulse d w =
      if n = 0 then handOn pulse (setDelim d (.complete kind (headQualifier w))) kind (headQualifier w) []
      else setDelim d (.opened kind (headQualifier w) []) := by
  cases kind with
  | scan side =>
    have hbody : n ≠ 0 := by
      cases side <;> simp only [bodyLength, Option.some.injEq] at hlength <;> omega
    rw [if_neg hbody, openHead_part pulse d w side hkind (hcount side rfl)]
  | command c =>
    cases n with
    | zero => rw [if_pos rfl, openHead_whole pulse d w c hkind hlength]
    | succ n => rw [if_neg (Nat.succ_ne_zero n), openHead_fixed pulse d w c n hkind hlength]

/-- R167, R169: the takes of a whole fixed frame hand it on. -/
theorem run_fixedFrame (s : State) (w : LinkWord) (kind : FrameKind) (body : List Word) (rest : List LinkWord)
    (hlistening : s.dev.listening) (hpresented : s.dev.feed.presented = []) (hhead : w.head = true)
    (hkind : frameKindOf (headKind w.data) = some kind)
    (hcount : ∀ side, kind = .scan side → (headQualifier w.data).toNat ≤ 8)
    (hlength : bodyLength kind (headQualifier w.data) = some body.length)
    (hfifo : s.dev.feed.fifo = w :: body.map (fun v => { head := false, data := v }) ++ rest) :
    s.run (List.replicate (body.length + 1) .frameDelimiterTake) =
      { s with
        dev := handOn (pulseNext s.pending) (setDelim (s.dev.shrunk rest) (.complete kind (headQualifier w.data))) kind
          (headQualifier w.data) body } := by
  obtain ⟨-, hfree, hsettled⟩ := hlistening
  have hopen := take_head_settled (pulseNext s.pending) s.dev w _ hfifo hpresented (responseWaiting_free _ hfree) hhead
    hsettled
  rw [openHead_fixedFrame _ _ _ kind body.length hkind hcount hlength] at hopen
  rw [run_take_succ, hopen]
  cases body with
  | nil => rfl
  | cons v body =>
    let behind := (v :: body).map (fun v => ({ head := false, data := v } : LinkWord)) ++ rest
    let opened := setDelim (s.dev.shrunk behind) (.opened kind (headQualifier w.data) [])
    have hshrunk : opened.shrunk rest = setDelim (s.dev.shrunk rest) (.opened kind (headQualifier w.data) []) :=
      shrunk_shrunk s.dev (w :: behind) behind rest _ hfifo (by simp) (by simp [behind]; omega)
    have hbody := run_body kind (headQualifier w.data) rest v body [] { s with dev := opened } rfl hpresented hfree
      (by simpa using hlength) rfl
    rw [if_neg (by simp)]
    refine hbody.trans ?_
    simp only [hshrunk]
    rfl

/-- R169, R170: the row of a frame hands it on in one step. -/
theorem exec_frameRow (t : State) (kind : FrameKind) (q : BitVec 8) (body : List Word) (row : Instr)
    (hready : t.dev.ready) (hlength : bodyLength kind q = some body.length)
    (hcount : ∀ side, kind = .scan side → q.toNat ≤ 8) (hrow : frameRow kind q body = some row) :
    exec row t = t.after (handOn (pulseNext t.pending) (setDelim t.dev (.complete kind q)) kind q body) := by
  have hrun := run_row t kind q body row hready hlength hcount hrow
  obtain ⟨e, hexec⟩ := exec_after row t
  unfold State.run at hrun
  rw [hexec] at hrun ⊢
  exact congrArg Host.Outcome.next hrun

/-- Settles O36: the takes by `run_fixedFrame`, the row by `exec_frameRow`, and the two on a part with no word of the
link before the frame. -/
theorem fixedFrameWordByWordIsItsRow : Obligations.FixedFrameWordByWordIsItsRow := by
  refine ⟨fun s w kind body rest row => ?_, fun pulse d c q body h => handOn_execute pulse d c q body h,
    fun q => ⟨rfl, rfl⟩⟩
  intro d q takes hlistening hpresented hhead hkind hcount hlength hfifo
  have htakes := run_fixedFrame s w kind body rest hlistening hpresented hhead hkind hcount hlength hfifo
  refine ⟨htakes, fun hrow t hready => exec_frameRow t kind q body row hready hlength hcount hrow,
    fun hrow hrest => ?_⟩
  subst hrest
  rw [exec_frameRow { s with dev := d.shrunk [] } kind q body row ⟨hlistening, rfl, hpresented⟩ hlength hcount hrow]
  exact congrArg Host.Outcome.next htakes.symm

/-! ## The words of a scan part (12.2) -/

/-- 12.2: the two bits of a zone. -/
def zoneBits (z : Zone) : BitVec 2 := BitVec.ofNat 2 (zoneCode z)

/-- 12.2: the two bits of a lum kind. -/
def lumBits (l : Lum) : BitVec 2 := BitVec.ofNat 2 (lumCode l)

/-- 12.2: an observation is read back from its three words. -/
theorem observationOf_words (o : Observation) (x y : BitVec 1) (height : BitVec 6) :
    observationOf o.signature
      (zoneBits o.zone ++ lumBits o.lum ++ BitVec.ofBool o.inkOver ++ o.confidence ++ o.widthMm ++ x)
      (o.offsetMm ++ height ++ y) = o := by
  have hzone : zoneOf (zoneBits o.zone).toNat = o.zone := by cases o.zone <;> rfl
  have hlum : lumOf (lumBits o.lum).toNat = o.lum := by cases o.lum <;> rfl
  have hink := getLsbD_of_extract _ 11 o.inkOver
    (observation_ink (zoneBits o.zone) (lumBits o.lum) (BitVec.ofBool o.inkOver) x o.confidence o.widthMm)
  have hoffset : (o.offsetMm ++ height ++ y).extractLsb' 7 9 = o.offsetMm := by
    rw [extract_append_left _ _ _ _ (by decide), extract_append_left _ _ _ _ (by decide), extract_all]
  unfold observationOf
  rw [observation_zone, observation_lum, observation_confidence, observation_width, hink, hoffset, hzone, hlum]

/-- 12.2: the observations are read back from their words. -/
theorem observationsOf_flatMap {α : Type} (words : Observation × α → List Word) (obs : List (Observation × α))
    (hread : ∀ o rest, observationsOf (words o ++ rest) = o.1 :: observationsOf rest) :
    observationsOf (obs.flatMap words) = obs.map (fun o => o.1) := by
  induction obs with
  | nil => rfl
  | cons o obs ih => rw [List.flatMap_cons, hread, ih, List.map_cons]

/-- Settles O37: the leading words field by field, and each observation by `observationOf_words`. -/
theorem scanPartWordsReadBack : Obligations.ScanPartWordsReadBack := by
  unfold Obligations.ScanPartWordsReadBack
  intro zones lums words
  have hwords : ∀ o x y height, words o x y height = [o.signature,
      zoneBits o.zone ++ lumBits o.lum ++ BitVec.ofBool o.inkOver ++ o.confidence ++ o.widthMm ++ x,
      o.offsetMm ++ height ++ y] := fun o _ _ _ => by
    have hzones : zones o.zone = zoneBits o.zone := by cases o.zone <;> rfl
    have hlums : lums o.lum = lumBits o.lum := by cases o.lum <;> rfl
    simp only [words, hzones, hlums]
  have hread : ∀ obs : List (Observation × BitVec 1 × BitVec 1 × BitVec 6),
      observationsOf (obs.flatMap (fun o => words o.1 o.2.1 o.2.2.1 o.2.2.2)) = obs.map (fun o => o.1) := fun obs =>
    observationsOf_flatMap _ obs fun o rest => by
      rw [hwords]
      exact congrArg (· :: observationsOf rest) (observationOf_words o.1 o.2.1 o.2.2.1 o.2.2.2)
  refine ⟨fun tag marks g obs x y => ?_, fun tag marks obs x => ?_⟩
  · have hmarks : (marks ++ x ++ g.thickness).extractLsb' 8 8 = marks := by
      rw [extract_append_left _ _ _ _ (by decide), extract_append_left _ _ _ _ (by decide), extract_all]
    have hthickness : (marks ++ x ++ g.thickness).extractLsb' 0 3 = g.thickness := by
      rw [extract_append_right _ _ _ _ (by decide), extract_all]
    have hlengthMm : (y ++ g.lengthMm).extractLsb' 0 9 = g.lengthMm := by
      rw [extract_append_right _ _ _ _ (by decide), extract_all]
    simp only [scanPartOf, hread, hmarks, hthickness, hlengthMm]
  · have hmarks : (marks ++ x).extractLsb' 8 8 = marks := by
      rw [extract_append_left _ _ _ _ (by decide), extract_all]
    simp only [scanPartOf, hread, hmarks]

/-! ## Binding (R30 to R38) -/

/-- R32: a part of a new tag goes to the oldest untagged record. -/
theorem bindPart_untagged (d : Device) (p : ScanPart) (older rest : List ItemRecord) (r : ItemRecord)
    (hqueue : d.track.queue = older ++ r :: rest) (hnew : ∀ q ∈ d.track.queue, q.tag ≠ some p.tag)
    (htagged : ∀ q ∈ older, q.tag ≠ none) (htag : r.tag = none) : bindPart d p = bindUntagged d r p := by
  have noCarrier : d.track.queue.find? (fun r => decide (r.tag = some p.tag)) = none :=
    List.find?_eq_none.2 fun q hq => by simpa using hnew q hq
  have untagged : d.track.queue.find? (fun r => decide (r.tag = none)) = some r := by
    rw [hqueue]
    exact find_past older rest r _ (fun q hq => decide_eq_false (htagged q hq)) (decide_eq_true htag)
  unfold bindPart
  rw [noCarrier]
  simp only [untagged]

/-- R33, R36: a part for a LATE record leaves its tag and its side, and is counted. -/
theorem latePart_eq (d : Device) (r : ItemRecord) (p : ScanPart) : latePart d r p =
    { d with
      track := { d.track with queue := d.track.queue.map (fun q =>
        if q.number = r.number then
          { q with
            tag := some p.tag
            gotA := q.gotA || decide (p.side = .a)
            gotB := q.gotB || decide (p.side = .b) }
        else q) }
      tally := { d.tally with
        counters := upd d.tally.counters 52 (d.tally.counters[(52 : Fin 56)] + 1) } } := by
  have hside : ∀ q : ItemRecord, { q.gotSide p.side with tag := some p.tag } =
      { q with
        tag := some p.tag
        gotA := q.gotA || decide (p.side = .a)
        gotB := q.gotB || decide (p.side = .b) } := fun q => by
    cases p.side <;> simp [ItemRecord.gotSide]
  simp only [← hside]
  rfl

/-- R31, R32, R37, R38: what binding makes of the record, spelled out. -/
theorem bind_eq (q : ItemRecord) (p : ScanPart) (next : RecordState) : q.bind p next =
    let stored : ItemRecord := match p.side with
      | .a => { q with gotA := true, obsA := p.observations, geometry := p.geometry }
      | .b => { q with gotB := true, obsB := p.observations }
    { stored with
      tag := some p.tag
      state := next
      scanFault := q.scanFault || decide (p.marksFound.toNat ≠ p.observations.length) ||
        p.observations.any (fun o => decide (o.zone = .illegal2 ∨ o.zone = .illegal3)) ||
        (match stored.geometry with
          | some g => (stored.obsA ++ stored.obsB).any (fun o => decide (g.lengthMm < o.offsetMm))
          | none => false) } := by
  have hillegal : ∀ z : Zone, Zone.illegal z = decide (z = .illegal2 ∨ z = .illegal3) := fun z => by cases z <;> rfl
  have hoffset : ∀ r : ItemRecord, r.offsetFault = match r.geometry with
      | some g => (r.obsA ++ r.obsB).any (fun o => decide (g.lengthMm < o.offsetMm))
      | none => false := fun r => by
    unfold ItemRecord.offsetFault
    cases r.geometry <;> rfl
  unfold ItemRecord.bind ItemRecord.checkPart
  simp only [hillegal, hoffset]
  unfold ItemRecord.storePart
  cases p.side <;> rfl

/-- Settles O38: a part too long or outside RUN and DRAIN by `exec_scanPart_ready`, one for a LATE record by
`latePart_eq`. -/
theorem scanPartsNotStored : Obligations.ScanPartsNotStored := by
  refine ⟨fun s p => ?_, fun s p older rest r => ?_⟩
  · intro d
    refine ⟨fun hready hlong => ?_, fun hready hshort hidle => ?_⟩
    · rw [exec_scanPart_ready s p hready, if_pos hlong, linkError_eq_erred]
      rfl
    · rw [exec_scanPart_ready s p hready, if_neg (Nat.not_lt.2 hshort)]
      exact congrArg s.after (if_neg (show ¬ d.active = true by simp [hidle]))
  · intro d hready hactive hshort hqueue hlate hwhich
    rw [exec_scanPart_active s p hready hactive hshort]
    have hbound : bindPart (d.received p) p = latePart (d.received p) r p := by
      rcases hwhich with ⟨holder, htag, hgot⟩ | ⟨hnew, htagged, htag⟩
      · rw [bindPart_tagged (d.received p) p older rest r hqueue holder htag, bindTagged, if_neg (by simp [hgot]),
          if_pos hlate]
      · rw [bindPart_untagged (d.received p) p older rest r hqueue hnew htagged htag, bindUntagged, if_pos hlate]
    rw [hbound, latePart_eq]

/-- Settles O39: the record by its tag or as the oldest untagged one, and its content by `bind_eq`. -/
theorem scanPartBinds : Obligations.ScanPartBinds := by
  intro s p older rest r d stored bound after hready hactive hshort hqueue
  have hafter : ∀ next, (d.received p).modify r.number (fun q => q.bind p next) = after next := fun next => by
    simp only [bind_eq]
    rfl
  rw [exec_scanPart_active s p hready hactive hshort]
  refine ⟨fun holder htag hgot hstate => ?_, fun hnew htagged htag hstate => ?_⟩
  · rw [bindPart_tagged (d.received p) p older rest r hqueue holder htag, bindTagged, if_neg (by simp [hgot]),
      if_neg hstate, hafter]
  · rw [bindPart_untagged (d.received p) p older rest r hqueue hnew htagged htag, bindUntagged, if_neg hstate, hafter]

end Sys2Proof.Machine

/-! PROOFS. The frames that wait (R164, R167, R169) and the responses that wait (R171, R178, R186). -/

namespace Sys2Proof.Machine

/-! ## A frame that comes -/

/-- R164, R169: no word of the link is before a frame that comes. -/
theorem linkClear_iff (d : Device) :
    d.linkClear = true ↔ d.feed.fifo = [] ∧ d.feed.presented = [] ∧ d.responseWaiting = false := by
  simp [Device.linkClear, and_assoc]

/-- R169, R178: a frame that ends one whose response waits is queued behind it. -/
theorem takeFrame_ends_waiting (kind : FrameKind) (q : BitVec 8) (body : List Word) (f : Device → Device) (d : Device)
    (hreset : d.inputs.resetLine = false) (hclear : d.linkClear = true) (hwaiting : (endOpen d).responseWaiting = true) :
    takeFrame kind q body f d = queueFrame (frameWords kind q body) (endOpen d) := by
  simp [takeFrame, hreset, hclear, hwaiting]

/-- R164, R167, R169, R178: what becomes of a frame as it comes. -/
theorem rowFrame_comes (i : Instr) (s : State) (kind : FrameKind) (q : BitVec 8) (body : List Word)
    (hrow : rowFrame i = some (kind, q, body)) : let d := s.dev
    let words := (frameWords kind q body).map Instr.feedLinkWord
    (d.inputs.resetLine = true → exec i s = s.after d) ∧
    (d.inputs.resetLine = false → d.responseWaiting = true ∨ d.feed.fifo ≠ [] ∨ d.feed.presented ≠ [] →
      exec i s = .next (s.run words)) ∧
    (d.inputs.resetLine = false → d.responseWaiting = false → d.feed.fifo = [] → d.feed.presented = [] →
      (endOpen d).responseWaiting = true → exec i s = .next (({ s with dev := endOpen d } : State).run words)) ∧
    (d.inputs.resetLine = false → d.responseWaiting = false → d.feed.fifo = [] → d.feed.presented = [] →
      (endOpen d).responseWaiting = false → exec i s = exec i { s with dev := endOpen d }) := by
  intro d words
  obtain ⟨f, hexec⟩ := framed_takeFrame i kind q body hrow
  simp only [words, run_feedLinkWords, hexec]
  refine ⟨fun hreset => ?_, fun hreset hbefore => ?_, fun hreset hfree hfifo hpresented hwaiting => ?_,
    fun hreset hfree hfifo hpresented hwaiting => ?_⟩
  · rw [takeFrame_reset kind q body _ s.dev hreset]
  · have hclear : d.linkClear = false := by
      rw [← Bool.not_eq_true, linkClear_iff]
      rintro ⟨hfifo, hpresented, hfree⟩
      rcases hbefore with h | h | h
      · simp [hfree] at h
      · exact h hfifo
      · exact h hpresented
    rw [takeFrame_queued kind q body _ s.dev hreset hclear]
  · rw [takeFrame_ends_waiting kind q body _ s.dev hreset ((linkClear_iff d).2 ⟨hfifo, hpresented, hfree⟩) hwaiting]
  · rw [takeFrame_endOpen kind q body _ s.dev hreset ((linkClear_iff d).2 ⟨hfifo, hpresented, hfree⟩) hwaiting]

/-- R166, R197: the words of a frame: a head word of its kind and qualifier, and its body. -/
theorem frameWords_read (kind : FrameKind) (q : BitVec 8) (body : List Word) : ∃ h : Word,
    frameWords kind q body = { head := true, data := h } :: body.map (fun v => { head := false, data := v }) ∧
    frameKindOf (headKind h) = some kind ∧ headQualifier h = q := by
  obtain ⟨hkind, hcode⟩ := frameKindOf_frameCode kind
  obtain ⟨hread, hqualifier⟩ := headWord_read (frameCode kind) q.toNat hcode q.isLt
  exact ⟨headWord (frameCode kind) q.toNat, rfl, by rw [hread, hkind], BitVec.eq_of_toNat_eq hqualifier⟩

/-! ## A response that waits -/

/-- R178: a response that does not fit waits whole, behind a page or with no close deferred. -/
theorem respond_stays (d : Device) (kind : CommandKind) (tag : BitVec 8) (a : Answer)
    (hpage : d.tally.page ≠ none ∨ d.tally.deferred = none) (hroom : d.reportRoom < 5 + a.words.length)
    (hwhole : 5 + a.words.length ≤ 256) : respond d kind tag a = buildResponse d kind tag a := by
  rw [respond_waits d kind tag a hroom hwhole]
  exact settlePage_waiting _ hpage rfl

/-- R172: CLOSE TALLY has no parameter. -/
theorem rowFrame_closeTally (i : Instr) (tag : BitVec 8) (body : List Word)
    (h : rowFrame i = some (.command .closeTally, tag, body)) : body = [] := by
  cases i with
  | closeTally _ =>
    cases h
    rfl
  | _ => cases h

/-- R110, R170, R178: a fixed command whose response does not fit has its effect, and the response waits, whatever
arrives with it. -/
theorem handOn_waits (pulse : Bool) (d e : Device) (c : CommandKind) (q : BitVec 8) (body : List Word) (a : Answer)
    (hrun : runCommand c body d = (e, a)) (hpage : e.tally.page ≠ none ∨ e.tally.deferred = none)
    (hroom : e.reportRoom < 5 + a.words.length) (hwhole : 5 + a.words.length ≤ 256)
    (htally : c = .closeTally → body = []) :
    handOn pulse d (.command c) q body = buildResponse e c q a := by
  by_cases hserved : pulse = true ∧ c = .closeTally
  · obtain ⟨hpulse, rfl⟩ := hserved
    have hclose : cmdCloseTally d = (e, a) := by
      rw [← hrun, htally rfl]
      rfl
    have hplace : placeResponse (buildResponse e .closeTally q a) = buildResponse e .closeTally q a :=
      placeResponse_waits _ _ rfl (by rw [responseFrame_length]; exact hroom) (by rw [responseFrame_length]; exact hwhole)
    have hserve : handOn pulse d (.command .closeTally) q body = serveCloseTally q d := if_pos ⟨hpulse, rfl⟩
    rw [hserve, serveCloseTally, hclose]
    simp only [hplace]
    rw [show arbiter (buildResponse e .closeTally q a) = _ from respond_stays e .closeTally q a hpage hroom hwhole,
      ite_self]
  · have hexecute : handOn pulse d (.command c) q body = execute c q (runCommand c body) d := if_neg hserved
    rw [hexecute, execute, hrun, respond_stays e c q a hpage hroom hwhole]

/-- R186: the answer of an open-ended frame has at most four words. -/
theorem frameAnswer_length (f : OpenFrame) : (frameAnswer f).words.length ≤ 4 := by
  unfold frameAnswer
  simp only
  split
  · simp [Answer.done]
  · split
    · simp
    · split <;> simp [Answer.done]

/-- R178, R186: a frame closed whose response does not fit. -/
theorem closeFrame_waits (d : Device) (f : OpenFrame) (hcommand : d.command = .receiving f)
    (hpage : d.tally.page ≠ none ∨ d.tally.deferred = none) (hroom : d.reportRoom < 5 + (frameAnswer f).words.length) :
    let z : Device :=
      { d with
        command := .waiting (linkFrame (responseWords f.kind f.tag d.feed.excess (frameAnswer f))) false
        feed := { d.feed with excess := 0 }
        window := { d.window with groups := if f.group = [] then d.window.groups else d.window.groups ++ [f.group] } }
    closeFrame d = if f.group = [] then z else applyPoint z := by
  intro z
  have hwords := frameAnswer_length f
  have hstays : respond (closeGroup d f) f.kind f.tag (frameAnswer f) = z := by
    rw [respond_stays (closeGroup d f) f.kind f.tag (frameAnswer f) hpage hroom (by omega)]
    simp only [z, buildResponse, closeGroup, List.isEmpty_iff]
  unfold closeFrame
  simp only [hcommand, hstays, List.isEmpty_iff]

/-- R174: a NOP frame as its words end it. -/
theorem exec_nop_ready (s : State) (tag : BitVec 8) (words : List Word) (hready : s.dev.ready) :
    exec (.nop tag words) s = s.after (closeFrame (setFrame (setDelim s.dev (.complete (.command .nop) tag))
      { newFrame .nop tag none 0 with bodyWords := words.length })) := by
  let opened := setFrame (setDelim s.dev (.openEnded (.command .nop) tag)) (newFrame .nop tag none 0)
  have hexec : exec (.nop tag words) s = s.after (deliverOpen .nop tag words s.dev) := rfl
  have hopen : openFrame (setDelim s.dev (.openEnded (.command .nop) tag)) .nop tag = opened := if_pos rfl
  rw [hexec, deliverOpen_ready .nop tag words s.dev hready, hopen,
    foldWords_idle opened (newFrame .nop tag none 0) words rfl (.inl rfl), endOpen_openEnded _ (.command .nop) tag rfl]
  simp only [newFrame, Nat.zero_add]
  rfl

/-- Settles O41: the frame that comes by `rowFrame_comes`, the response that waits by `handOn_waits` and
`closeFrame_waits`. -/
theorem responsesWaitAndFramesWithThem : Obligations.ResponsesWaitAndFramesWithThem := by
  refine ⟨rowFrame_comes, fun d => ⟨endOpen_settled d, endOpen_opened d, fun kind q f hdelim hcommand hpage hdeferred
    hroom => ?_⟩, frameWords_read, fun i s c tag body e a => ?_, fun d kind q f hdelim hcommand hpage hroom => ?_,
    fun s tag => ?_, fun s tag words => ?_⟩
  · rw [endOpen_openEnded d kind q hdelim]
    exact closeFrame_answers (setDelim d (.complete kind q)) f hcommand hpage hdeferred hroom
  · intro d hrow hlength hready hrun hpage hroom hwhole
    have htally : c = .closeTally → body = [] := by
      rintro rfl
      exact rowFrame_closeTally i tag body hrow
    rw [framed_handOn i c tag body hrow hlength s, takeFrame_ready _ _ _ _ s.dev hready]
    exact congrArg s.after (handOn_waits _ _ e c tag body a hrun hpage hroom hwhole htally)
  · rw [endOpen_openEnded d kind q hdelim]
    exact closeFrame_waits (setDelim d (.complete kind q)) f hcommand hpage hroom
  · intro d hready hpage hdeferred hroom x
    have hexec : exec (.holdFeed tag) s = s.after (deliver .holdFeed tag [] d) := rfl
    rw [hexec, deliver_responds .holdFeed tag [] d hready]
    exact congrArg s.after (respond_stays (setHoldFeed (setDelim d (.complete (.command .holdFeed) tag)) true) .holdFeed
      tag (.done [word x.feedStopCauses]) (.inr hdeferred) hroom (Nat.le_of_ble_eq_true rfl))
  · intro d hready hpage hroom
    rw [exec_nop_ready s tag words hready]
    exact congrArg s.after (closeFrame_waits
      (setFrame (setDelim d (.complete (.command .nop) tag)) { newFrame .nop tag none 0 with bodyWords := words.length })
      _ rfl hpage hroom)

end Sys2Proof.Machine

/-! PROOFS. ENTER RUN (R12, R18, R148, R149, R191): the Station Table check and the entry to RUN. -/

namespace Sys2Proof.Machine

/-- R12: the rows that the Station Table check names, spelled out. -/
def Device.namedRow (d : Device) (row : Nat) : Prop :=
  let off (row : Nat) : Int := (d.num 7 row 0 : Nat)
  let lead : Int := (d.num 7 1 3 : Nat)
  let width : Int := (max 4 (d.num 7 3 1) : Nat)
  let enabled (k : Nat) : Prop := k < 16 ∧ d.num 6 k 0 ≠ 0
  (row = 1 ∧ ¬ 0 < off 1 - lead) ∨ (row = 2 ∧ ¬ off 1 < off 2) ∨
  (row = 3 ∧ (¬ off 2 < off 3 ∨ ¬ off 1 - lead < off 3 - width)) ∨
  (row = 4 ∧ (¬ off 3 < off 4 ∨ ∃ k, enabled k ∧ ¬ off (5 + k) < off 4)) ∨
  (∃ k, row = 5 + k ∧ enabled k ∧ ¬ off 3 < off (5 + k))

/-- R116: a bin is enabled by the first field of its row. -/
theorem binEnable_iff (d : Device) (k : Fin 16) : d.binEnable k = true ↔ d.num 6 k.val 0 ≠ 0 := decide_eq_true_iff

/-- R12: the failing rows are the rows named. -/
theorem mem_failingRows_iff (d : Device) (row : Nat) : row ∈ d.failingRows ↔ d.namedRow row := by
  rw [mem_failingRows]
  have hbins : ∀ p : Nat → Prop, (∃ k : Fin 16, d.binEnable k = true ∧ p k.val) ↔
      ∃ k, (k < 16 ∧ d.num 6 k 0 ≠ 0) ∧ p k := fun p => by
    constructor
    · rintro ⟨k, henabled, hp⟩
      exact ⟨k.val, ⟨k.isLt, (binEnable_iff d k).1 henabled⟩, hp⟩
    · rintro ⟨k, ⟨hk, henabled⟩, hp⟩
      exact ⟨⟨k, hk⟩, (binEnable_iff d ⟨k, hk⟩).2 henabled, hp⟩
  have hexit := hbins fun k => ¬ (d.stationOffset (5 + k) : Int) < d.stationOffset 4
  have hgates : (∃ k : Fin 16, row = 5 + k.val ∧ d.binEnable k = true ∧
      ¬ (d.stationOffset 3 : Int) < d.stationOffset (5 + k.val)) ↔
      ∃ k, row = 5 + k ∧ (k < 16 ∧ d.num 6 k 0 ≠ 0) ∧ ¬ (d.stationOffset 3 : Int) < d.stationOffset (5 + k) := by
    have hrow := hbins fun k => row = 5 + k ∧ ¬ (d.stationOffset 3 : Int) < d.stationOffset (5 + k)
    simpa only [and_left_comm] using hrow
  rw [hexit, hgates]
  rfl

/-- R12: with no row named the check passes. -/
theorem badRow_none (d : Device) (h : ∀ row, ¬ d.namedRow row) : d.badRow = none := by
  unfold Device.badRow
  rw [List.min?_eq_none_iff]
  exact List.eq_nil_iff_forall_not_mem.2 fun row hrow => h row ((mem_failingRows_iff d row).1 hrow)

/-- R12: the lowest row named is the one that the check answers. -/
theorem badRow_some (d : Device) (row : Nat) (h : d.namedRow row) (hleast : ∀ other, d.namedRow other → row ≤ other) :
    d.badRow = some row := by
  unfold Device.badRow
  rw [List.min?_eq_some_iff]
  exact ⟨(mem_failingRows_iff d row).2 h, fun other hother => hleast other ((mem_failingRows_iff d other).1 hother)⟩

/-- R12, R149 step 1: the part with the gates of the enabled bins in service. -/
def Device.serving (d : Device) : Device := { d with track := { d.track with inService := d.enabledGates } }

/-- R14: a cell watched is one of the five stations before the gates, or the gate of a bin enabled. -/
theorem watchedRow_serving (d : Device) (row : Fin 21) :
    d.serving.watchedRow row = true ↔ row.val < 5 ∨ d.num 6 (row.val - 5) 0 ≠ 0 := by
  unfold Device.watchedRow
  split
  · next hgate =>
    have hservice : d.serving.track.inService[row.val - 5] = d.binEnable ⟨row.val - 5, by omega⟩ := by
      simp [Device.serving, Device.enabledGates]
    rw [hservice, binEnable_iff]
    exact ⟨.inr, fun h => h.resolve_left (by omega)⟩
  · next hstation => exact ⟨fun _ => .inl (by omega), fun _ => rfl⟩

/-- R14: a cell found blocked at ENTER RUN. -/
theorem foundBlocked_serving (d : Device) (row : Fin 21) : d.serving.foundBlocked row = true ↔
    d.inputs.blocked[row] = true ∧ (row.val < 5 ∨ d.num 6 (row.val - 5) 0 ≠ 0) := by
  rw [← watchedRow_serving]
  exact Bool.and_eq_true_iff

/-- R14, R18, R149: what the entry to RUN leaves in the Track Unit. -/
theorem enterRun_track (d : Device) : (enterRun d).track =
    { d.track with
      inService := d.enabledGates
      occupants := (occupyBlocked d.serving).track.occupants
      jam := (occupyBlocked d.serving).track.jam } := by
  rw [enterRun_eq]
  rfl

/-- R149, R191: the entry to RUN outside the Track Unit. -/
theorem enterRun_form (d : Device) : let e := enterRun d
    e = reportConditions { d with
      track := { d.track with inService := e.track.inService, occupants := e.track.occupants, jam := e.track.jam }
      classifier := { d.classifier with suspect := 0 }
      imprint := { d.imprint with printFault := d.imprint.printFault && !d.inputs.printReady }
      line := { d.line with mode := .run }
      window := { d.window with
        gap := if d.inputs.blocked[(0 : Fin 21)] then .closed
          else if d.num 0 0 7 = 0 then .met
          else .opened d.track.encoder } } := by
  intro e
  have htrack : e.track = _ := enterRun_track d
  rw [htrack]
  exact enterRun_eq d

/-- R12: the gates in service are those of the bins enabled. -/
theorem enterRun_inService (d : Device) (k : Fin 16) :
    (enterRun d).track.inService[k] = decide (d.num 6 k.val 0 ≠ 0) := by
  rw [enterRun_track]
  simp [Device.enabledGates, Device.binEnable, Device.flag]

/-- R14, R18: a cell found blocked takes a stray, and its jam timing starts. -/
theorem enterRun_blocked (d : Device) (row : Fin 21) (hblocked : d.inputs.blocked[row] = true)
    (hwatched : row.val < 5 ∨ d.num 6 (row.val - 5) 0 ≠ 0) :
    (enterRun d).track.occupants[row] = .stray ∧ (d.num 7 row.val 2 ≠ 0 →
      (enterRun d).track.jam[row] = some (d.track.encoder + counts (d.num 7 row.val 2) + 1)) := by
  obtain ⟨hoccupant, hjam⟩ := occupyBlocked_cell d.serving row
  have hfound := (foundBlocked_serving d row).2 ⟨hblocked, hwatched⟩
  rw [enterRun_track]
  refine ⟨hoccupant.trans (if_pos hfound), fun hspan => hjam.trans (if_pos ⟨hfound, hspan⟩)⟩

/-- R14: every other cell stays as it was. -/
theorem enterRun_clear (d : Device) (row : Fin 21)
    (h : d.inputs.blocked[row] = false ∨ ¬ (row.val < 5 ∨ d.num 6 (row.val - 5) 0 ≠ 0)) :
    (enterRun d).track.occupants[row] = d.track.occupants[row] ∧ (enterRun d).track.jam[row] = d.track.jam[row] := by
  obtain ⟨hoccupant, hjam⟩ := occupyBlocked_cell d.serving row
  have hfound : ¬ d.serving.foundBlocked row = true := by
    rw [foundBlocked_serving]
    rintro ⟨hblocked, hwatched⟩
    rcases h with hopen | hunwatched
    · rw [hopen] at hblocked
      cases hblocked
    · exact hunwatched hwatched
  rw [enterRun_track]
  exact ⟨hoccupant.trans (if_neg hfound), hjam.trans (if_neg fun hboth => hfound hboth.1)⟩

/-- The entry to RUN leaves the delimiter as it is. -/
theorem enterRun_setDelim (d : Device) (x : Delimiter) : enterRun (setDelim d x) = setDelim (enterRun d) x := by
  rw [enterRun_eq, enterRun_eq]
  rfl

/-- The entry to RUN leaves the Command Unit, the closes and the Report Queue as they are. -/
theorem enterRun_rest (d : Device) : (enterRun d).command = d.command ∧ (enterRun d).tally = d.tally ∧
    (enterRun d).report = d.report ∧ (enterRun d).modeWords = [1, word d.track.queue.length] := by
  have hmode : (enterRun d).line.mode = .run := by
    rw [enterRun_eq]
    rfl
  have hwords : (enterRun d).modeWords = [1, word d.track.queue.length] := by
    rw [Device.modeWords, hmode, enterRun_track]
    rfl
  rw [enterRun_eq] at hwords ⊢
  exact ⟨rfl, rfl, rfl, hwords⟩

/-- R12, R149: ENTER RUN in IDLE, its check passed. -/
theorem cmdEnterRun_passed (d : Device) (hmode : d.line.mode = .idle) (hpass : d.badRow = none) :
    cmdEnterRun d = (enterRun d, .done [1, word d.track.queue.length]) := by
  obtain ⟨-, -, -, hwords⟩ := enterRun_rest d
  simp only [cmdEnterRun, hmode, hpass, hwords]

/-- R12: ENTER RUN in IDLE, with a row named. -/
theorem cmdEnterRun_failed (d : Device) (row : Nat) (hmode : d.line.mode = .idle) (hfail : d.badRow = some row) :
    cmdEnterRun d = (d, { code := .badStations, detail := row, words := [0, word d.track.queue.length] }) := by
  simp only [cmdEnterRun, hmode, hfail, Device.modeWords]
  rfl

/-- R148: ENTER RUN in the other modes changes nothing. -/
theorem cmdEnterRun_other (d : Device) :
    (d.line.mode = .run → cmdEnterRun d = (d, .done [1, word d.track.queue.length])) ∧
    (d.line.mode = .drain → cmdEnterRun d =
      (d, { code := .refusedMode, detail := 0, words := [2, word d.track.queue.length] })) ∧
    (d.line.mode = .halted → cmdEnterRun d =
      (d, { code := .refusedMode, detail := 0, words := [3, word d.track.queue.length] })) := by
  refine ⟨fun hmode => ?_, fun hmode => ?_, fun hmode => ?_⟩ <;>
    simp only [cmdEnterRun, hmode, Device.modeWords] <;> rfl

/-- Settles O42: the check by `badRow`, the entry by `enterRun_form` and the cells one at a time. -/
theorem enterRunAnswered : Obligations.EnterRunAnswered := by
  intro s tag d off lead width enabled named watched hclear
  let taken := setDelim d (.complete (.command .enterRun) tag)
  have hkept : ∀ a, a.words.length = 2 → cmdEnterRun taken = (taken, a) →
      exec (.enterRun tag) s = s.after (d.answered .enterRun tag a) := fun a hwords hrun =>
    exec_answered s _ .enterRun tag [] 7 d a rfl hclear hrun rfl rfl rfl rfl (by omega)
  obtain ⟨hrun, hdrain, hhalted⟩ := cmdEnterRun_other taken
  refine ⟨fun hidle hnone => ?_, fun hidle row hrow hleast => ?_, fun hmode => hkept _ rfl (hrun hmode),
    fun hmode => hkept _ rfl (hdrain hmode), fun hmode => hkept _ rfl (hhalted hmode)⟩
  · obtain ⟨hcommand, htally, hreport, -⟩ := enterRun_rest d
    have hpassed : cmdEnterRun taken = (setDelim (enterRun d) (.complete (.command .enterRun) tag), _) :=
      (cmdEnterRun_passed taken hidle (badRow_none taken hnone)).trans (by rw [enterRun_setDelim])
    exact ⟨enterRun d, exec_answered s _ .enterRun tag [] 7 _ _ rfl hclear hpassed hcommand (by rw [htally])
        (by rw [htally]) (by rw [hreport]) (Nat.le_refl _), enterRun_form d, enterRun_inService d,
      enterRun_blocked d, enterRun_clear d⟩
  · exact hkept _ rfl (cmdEnterRun_failed taken row hidle (badRow_some taken row hrow hleast))

end Sys2Proof.Machine

/-! PROOFS. DRAIN, HALT and RESUME (R148, R150 to R152): each by the mode in force. -/

namespace Sys2Proof.Machine

/-! ## The commands by the mode -/

/-- R150: DRAIN in RUN, the drain not complete at once. -/
theorem cmdDrain_begun (d : Device) (hmode : d.line.mode = .run) (hopen : d.track.queue ≠ [] ∨ d.inputs.feedHeld = false) :
    cmdDrain d = (setMode d .drain, .done [2, word d.track.queue.length]) := by
  have hbegin : beginDrain d = setMode d .drain := drainTest_open (setMode d .drain) (.inr hopen)
  simp only [cmdDrain, hmode, hbegin]
  rfl

/-- R150: DRAIN in RUN, the drain complete at once. -/
theorem cmdDrain_complete (d : Device) (hmode : d.line.mode = .run) (hqueue : d.track.queue = [])
    (hheld : d.inputs.feedHeld = true) :
    cmdDrain d = (completeDrain (setMode d .drain), .done [0, word d.track.queue.length]) := by
  have hbegin : beginDrain d = completeDrain (setMode d .drain) := drainTest_done (setMode d .drain) rfl hqueue hheld
  have happlied := applied_completeDrain (setMode d .drain)
  have hwords : (completeDrain (setMode d .drain)).modeWords = [0, word d.track.queue.length] := by
    rw [Device.modeWords, happlied.mode, happlied.track]
    rfl
  simp only [cmdDrain, hmode, hbegin, hwords]

/-- R148: DRAIN in the other modes. -/
theorem cmdDrain_other (d : Device) :
    (d.line.mode = .drain → cmdDrain d = (d, .done [2, word d.track.queue.length])) ∧
    (d.line.mode = .idle ∨ d.line.mode = .halted → cmdDrain d =
      (d, { code := .refusedMode, detail := 0, words := [word d.line.mode.code, word d.track.queue.length] })) := by
  refine ⟨fun hmode => ?_, fun hmode => ?_⟩
  · simp only [cmdDrain, hmode, Device.modeWords]
    rfl
  · rcases hmode with hmode | hmode
    · simp only [cmdDrain, hmode, Device.modeWords, Answer.refuse]
    · simp only [cmdDrain, hmode, Device.modeWords, Answer.refuse]

/-- R151: HALT in HALTED. -/
theorem cmdHalt_again (d : Device) (hmode : d.line.mode = .halted) :
    cmdHalt d = (d, .done [3, word d.track.queue.length]) := by
  simp only [cmdHalt, hmode, Device.modeWords]
  rfl

/-- R152: RESUME in HALTED, with the queue empty or not. -/
theorem cmdResume_halted (d : Device) (hmode : d.line.mode = .halted) :
    (d.track.queue = [] → cmdResume d = (leaveHalted d, .done [0, 0])) ∧
    (d.track.queue ≠ [] → cmdResume d =
      (d, { code := .queueNotEmpty, detail := 0, words := [3, word d.track.queue.length] })) := by
  refine ⟨fun hqueue => ?_, fun hqueue => ?_⟩
  · have hwords : (leaveHalted d).modeWords = [0, word d.track.queue.length] := rfl
    simp only [cmdResume, hmode, hwords, hqueue]
    rfl
  · have hsome : d.track.queue.isEmpty = false := by simpa using hqueue
    simp only [cmdResume, hmode, hsome, Device.modeWords]
    rfl

/-- R148: RESUME outside HALTED. -/
theorem cmdResume_refused (d : Device) (hmode : d.line.mode ≠ .halted) : cmdResume d =
    (d, { code := .refusedMode, detail := 0, words := [word d.line.mode.code, word d.track.queue.length] }) := by
  unfold cmdResume
  split
  · next h => exact absurd h hmode
  · rfl
  · rfl
  · rfl

/-! ## The parts entered -/

/-- What the entries to HALTED and IDLE leave of a part. -/
def Device.keptFrom (d x : Device) : Prop :=
  x.track.encoder = d.track.encoder ∧ x.inputs = d.inputs ∧ x.clock = d.clock ∧ x.tally.totals = d.tally.totals ∧
    x.feed.fifo = d.feed.fifo

/-- R151: the part `x` is `d` entered to HALTED. -/
def Device.haltedFrom (d x : Device) : Prop :=
  x.line.mode = .halted ∧ x.stop = true ∧ x.track.twist = none ∧ x.track.turn = none ∧
  x.stacker.gates = Vector.replicate 16 none ∧ x.classifier.busy = none ∧ x.imprint.printing = none ∧
  x.imprint.builder = none ∧ x.window.groups = [] ∧ x.track.occupants = d.track.occupants ∧
  x.track.queue.map (fun r => (r.number, r.state, r.route, r.seen, r.faceCheck)) =
    d.track.queue.map (fun r => (r.number, r.state, r.route, r.seen, r.faceCheck)) ∧ d.keptFrom x

/-- R150: the part `x` is `d` drained to IDLE. -/
def Device.drainedFrom (d x : Device) : Prop :=
  x.line.mode = .idle ∧ x.window.groups = [] ∧ x.imprint = d.imprint ∧
  (∀ row : Fin 21, x.track.occupants[row] = .nobody ∧ x.track.jam[row] = none) ∧ d.keptFrom x

/-- R151, R194: what the entry to HALTED does and what it keeps. -/
theorem haltedFrom_enterHalted (d : Device) : d.haltedFrom (enterHalted d) := by
  have happlied := applied_enterHalted d
  have hframe := (haltFrame_haltImprint (freeClassifier (releaseActuators d))).1
  have hkept := (show HaltFrame _ (enterHalted d) from happlied.haltFrame)
  have hpart := haltedPart_form d
  have htrack : (enterHalted d).track = (haltImprint (freeClassifier (releaseActuators d))).track := happlied.track
  have hfreed := happlied
  rw [hpart] at hfreed
  refine ⟨happlied.mode, decide_eq_true happlied.mode, congrArg TrackUnit.twist hfreed.track,
    congrArg TrackUnit.turn hfreed.track, hfreed.gates, hfreed.classifier, congrArg ImprintUnit.printing hfreed.imprint,
    congrArg ImprintUnit.builder hfreed.imprint, hfreed.groups, ?_, ?_, ?_, hfreed.inputs, hfreed.clock, hfreed.totals,
    congrArg FeedLink.fifo hfreed.feed⟩
  · rw [htrack]
    exact hframe.occupants
  · rw [htrack]
    exact hframe.q
  · rw [htrack]
    exact hframe.enc

/-- R150, R194: what the drain completion does and what it keeps. -/
theorem drainedFrom_completeDrain (d : Device) : d.drainedFrom (completeDrain d) := by
  have happlied := applied_completeDrain d
  have htrack : (completeDrain d).track = (clearCells (releaseActuators d)).track := happlied.track
  refine ⟨happlied.mode, happlied.groups, happlied.imprint, fun row => ?_, (congrArg TrackUnit.encoder htrack :),
    happlied.inputs, happlied.clock, happlied.totals, congrArg FeedLink.fifo happlied.feed⟩
  rw [htrack]
  simp [clearCells]

/-- What is kept of a part is kept by its answer. -/
theorem keptFrom_answer (d x y : Device) (h : d.keptFrom x) (hanswer : AnswerFrame x y) : d.keptFrom y := by
  obtain ⟨hencoder, hinputs, hclock, htotals, hfifo⟩ := h
  exact ⟨by rw [hanswer.track, hencoder], by rw [hanswer.inputs, hinputs], by rw [hanswer.clock, hclock],
    by rw [hanswer.totals, htotals], by rw [hanswer.fifo, hfifo]⟩

/-- R177: a part entered to HALTED is so behind its answer. -/
theorem haltedFrom_answer (d x y : Device) (h : d.haltedFrom x) (hanswer : AnswerFrame x y) : d.haltedFrom y := by
  obtain ⟨hmode, hstop, htwist, hturn, hgates, hbusy, hprinting, hbuilder, hgroups, hoccupants, hqueue, hkept⟩ := h
  refine ⟨by rw [hanswer.line, hmode], decide_eq_true (by rw [hanswer.line, hmode]), ?_⟩
  rw [hanswer.track, hanswer.stacker, hanswer.classifier, hanswer.imprint, hanswer.window]
  exact ⟨htwist, hturn, hgates, hbusy, hprinting, hbuilder, hgroups, hoccupants, hqueue,
    keptFrom_answer d x y hkept hanswer⟩

/-- R177: a part drained to IDLE is so behind its answer. -/
theorem drainedFrom_answer (d x y : Device) (h : d.drainedFrom x) (hanswer : AnswerFrame x y) : d.drainedFrom y := by
  obtain ⟨hmode, hgroups, himprint, hcells, hkept⟩ := h
  refine ⟨by rw [hanswer.line, hmode], by rw [hanswer.window, hgroups], by rw [hanswer.imprint, himprint], ?_,
    keptFrom_answer d x y hkept hanswer⟩
  rw [hanswer.track]
  exact hcells

/-- R151: HALT outside HALTED. -/
theorem cmdHalt_entered (d : Device) (hmode : d.line.mode ≠ .halted) :
    cmdHalt d = (enterHalted d, .done [3, word d.track.queue.length]) := by
  obtain ⟨hhalted, -, -, -, -, -, -, -, -, -, hqueue, -⟩ := haltedFrom_enterHalted d
  have hlength : (enterHalted d).track.queue.length = d.track.queue.length := by
    simpa using congrArg List.length hqueue
  have hwords : (enterHalted d).modeWords = [3, word d.track.queue.length] := by
    rw [Device.modeWords, hhalted, hlength]
    rfl
  unfold cmdHalt
  simp only [hwords]
  split
  · next h => exact absurd h hmode
  · rfl
  · rfl
  · rfl

/-- The entry to HALTED leaves the Feed Link as it is. -/
theorem enterHalted_feed (d : Device) : (enterHalted d).feed = d.feed := by
  have happlied := applied_enterHalted d
  rw [haltedPart_form d] at happlied
  exact happlied.feed

/-- The drain completion leaves the Feed Link as it is. -/
theorem completeDrain_feed (d : Device) : (completeDrain d).feed = d.feed := (applied_completeDrain d).feed

/-- Settles O43: the commands by the mode, the entries by `Device.haltedFrom` and `Device.drainedFrom`. -/
theorem drainHaltResume : Obligations.DrainHaltResume := by
  refine ⟨fun s tag => ?_, fun s tag => ?_⟩
  · intro d n hclear
    let taken (k : CommandKind) : Device := setDelim d (.complete (.command k) tag)
    have hdrain : ∀ e a, a.words.length = 2 →
        cmdDrain (taken .drain) = (setDelim e (.complete (.command .drain) tag), a) →
        e.command = d.command → e.tally = d.tally → e.report = d.report →
        exec (.drain tag) s = s.after (e.answered .drain tag a) := by
      intro e a hwords hrun hcommand htally hreport
      exact exec_answered s _ .drain tag [] 7 e a rfl hclear hrun hcommand (by rw [htally]) (by rw [htally])
        (by rw [hreport]) (by omega)
    have hresume : ∀ e a, a.words.length = 2 →
        cmdResume (taken .resume) = (setDelim e (.complete (.command .resume) tag), a) →
        e.command = d.command → e.tally = d.tally → e.report = d.report →
        exec (.resume tag) s = s.after (e.answered .resume tag a) := by
      intro e a hwords hrun hcommand htally hreport
      exact exec_answered s _ .resume tag [] 7 e a rfl hclear hrun hcommand (by rw [htally]) (by rw [htally])
        (by rw [hreport]) (by omega)
    obtain ⟨hagain, hrefused⟩ := cmdDrain_other (taken .drain)
    refine ⟨fun hmode hopen => ?_, fun hmode => ?_, fun hmode => ?_, fun hmode => ?_, fun hmode hqueue => ?_,
      fun hmode hqueue => ?_, fun hmode => ?_⟩
    · exact hdrain (setMode d .drain) _ rfl (cmdDrain_begun (taken .drain) hmode hopen) rfl rfl rfl
    · exact hdrain d _ rfl (hagain hmode) rfl rfl rfl
    · exact hdrain d _ rfl (hrefused hmode) rfl rfl rfl
    · exact exec_answered s _ .halt tag [] 7 d _ rfl hclear
        (cmdHalt_again (taken .halt) hmode) rfl rfl rfl rfl (Nat.le_refl _)
    · exact hresume (leaveHalted d) _ rfl ((cmdResume_halted (taken .resume) hmode).1 hqueue) rfl rfl rfl
    · exact hresume d _ rfl ((cmdResume_halted (taken .resume) hmode).2 hqueue) rfl rfl rfl
    · exact hresume d _ rfl (cmdResume_refused (taken .resume) hmode) rfl rfl rfl
  · intro d n taken halt drain kept halted drained room
    have hhalt : exec (.halt tag) s = s.after (deliver .halt tag [] d) := rfl
    have hdrain : exec (.drain tag) s = s.after (deliver .drain tag [] d) := rfl
    have hhalted : halted halt := haltedFrom_enterHalted (taken .halt)
    have hdrained : drained drain := drainedFrom_completeDrain (setMode (taken .drain) .drain)
    have hrunHalt : d.line.mode ≠ .halted →
        runCommand .halt [] (setDelim d (.complete (.command .halt) tag)) = (halt, .done [3, n]) :=
      cmdHalt_entered (taken .halt)
    have hrunDrain : d.line.mode = .run → d.track.queue = [] → d.inputs.feedHeld = true →
        runCommand .drain [] (setDelim d (.complete (.command .drain) tag)) = (drain, .done [0, n]) :=
      cmdDrain_complete (taken .drain)
    rw [hhalt, hdrain]
    refine ⟨fun hroom hmode => ?_, fun hroom hmode hqueue hheld => ?_, fun hready hmode => ⟨hhalted, _, rfl, ?_⟩,
      fun hready hmode hqueue hheld => ⟨hdrained, _, rfl, ?_⟩⟩
    · obtain ⟨hclear, hsix⟩ := hroom
      have hfree : (taken .halt).command = .free := hclear.1.1.2.1
      exact congrArg s.after (deliver_posts .halt tag [] d halt (.done [3, n]) 0 hclear hsix
        (posts_enterHalted (taken .halt) hfree) (enterHalted_feed _) (hrunHalt hmode))
    · obtain ⟨hclear, hsix⟩ := hroom
      have hfree : (taken .drain).command = .free := hclear.1.1.2.1
      have hposts : Posts 0 (taken .drain) drain :=
        Posts.trans (b := setMode (taken .drain) .drain) (m := 0) (n := 0) (Posts.of_same rfl rfl rfl rfl rfl)
          (posts_completeDrain (setMode (taken .drain) .drain) hfree)
      exact congrArg s.after (deliver_posts .drain tag [] d drain (.done [0, n]) 0 hclear hsix
        hposts (completeDrain_feed _) (hrunDrain hmode hqueue hheld))
    · refine haltedFrom_answer d halt _ hhalted ?_
      rw [deliver_responds .halt tag [] d hready, hrunHalt hmode]
      exact answerFrame_respond _ _ _ _
    · refine drainedFrom_answer d drain _ hdrained ?_
      rw [deliver_responds .drain tag [] d hready, hrunDrain hmode hqueue hheld]
      exact answerFrame_respond _ _ _ _

end Sys2Proof.Machine

/-! PROOFS. PURGE TRACK and SOFT RESET (R24, R148, R153). -/

namespace Sys2Proof.Machine

/-! ## What a purge leaves -/

/-- R24: the part `e` is `d` with every record removed PURGED. -/
def Device.emptiedFrom (d e : Device) : Prop :=
  e.track.queue = [] ∧
  e.tally.totals = { d.tally.totals with
    purged := d.tally.totals.purged + BitVec.ofNat 32 d.track.queue.length } ∧
  e.inputs = d.inputs ∧ e.clock = d.clock ∧ e.track.encoder = d.track.encoder ∧
  e.track.admission = d.track.admission ∧ e.attention.mask = d.attention.mask ∧ e.feed.fifo = d.feed.fifo

/-- R24: the part `e` is `d` after a purge. -/
def Device.purgedFrom (d e : Device) : Prop :=
  d.emptiedFrom e ∧ e.line = d.line ∧ e.window = d.window ∧ ∀ c, e.attention.latch c = d.attention.latch c

/-- R153: the part `e` is `d` after a soft reset. -/
def Device.softenedFrom (d e : Device) : Prop :=
  d.emptiedFrom e ∧ e.line = { mode := .idle, holdFeed := false, scanLock := false, gapPulses := d.line.gapPulses } ∧
  e.track.twist = none ∧ e.track.turn = none ∧ e.stacker.gates = Vector.replicate 16 none ∧
  (∀ row : Fin 21, e.track.occupants[row] = .nobody ∧ e.track.jam[row] = none) ∧
  e.window = { selection := none, groups := [], gap := .closed } ∧
  e.classifier = { busy := none, suspect := 0 } ∧
  e.imprint = { builder := none, ring := [], alloc := 0, sequence := d.imprint.sequence, printFault := false,
                printing := none, printCol := 0, printStrobes := d.imprint.printStrobes,
                strobed := d.imprint.strobed } ∧
  (∀ c, e.attention.latch c = none ∧ e.attention.condition c ≠ .activeSeen) ∧
  e.track.inService = d.track.inService ∧
  ∀ k : Fin 16, (e.bin k).fill = (d.bin k).fill ∧ (e.bin k).held = (d.bin k).held

/-- R24: what the purge does and what it keeps. -/
theorem purgedFrom_purgeAll (d : Device) : d.purgedFrom (purgeAll d) := by
  obtain ⟨hqueue, hframe, htotals⟩ := purgeAll_spec d
  exact ⟨⟨hqueue, htotals, hframe.inputs, hframe.clock, hframe.encoder, hframe.admission, hframe.mask,
    by rw [hframe.feed]⟩, hframe.line, hframe.window, hframe.latch⟩

/-- R153: the attention causes after a soft reset: no latch, and no condition seen. -/
theorem softClear_attention (d : Device) (c : Cause) :
    (softClear d).attention.latch c = none ∧ (softClear d).attention.condition c ≠ .activeSeen := by
  have hnew : ∀ active, Condition.on .inactive active ≠ .activeSeen := fun active => by
    cases active <;> exact fun h => by cases h
  have hinactive : Condition.inactive ≠ .activeSeen := fun h => by cases h
  cases c
  case rejectFull => exact ⟨rfl, hnew _⟩
  case binFull => exact ⟨rfl, hnew _⟩
  case printFault => exact ⟨rfl, hnew _⟩
  all_goals exact ⟨rfl, hinactive⟩

/-- R153: what a soft reset does and what it keeps. -/
theorem softenedFrom_softClear (d : Device) : d.softenedFrom (softClear (purgeAll d)) := by
  obtain ⟨hqueue, hframe, htotals⟩ := purgeAll_spec d
  refine ⟨⟨hqueue, htotals, hframe.inputs, hframe.clock, hframe.encoder, hframe.admission, hframe.mask,
    congrArg FeedLink.fifo hframe.feed⟩, ?_, rfl, rfl, rfl, fun row => ?_, rfl, rfl, ?_, softClear_attention _,
    hframe.inService, hframe.bins⟩
  · rw [← hframe.line]
    rfl
  · constructor
    · exact Vector.getElem_replicate _
    · exact Vector.getElem_replicate _
  · rw [← hframe.sequence, ← hframe.strobes, ← hframe.strobed]
    rfl

/-! ## Behind the answer (R177) -/

theorem emptiedFrom_answer (d x y : Device) (h : d.emptiedFrom x) (hanswer : AnswerFrame x y) : d.emptiedFrom y := by
  obtain ⟨hqueue, htotals, hinputs, hclock, hencoder, hadmission, hmask, hfifo⟩ := h
  unfold Device.emptiedFrom
  rw [hanswer.track, hanswer.totals, hanswer.inputs, hanswer.clock, hanswer.attention, hanswer.fifo]
  exact ⟨hqueue, htotals, hinputs, hclock, hencoder, hadmission, hmask, hfifo⟩

theorem purgedFrom_answer (d x y : Device) (h : d.purgedFrom x) (hanswer : AnswerFrame x y) : d.purgedFrom y := by
  obtain ⟨hemptied, hrest⟩ := h
  refine ⟨emptiedFrom_answer d x y hemptied hanswer, ?_⟩
  rw [hanswer.line, hanswer.window, hanswer.attention]
  exact hrest

theorem softenedFrom_answer (d x y : Device) (h : d.softenedFrom x) (hanswer : AnswerFrame x y) :
    d.softenedFrom y := by
  obtain ⟨hemptied, hrest⟩ := h
  refine ⟨emptiedFrom_answer d x y hemptied hanswer, ?_⟩
  unfold Device.bin at hrest ⊢
  rw [hanswer.line, hanswer.track, hanswer.stacker, hanswer.window, hanswer.classifier, hanswer.imprint,
    hanswer.attention]
  exact hrest

/-! ## The commands -/

/-- R24, R148: PURGE TRACK by the mode. -/
theorem cmdPurgeTrack_eq (d : Device) :
    (d.line.mode = .halted → cmdPurgeTrack d = (purgeAll d, .done [word d.track.queue.length])) ∧
    (d.line.mode ≠ .halted → cmdPurgeTrack d = (d, { code := .refusedMode, detail := 0, words := [0] })) := by
  refine ⟨fun hmode => by simp only [cmdPurgeTrack, hmode], fun hmode => ?_⟩
  unfold cmdPurgeTrack
  split
  · next h => exact absurd h hmode
  · rfl
  · rfl
  · rfl

/-- R143 to R145: the room of the answer and of the item reports before it. -/
theorem clear_purge (d : Device) (h : d.clear (6 + 7 * (d.tally.batch.length + d.track.queue.length))) :
    d.clear (5 + 1 + 7 * d.tally.batch.length + 7 * d.track.queue.length) := by
  obtain ⟨hready, hpage, hdeferred, hroom⟩ := h
  exact ⟨hready, hpage, hdeferred, by omega⟩

/-- Settles O44: the commands by `deliver_posts`, and what they leave by `purgeAll_spec`, behind the answer as before
it. -/
theorem purgeTrackAndSoftReset : Obligations.PurgeTrackAndSoftReset := by
  intro s tag d n taken removed purged cleared emptied purgedOnly softened room
  have hpurge : exec (.purgeTrack tag) s = s.after (deliver .purgeTrack tag [] d) := rfl
  have hsoft : exec (.softReset tag) s = s.after (deliver .softReset tag [] d) := rfl
  have hpurged : purgedOnly purged := purgedFrom_purgeAll (taken .purgeTrack)
  have hsoftened : softened cleared := softenedFrom_softClear (taken .softReset)
  have hrunPurge : d.line.mode = .halted →
      runCommand .purgeTrack [] (setDelim d (.complete (.command .purgeTrack) tag)) = (purged, .done [word n]) :=
    (cmdPurgeTrack_eq (taken .purgeTrack)).1
  have hrunSoft : runCommand .softReset [] (setDelim d (.complete (.command .softReset) tag)) =
      (cleared, .done [word n]) := rfl
  obtain ⟨-, hpurgeFrame, -⟩ := purgeAll_spec (taken .purgeTrack)
  obtain ⟨-, hsoftFrame, -⟩ := purgeAll_spec (taken .softReset)
  refine ⟨fun hroom hmode => ?_, fun hroom => ?_, fun hready hmode => ⟨hpurged, hpurgeFrame.tables,
    hpurgeFrame.period, hpurgeFrame.page, hpurgeFrame.deferred, _, hpurge, ?_⟩, fun hready => ⟨hsoftened,
    hsoftFrame.tables, hsoftFrame.period, hsoftFrame.page, hsoftFrame.deferred, _, hsoft, ?_⟩, fun hclear hmode => ?_⟩
  · obtain ⟨hclear, hsix⟩ := hroom
    rw [hpurge]
    exact congrArg s.after (deliver_posts .purgeTrack tag [] d purged (.done [word n]) _ (clear_purge d hclear) hsix
      (posts_purgeAll (taken .purgeTrack)) hpurgeFrame.feed (hrunPurge hmode))
  · obtain ⟨hclear, hsix⟩ := hroom
    have hposts : Posts (7 * d.track.queue.length) (taken .softReset) cleared :=
      Posts.trans (n := 0) (posts_purgeAll (taken .softReset)) (Posts.of_same rfl rfl rfl rfl rfl)
    rw [hsoft]
    exact congrArg s.after (deliver_posts .softReset tag [] d cleared (.done [word n]) _ (clear_purge d hclear) hsix
      hposts hsoftFrame.feed hrunSoft)
  · refine purgedFrom_answer d purged _ hpurged ?_
    rw [deliver_responds .purgeTrack tag [] d hready, hrunPurge hmode]
    exact answerFrame_respond _ _ _ _
  · refine softenedFrom_answer d cleared _ hsoftened ?_
    rw [deliver_responds .softReset tag [] d hready, hrunSoft]
    exact answerFrame_respond _ _ _ _
  · exact exec_answered s _ .purgeTrack tag [] 6 d _ rfl hclear ((cmdPurgeTrack_eq (taken .purgeTrack)).2 hmode) rfl rfl
      rfl rfl (Nat.le_refl _)

end Sys2Proof.Machine

/-! PROOFS. The feed hold and the scan lock (R44, R155), and the lines that follow other state. -/

namespace Sys2Proof.Machine

/-- Settles O45: each command answered at once on a part that is clear. -/
theorem feedHoldAndScanLock : Obligations.FeedHoldAndScanLock := by
  intro s tag d hold hclear
  have hlock : (if d.line.scanLock then (1 : Word) else 0) = word (bit d.line.scanLock) := by
    cases d.line.scanLock <;> rfl
  refine ⟨?_, ?_, ?_⟩
  · exact exec_answered s _ .holdFeed tag [] 6 (hold true) _ rfl hclear rfl rfl rfl rfl rfl (Nat.le_refl _)
  · exact exec_answered s _ .releaseFeed tag [] 6 (hold false) _ rfl hclear rfl rfl rfl rfl rfl (Nat.le_refl _)
  · rw [hlock]
    exact exec_answered s _ .clearScanLock tag [] 6 { d with line := { d.line with scanLock := false } } _ rfl hclear rfl
      rfl rfl rfl rfl (Nat.le_refl _)

/-! ## The feed-stop causes (R155) -/

/-- Five flags as the bits of a number. -/
theorem fiveBits (a b c e f : Bool) :
    (bit a + 2 * bit b + 4 * bit c + 8 * bit e + 16 * bit f ≠ 0 ↔
      a = true ∨ b = true ∨ c = true ∨ e = true ∨ f = true) ∧
    (bit a + 2 * bit b + 4 * bit c + 8 * bit e + 16 * bit f).testBit 0 = a ∧
    (bit a + 2 * bit b + 4 * bit c + 8 * bit e + 16 * bit f).testBit 1 = b ∧
    (bit a + 2 * bit b + 4 * bit c + 8 * bit e + 16 * bit f).testBit 2 = c ∧
    (bit a + 2 * bit b + 4 * bit c + 8 * bit e + 16 * bit f).testBit 3 = e ∧
    (bit a + 2 * bit b + 4 * bit c + 8 * bit e + 16 * bit f).testBit 4 = f := by
  revert a b c e f
  decide

/-- R123: bin 0 enabled and at its capacity. -/
theorem rejectFullActive_iff (d : Device) :
    d.rejectFullActive = true ↔ d.num 6 0 0 ≠ 0 ∧ d.num 6 0 1 ≤ (d.bin 0).fill := by
  unfold Device.rejectFullActive
  rw [Bool.and_eq_true, decide_eq_true_eq]
  exact and_congr_left fun _ => decide_eq_true_iff

/-- R122: a bin of 1 to 15 that is FULL. -/
theorem binFullActive_iff (d : Device) : d.binFullActive = true ↔ ∃ k : Fin 16, k ≠ 0 ∧ (d.bin k).state = .full := by
  unfold Device.binFullActive
  simp only [List.any_eq_true, List.mem_finRange, true_and, Bool.and_eq_true, decide_eq_true_eq]
  refine exists_congr fun k => and_congr_left fun _ => ?_
  rw [ne_eq, ne_eq, Fin.ext_iff]
  rfl

/-- R148: RUN and DRAIN are the active modes. -/
theorem active_iff (d : Device) : d.active = true ↔ d.line.mode = .run ∨ d.line.mode = .drain := by
  unfold Device.active
  cases d.line.mode <;> simp [Mode.active]

/-- R100: the print fault, or PRINT-READY missing in RUN and DRAIN. -/
theorem printFaultActive_iff (d : Device) : d.printFaultActive = true ↔ d.imprint.printFault = true ∨
    d.inputs.printReady = false ∧ (d.line.mode = .run ∨ d.line.mode = .drain) := by
  unfold Device.printFaultActive
  rw [Bool.or_eq_true, Bool.and_eq_true, Bool.not_eq_true', active_iff]

/-- R156: the handshake by FEED-STOP and FEED-HELD. -/
theorem handshake_eq (d : Device) : d.handshake =
    if d.feedStop then (if d.inputs.feedHeld then 2 else 1) else if d.inputs.feedHeld then 3 else 0 := by
  unfold Device.handshake
  cases d.feedStop <;> cases d.inputs.feedHeld <;> rfl

/-! ## ATTN (R161, R162) -/

/-- R158: every cause has its place among the twelve. -/
theorem mem_allCauses (c : Cause) : c ∈ allCauses := by
  cases c <;> decide

/-- R161, R162: a cause qualifies unless it is masked, and JAM never is. -/
theorem qualifies_iff (a : AttentionUnit) (c : Cause) : a.qualifies c = true ↔
    (c = .jam ∨ a.mask.getLsbD c.priority = false) ∧ (a.latch c ≠ none ∨ a.condition c = .activeNew) := by
  unfold AttentionUnit.qualifies AttentionUnit.masked
  rw [Bool.and_eq_true, Bool.or_eq_true, Bool.not_eq_true', Bool.and_eq_false_iff, decide_eq_false_iff_not, not_not,
    decide_eq_true_eq, Option.isSome_iff_ne_none]

/-- R161: ATTN. -/
theorem attn_iff (d : Device) : d.attn = true ↔ d.attention.jam ≠ none ∨
    ∃ c : Cause, d.attention.mask.getLsbD c.priority = false ∧
      (d.attention.latch c ≠ none ∨ d.attention.condition c = .activeNew) := by
  unfold Device.attn
  rw [List.any_eq_true]
  constructor
  · rintro ⟨c, -, hqualifies⟩
    obtain ⟨rfl | hunmasked, hset⟩ := (qualifies_iff _ _).1 hqualifies
    · exact .inl (hset.resolve_right fun h => by cases h)
    · exact .inr ⟨c, hunmasked, hset⟩
  · rintro (hjam | ⟨c, hunmasked, hset⟩)
    · exact ⟨.jam, mem_allCauses _, (qualifies_iff _ _).2 ⟨.inl rfl, .inl hjam⟩⟩
    · exact ⟨c, mem_allCauses _, (qualifies_iff _ _).2 ⟨.inr hunmasked, hset⟩⟩

/-- Settles O46: each line by the state it follows. -/
theorem linesFollowTheirState : Obligations.LinesFollowTheirState := by
  refine ⟨fun d => ?_, fun d => ⟨rejectFullActive_iff d, binFullActive_iff d, printFaultActive_iff d, rfl⟩,
    fun c active => ?_⟩
  · obtain ⟨hany, h0, h1, h2, h3, h4⟩ := fiveBits (decide (d.line.mode ≠ .run)) (decide (20 ≤ d.track.queue.length))
      d.rejectFullActive d.line.holdFeed d.line.scanLock
    refine ⟨Option.isSome_iff_exists, Option.isSome_iff_exists, fun k => Option.isSome_iff_exists, decide_eq_true_iff,
      ?_, ?_, ?_, ?_, h3, h4, handshake_eq d, attn_iff d⟩
    · rw [decide_eq_true_eq, decide_eq_true_eq, rejectFullActive_iff] at hany
      exact decide_eq_true_iff.trans hany
    · exact (Bool.eq_iff_iff.1 h0).trans decide_eq_true_iff
    · exact (Bool.eq_iff_iff.1 h1).trans decide_eq_true_iff
    · exact (Bool.eq_iff_iff.1 h2).trans (rejectFullActive_iff d)
  · cases c <;> cases active <;> rfl

end Sys2Proof.Machine

/-! PROOFS. SELECT WINDOW (R182), and the shape of the tables (R181). -/

namespace Sys2Proof.Machine

/-- R182: the first check that fails, as a number. -/
def faultPlace (table firstRow lastRow firstField lastField sixth : Nat) : Nat :=
  if 14 < table then 1
  else if tableRows table ≤ firstRow then 2
  else if tableRows table ≤ lastRow ∨ lastRow < firstRow then 3
  else if tableFields table ≤ firstField then 4
  else if tableFields table ≤ lastField ∨ lastField < firstField then 5
  else if 3 < sixth then 6
  else 0

/-- R182: a check fails at a place, or every check passes. -/
theorem windowFault_eq (t r1 r2 f1 f2 x : Nat) :
    windowFault t r1 r2 f1 f2 x = if faultPlace t r1 r2 f1 f2 x = 0 then none else some (faultPlace t r1 r2 f1 f2 x) := by
  unfold windowFault faultPlace
  split_ifs <;> simp_all

/-- R182: with every check passed the sixth parameter is at most 3. -/
theorem faultPlace_sixth (t r1 r2 f1 f2 x : Nat) (h : faultPlace t r1 r2 f1 f2 x = 0) : x ≤ 3 := by
  unfold faultPlace at h
  split_ifs at h
  omega

/-- R182: the two bits of the sixth parameter. -/
theorem sixth_bits (x : Word) (h : x.toNat ≤ 3) :
    (x.getLsbD 0 = true ↔ ¬ x.toNat % 2 = 0) ∧ (x.getLsbD 1 = true ↔ ¬ x.toNat < 2) := by
  unfold BitVec.getLsbD
  generalize x.toNat = n at h
  interval_cases n <;> decide

/-- R182: the window a SELECT WINDOW selects. -/
theorem selectWindow_chosen (t r1 r2 f1 f2 x : Word) (d : Device)
    (h : faultPlace t.toNat r1.toNat r2.toNat f1.toNat f2.toNat x.toNat = 0) :
    let chosen : Window :=
      { table := t.toNat, firstRow := r1.toNat, lastRow := r2.toNat, firstField := f1.toNat, lastField := f2.toNat,
        order := if x.getLsbD 0 then .fieldFirst else .rowFirst,
        overrun := if x.getLsbD 1 then .wrap else .ignore, cursor := 0 }
    selectWindow t.toNat r1.toNat r2.toNat f1.toNat f2.toNat x.toNat d =
      (setWindow d chosen, .done [word ((r2.toNat - r1.toNat + 1) * (f2.toNat - f1.toNat + 1))]) := by
  obtain ⟨horder, hoverrun⟩ := sixth_bits x (faultPlace_sixth _ _ _ _ _ _ h)
  simp only [horder, hoverrun, ite_not]
  unfold selectWindow
  rw [windowFault_eq, if_pos h]
  rfl

/-- R182: a check that fails selects nothing. -/
theorem selectWindow_fails (t r1 r2 f1 f2 x : Nat) (d : Device) (h : faultPlace t r1 r2 f1 f2 x ≠ 0) :
    selectWindow t r1 r2 f1 f2 x d =
      (d, { code := .badParameter, detail := faultPlace t r1 r2 f1 f2 x, words := [0] }) := by
  unfold selectWindow
  rw [windowFault_eq, if_neg h]

/-- R181: the cells that are read-only. -/
theorem cellReadOnly_iff (t r f : Nat) : cellReadOnly t r f = true ↔ (t = 6 ∧ 3 ≤ f) ∨
    (t = 7 ∧ ((r = 0 ∧ f < 2) ∨ (f = 3 ∧ r ≠ 1) ∨ ((f = 4 ∨ f = 5) ∧ r ≠ 3))) ∨ t = 13 ∨ t = 14 := by
  unfold cellReadOnly
  split
  · simp
  · simp [or_assoc]
  · simp
  · simp
  · next h6 h7 h13 h14 => simp [show t ≠ 6 from h6, show t ≠ 7 from h7, show t ≠ 13 from h13, show t ≠ 14 from h14]

/-- R11, R49, R51, R60, R68, R79, R80, R82, R111, R116, R196: the greatest value of each field of tables 0 to 12, 0
standing for the anchor. -/
def fieldTops : List (List Nat) :=
  let line : List Nat := [319, 16, 20, 1, 1, 1]
  [[1, 65535, 15, 1, 1, 999, 127, 65535, 1], [1, 65535, 3, 15, 65535, 15, 15, 3, 15], [15, 65535, 15, 15, 3, 15],
    [1, 511, 7, 65535], [1, 1, 1], [15, 1, 4], [1, 65535, 15], [65535, 255, 65535, 65535, 65535, 65535],
    [320, 0, 4, 319, 320, 4] ++ line ++ line ++ line ++ line, List.replicate 20 65535, List.replicate 3 65535,
    List.replicate 12 65535, List.replicate 2 65535]

/-- The model's greatest values are those listed, the anchor apart. -/
theorem fieldMax_listed : ∀ t < 13, ∀ f < 30, (t = 8 ∧ f = 1) ∨
    (fieldTops[t]?.bind (fun l => l[f]?)).all (fun top => decide (fieldMax t f = top)) = true := by
  decide

/-- The tables listed have at most 30 fields. -/
theorem fieldTops_length : ∀ l ∈ fieldTops, l.length ≤ 30 := by
  decide

/-- The greatest value of a field is the one listed. -/
theorem fieldMax_eq (t f top : Nat) (hanchor : ¬ (t = 8 ∧ f = 1))
    (h : fieldTops[t]?.bind (fun l => l[f]?) = some top) : fieldMax t f = top := by
  obtain ⟨l, hl, hf⟩ := Option.bind_eq_some_iff.1 h
  obtain ⟨ht, hget⟩ := List.getElem?_eq_some_iff.1 hl
  obtain ⟨hfield, -⟩ := List.getElem?_eq_some_iff.1 hf
  have hlength := fieldTops_length l (hget ▸ List.getElem_mem ht)
  have hlisted := (fieldMax_listed t ht f (by omega)).resolve_left hanchor
  rw [h] at hlisted
  exact of_decide_eq_true hlisted

/-- Settles O47: the six checks by `faultPlace`, the tables by their listing. -/
theorem selectWindowAnswered : Obligations.SelectWindowAnswered := by
  refine ⟨fun s tag t r1 r2 f1 f2 x => ?_, rfl, rfl, cellReadOnly_iff, fun t f top v => ?_⟩
  · intro d place chosen hclear
    let taken := setDelim d (.complete (.command .selectWindow) tag)
    refine ⟨fun hfails => ?_, fun hpasses => ?_⟩
    · exact exec_answered s _ .selectWindow tag [t, r1, r2, f1, f2, x] 6 d _ rfl hclear
        (selectWindow_fails _ _ _ _ _ _ taken hfails) rfl rfl rfl rfl (Nat.le_refl _)
    · exact exec_answered s _ .selectWindow tag [t, r1, r2, f1, f2, x] 6 (setWindow d chosen) _ rfl hclear
        (selectWindow_chosen t r1 r2 f1 f2 x taken hpasses) rfl rfl rfl rfl (Nat.le_refl _)
  · intro line tops
    refine ⟨fun hanchor htop => heldValue_top t f top v hanchor (fieldMax_eq t f top hanchor htop), ?_⟩
    exact if_pos ⟨rfl, rfl⟩

end Sys2Proof.Machine

/-! PROOFS. READ WINDOW and READ CONTINUE (R178, R183, R187), and the value of a cell (R25, R116, R142). -/

namespace Sys2Proof.Machine

/-! ## A read of a window -/

/-- R187: a read of no words or of more than 255 is refused. -/
theorem readWindow_badCount (b : Bool) (n : Nat) (d : Device) (h : n < 1 ∨ 255 < n) :
    readWindow b n d = (d, { code := .badParameter, detail := 1, words := [] }) := if_pos h

/-- R187: a read with no window selected is refused. -/
theorem readWindow_noWindow (b : Bool) (n : Nat) (d : Device) (hlow : 1 ≤ n) (hhigh : n ≤ 255)
    (hwindow : d.window.selection = none) :
    readWindow b n d = (d, { code := .noWindow, detail := 0, words := [] }) := by
  unfold readWindow
  rw [if_neg (by omega), hwindow]

/-- R187: the place where a read begins: the cursor, or place 0. -/
def Window.readFrom (w : Window) (continue_ : Bool) : Nat := if continue_ then w.cursor else 0

/-- R183: the value of the cell at place `k` of a window. -/
def Device.placeValue (d : Device) (w : Window) (k : Nat) : Word :=
  match w.order with
  | .rowFirst => d.readCell w.table (w.firstRow + k / (w.lastField - w.firstField + 1))
      (w.firstField + k % (w.lastField - w.firstField + 1))
  | .fieldFirst => d.readCell w.table (w.firstRow + k % (w.lastRow - w.firstRow + 1))
      (w.firstField + k / (w.lastRow - w.firstRow + 1))

/-- R183: the cell at a place, by the window's order. -/
theorem readCell_place (d : Device) (w : Window) (k : Nat) :
    d.readCell w.table (w.place k).1 (w.place k).2 = d.placeValue w k := by
  unfold Window.place Device.placeValue
  cases w.order <;> rfl

/-- R187: a read taken: the words from the place where it begins. -/
theorem readWindow_taken (b : Bool) (n : Nat) (d : Device) (w : Window) (hlow : 1 ≤ n) (hhigh : n ≤ 255)
    (hwindow : d.window.selection = some w) : readWindow b n d =
      let read := readWords d n { w with cursor := w.readFrom b }
      (setWindow d read.2.2, .done (word read.2.1 :: read.1)) := by
  unfold readWindow
  rw [if_neg (by omega), hwindow]
  cases b <;> rfl

/-- R183, R187: under IGNORE a place past the end reads 0 and is counted, and the cursor rests at the end. -/
theorem readWindow_ignore (b : Bool) (n : Nat) (d : Device) (w : Window) (hlow : 1 ≤ n) (hhigh : n ≤ 255)
    (hwindow : d.window.selection = some w) (hoverrun : w.overrun = .ignore) (hcursor : w.readFrom b ≤ w.size) :
    readWindow b n d = (setWindow d { w with cursor := min w.size (w.readFrom b + n) },
      .done (word (n - (w.size - w.readFrom b)) :: (List.range n).map (fun k =>
        if w.readFrom b + k < w.size then d.placeValue w (w.readFrom b + k) else 0))) := by
  rw [readWindow_taken b n d w hlow hhigh hwindow, readWords_ignore d w hoverrun n _ hcursor]
  simp only [readCell_place]

/-- R183, R187: under WRAP a read goes on from place 0. -/
theorem readWindow_wrap (b : Bool) (n : Nat) (d : Device) (w : Window) (hlow : 1 ≤ n) (hhigh : n ≤ 255)
    (hwindow : d.window.selection = some w) (hoverrun : w.overrun = .wrap) (hcursor : w.readFrom b < w.size) :
    readWindow b n d = (setWindow d { w with cursor := (w.readFrom b + n) % w.size },
      .done (0 :: (List.range n).map (fun k => d.placeValue w ((w.readFrom b + k) % w.size)))) := by
  rw [readWindow_taken b n d w hlow hhigh hwindow, readWords_wrap d w hoverrun n _ hcursor]
  simp only [readCell_place]
  rfl

/-- R183: a read begins within the window. -/
theorem readFrom_holds (w : Window) (b : Bool) (h : w.holds w.cursor) :
    w.readFrom b ≤ w.size ∧ (w.overrun = .wrap → w.readFrom b < w.size) := by
  have hpos := w.size_pos
  cases b
  · exact ⟨Nat.zero_le _, fun _ => hpos⟩
  · rcases h with hless | ⟨hend, hignore⟩
    · exact ⟨Nat.le_of_lt hless, fun _ => hless⟩
    · refine ⟨Nat.le_of_eq hend, fun hwrap => ?_⟩
      rw [hignore] at hwrap
      cases hwrap

/-! ## A response longer than the Report Queue (R178) -/

/-- R178: a response of more than 256 words enters an empty queue as far as there is room, and waits behind others. -/
theorem respond_long (d : Device) (kind : CommandKind) (tag : BitVec 8) (a : Answer) (hlong : 256 < 5 + a.words.length)
    (hpage : d.tally.page ≠ none ∨ d.tally.deferred = none) :
    respond d kind tag a =
      if d.report.queue = [] then
        { d with
          feed := { d.feed with excess := 0 }
          report := { d.report with
            queue := (linkFrame (responseWords kind tag d.feed.excess a)).take 256 }
          command := .waiting ((linkFrame (responseWords kind tag d.feed.excess a)).drop 256) true }
      else
        { d with
          feed := { d.feed with excess := 0 }
          command := .waiting (linkFrame (responseWords kind tag d.feed.excess a)) false } := by
  obtain ⟨words, hdef⟩ : ∃ words, words = linkFrame (responseWords kind tag d.feed.excess a) := ⟨_, rfl⟩
  rw [← hdef]
  have hcommand : (buildResponse d kind tag a).command = .waiting words false := by rw [hdef]; rfl
  have hlength : words.length = 5 + a.words.length := by rw [hdef, responseFrame_length]
  have hroom : (buildResponse d kind tag a).reportRoom < words.length := by
    have hsize := reportRoom_le (buildResponse d kind tag a)
    have hwords : Config.reportWords = 256 := rfl
    omega
  rw [respond, arbiter]
  by_cases hqueue : d.report.queue = []
  · have hall : (buildResponse d kind tag a).reportRoom = 256 := by
      show Config.reportWords - d.report.queue.length = 256
      rw [hqueue]
      rfl
    rw [if_pos hqueue, placeResponse_begins _ words false hcommand hroom (.inr ⟨by omega, hqueue⟩), hall]
    refine (settlePage_waiting _ ?_ rfl).trans ?_
    · exact hpage
    · simp only [buildResponse, hqueue, List.nil_append]
  · rw [if_neg hqueue, placeResponse_full _ words hcommand hroom (.inr hqueue), hdef]
    exact settlePage_waiting _ hpage rfl

/-! ## The value of a cell -/

/-- R187: a cell of tables 0 to 12 as applied, the Bin Table's counts apart. -/
theorem readCell_applied (d : Device) (t r f : Nat) (htable : t ≤ 12) (hbins : ¬ (t = 6 ∧ 3 ≤ f)) :
    d.readCell t r f = d.cell t r f := by
  unfold Device.readCell
  split
  · exact if_neg fun hfield => hbins ⟨rfl, hfield⟩
  · omega
  · omega
  · rfl

/-- R116: fields 3 to 6 of the Bin Table. -/
theorem readCell_bin (d : Device) (k : Fin 16) (f : Nat) (h : 3 ≤ f) : d.readCell 6 k.val f = d.binField k f := by
  have hbin : Fin.ofNat 16 k.val = k := Fin.ext (Nat.mod_eq_of_lt k.isLt)
  have hread : d.readCell 6 k.val f = if 3 ≤ f then d.binField (Fin.ofNat 16 k.val) f else d.cell 6 k.val f := rfl
  rw [hread, if_pos h, hbin]

/-- R142: a row of the Tally Counters shows the two words of its count. -/
theorem readCell_tally (d : Device) (row : Nat) (c : Count) (h : d.tallyValues[row]? = some c) :
    d.readCell 13 row 0 = c.extractLsb' 16 16 ∧ d.readCell 13 row 1 = c.extractLsb' 0 16 := by
  have hread : ∀ f, d.readCell 13 row f = (countWords c).getD f 0 := fun f => by
    simp only [Device.readCell, h]
  rw [hread, hread, countWords_eq]
  exact ⟨rfl, rfl⟩

/-- R142: the first 56 rows are the counters. -/
theorem tallyValues_counter (d : Device) (i : Fin 56) : d.tallyValues[i.val]? = some d.tally.counters[i] := by
  unfold Device.tallyValues
  rw [List.getElem?_append_left (by simp)]
  simp

/-- R142: the last six rows are the totals. -/
theorem tallyValues_total (d : Device) (k : Nat) : d.tallyValues[56 + k]? =
    [d.tally.totals.admitted, d.tally.totals.stacked, d.tally.totals.lost, d.tally.totals.missed,
      d.tally.totals.purged, d.tally.totals.untracked][k]? := by
  unfold Device.tallyValues
  rw [List.getElem?_append_right (by simp)]
  simp

/-- R25: a row beyond the queue reads 0. -/
theorem readCell_beyond (d : Device) (row f : Nat) (h : d.track.queue.length ≤ row) : d.readCell 14 row f = 0 := by
  simp only [Device.readCell, List.getElem?_eq_none h]

/-- R25: a row of the queue shows the fields of its record. -/
theorem readCell_record (d : Device) (row : Nat) (r : ItemRecord) (h : d.track.queue[row]? = some r) (f : Nat) :
    d.readCell 14 row f = r.viewWords.getD f 0 := by
  simp only [Device.readCell, h]

/-- A flag as a word. -/
theorem word_bit (b : Bool) : word (bit b) = if b then 1 else 0 := by
  cases b <;> rfl

/-- R25: the 23 fields of a record, spelled out. -/
theorem viewWords_eq (r : ItemRecord) :
    let yes (b : Bool) : Word := if b then 1 else 0
    r.viewWords =
      [1, r.number, yes r.tag.isSome, r.tag.getD 0,
        (match r.state with
          | .awaitScan => 0 | .partial_ => 1 | .ready => 2 | .classifying => 3 | .decided => 4 | .late => 5),
        (match r.gotA, r.gotB with
          | false, false => 0 | true, false => 1 | false, true => 2 | true, true => 3),
        yes r.scanFault, (r.lead.extractLsb' 16 8).setWidth 16, r.lead.extractLsb' 0 16,
        (match r.length with
          | none => 0
          | some n => if n.toNat < 65536 then word n.toNat else 65535),
        yes r.length.isSome,
        (match r.disposition with
          | none => 0 | some .facedPaid => 1 | some .shortPaid => 2 | some .outOfGauge => 3 | some .reused => 4
          | some .noMark => 5 | some .ambiguous => 6 | some .scanFault => 7 | some .late => 8
          | some .faceFault => 9 | some .uncancelled => 10),
        (match r.positionCode with | none => 8 | some c => word c.val),
        (match r.route with | none => 16 | some t => word t.bin.val),
        (match r.route.map Route.via with
          | some .primary => 0 | some .alternate => 1 | some .reject => 2 | none => 3),
        (match r.imprint with
          | .none => 0 | .queued => 1 | .building => 2 | .built => 3 | .printing => 4 | .printed => 5
          | .underrun => 6 | .aborted => 7),
        (match r.faceCheck with | none => 0 | some .pass => 1 | some .fail => 2),
        (match r.seen.head?.map SeenAt.station with
          | none => 0 | some .twist => 1 | some .turn => 2 | some .cancel => 3 | some .exit => 4
          | some (.gate k) => word (5 + k.val)),
        (match r.chosen.map ChosenMark.row with
          | none => 65535 | some (.markClass n) => word n | some (.default n) => word (512 + n)),
        r.totalValue.getD 0, r.requiredValue.getD 0,
        (match r.buildDate with | none => 0 | some x => word x.year),
        (match r.buildDate with | none => 0 | some x => word (256 * x.month + x.day))] := by
  intro yes
  have hstate : word r.state.code = match r.state with
      | .awaitScan => 0 | .partial_ => 1 | .ready => 2 | .classifying => 3 | .decided => 4 | .late => 5 := by
    cases r.state <;> rfl
  have hparts : word (partsCode r) = match r.gotA, r.gotB with
      | false, false => 0 | true, false => 1 | false, true => 2 | true, true => 3 := by
    unfold partsCode
    cases r.gotA <;> cases r.gotB <;> rfl
  have hlength : word (min 65535 (r.length.getD 0).toNat) = match r.length with
      | none => 0
      | some n => if n.toNat < 65536 then word n.toNat else 65535 := by
    cases r.length with
    | none => rfl
    | some n =>
      simp only [Option.getD_some]
      split
      · rw [Nat.min_eq_right (by omega)]
      · rw [Nat.min_eq_left (by omega)]
        rfl
  have hdisposition : word (dispositionCode r.disposition) = match r.disposition with
      | none => 0 | some .facedPaid => 1 | some .shortPaid => 2 | some .outOfGauge => 3 | some .reused => 4
      | some .noMark => 5 | some .ambiguous => 6 | some .scanFault => 7 | some .late => 8
      | some .faceFault => 9 | some .uncancelled => 10 := by
    rcases r.disposition with _ | disposition
    · rfl
    · cases disposition <;> rfl
  have hposition : word (match r.positionCode with | some c => c.val | none => 8) =
      match r.positionCode with | none => 8 | some c => word c.val := by
    cases r.positionCode <;> rfl
  have hroute : word (match r.route with | some t => t.bin.val | none => 16) =
      match r.route with | none => 16 | some t => word t.bin.val := by
    cases r.route <;> rfl
  have hvia : word (viaCode r.route) = match r.route.map Route.via with
      | some .primary => 0 | some .alternate => 1 | some .reject => 2 | none => 3 := by
    rcases r.route with _ | ⟨bin, via⟩
    · rfl
    · cases via <;> rfl
  have himprint : word r.imprint.code = match r.imprint with
      | .none => 0 | .queued => 1 | .building => 2 | .built => 3 | .printing => 4 | .printed => 5
      | .underrun => 6 | .aborted => 7 := by
    cases r.imprint <;> rfl
  have hface : word (faceCheckCode r.faceCheck) = match r.faceCheck with
      | none => 0 | some .pass => 1 | some .fail => 2 := by
    rcases r.faceCheck with _ | check
    · rfl
    · cases check <;> rfl
  have hseen : word (lastSeenRow r) = match r.seen.head?.map SeenAt.station with
      | none => 0 | some .twist => 1 | some .turn => 2 | some .cancel => 3 | some .exit => 4
      | some (.gate k) => word (5 + k.val) := by
    unfold lastSeenRow
    rcases r.seen with _ | ⟨⟨station, at_⟩, rest⟩
    · rfl
    · cases station <;> rfl
  have hchosen : word (chosenRowCode r.chosen) = match r.chosen.map ChosenMark.row with
      | none => 65535 | some (.markClass n) => word n | some (.default n) => word (512 + n) := by
    rcases r.chosen with _ | ⟨side, zone, offset, width, lum, row⟩
    · rfl
    · cases row <;> rfl
  have hyear : word (match r.buildDate with | some t => t.year | none => 0) =
      match r.buildDate with | none => 0 | some x => word x.year := by
    cases r.buildDate <;> rfl
  have hday : word (match r.buildDate with | some t => t.month * 256 + t.day | none => 0) =
      match r.buildDate with | none => 0 | some x => word (256 * x.month + x.day) := by
    cases r.buildDate with
    | none => rfl
    | some x => exact congrArg (fun n => word (n + x.day)) (Nat.mul_comm x.month 256)
  unfold ItemRecord.viewWords
  rw [posWords_eq]
  simp only [List.cons_append, List.nil_append, List.cons.injEq, true_and, and_true]
  exact ⟨word_bit _, hstate, hparts, word_bit _, hlength, word_bit _, hdisposition, hposition, hroute, hvia, himprint,
    hface, hseen, hchosen, hyear, hday⟩

/-- Settles O48: the reads by the window's overrun, their answers by the room of the queue, the cells by table. -/
theorem readsAnswered : Obligations.ReadsAnswered := by
  refine ⟨fun s tag n => ?_, fun s tag n w => ?_, readCell_applied, fun d k => ?_, fun d => ?_, readCell_beyond,
    fun d row r hrow => ?_⟩
  · intro d hclear
    let taken (kind : CommandKind) := setDelim d (.complete (.command kind) tag)
    refine ⟨fun hcount => ⟨?_, ?_⟩, fun hlow hhigh hwindow => ⟨?_, ?_⟩⟩
    · exact exec_answered s _ .readWindow tag [n] 5 d _ rfl hclear (readWindow_badCount false n.toNat (taken .readWindow)
        hcount) rfl rfl rfl rfl (Nat.le_refl _)
    · exact exec_answered s _ .readContinue tag [n] 5 d _ rfl hclear (readWindow_badCount true n.toNat
        (taken .readContinue) hcount) rfl rfl rfl rfl (Nat.le_refl _)
    · exact exec_answered s _ .readWindow tag [n] 5 d _ rfl hclear (readWindow_noWindow false n.toNat
        (taken .readWindow) hlow hhigh hwindow) rfl rfl rfl rfl (Nat.le_refl _)
    · exact exec_answered s _ .readContinue tag [n] 5 d _ rfl hclear (readWindow_noWindow true n.toNat
        (taken .readContinue) hlow hhigh hwindow) rfl rfl rfl rfl (Nat.le_refl _)
  · intro d size value moved ignored wrapped reads long hlow hhigh hwindow hheld
    obtain ⟨hfrom, hwithin⟩ := readFrom_holds w false (hheld w hwindow).1
    obtain ⟨hcontinued, hcontinuing⟩ := readFrom_holds w true (hheld w hwindow).1
    have hreads : ∀ answered : CommandKind → Device → Answer → Device,
        (∀ c a, a.words.length = n.toNat + 1 → readWindow false n.toNat (setDelim d (.complete (.command .readWindow) tag)) =
          (setDelim (moved c) (.complete (.command .readWindow) tag), a) →
          exec (.readWindow tag n) s = s.after (answered .readWindow (moved c) a)) →
        (∀ c a, a.words.length = n.toNat + 1 →
          readWindow true n.toNat (setDelim d (.complete (.command .readContinue) tag)) =
          (setDelim (moved c) (.complete (.command .readContinue) tag), a) →
          exec (.readContinue tag n) s = s.after (answered .readContinue (moved c) a)) → reads answered := by
      intro answered hread hcontinue
      refine ⟨fun hignore => ⟨?_, ?_⟩, fun hwrap => ⟨?_, ?_⟩⟩
      · refine hread _ _ (by simp [ignored, Answer.done]) ?_
        have hread := readWindow_ignore false n.toNat (setDelim d (.complete (.command .readWindow) tag)) w hlow hhigh
          hwindow hignore hfrom
        rw [show w.readFrom false + n.toNat = n.toNat from Nat.zero_add _] at hread
        exact hread
      · refine hcontinue _ _ (by simp [ignored, Answer.done]) ?_
        exact readWindow_ignore true n.toNat _ w hlow hhigh hwindow hignore hcontinued
      · refine hread _ _ (by simp [wrapped, Answer.done]) ?_
        have hread := readWindow_wrap false n.toNat (setDelim d (.complete (.command .readWindow) tag)) w hlow hhigh
          hwindow hwrap (hwithin hwrap)
        rw [show w.readFrom false + n.toNat = n.toNat from Nat.zero_add _] at hread
        exact hread
      · refine hcontinue _ _ (by simp [wrapped, Answer.done]) ?_
        exact readWindow_wrap true n.toNat _ w hlow hhigh hwindow hwrap (hcontinuing hwrap)
    refine ⟨fun hclear => hreads (fun k e a => e.answered k tag a) (fun c a hwords hrun => ?_) (fun c a hwords hrun => ?_),
      fun hlong hready hpage => hreads long (fun c a hwords hrun => ?_) (fun c a hwords hrun => ?_)⟩
    · exact exec_answered s _ .readWindow tag [n] _ (moved c) a rfl hclear hrun rfl rfl rfl rfl (by omega)
    · exact exec_answered s _ .readContinue tag [n] _ (moved c) a rfl hclear hrun rfl rfl rfl rfl (by omega)
    · have hexec : exec (.readWindow tag n) s = s.after (deliver .readWindow tag [n] d) := rfl
      have hcommand : runCommand .readWindow [n] (setDelim d (.complete (.command .readWindow) tag)) = _ := hrun
      rw [hexec, deliver_responds .readWindow tag [n] d hready, hcommand]
      exact congrArg s.after (respond_long _ .readWindow tag a (by omega) hpage)
    · have hexec : exec (.readContinue tag n) s = s.after (deliver .readContinue tag [n] d) := rfl
      have hcommand : runCommand .readContinue [n] (setDelim d (.complete (.command .readContinue) tag)) = _ := hrun
      rw [hexec, deliver_responds .readContinue tag [n] d hready, hcommand]
      exact congrArg s.after (respond_long _ .readContinue tag a (by omega) hpage)
  · refine ⟨readCell_bin d k 3 (by decide), readCell_bin d k 4 (by decide), ?_, ?_⟩
    · rw [readCell_bin d k 5 (by decide)]
      show word (d.bin k).state.code = _
      cases (d.bin k).state <;> rfl
    · rw [readCell_bin d k 6 (by decide)]
      exact word_bit _
  · intro shows
    have htotal : ∀ k c, [d.tally.totals.admitted, d.tally.totals.stacked, d.tally.totals.lost, d.tally.totals.missed,
        d.tally.totals.purged, d.tally.totals.untracked][k]? = some c → shows (56 + k) c := fun k c h =>
      readCell_tally d (56 + k) c ((tallyValues_total d k).trans h)
    exact ⟨fun i => readCell_tally d i.val _ (tallyValues_counter d i), htotal 0 _ rfl, htotal 1 _ rfl, htotal 2 _ rfl,
      htotal 3 _ rfl, htotal 4 _ rfl, htotal 5 _ rfl⟩
  · intro yes shown f v hv
    have hshown : r.viewWords = shown := viewWords_eq r
    rw [readCell_record d row r hrow, hshown, List.getD_eq_getElem?_getD, hv]
    rfl

end Sys2Proof.Machine

/-! PROOFS. The write frames staged (R184, R186), COMPARE WRITE (R189, R190), the gap and the apply point (R191 to
R193). -/

namespace Sys2Proof.Machine

/-! ## The write frames -/

/-- R184: a write frame refused at its opening changes nothing, and counts the words carried. -/
theorem deliverOpen_writeRefused (kind : CommandKind) (tag : BitVec 8) (words : List Word) (d : Device)
    (code : ResultCode) (hkind : kind = .writeWindow ∨ kind = .writeContinue) (hclear : d.clear 9)
    (hrefusal : d.writeRefusal = some code) : deliverOpen kind tag words d = d.answered kind tag
      { code := code, detail := 0, words := [word (min 65535 words.length), 0, 0, 0] } := by
  have hwrites : kind ≠ .nop := by
    rcases hkind with rfl | rfl <;> exact fun h => by cases h
  have hanswer : frameAnswer { newFrame kind tag (some code) 0 with bodyWords := words.length } =
      { code := code, detail := 0, words := [word (min 65535 words.length), 0, 0, 0] } := if_neg hwrites
  rw [← hanswer]
  refine deliverOpen_refused kind tag words d (some code) 9 hclear
    (openFrame_refused (setDelim d (.openEnded (.command kind) tag)) kind tag code hwrites hrefusal)
    (.inr (by simp)) ?_
  rw [hanswer]
  exact Nat.le_refl _

/-- Settles O49: the refusals by `writeRefusal_spec`, the staging by `deliverOpen_stages`. -/
theorem writeFrames : Obligations.WriteFrames := by
  refine ⟨fun s tag words code => ?_, fun s tag words w => ?_⟩
  · intro d answer hclear hwhy
    have hrefusal : d.writeRefusal = some code := by
      obtain ⟨hnone, hsome⟩ := writeRefusal_spec d
      rcases hwhy with ⟨rfl, hwindow⟩ | ⟨w, hwindow, ⟨rfl, htable⟩ | ⟨rfl, htable, hmode⟩ |
          ⟨rfl, h13, h14, h7, hactive, hfull⟩⟩
      · exact hnone hwindow
      · exact (hsome w hwindow).1 htable
      · exact (hsome w hwindow).2.1 htable hmode
      · exact ((hsome w hwindow).2.2 h13 h14 fun h => absurd h h7).1 hactive hfull
    exact ⟨congrArg s.after (deliverOpen_writeRefused .writeWindow tag words d code (.inl rfl) hclear hrefusal),
      congrArg s.after (deliverOpen_writeRefused .writeContinue tag words d code (.inr rfl) hclear hrefusal)⟩
  · intro d cells staged putBack done full tested hclear hactive hwindow hfields horder hoverrun hopen h7 hgroups
    have hstages : ∀ kind c, kind ≠ .nop → (c = if kind = .writeWindow then 0 else w.cursor) →
        c + words.length ≤ w.lastRow - w.firstRow + 1 →
        (d.window.groups.flatten.length + words.length ≤ 256 →
          deliverOpen kind tag words d = tested ((staged c).answered kind tag done)) ∧
        (words ≠ [] → 256 < d.window.groups.flatten.length + words.length →
          deliverOpen kind tag words d = (putBack c).answered kind tag full) := fun kind c hkind hc hroom =>
      deliverOpen_stages kind hkind tag words d w c hclear hactive hwindow hopen hfields horder hoverrun h7 hgroups hc
        hroom
    refine ⟨fun hroom => ?_, fun hroom => ?_⟩
    · obtain ⟨hstaged, hfull⟩ := hstages .writeWindow 0 (by decide) rfl (by omega)
      exact ⟨fun hcells => congrArg s.after (hstaged hcells),
        fun hwords hcells => congrArg s.after (hfull hwords hcells)⟩
    · obtain ⟨hstaged, hfull⟩ := hstages .writeContinue w.cursor (by decide) rfl hroom
      exact ⟨fun hcells => congrArg s.after (hstaged hcells),
        fun hwords hcells => congrArg s.after (hfull hwords hcells)⟩

/-! ## COMPARE WRITE -/

/-- R190: the first parameter outside its range, as a number. -/
def comparePlace (table row field : Nat) : Nat :=
  if 14 < table then 1 else if tableRows table ≤ row then 2 else if tableFields table ≤ field then 3 else 0

/-- R190: a parameter is outside its range, or each is within it. -/
theorem compareFault_eq (t r f : Nat) :
    compareFault t r f = if comparePlace t r f = 0 then none else some (comparePlace t r f) := by
  unfold compareFault comparePlace
  split_ifs <;> simp_all

/-- R190: what COMPARE WRITE answers, by its first check that fails. -/
theorem compareWrite_refused (t r f : Nat) (e v : Word) (d : Device) :
    (comparePlace t r f ≠ 0 → compareWrite t r f e v d =
      (d, { code := .badParameter, detail := comparePlace t r f, words := [0] })) ∧
    (comparePlace t r f = 0 → cellReadOnly t r f = true →
      compareWrite t r f e v d = (d, { code := .readOnly, detail := 0, words := [0] })) ∧
    (comparePlace t r f = 0 → cellReadOnly t r f = false → t = 7 ∧ d.line.mode ≠ .idle →
      compareWrite t r f e v d = (d, { code := .refusedMode, detail := 0, words := [0] })) ∧
    (comparePlace t r f = 0 → cellReadOnly t r f = false → ¬ (t = 7 ∧ d.line.mode ≠ .idle) →
      d.stagedValue t r f ≠ e →
      compareWrite t r f e v d = (d, { code := .mismatch, detail := 0, words := [d.stagedValue t r f] })) := by
  have hfault := compareFault_eq t r f
  refine ⟨fun hplace => ?_, fun hplace hread => ?_, fun hplace hwrite hbarred => ?_,
    fun hplace hwrite hopen hdiffer => ?_⟩
  · rw [if_neg hplace] at hfault
    simp only [compareWrite, hfault]
  · rw [if_pos hplace] at hfault
    simp only [compareWrite, hfault, if_pos hread]
  · rw [if_pos hplace] at hfault
    simp only [compareWrite, hfault, hwrite, Bool.false_eq_true, if_false, if_pos hbarred]
  · rw [if_pos hplace] at hfault
    simp only [compareWrite, hfault, hwrite, Bool.false_eq_true, if_false, if_neg hopen, if_pos hdiffer]

/-- R190: a COMPARE WRITE whose value is as expected, by the mode and the room of the Pending Write Queue. -/
theorem compareWrite_matched (t r f : Nat) (e v : Word) (d : Device) (hplace : comparePlace t r f = 0)
    (hwrite : cellReadOnly t r f = false) (hopen : ¬ (t = 7 ∧ d.line.mode ≠ .idle)) (hmatch : d.stagedValue t r f = e)
    (hfree : d.command = .free) :
    let cell : CellWrite := { table := t, row := r, field := f, value := heldValue t f v }
    let full : Prop := 32 ≤ d.window.groups.length ∨ 256 ≤ d.window.groups.flatten.length
    (d.active = false → compareWrite t r f e v d = (writeNow d cell, .done [d.stagedValue t r f])) ∧
    (d.active = true → full → compareWrite t r f e v d =
      (d, { code := .pendingFull, detail := 0, words := [d.stagedValue t r f] })) ∧
    (d.active = true → ¬ full → compareWrite t r f e v d =
      (applyPoint { d with window := { d.window with groups := d.window.groups ++ [[cell]] } },
        .done [d.stagedValue t r f])) := by
  intro cell full
  have hfault := compareFault_eq t r f
  rw [if_pos hplace] at hfault
  have hfull : (Config.pendingGroups ≤ d.pendingGroups ∨ Config.pendingCells ≤ d.pendingCells) ↔ full := by
    simp only [Device.pendingGroups, Device.pendingCells, Device.openGroups, Device.openGroup, hfree]
    exact Iff.rfl
  have hmatched : ¬ d.stagedValue t r f ≠ e := fun h => h hmatch
  simp only [compareWrite, hfault, hwrite, Bool.false_eq_true, if_false, if_neg hopen, if_neg hmatched]
  refine ⟨fun hidle => if_pos hidle, fun hactive hroom => ?_, fun hactive hroom => ?_⟩
  · rw [if_neg (by simp [hactive]), if_pos (hfull.2 hroom)]
  · rw [if_neg (by simp [hactive]), if_neg fun h => hroom (hfull.1 h)]

/-- R192: the apply point is ready when its four terms hold in RUN or DRAIN. -/
theorem applyReady_eq (d : Device) : d.applyReady = decide (d.active = true ∧ d.window.groups ≠ [] ∧
    d.window.gap = .met ∧ d.classifier.busy = none ∧ d.imprint.builder = none) := by
  rw [Bool.eq_iff_iff, decide_eq_true_eq]
  unfold Device.applyReady
  simp only [Bool.and_eq_true, Bool.not_eq_true', List.isEmpty_eq_false_iff, decide_eq_true_eq, Option.isNone_iff_eq_none,
    and_assoc]

/-- R192: an apply point that is not ready applies nothing. -/
theorem applyPoint_idle (d : Device) (h : d.applyReady = false) : applyPoint d = d :=
  if_neg (by rw [h]; exact Bool.false_ne_true)

/-- Settles O51: the command by its checks, the staged value by the apply point behind it. -/
theorem compareWriteAnswered : Obligations.CompareWriteAnswered := by
  intro s tag t r f e v d place staged readOnly refused barred full queued hclear
  let taken := setDelim d (.complete (.command .compareWrite) tag)
  have hfree : taken.command = .free := hclear.1.1.2.1
  have hkept : ∀ a, a.words.length = 1 → compareWrite t.toNat r.toNat f.toNat e v taken = (taken, a) →
      exec (.compareWrite tag t r f e v) s = s.after (d.answered .compareWrite tag a) := fun a hwords hrun =>
    exec_answered s _ .compareWrite tag [t, r, f, e, v] 6 d a rfl hclear hrun rfl rfl rfl rfl (by omega)
  obtain ⟨hfault, hread, hmode, hmismatch⟩ := compareWrite_refused t.toNat r.toNat f.toNat e v taken
  refine ⟨fun hplace => hkept _ rfl (hfault hplace), fun hplace hro => hkept _ rfl (hread hplace hro),
    fun hplace hro hbarred => hkept _ rfl (hmode hplace hro hbarred),
    fun hplace hro hopen hdiffer => hkept _ rfl (hmismatch hplace hro hopen hdiffer),
    fun hplace hro hopen hmatch hactive hfull => ?_, fun hplace hro hopen hmatch hactive hroom => ?_⟩
  · exact hkept _ rfl ((compareWrite_matched _ _ _ e v taken hplace hro hopen hmatch hfree).2.1 hactive hfull)
  · have hrun : compareWrite t.toNat r.toNat f.toNat e v taken = (applyPoint queued, .done [staged]) :=
      (compareWrite_matched _ _ _ e v taken hplace hro hopen hmatch hfree).2.2 hactive hroom
    refine ⟨fun hterm => ?_, fun hclear' hsix => ?_⟩
    · have hidle : applyPoint queued = queued := by
        refine applyPoint_idle queued ?_
        rw [applyReady_eq]
        refine decide_eq_false ?_
        rintro ⟨-, -, hgap, hbusy, hbuilder⟩
        rcases hterm with h | h | h
        · exact h hgap
        · exact h hbusy
        · exact h hbuilder
      rw [hidle] at hrun
      exact exec_answered s _ .compareWrite tag [t, r, f, e, v] 6 queued (.done [staged]) rfl hclear hrun rfl rfl rfl rfl
        (Nat.le_refl _)
    · have hposts : Posts 0 taken (applyPoint queued) :=
        Posts.trans (b := queued) (m := 0) (n := 0) (Posts.of_same rfl rfl rfl rfl rfl) (posts_applyPoint queued)
      exact congrArg s.after (deliver_posts .compareWrite tag [t, r, f, e, v] d (applyPoint queued) (.done [staged]) 0
        hclear' hsix hposts (applyPoint_feed queued) hrun)

/-! ## The gap and the apply point -/

/-- R191: the gap opened becomes met when the encoder has run the gap distance, in RUN and DRAIN. -/
theorem gapCheck_meets (d : Device) (p : Pos) (hgap : d.window.gap = .opened p) (hactive : d.active = true)
    (hrun : d.num 0 0 7 ≤ (d.track.encoder - p).toNat) :
    gapCheck d = { d with window := { d.window with gap := .met } } := by
  unfold gapCheck
  simp only [hgap]
  exact if_pos ⟨hactive, hrun⟩

/-- R191: until then the gap stays as it is. -/
theorem gapCheck_waits (d : Device)
    (h : ∀ p, d.window.gap = .opened p → d.active = false ∨ (d.track.encoder - p).toNat < d.num 0 0 7) :
    gapCheck d = d := by
  unfold gapCheck
  split
  · next p hgap =>
    refine if_neg ?_
    rintro ⟨hactive, hrun⟩
    rcases h p hgap with hidle | hshort
    · simp [hidle] at hactive
    · exact absurd hrun (Nat.not_le.2 hshort)
  · rfl
  · rfl

/-- Settles O52: the apply point by its four terms, the gap by the distance run. -/
theorem gapAndApplyPoint : Obligations.GapAndApplyPoint := by
  refine ⟨fun s => ?_, fun s => ?_, fun d => ⟨applyReady_eq d, applyPoint_idle d⟩⟩
  · intro d terms
    have hexec : exec .applyPoint s = s.after (applyPoint d) := rfl
    rw [hexec]
    refine ⟨fun hterms => ?_, fun hterms hcanonical hcells htable => ?_⟩
    · rw [applyPoint_idle d ((applyReady_eq d).trans (decide_eq_false hterms))]
    · have hready : d.applyReady = true := (applyReady_eq d).trans (decide_eq_true hterms)
      have happlied : applyPoint d =
          applyWrites { d with window := { d.window with groups := [] } } d.window.groups.flatten := if_pos hready
      rw [happlied]
      exact ⟨_, rfl, takesWrites_applyWrites d.window.groups.flatten _ hcanonical htable hcells⟩
  · intro d
    have hexec : exec .gapMet s = s.after (applyPoint (gapCheck d)) := rfl
    rw [hexec]
    refine ⟨fun p hgap hactive hrun => ?_, fun hwaits => ?_, fun hwaits hgap => ?_⟩
    · rw [gapCheck_meets d p hgap hactive hrun]
    · rw [gapCheck_waits d hwaits]
    · rw [gapCheck_waits d hwaits, applyPoint_idle d]
      rw [applyReady_eq]
      exact decide_eq_false fun hterms => hgap hterms.2.2.1

end Sys2Proof.Machine

/-! PROOFS. The writes that take effect at once (R185, R190). -/

namespace Sys2Proof.Machine

/-! ## One word of an artwork table -/

/-- R181: the artwork tables may be written. -/
theorem cellReadOnly_artwork (t r f : Nat) (hlow : 8 ≤ t) (hhigh : t ≤ 12) : cellReadOnly t r f = false := by
  rw [← Bool.not_eq_true, cellReadOnly_iff]
  omega

/-- R185: the part with one cell of an artwork table written and the window selected `w'`. -/
def Device.wroteArtwork (d : Device) (w w' : Window) (v : Word) : Device :=
  reportConditions ((setWindow d w').setCell w.table w.firstRow w.firstField (heldValue w.table w.firstField v))

/-- R185: what a word written to an artwork table leaves behind its answer. -/
def Device.holdsWritten (d : Device) (w : Window) (v : Word) (d' : Device) (c : Nat) : Prop :=
  d'.cell w.table w.firstRow w.firstField = heldValue w.table w.firstField v ∧
  (∀ t r f : Nat, r < 512 → f < 32 → ¬ (t = w.table ∧ r = w.firstRow ∧ f = w.firstField) →
    d'.cell t r f = d.cell t r f) ∧
  d'.window = { d.window with selection := some { w with cursor := c } } ∧ d'.track = d.track ∧
  d'.inputs = d.inputs ∧ d'.imprint = d.imprint ∧ d'.clock = d.clock ∧ d'.stacker = d.stacker ∧
  d'.line = d.line ∧ d'.command = .free ∧ d'.tally = d.tally ∧ d'.classifier = d.classifier

/-- R185: the cell written has the word's value, and nothing else has changed. -/
theorem holdsWritten_answered (d : Device) (w : Window) (v : Word) (c : Nat) (kind : CommandKind) (tag : BitVec 8)
    (a : Answer) (hcanonical : d.canonical) (hrow : w.firstRow < tableRows w.table)
    (hfield : w.firstField < tableFields w.table) (hfree : d.command = .free) :
    d.holdsWritten w v ((d.wroteArtwork w { w with cursor := c } v).answered kind tag a) c := by
  have hrow := rows512 _ _ hrow
  have hfield := fields32 _ _ hfield
  refine ⟨?_, fun t r f hr hf hother => ?_, rfl, rfl, rfl, rfl, rfl, rfl, rfl, hfree, rfl, rfl⟩
  · exact (cell_setCell (setWindow d { w with cursor := c }) hcanonical _ _ _ _ _ _ _ hrow hfield hrow hfield).trans
      (if_pos ⟨rfl, rfl, rfl⟩)
  · exact (cell_setCell (setWindow d { w with cursor := c }) hcanonical _ _ _ _ _ _ _ hrow hfield hr hf).trans
      (if_neg hother)

/-- R169, R186: an open-ended frame with no cell staged ends answered on a part whose buffers hold nothing else. -/
theorem endOpen_frame (e : Device) (f : OpenFrame) (hgroup : f.group = []) (hfree : e.command = .free)
    (hpage : e.tally.page = none) (hdeferred : e.tally.deferred = none)
    (hroom : 5 + (frameAnswer f).words.length ≤ e.reportRoom) :
    endOpen (setFrame (setDelim e (.openEnded (.command f.kind) f.tag)) f) = e.answered f.kind f.tag (frameAnswer f) := by
  have hclosed : { closeGroup (setDelim (setFrame (setDelim e (.openEnded (.command f.kind) f.tag)) f)
      (.complete (.command f.kind) f.tag)) f with command := .free } = setDelim e (.complete (.command f.kind) f.tag) := by
    cases e
    subst hfree
    simp only [closeGroup, setFrame, setDelim, hgroup, List.isEmpty_nil, if_true]
  rw [endOpen_answered f.kind f.tag _ e f rfl rfl rfl rfl hclosed hfree hpage hdeferred hroom, hgroup]
  rfl

/-- R184, R185: a write frame of one word at the one cell of a window of an artwork table. -/
theorem deliverOpen_artwork (kind : CommandKind) (tag : BitVec 8) (v : Word) (w : Window) (d : Device)
    (hkind : kind = .writeWindow ∨ kind = .writeContinue ∧ w.cursor = 0) (hclear : d.clear 9)
    (hidle : d.active = false) (hwindow : d.window.selection = some w) (hrows : w.lastRow = w.firstRow)
    (hfields : w.lastField = w.firstField) (hoverrun : w.overrun = .ignore) (hlow : 8 ≤ w.table) (hhigh : w.table ≤ 12) :
    deliverOpen kind tag [v] d =
      (d.wroteArtwork w { w with cursor := 1 } v).answered kind tag (.done [1, 1, 0, 0]) := by
  obtain ⟨hready, hpage, hdeferred, hroom⟩ := hclear
  have hwrites : kind ≠ .nop := by
    rcases hkind with rfl | ⟨rfl, -⟩ <;> exact fun h => by cases h
  have hstart : (if kind = .writeWindow then 0 else w.cursor) = 0 := by
    rcases hkind with rfl | ⟨rfl, hcursor⟩
    · rfl
    · exact hcursor
  let w₀ : Window := { w with cursor := 0 }
  let opened := setFrame (setWindow (setDelim d (.openEnded (.command kind) tag)) w₀) (newFrame kind tag none 0)
  have hrefusal : (setDelim d (.openEnded (.command kind) tag)).writeRefusal = none :=
    (((writeRefusal_spec d).2 w hwindow).2.2 (by omega) (by omega) (by omega)).2 (.inl hidle)
  have hopen : openFrame (setDelim d (.openEnded (.command kind) tag)) kind tag = opened := by
    rw [openFrame_writes _ kind tag w hwrites hrefusal hwindow, hstart]
  have hsize : w₀.size = 1 := by
    simp [Window.size, Window.rows, Window.fields, w₀, hrows, hfields]
  have hplace : w₀.place 0 = (w.firstRow, w.firstField) := by
    unfold Window.place
    cases w₀.order <;> simp [w₀]
  have hadvance : w₀.advance = { w with cursor := 1 } :=
    advance_ignore w 0 hoverrun (by rw [show w.size = w₀.size from rfl, hsize]; exact Nat.zero_lt_one)
  let f : OpenFrame := { newFrame kind tag none 0 with bodyWords := 1, written := 1 }
  let e := d.wroteArtwork w { w with cursor := 1 } v
  have hword : frameWord opened (newFrame kind tag none 0) v =
      setFrame (setDelim e (.openEnded (.command kind) tag)) f := by
    obtain ⟨-, -, hwrite⟩ := frameWord_places opened (newFrame kind tag none 0) w₀ v hwrites rfl rfl rfl
    have hcursor : w₀.cursor < w₀.size := by rw [hsize]; exact Nat.zero_lt_one
    rw [hwrite hcursor (cellReadOnly_artwork _ _ _ hlow hhigh), writeWord_now opened _ _ _ hidle, hadvance,
      writeNow_artwork _ _ _ _ _ hlow hhigh, show w₀.place w₀.cursor = (w.firstRow, w.firstField) from hplace]
    rfl
  have hanswer : frameAnswer f = .done [1, 1, 0, 0] := if_neg hwrites
  have hended := endOpen_frame e f rfl hready.1.2.1 hpage hdeferred (by rw [hanswer]; exact hroom)
  rw [hanswer] at hended
  rw [deliverOpen_ready kind tag [v] d hready, hopen]
  exact (congrArg endOpen hword).trans hended

/-! ## The three writes -/

/-- R181: no table has a number above 14. -/
theorem tableRows_over (t : Nat) (h : 14 < t) : tableRows t = 0 := by
  unfold tableRows
  split <;> omega

/-- A number below 65536 is the value of its word. -/
theorem toNat_word (n : Nat) (h : n < 65536) : (word n).toNat = n :=
  Nat.mod_eq_of_lt h

/-- R169: a part with no frame open, its feed and its window as they are. -/
theorem frameClosed_self (d : Device) (hfree : d.command = .free) : frameClosed d.feed d.window.selection d = d := by
  simp only [frameClosed, ← hfree]

/-- R185, R190: the value of a COMPARE WRITE taken at once, with all its table's rule makes of it. -/
theorem deliver_compareWrite_takes (tag : BitVec 8) (t r f e v : Word) (d : Device)
    (hclear : d.clear (9 + 7 * d.tally.batch.length)) (hsix : ∀ r ∈ d.tally.batch, r.length = 6)
    (hidle : d.active = false) (hcanonical : d.canonical)
    (hcell : CellWrite.inTable
      { table := t.toNat, row := r.toNat, field := f.toNat, value := heldValue t.toNat f.toNat v })
    (hopen : t.toNat = 7 → d.line.mode = .idle) (hmatch : d.stagedValue t.toNat r.toNat f.toNat = e) :
    ∃ x, d.TakesWrites
        [{ table := t.toNat, row := r.toNat, field := f.toNat, value := heldValue t.toNat f.toNat v }] x ∧
      deliver .compareWrite tag [t, r, f, e, v] d = x.answered .compareWrite tag (.done [e]) := by
  let cell : CellWrite := { table := t.toNat, row := r.toNat, field := f.toNat, value := heldValue t.toNat f.toNat v }
  let taken := setDelim d (.complete (.command .compareWrite) tag)
  obtain ⟨hready, hpage, hdeferred, hroom⟩ := hclear
  have hfree : d.command = .free := hready.1.2.1
  have hwaiting : taken.responseWaiting = false := by
    simp only [Device.responseWaiting, show taken.command = .free from hfree]
  obtain ⟨hrow, hfield, hwritable⟩ := hcell
  have hplace : comparePlace t.toNat r.toNat f.toNat = 0 := by
    have htable : ¬ 14 < t.toNat := fun h => absurd hrow (by rw [tableRows_over _ h]; exact Nat.not_lt_zero _)
    unfold comparePlace
    rw [if_neg htable, if_neg (Nat.not_le.2 hrow), if_neg (Nat.not_le.2 hfield)]
  have hrun : compareWrite t.toNat r.toNat f.toNat e v taken = (writeNow taken cell, .done [e]) := by
    have hopened : ¬ (t.toNat = 7 ∧ taken.line.mode ≠ .idle) := fun h => h.2 (hopen h.1)
    have hmatched := (compareWrite_matched _ _ _ e v taken hplace hwritable hopened hmatch hfree).1 hidle
    rw [hmatched, show taken.stagedValue t.toNat r.toNat f.toNat = e from hmatch]
  have htakes : taken.TakesWrites [cell] (writeNow taken cell) :=
    takesWrites_afterWrites [cell] taken hcanonical fun w hw => by
      rw [List.mem_singleton.1 hw]
      exact ⟨hrow, hfield, hwritable⟩
  obtain ⟨-, -, -, -, hfeed, hcommand⟩ := htakes.others
  have hselection : (writeNow taken cell).window.selection = taken.window.selection := by rw [htakes.window]
  have hposts : Posts 0 taken (writeNow taken cell) := by
    obtain ⟨T, B, hform⟩ := writeCell_form taken cell
    have hwrite : Posts 0 taken (writeCell taken cell) := by
      rw [hform]
      exact Posts.of_same rfl rfl rfl rfl rfl
    exact Posts.trans (b := writeCell taken cell) (m := 0) (n := 0) hwrite
      (posts_afterWrites (writeCell taken cell) [cell])
  have hdelivered : deliver .compareWrite tag [t, r, f, e, v] d =
      (writeNow taken cell).answered .compareWrite tag (.done [e]) :=
    deliver_posts .compareWrite tag [t, r, f, e, v] d _ (.done [e]) 0
      ⟨hready, hpage, hdeferred, Nat.le_trans (by simp only [Answer.done, List.length_singleton]; omega) hroom⟩ hsix
      hposts hfeed hrun
  refine ⟨frameClosed d.feed d.window.selection (writeNow taken cell), ?_, ?_⟩
  · have hrest := takesWrites_rest taken _ [cell] d.feed d.window.selection htakes hwaiting
    have hself : frameClosed d.feed d.window.selection taken = d := frameClosed_self d hfree
    rw [← hself]
    exact hrest
  · have hself := frameClosed_self (writeNow taken cell) (hcommand.trans hfree)
    rw [hfeed, hselection] at hself
    rw [hdelivered, ← hself]
    rfl

/-- Settles O50: one word at an artwork cell by `deliverOpen_artwork`, the words of any frame by `deliverOpen_writes`,
and the value of a COMPARE WRITE by `deliver_compareWrite_takes`. -/
theorem writesTakeEffectAtOnce : Obligations.WritesTakeEffectAtOnce := by
  refine ⟨fun s tag v w => ?_, fun s tag words w => ?_, fun s tag t r f e v => ?_⟩
  · intro d row field written hclear hidle hcanonical hwindow hrows hfields hoverrun hlow hhigh hrow hfield
    have hfree : d.command = .free := hclear.1.1.2.1
    have hwritten : ∀ c kind a, d.holdsWritten w v ((d.wroteArtwork w { w with cursor := c } v).answered kind tag a) c :=
      fun c kind a => holdsWritten_answered d w v c kind tag a hcanonical hrow hfield hfree
    refine ⟨⟨_, congrArg s.after (deliverOpen_artwork .writeWindow tag v w d (.inl rfl) hclear hidle hwindow hrows hfields
        hoverrun hlow hhigh), hwritten 1 _ _, rfl⟩, fun hcursor => ⟨_, congrArg s.after (deliverOpen_artwork
        .writeContinue tag v w d (.inr ⟨rfl, hcursor⟩) hclear hidle hwindow hrows hfields hoverrun hlow hhigh),
        hwritten 1 _ _, rfl⟩, fun x hx => ?_⟩
    have htable : (word w.table).toNat = w.table := toNat_word _ (by omega)
    have hrow' : (word row).toNat = row := toNat_word _ (by have := rows512 _ _ hrow; omega)
    have hfield' : (word field).toNat = field := toNat_word _ (by have := fields32 _ _ hfield; omega)
    let taken := setDelim d (.complete (.command .compareWrite) tag)
    have hself : setWindow d w = d := by
      simp only [setWindow, ← hwindow]
    have hrun : compareWrite (word w.table).toNat (word row).toNat (word field).toNat x v taken =
        (setDelim (d.wroteArtwork w w v) (.complete (.command .compareWrite) tag), .done [x]) := by
      have hplace : comparePlace w.table row field = 0 := by
        unfold comparePlace
        rw [if_neg (by omega), if_neg (Nat.not_le.2 hrow), if_neg (Nat.not_le.2 hfield)]
      have hmatched := (compareWrite_matched w.table row field x v taken hplace (cellReadOnly_artwork _ _ _ hlow hhigh)
        (fun h => absurd h.1 (by omega)) hx hfree).1 hidle
      rw [htable, hrow', hfield', hmatched, writeNow_artwork _ _ _ _ _ hlow hhigh,
        show taken.stagedValue w.table row field = x from hx]
      unfold Device.wroteArtwork
      rw [hself]
      rfl
    exact ⟨_, exec_answered s _ .compareWrite tag _ 9 (d.wroteArtwork w w v) (.done [x]) rfl hclear hrun rfl rfl rfl rfl
      (by simp [Answer.done]), hwritten w.cursor _ _, rfl⟩
  · intro d rows fields place cells next moved done open_ hclear hsix hidle hcanonical hwindow hcursor hin hlow h7
    have htakes : ∀ kind c, kind ≠ .nop → (c = if kind = .writeWindow then 0 else w.cursor) → w.holds c → open_ c →
        ∃ e, takesInTurn (cells c) (moved c) e ∧ deliverOpen kind tag words d = e.answered kind tag done := by
      intro kind c hkind hc hheld hopen
      obtain ⟨hroom, hwritable⟩ := hopen
      exact deliverOpen_writes s tag words w kind hkind c hc hclear hsix hidle hcanonical hwindow hin hlow h7 hroom
        (fun hwrap => hheld.resolve_right fun h => by rw [hwrap] at h; cases h.2)
        fun k hk => hwritable _ (List.mem_map.2 ⟨k, List.mem_range.2 hk, rfl⟩)
    refine ⟨fun hopen => ?_, fun hopen => ?_⟩
    · obtain ⟨e, hturn, hdelivered⟩ := htakes .writeWindow 0 (by decide) rfl (.inl w.size_pos) hopen
      exact ⟨e, hturn, congrArg s.after hdelivered⟩
    · obtain ⟨e, hturn, hdelivered⟩ := htakes .writeContinue w.cursor (by decide) rfl (hcursor w hwindow).1 hopen
      exact ⟨e, hturn, congrArg s.after hdelivered⟩
  · intro d cell staged hclear hsix hidle hcanonical hcell hopen hmatch
    obtain ⟨x, htakes, hdelivered⟩ :=
      deliver_compareWrite_takes tag t r f e v d hclear hsix hidle hcanonical hcell hopen hmatch
    exact ⟨x, htakes, congrArg s.after hdelivered⟩

end Sys2Proof.Machine

/-! PROOFS. NOP and READ STATUS (R174, R175, 12.4). -/

namespace Sys2Proof.Machine

/-! ## The words of READ STATUS -/

/-- A flag's share of a status word. -/
theorem weight_bit (p : Prop) [Decidable p] (b : Bool) (n : Nat) (h : p ↔ b = true) :
    (if p then n else 0) = n * bit b := by
  by_cases hb : b = true
  · rw [if_pos (h.2 hb), hb]
    exact (Nat.mul_one n).symm
  · rw [if_neg fun hp => hb (h.1 hp), (Bool.not_eq_true b).mp hb]
    rfl

/-- A field that is taken, as a flag. -/
theorem ne_none_iff_isSome {α : Type} (o : Option α) : o ≠ none ↔ o.isSome = true :=
  Option.isSome_iff_ne_none.symm

/-- R90: the builder waits in RUN and DRAIN, no build begun, with a head record that finds no room. -/
theorem buildWaiting_iff (d : Device) : d.buildWaiting = true ↔
    (d.line.mode = .run ∨ d.line.mode = .drain) ∧ d.imprint.builder = none ∧ ∃ r rest, d.buildQueue = r :: rest ∧
      ∀ c, r.cancel = some c → d.ringRoom (max 1 (d.num 8 c.template 0)) = false := by
  rw [← active_iff]
  unfold Device.buildWaiting Device.buildReady
  by_cases hactive : d.active = true
  · by_cases hfree : d.imprint.builder = none
    · cases hqueue : d.buildQueue with
      | nil => simp
      | cons r rest =>
        cases hcancel : r.cancel with
        | none => simp [hactive, hfree, hcancel]
        | some c =>
          have hwidth : d.templateWidth c.template = max 1 (d.num 8 c.template 0) := rfl
          simp [hactive, hfree, hcancel, hwidth]
    · simp [hfree]
  · simp [hactive]

/-- R175: the status word of the latches by its bits. -/
theorem latchBits_eq (d : Device) (latches : Word)
    (h : ∀ n, latches.getLsbD n = true ↔ ∃ c : Cause, c.priority = n ∧ d.attention.latch c ≠ none) :
    word d.latchBits = latches :=
  BitVec.eq_of_getLsbD_eq fun n _ => Bool.eq_iff_iff.2 ((latchBits_get d n).trans (h n).symm)

/-- R175: the close causes with no close deferred and no page waiting. -/
theorem closeBits_none (d : Device) (hpage : d.tally.page = none) (hdeferred : d.tally.deferred = none) :
    d.closeBits = 0 := by
  simp [Device.closeBits, hpage, hdeferred, bit]

/-- R137, R175: the close causes by the page and the deferred close. -/
theorem closeBits_eq (d : Device) : d.closeBits =
    (if d.tally.page ≠ none then 1 else 0) + (if d.tally.deferred ≠ none then 2 else 0) +
      match d.tally.deferred with
      | none => 0
      | some c => (if c.command then 4 else 0) + (if c.autoClose then 8 else 0) := by
  unfold Device.closeBits
  rw [weight_bit _ _ 1 (ne_none_iff_isSome d.tally.page), weight_bit _ _ 2 (ne_none_iff_isSome d.tally.deferred),
    Nat.one_mul]
  cases d.tally.deferred with
  | none => rfl
  | some c => simp only [weight_bit _ c.command 4 Iff.rfl, weight_bit _ c.autoClose 8 Iff.rfl]

/-- 12.4: the code of a mode. -/
theorem mode_code (m : Mode) : m.code = match m with
    | .idle => 0
    | .run => 1
    | .drain => 2
    | .halted => 3 := by
  cases m <;> rfl

/-- 12.4: the code of a condition. -/
theorem condition_code (c : Condition) : c.code = match c with
    | .inactive => 0
    | .activeNew => 1
    | .activeSeen => 2 := by
  cases c <;> rfl

/-! ## The two commands -/

/-- R174: NOP answers the words it carried. -/
theorem nop_answered (s : State) (tag : BitVec 8) (words : List Word) (hclear : s.dev.clear 6) :
    exec (.nop tag words) s = s.after (s.dev.answered .nop tag (.done [word (min 65535 words.length)])) := by
  have hanswer : frameAnswer { newFrame .nop tag none 0 with bodyWords := words.length } =
      .done [word (min 65535 words.length)] := rfl
  have hdelivered := deliverOpen_refused .nop tag words s.dev none 6 hclear (if_pos rfl) (.inl rfl)
    (by rw [hanswer]; exact Nat.le_refl _)
  rw [hanswer] at hdelivered
  exact congrArg s.after hdelivered

/-- Settles O53: NOP by its frame; READ STATUS by its words, each read where the part holds it. -/
theorem nopAndReadStatus : Obligations.NopAndReadStatus := by
  refine ⟨nop_answered, fun s tag latches waiting => ?_, fun s tag => ?_, fun d => ⟨rfl, ?_, rfl⟩⟩
  · intro d one mode condition builds halves hclear hlatches hwaiting
    have hstatus : exec (.readStatus tag) s = s.after (d.answered .readStatus tag (.done d.statusWords)) :=
      exec_answered s _ .readStatus tag [] 29 d (.done d.statusWords) rfl hclear rfl rfl rfl rfl rfl (Nat.le_refl _)
    obtain ⟨⟨⟨-, hfree, -⟩, hempty, -⟩, hpage, hdeferred, -⟩ := hclear
    have hone : ∀ (p : Prop) [Decidable p] (b : Bool) (n : Nat), (p ↔ b = true) → one p n = n * bit b :=
      fun p _ b n h => weight_bit p b n h
    have hmode : mode = d.line.mode.code := (mode_code d.line.mode).symm
    have hcondition : ∀ c, condition c = c.code := fun c => (condition_code c).symm
    have hcells : d.pendingCells = d.window.groups.flatten.length := by
      simp only [Device.pendingCells, Device.openGroup, hfree, List.length_nil, Nat.add_zero]
    have hgroups : d.pendingGroups = d.window.groups.length := by
      simp only [Device.pendingGroups, Device.openGroups, hfree, Nat.add_zero]
    have hbuilds : d.buildWaiting = waiting := Bool.eq_iff_iff.2 ((buildWaiting_iff d).trans hwaiting.symm)
    have hfifo : word d.feed.fifo.length = 0 := by
      rw [hempty]
      rfl
    rw [hstatus]
    refine congrArg (fun words => s.after (d.answered .readStatus tag (.done words))) ?_
    rw [hmode, hcondition, hcondition, hcondition, hone _ _ 32768 (ne_none_iff_isSome d.classifier.busy),
      hone _ _ 16 (Iff.refl (d.line.scanLock = true)), hone _ _ 32 (Iff.refl (d.imprint.printFault = true)),
      hone _ _ 64 (Iff.refl (d.inputs.printReady = true)), hone _ _ 128 (Iff.refl (d.inputs.reportHold = true)),
      hone _ _ 256 (Iff.refl (d.feed.busy = true)), hone _ _ 256 (Iff.refl (d.clock.valid = true)),
      hone _ _ 512 (Iff.refl (d.clock.clamped = true)), hone _ _ 1024 (ne_none_iff_isSome d.clock.adjust),
      hone _ _ 32768 (ne_none_iff_isSome d.window.selection)]
    unfold Device.statusWords Device.buildBits
    rw [posWords_eq, latchBits_eq d latches hlatches, closeBits_none d hpage hdeferred, hcells, hgroups, hbuilds,
      hfifo]
    rfl
  · intro d hready hpage hfits hbehind
    exact exec_answered_fits s _ .readStatus tag [] d (.done d.statusWords) rfl (.inr ⟨hready, hpage, hfits, hbehind⟩) rfl
      rfl rfl rfl rfl
  · exact congrArg (fun n => some (word n)) (closeBits_eq d)

end Sys2Proof.Machine

/-! PROOFS. CLOSE TALLY (R135 to R139, R177), and the SECOND pulse that arrives with it (R110). -/

namespace Sys2Proof.Machine

/-! ## The close that the command requests -/

/-- R136: the causes of a close by CLOSE TALLY alone. -/
def commandClose : CloseCauses := { command := true, autoClose := false }

/-- R137: what CLOSE TALLY answers. -/
def Device.closeAnswer (d : Device) : Answer :=
  if d.tally.page.isNone then .done [d.tally.period] else .refuse .deferred [d.tally.period]

/-- R135: the answer is one word. -/
theorem closeAnswer_length (d : Device) : d.closeAnswer.words.length = 1 := by
  unfold Device.closeAnswer
  split <;> rfl

/-- R137: behind a page the close is deferred, or joins the close already deferred. -/
theorem requestClose_behind (d : Device) (p : TallyPage) (hpage : d.tally.page = some p) :
    requestClose d commandClose = { d with tally := { d.tally with deferred := some (match d.tally.deferred with
      | none => { command := true, autoClose := false }
      | some c => { c with command := true }) } } := by
  cases hdeferred : d.tally.deferred with
  | none => rw [requestClose_deferred d commandClose p hpage hdeferred, commandClose]
  | some c =>
    rw [requestClose_joined d commandClose c hdeferred]
    simp only [commandClose, Bool.or_true, Bool.or_false]

/-- R135: of the part a close requested changes the tally alone. -/
theorem requestClose_tally (d : Device) (c : CloseCauses) :
    requestClose d c = { d with tally := (requestClose d c).tally } := by
  unfold requestClose
  split <;> rfl

/-- R168: the delimiter is not looked at by a close. -/
theorem requestClose_setDelim (d : Device) (c : CloseCauses) (x : Delimiter) :
    requestClose (setDelim d x) c = setDelim (requestClose d c) x := by
  unfold requestClose
  simp only [setDelim]
  split <;> rfl

/-! ## The response and the page -/

/-- R178: the response that fits is placed, before any page. -/
theorem placeResponse_built (x : Device) (kind : CommandKind) (tag : BitVec 8) (a : Answer) (hfree : x.command = .free)
    (hroom : 5 + a.words.length ≤ x.reportRoom) :
    placeResponse (buildResponse (setDelim x (.complete (.command kind) tag)) kind tag a) = x.answered kind tag a := by
  have hplaced := placeResponse_fits (buildResponse (setDelim x (.complete (.command kind) tag)) kind tag a) _ false rfl
    (by rw [responseFrame_length]; exact hroom)
  rw [hplaced]
  simp only [Device.answered, Device.taken, Device.enqueue, buildResponse, setDelim, ← hfree]

/-- R177: the response that fits is placed, and the page is tested behind it. -/
theorem arbiter_built (x : Device) (kind : CommandKind) (tag : BitVec 8) (a : Answer) (hfree : x.command = .free)
    (hroom : 5 + a.words.length ≤ x.reportRoom) :
    arbiter (buildResponse (setDelim x (.complete (.command kind) tag)) kind tag a) =
      settlePage (x.answered kind tag a) := by
  rw [arbiter, placeResponse_built x kind tag a hfree hroom]

/-- R176: the room that a response leaves. -/
theorem reportRoom_answered (x : Device) (kind : CommandKind) (tag : BitVec 8) (a : Answer) :
    (x.answered kind tag a).reportRoom = x.reportRoom - (5 + a.words.length) := by
  unfold Device.answered
  rw [reportRoom_enqueue, responseFrame_length]
  rfl

/-! ## CLOSE TALLY beside a SECOND pulse -/

/-- R110: a SECOND pulse stands next. -/
theorem pulseNext_iff (is : List Instr) : pulseNext is = true ↔ ∃ rest, is = .secondPulse :: rest := by
  cases is with
  | nil => simp [pulseNext]
  | cons i rest =>
    cases i <;> simp [pulseNext]

/-- R103, R105: when the pulse next requests a close. -/
theorem pulseCloses_iff (d : Device) : d.pulseCloses = true ↔ d.rollsOver := by
  have htarget : (d.clock.secondOfDay : Int) + d.clock.pulseSeconds =
      d.clock.hour * 3600 + d.clock.minute * 60 + d.clock.second + 1 + d.clock.adjust.getD 0 := by
    simp only [DayClock.secondOfDay, DayClock.pulseSeconds]
    push_cast
    omega
  unfold Device.pulseCloses
  rw [htarget]
  simp only [Bool.and_eq_true, Bool.not_eq_true', decide_eq_true_eq, and_assoc]
  exact and_congr_right fun _ => and_congr_right fun _ => and_congr_left fun _ => decide_eq_true_iff

/-- R110: a close leaves the clock as it is. -/
theorem requestClose_pulseCloses (d : Device) (c : CloseCauses) : (requestClose d c).pulseCloses = d.pulseCloses := by
  rw [requestClose_tally]
  rfl

/-- R110: the two arrive together, the pulse standing next and rolling over. -/
def State.closeBeside (s : State) : Prop := (∃ rest, s.pending = .secondPulse :: rest) ∧ s.dev.rollsOver

/-- R110, R135, R177: CLOSE TALLY taken: its close, its response, and behind it the page, where no pulse requests the
next close. -/
theorem exec_closeTally (s : State) (tag : BitVec 8) (hready : s.dev.ready) :
    let e := buildResponse (setDelim (requestClose s.dev commandClose) (.complete (.command .closeTally) tag)) .closeTally
      tag s.dev.closeAnswer
    (s.closeBeside → exec (.closeTally tag) s = s.after (placeResponse e)) ∧
    (¬ s.closeBeside → exec (.closeTally tag) s = s.after (arbiter e)) := by
  intro e
  let taken := setDelim s.dev (.complete (.command .closeTally) tag)
  have hexec : exec (.closeTally tag) s =
      s.after (handOn (pulseNext s.pending) taken (.command .closeTally) tag []) :=
    congrArg s.after (takeFrame_ready (.command .closeTally) tag [] _ s.dev hready)
  have hbuilt : buildResponse (cmdCloseTally taken).1 .closeTally tag (cmdCloseTally taken).2 = e :=
    congrArg (fun x => buildResponse x .closeTally tag s.dev.closeAnswer) (requestClose_setDelim s.dev commandClose _)
  have hcloses : e.pulseCloses = true ↔ s.dev.rollsOver := by
    have hsame : e.pulseCloses = s.dev.pulseCloses := requestClose_pulseCloses s.dev commandClose
    rw [hsame, pulseCloses_iff]
  have hserve : serveCloseTally tag taken = if e.pulseCloses then placeResponse e else arbiter e := by
    rw [serveCloseTally, hbuilt]
  have halone : execute .closeTally tag (runCommand .closeTally []) taken = arbiter e := congrArg arbiter hbuilt
  rw [hexec]
  unfold handOn
  simp only [and_true, hserve, halone]
  refine ⟨fun ⟨hpulse, hrolls⟩ => ?_, fun hapart => ?_⟩
  · rw [if_pos ((pulseNext_iff _).2 hpulse), if_pos (hcloses.2 hrolls)]
  · by_cases hpulse : pulseNext s.pending = true
    · have hstays : ¬ e.pulseCloses = true := fun h => hapart ⟨(pulseNext_iff _).1 hpulse, hcloses.1 h⟩
      rw [if_pos hpulse, if_neg hstays]
    · rw [if_neg hpulse]

/-- R110, R177: a response with room answers; the page behind it is tested where no pulse requests the next close. -/
theorem exec_closeTally_answers (s : State) (tag : BitVec 8) (x : Device) (hready : s.dev.ready)
    (hclose : requestClose s.dev commandClose = x) (hroom : 6 ≤ s.dev.reportRoom) :
    (s.closeBeside → exec (.closeTally tag) s = s.after (x.answered .closeTally tag s.dev.closeAnswer)) ∧
    (¬ s.closeBeside →
      exec (.closeTally tag) s = s.after (settlePage (x.answered .closeTally tag s.dev.closeAnswer))) := by
  have hx : x = { s.dev with tally := x.tally } := by
    rw [← hclose]
    exact requestClose_tally s.dev commandClose
  have hfree : x.command = .free := by
    rw [hx]
    exact hready.1.2.1
  have hfits : 5 + s.dev.closeAnswer.words.length ≤ x.reportRoom := by
    rw [closeAnswer_length, hx]
    exact hroom
  obtain ⟨hbeside, hapart⟩ := exec_closeTally s tag hready
  rw [hclose] at hbeside hapart
  rw [placeResponse_built x .closeTally tag _ hfree hfits] at hbeside
  rw [arbiter_built x .closeTally tag _ hfree hfits] at hapart
  exact ⟨hbeside, hapart⟩

/-- R110, R138: the page stays in the page buffer where it does not fit, or is not tested. -/
theorem exec_closeTally_stays (s : State) (tag : BitVec 8) (x : Device) (hready : s.dev.ready)
    (hclose : requestClose s.dev commandClose = x) (hroom : 6 ≤ s.dev.reportRoom) (hpage : x.tally.page ≠ none)
    (hstays : s.dev.reportRoom < 126 ∨ s.closeBeside) :
    exec (.closeTally tag) s = s.after (x.answered .closeTally tag s.dev.closeAnswer) := by
  obtain ⟨hbeside, hapart⟩ := exec_closeTally_answers s tag x hready hclose hroom
  by_cases hnext : s.closeBeside
  · exact hbeside hnext
  · have hsame : x.reportRoom = s.dev.reportRoom := by
      rw [← hclose, requestClose_tally]
      rfl
    have hshort := hstays.resolve_right hnext
    rw [hapart hnext, settlePage_waits]
    · exact hpage
    · rw [reportRoom_answered, closeAnswer_length]
      exact .inr (by omega)

/-- R171, R178: a response without room waits, and the page stands behind it. -/
theorem exec_closeTally_waits (s : State) (tag : BitVec 8) (x : Device) (hready : s.dev.ready)
    (hclose : requestClose s.dev commandClose = x) (hpage : x.tally.page ≠ none ∨ x.tally.deferred = none)
    (hroom : s.dev.reportRoom < 6) : exec (.closeTally tag) s = s.after
      (buildResponse (setDelim x (.complete (.command .closeTally) tag)) .closeTally tag s.dev.closeAnswer) := by
  let e := buildResponse (setDelim x (.complete (.command .closeTally) tag)) .closeTally tag s.dev.closeAnswer
  let words := linkFrame (responseWords .closeTally tag x.feed.excess s.dev.closeAnswer)
  have hwords : words.length = 6 := by rw [responseFrame_length, closeAnswer_length]
  have hsame : e.reportRoom = s.dev.reportRoom := by
    show x.reportRoom = _
    rw [← hclose, requestClose_tally]
    rfl
  have hplace : placeResponse e = e := placeResponse_waits e words rfl (by omega) (by rw [hwords]; decide)
  have htest : arbiter e = e := arbiter_full e words rfl hpage (by omega) (.inl (by omega))
  obtain ⟨hbeside, hapart⟩ := exec_closeTally s tag hready
  rw [hclose] at hbeside hapart
  by_cases hnext : s.closeBeside
  · exact (hbeside hnext).trans (congrArg s.after hplace)
  · exact (hapart hnext).trans (congrArg s.after htest)

/-- R103: the pulse of a clock that rolls over. -/
theorem rollsOver_target (d : Device) (h : d.rollsOver) :
    d.clock.pulseTarget = 86400 + ((d.clock.pulseTarget - 86400).toNat : Int) := by
  have hlate : 86400 ≤ d.clock.pulseTarget := h.2.2.2
  omega

/-- R105, R110: the pulse that rolls over requests a close, and its page is tested where no CLOSE TALLY stands next. -/
theorem secondPulse_rollsOver (beside : Bool) (d : Device) (h : d.rollsOver) : ∃ n, secondPulse beside d =
    if beside then requestClose (d.nextDay n) { command := false, autoClose := true }
    else arbiter (requestClose (d.nextDay n) { command := false, autoClose := true }) := by
  have htarget := rollsOver_target d h
  obtain ⟨hreset, hvalid, hauto, -⟩ := h
  exact ⟨_, (secondPulse_rollover beside d _ hreset hvalid htarget).trans (if_pos hauto)⟩

/-- R137, R138: with room for both, the page and the close behind it leave nothing waiting. -/
theorem settlePage_empties (d : Device) (p : TallyPage) (causes : CloseCauses) (hpage : d.tally.page = some p)
    (hdeferred : d.tally.deferred = some causes) (hfree : d.command = .free) (hroom : 240 ≤ d.reportRoom) :
    (settlePage d).tally.page = none ∧ (settlePage d).tally.deferred = none ∧ (settlePage d).report.queue =
      d.report.queue ++ linkFrame p.words ++ linkFrame (d.deferredPage causes).words := by
  rw [settlePage_both d p causes hpage hdeferred (responseWaiting_free d hfree) (by omega), if_neg (by omega)]
  exact ⟨rfl, rfl, rfl⟩

/-- R110: both are served in two steps, the first's page frozen before the second's, the response before both pages. -/
def Device.servesBoth (d : Device) (tag : BitVec 8) (first second : Instr) (a : Answer) (d₁ d₂ : Device)
    (p q : TallyPage) : Prop :=
  step { pending := [first, second], dev := d } = .next { pending := [second], dev := d₁ } ∧
  step { pending := [second], dev := d₁ } = .next { pending := [], dev := d₂ } ∧
  d₁.tally.page = some p ∧ d₁.tally.deferred = none ∧ p.deferred = false ∧ p.period = d.tally.period ∧
  q.deferred = true ∧ q.period = d.tally.period + 1 ∧ d₂.tally.page = none ∧ d₂.tally.deferred = none ∧
  d₂.report.queue = d.report.queue ++ linkFrame (responseWords .closeTally tag d.feed.excess a) ++ linkFrame p.words ++
    linkFrame q.words

/-- R105: the causes of a close by the SECOND pulse alone. -/
def pulseClose : CloseCauses := { command := false, autoClose := true }

/-- R110: the pulse taken first, its page is in the page buffer when CLOSE TALLY is served. -/
theorem secondPulse_then_closeTally (d : Device) (tag : BitVec 8) (hclear : d.clear 246) (hrolls : d.rollsOver) :
    ∃ d₁ d₂ p q, d.servesBoth tag .secondPulse (.closeTally tag) (.refuse .deferred [d.tally.period + 1]) d₁ d₂ p q ∧
      d₁.report = d.report ∧ p.causes = pulseClose ∧ q.causes = commandClose := by
  obtain ⟨hready, hpage, hdeferred, hroom⟩ := hclear
  have hnext : d.closeTallyNext [.closeTally tag] = true :=
    ((closeTallyNext_spec d []).1 tag).2 ⟨hready.1.2.1, hready.2.1, hready.2.2⟩
  obtain ⟨n, hpulse⟩ := secondPulse_rollsOver true d hrolls
  let d₁ := closePeriod (d.nextDay n) pulseClose false
  have hfirst : secondPulse (d.closeTallyNext [.closeTally tag]) d = d₁ := by
    rw [hnext, hpulse]
    exact requestClose_taken (d.nextDay n) _ hpage hdeferred
  let x : Device := { d₁ with tally := { d₁.tally with deferred := some commandClose } }
  let b := x.answered .closeTally tag (.refuse .deferred [d.tally.period + 1])
  have hsecond := (exec_closeTally_answers { pending := [], dev := d₁ } tag x hready
    (requestClose_deferred d₁ commandClose _ rfl hdeferred) (Nat.le_trans (by decide) hroom)).2
    (fun ⟨⟨_, h⟩, _⟩ => by cases h)
  have hleft : b.reportRoom = d.reportRoom - 6 := reportRoom_answered x .closeTally tag _
  obtain ⟨hnopage, hnoclose, hqueue⟩ := settlePage_empties b _ commandClose rfl rfl hready.1.2.1 (by omega)
  exact ⟨d₁, settlePage b, _, b.deferredPage commandClose,
    ⟨congrArg (fun e => Host.Outcome.next ({ pending := [.closeTally tag], dev := e } : State)) hfirst, hsecond, rfl,
      hdeferred, rfl, rfl, rfl, rfl, hnopage, hnoclose, hqueue⟩, rfl, rfl, rfl⟩

/-- R110: CLOSE TALLY served first, its page is in the page buffer when the pulse is taken. -/
theorem closeTally_then_secondPulse (d : Device) (tag : BitVec 8) (hclear : d.clear 246) (hrolls : d.rollsOver) :
    ∃ d₁ d₂ p q, d.servesBoth tag (.closeTally tag) .secondPulse (.done [d.tally.period]) d₁ d₂ p q ∧
      d₁.report.queue =
        d.report.queue ++ linkFrame (responseWords .closeTally tag d.feed.excess (.done [d.tally.period])) ∧
      p.causes = commandClose ∧ q.causes = pulseClose := by
  obtain ⟨hready, hpage, hdeferred, hroom⟩ := hclear
  have hanswer : d.closeAnswer = .done [d.tally.period] := by
    simp only [Device.closeAnswer, hpage, Option.isNone_none, if_true]
  let d₁ := (closePeriod d commandClose false).answered .closeTally tag (.done [d.tally.period])
  have hfirst := (exec_closeTally_answers { pending := [.secondPulse], dev := d } tag _ hready
    (requestClose_taken d commandClose hpage hdeferred) (Nat.le_trans (by decide) hroom)).1 ⟨⟨[], rfl⟩, hrolls⟩
  rw [show (State.mk [.secondPulse] d).dev.closeAnswer = _ from hanswer] at hfirst
  obtain ⟨n, hpulse⟩ := secondPulse_rollsOver false d₁ hrolls
  let b : Device := { d₁.nextDay n with
    tally := { d₁.tally with deferred := some pulseClose } }
  have hsecond : secondPulse false d₁ = settlePage b := by
    rw [hpulse, requestClose_deferred (d₁.nextDay n) _ _ rfl hdeferred]
    exact arbiter_pages b (responseWaiting_free b hready.1.2.1)
  have hleft : b.reportRoom = d.reportRoom - 6 :=
    reportRoom_answered (closePeriod d commandClose false) .closeTally tag _
  obtain ⟨hnopage, hnoclose, hqueue⟩ :=
    settlePage_empties b _ pulseClose rfl rfl hready.1.2.1 (by omega)
  exact ⟨d₁, settlePage b, _, b.deferredPage pulseClose, ⟨hfirst,
      congrArg (fun e => Host.Outcome.next ({ pending := [], dev := e } : State)) hsecond, rfl, hdeferred, rfl, rfl, rfl,
      rfl, hnopage, hnoclose, hqueue⟩, rfl, rfl, rfl⟩

/-- Settles O55: the command by the close it requests and the room for its response; with the pulse, each order of the
two by the page that the first leaves in the page buffer. -/
theorem closeTallyAnswered : Obligations.CloseTallyAnswered := by
  refine ⟨fun s tag => ?_, fun d tag => ?_⟩
  · intro d beside page closed
    have hopen : ∀ (hpage : d.tally.page = none) (hdeferred : d.tally.deferred = none),
        requestClose d commandClose = { d with tally := closed } ∧ d.closeAnswer = .done [d.tally.period] :=
      fun hpage hdeferred => ⟨requestClose_taken d commandClose hpage hdeferred, by
        simp only [Device.closeAnswer, hpage, Option.isNone_none, if_true]⟩
    have hwaits : ∀ p, d.tally.page = some p → d.closeAnswer = .refuse .deferred [d.tally.period] := fun p hpage => by
      simp only [Device.closeAnswer, hpage, Option.isNone_some, Bool.false_eq_true, if_false]
    refine ⟨fun hclear hapart => ?_, fun hclear hstays => ?_, fun hready hpage hdeferred hroom => ?_,
      fun p hready hpage hroom hstays => ?_, fun p hready hpage hroom hapart => ?_⟩
    · obtain ⟨hready, hpage, hdeferred, hroom⟩ := hclear
      obtain ⟨hclose, hanswer⟩ := hopen hpage hdeferred
      let b := Device.answered { d with tally := closed } .closeTally tag (.done [d.tally.period])
      have hleft : 120 ≤ b.reportRoom := by
        rw [reportRoom_answered]
        exact Nat.le_sub_of_add_le hroom
      have hplaced := settlePage_placed b page rfl hdeferred (responseWaiting_free b hready.1.2.1) hleft
      have hexec := (exec_closeTally_answers s tag _ hready hclose (Nat.le_trans (by decide) hroom)).2 hapart
      rw [hanswer] at hexec
      exact hexec.trans (congrArg s.after hplaced)
    · obtain ⟨hready, hpage, hdeferred, hroom⟩ := hclear
      obtain ⟨hclose, hanswer⟩ := hopen hpage hdeferred
      rw [exec_closeTally_stays s tag _ hready hclose hroom (fun hnone => by cases hnone) hstays, hanswer]
    · obtain ⟨hclose, hanswer⟩ := hopen hpage hdeferred
      rw [exec_closeTally_waits s tag _ hready hclose (.inr hdeferred) hroom, hanswer]
      rfl
    · rw [exec_closeTally_stays s tag _ hready (requestClose_behind d p hpage) hroom (by simp [hpage]) hstays,
        hwaits p hpage]
      rfl
    · intro causes behind a
      let x : Device := { d with tally := { d.tally with deferred := some causes } }
      let b := x.answered .closeTally tag (.refuse .deferred [d.tally.period])
      have hleft : b.reportRoom = d.reportRoom - 6 := reportRoom_answered x .closeTally tag _
      have hboth := settlePage_both b p causes hpage rfl (responseWaiting_free b hready.1.2.1) (by omega)
      have hexec := (exec_closeTally_answers s tag x hready (requestClose_behind d p hpage)
        (Nat.le_trans (by decide) hroom)).2 hapart
      rw [hwaits p hpage] at hexec
      rw [hexec, hboth]
      by_cases hless : d.reportRoom < 246
      · simp only [a, if_pos hless, if_pos (show b.reportRoom < 240 by omega), List.append_nil]
        rfl
      · simp only [a, if_neg hless, if_neg (show ¬ b.reportRoom < 240 by omega)]
        rfl
  · intro hclear hrolls shift day said both
    exact ⟨secondPulse_then_closeTally d tag hclear hrolls, closeTally_then_secondPulse d tag hclear hrolls⟩

end Sys2Proof.Machine

/-! PROOFS. SET CLOCK and ADJUST CLOCK (R92, R104, R106, R107). -/

namespace Sys2Proof.Machine

/-! ## SET CLOCK -/

/-- R106: the first value outside its range, as a number. -/
def clockPlace (y mo da h mi se : Nat) : Nat :=
  if y < 2000 ∨ 2099 < y then 1
  else if mo < 1 ∨ 12 < mo then 2
  else if da < 1 ∨ monthLength y mo < da then 3
  else if 23 < h then 4
  else if 59 < mi then 5
  else if 59 < se then 6
  else 0

/-- R106: a value is outside its range, or each is within it. -/
theorem clockFault_eq (y mo da h mi se : Nat) : clockFault y mo da h mi se =
    if clockPlace y mo da h mi se = 0 then none else some (clockPlace y mo da h mi se) := by
  unfold clockFault clockPlace
  split_ifs <;> simp_all

/-- R106: the part with its clock set. -/
def Device.clockSet (d : Device) (y mo da h mi se : Nat) : Device :=
  { d with clock :=
      { date := { year := y, month := mo, day := da }, hour := h, minute := mi, second := se, valid := true,
        adjust := none, clamped := false } }

/-- R104: the flags SET CLOCK answers, `b` for a change of the date. -/
theorem clockFlags (c : DayClock) (b : Bool) : bit b + 2 * bit c.adjust.isSome + 4 * bit (!c.valid) =
    (if b then 1 else 0) + (if c.adjust = none then 0 else 2) + (if c.valid then 0 else 4) := by
  cases c.adjust <;> cases c.valid <;> cases b <;> rfl

/-- R92, R104, R106: SET CLOCK by its values and by whether they change the date. -/
theorem setClock_eq (y mo da h mi se : Nat) (d : Device) :
    let changed : Prop := d.clock.valid = false ∨ d.clock.date ≠ { year := y, month := mo, day := da }
    let x := d.clockSet y mo da h mi se
    let bits (b : Nat) : Word := word (b + (if d.clock.adjust = none then 0 else 2) + (if d.clock.valid then 0 else 4))
    (clockPlace y mo da h mi se ≠ 0 → setClock y mo da h mi se d =
      (d, { code := .badParameter, detail := clockPlace y mo da h mi se, words := [0] })) ∧
    (clockPlace y mo da h mi se = 0 → changed → setClock y mo da h mi se d =
      ({ x with imprint := { d.imprint with sequence := 0 } }, .done [bits 1])) ∧
    (clockPlace y mo da h mi se = 0 → ¬ changed → setClock y mo da h mi se d = (x, .done [bits 0])) := by
  intro changed x bits
  have hfault := clockFault_eq y mo da h mi se
  have hchanged : (d.clock.valid = false ∨ ({ year := y, month := mo, day := da } : Date) ≠ d.clock.date) ↔ changed :=
    or_congr_right ne_comm
  refine ⟨fun hplace => ?_, fun hplace hnew => ?_, fun hplace hsame => ?_⟩
  · rw [if_neg hplace] at hfault
    simp only [setClock, hfault]
  · rw [if_pos hplace] at hfault
    simp only [setClock, hfault, clockFlags]
    rw [if_pos (hchanged.2 hnew), decide_eq_true (hchanged.2 hnew)]
    rfl
  · rw [if_pos hplace] at hfault
    simp only [setClock, hfault, clockFlags]
    rw [if_neg (mt hchanged.1 hsame), decide_eq_false (mt hchanged.1 hsame)]
    rfl

/-! ## ADJUST CLOCK -/

/-- R107: ADJUST CLOCK by its value and by whether an adjustment is pending. -/
theorem adjustClock_eq (v : Word) (d : Device) :
    (v.toInt < -3600 ∨ 3600 < v.toInt → adjustClock v d =
      (d, { code := .badParameter, detail := 1, words := [d.clock.adjustWord] })) ∧
    (-3600 ≤ v.toInt → v.toInt ≤ 3600 → d.clock.adjust ≠ none → adjustClock v d =
      (d, { code := .pendingFull, detail := 0, words := [d.clock.adjustWord] })) ∧
    (-3600 ≤ v.toInt → v.toInt ≤ 3600 → d.clock.adjust = none → adjustClock v d =
      ({ d with clock := { d.clock with adjust := some v.toInt, clamped := false } }, .done [v])) := by
  have hwithin : -3600 ≤ v.toInt → v.toInt ≤ 3600 → ¬ (v.toInt < -3600 ∨ 3600 < v.toInt) := by omega
  unfold adjustClock
  refine ⟨fun hoff => if_pos hoff, fun hlow hhigh hpending => ?_, fun hlow hhigh hfree => ?_⟩
  · rw [if_neg (hwithin hlow hhigh), if_pos (Option.isSome_iff_ne_none.2 hpending)]
  · rw [if_neg (hwithin hlow hhigh), if_neg (by simp [hfree])]
    exact congrArg (fun w => (_, Answer.done [w])) (BitVec.ofInt_toInt)

/-- Settles O56: each command by its cases, answered at once on a part that is clear. -/
theorem clockCommandsAnswered : Obligations.ClockCommandsAnswered := by
  refine ⟨fun s tag y mo da h mi se => ?_, fun s tag v => ?_⟩
  · intro d place date changed x bits hclear
    let taken := setDelim d (.complete (.command .setClock) tag)
    have hanswers : ∀ e a, a.words.length = 1 → e.command = d.command → e.tally = d.tally → e.report = d.report →
        setClock y.toNat mo.toNat da.toNat h.toNat mi.toNat se.toNat taken =
          (setDelim e (.complete (.command .setClock) tag), a) →
        exec (.setClock tag y mo da h mi se) s = s.after (e.answered .setClock tag a) :=
      fun e a hwords hcommand htally hreport hrun =>
        exec_answered s _ .setClock tag [y, mo, da, h, mi, se] 6 e a rfl hclear hrun hcommand
          (by rw [htally]) (by rw [htally]) (by rw [hreport]) (by omega)
    obtain ⟨hfault, hnew, hsame⟩ := setClock_eq y.toNat mo.toNat da.toNat h.toNat mi.toNat se.toNat taken
    exact ⟨fun hplace => hanswers d _ rfl rfl rfl rfl (hfault hplace),
      fun hplace hchanged => hanswers { x with imprint := { d.imprint with sequence := 0 } } _ rfl rfl rfl rfl
        (hnew hplace hchanged),
      fun hplace hchanged => hanswers x _ rfl rfl rfl rfl (hsame hplace hchanged)⟩
  · intro d held hclear
    let taken := setDelim d (.complete (.command .adjustClock) tag)
    have hanswers : ∀ e a, a.words.length = 1 → e.command = d.command → e.tally = d.tally → e.report = d.report →
        adjustClock v taken = (setDelim e (.complete (.command .adjustClock) tag), a) →
        exec (.adjustClock tag v) s = s.after (e.answered .adjustClock tag a) :=
      fun e a hwords hcommand htally hreport hrun => exec_answered s _ .adjustClock tag [v] 6 e a rfl hclear hrun hcommand
        (by rw [htally]) (by rw [htally]) (by rw [hreport]) (by omega)
    obtain ⟨hoff, hpending, hfree⟩ := adjustClock_eq v taken
    exact ⟨fun h => hanswers d _ rfl rfl rfl rfl (hoff h),
      fun hlow hhigh h => hanswers d _ rfl rfl rfl rfl (hpending hlow hhigh h),
      fun hlow hhigh h => hanswers { d with clock := { d.clock with adjust := some v.toInt, clamped := false } } _ rfl rfl
        rfl rfl (hfree hlow hhigh h)⟩

end Sys2Proof.Machine

/-! PROOFS. BIN OUT and BIN RETURN (R117, R124 to R126, R128). -/

namespace Sys2Proof.Machine

/-! ## The requests -/

/-- R124: the state an out request gives a bin. -/
def Bin.stateAfterOut (b : Bin) : BinState :=
  if b.state = .out ∨ b.state = .outPending then b.state else if b.committed = 0 then .out else .outPending

/-- R126: the fill a return request leaves a bin. -/
def Bin.fillAfterReturn (b : Bin) : Nat := if b.state = .outPending then b.fill else 0

/-- R126: a return request settles the bin by the fill it leaves. -/
theorem returnRequest_eq (d : Device) (k : Fin 16) : returnRequest d k = d.setBin k
    { d.bin k with
      fill := (d.bin k).fillAfterReturn
      state := d.settledSpelled k (d.bin k).fillAfterReturn (d.bin k).committed } := by
  unfold returnRequest Bin.fillAfterReturn
  simp only [settled_eq]
  split <;> rfl

/-- R128: a bin as its words. -/
def Bin.words (b : Bin) : List Word := [word b.state.code, word b.fill, word b.committed]

/-- R128: the words answered are those of the bin as the request leaves it. -/
theorem binWords_setBin (d : Device) (k : Fin 16) (b : Bin) :
    (reportConditions (d.setBin k b)).binWords k = b.words :=
  congrArg Bin.words (bin_setBin_same d k b)

/-- R125: when an out request is refused. -/
theorem outBarred_iff (d : Device) (k : Fin 16) : d.outBarred k = true ↔ k = 0 ∧ d.active = true := by
  unfold Device.outBarred
  rw [Bool.and_eq_true, decide_eq_true_eq]

/-! ## The commands -/

/-- R128: a bin number above 15. -/
theorem binCommands_above (n : Word) (d : Device) (h : 15 < n.toNat) :
    cmdBinOut n d = (d, { code := .badParameter, detail := 1, words := [0, 0, 0] }) ∧
    cmdBinReturn n d = (d, { code := .badParameter, detail := 1, words := [0, 0, 0] }) :=
  ⟨dif_neg (by omega), dif_neg (by omega)⟩

/-- R124, R125, R128: BIN OUT by whether the request is barred. -/
theorem cmdBinOut_eq (n : Word) (k : Fin 16) (d : Device) (h : n.toNat = k.val) :
    let b : Bin := { d.bin k with state := (d.bin k).stateAfterOut }
    (k = 0 → d.active = true → cmdBinOut n d = (d, .refuse .refusedMode (d.bin k).words)) ∧
    (k ≠ 0 ∨ d.active = false → cmdBinOut n d = (reportConditions (d.setBin k b), .done b.words)) := by
  intro b
  have hk : (⟨n.toNat, by omega⟩ : Fin 16) = k := Fin.ext h
  have htake : takeOut d k = reportConditions (d.setBin k b) := congrArg reportConditions (outRequest_eq d k)
  have hcmd : cmdBinOut n d =
      if d.outBarred k then (d, .refuse .refusedMode (d.binWords k))
      else (takeOut d k, .done ((takeOut d k).binWords k)) := by
    unfold cmdBinOut
    rw [dif_pos (show n.toNat < 16 by omega), hk]
  rw [hcmd, htake, binWords_setBin]
  refine ⟨fun hzero hactive => if_pos ((outBarred_iff d k).2 ⟨hzero, hactive⟩), fun hopen => if_neg fun hbarred => ?_⟩
  obtain ⟨hzero, hactive⟩ := (outBarred_iff d k).1 hbarred
  rcases hopen with hother | hidle
  · exact hother hzero
  · exact Bool.false_ne_true (hidle.symm.trans hactive)

/-- R126, R128: BIN RETURN by whether the switch is held. -/
theorem cmdBinReturn_eq (n : Word) (k : Fin 16) (d : Device) (h : n.toNat = k.val) :
    let b : Bin :=
      { d.bin k with
        fill := (d.bin k).fillAfterReturn
        state := d.settledSpelled k (d.bin k).fillAfterReturn (d.bin k).committed }
    ((d.bin k).held = true → cmdBinReturn n d = (d, .refuse .switchHeld (d.bin k).words)) ∧
    ((d.bin k).held = false → cmdBinReturn n d = (reportConditions (d.setBin k b), .done b.words)) := by
  intro b
  have hk : (⟨n.toNat, by omega⟩ : Fin 16) = k := Fin.ext h
  have htake : takeBack d k = reportConditions (d.setBin k b) := congrArg reportConditions (returnRequest_eq d k)
  have hcmd : cmdBinReturn n d =
      if (d.bin k).held then (d, .refuse .switchHeld (d.binWords k))
      else (takeBack d k, .done ((takeBack d k).binWords k)) := by
    unfold cmdBinReturn
    rw [dif_pos (show n.toNat < 16 by omega), hk]
  rw [hcmd, htake, binWords_setBin]
  exact ⟨fun hheld => if_pos hheld, fun hfree => if_neg (by simp [hfree])⟩

/-- Settles O58: the numbers above 15, and each command on its bin, answered at once on a part that is clear. -/
theorem binCommandsAnswered : Obligations.BinCommandsAnswered := by
  refine ⟨fun s tag n => ?_, fun s tag n k => ?_⟩
  · intro d hclear habove
    exact ⟨exec_answered s _ .binOut tag [n] 8 d _ rfl hclear (binCommands_above n _ habove).1 rfl rfl rfl rfl
        (Nat.le_refl _),
      exec_answered s _ .binReturn tag [n] 8 d _ rfl hclear (binCommands_above n _ habove).2 rfl rfl rfl rfl
        (Nat.le_refl _)⟩
  · intro d b stateAfterOut fill stateAfterReturn hclear hn
    obtain ⟨hbarred, hout⟩ := cmdBinOut_eq n k (setDelim d (.complete (.command .binOut) tag)) hn
    obtain ⟨hheld, hreturn⟩ := cmdBinReturn_eq n k (setDelim d (.complete (.command .binReturn) tag)) hn
    exact ⟨fun hzero hactive =>
        exec_answered s _ .binOut tag [n] 8 d _ rfl hclear (hbarred hzero hactive) rfl rfl rfl rfl (Nat.le_refl _),
      fun hopen => exec_answered s _ .binOut tag [n] 8
        (reportConditions (d.setBin k { b with state := stateAfterOut })) _ rfl hclear (hout hopen) rfl rfl rfl rfl
        (Nat.le_refl _),
      fun hkept =>
        exec_answered s _ .binReturn tag [n] 8 d _ rfl hclear (hheld hkept) rfl rfl rfl rfl (Nat.le_refl _),
      fun hfree => exec_answered s _ .binReturn tag [n] 8
        (reportConditions (d.setBin k { b with fill := fill, state := stateAfterReturn })) _ rfl hclear (hreturn hfree)
        rfl rfl rfl rfl (Nat.le_refl _)⟩

end Sys2Proof.Machine

/-! PROOFS. ACK ATTENTION and SET ATTENTION MASK (R158 to R162), and the details of the causes (12.4). -/

namespace Sys2Proof.Machine

/-! ## The latches and the conditions -/

/-- R158: the causes stand in the order of their priorities. -/
theorem allCauses_ordered : allCauses.Pairwise (fun c c' => c.priority < c'.priority) := by
  decide

/-- R159: one latch set leaves the others. -/
theorem latch_setLatch_other (a : AttentionUnit) (c c' : Cause) (l : Option Latch) (h : c' ≠ c) :
    (a.setLatch c l).latch c' = a.latch c' := by
  cases c <;> cases c' <;> trivial

/-- R162: a latch cleared is clear, and a condition cause has none. -/
theorem latch_setLatch_none (a : AttentionUnit) (c : Cause) : (a.setLatch c none).latch c = none := by
  cases c <;> rfl

/-- R159: a latch set leaves the conditions. -/
theorem condition_setLatch (a : AttentionUnit) (c c' : Cause) (l : Option Latch) :
    (a.setLatch c l).condition c' = a.condition c' := by
  cases c <;> rfl

/-- R161: a latch set leaves the mask. -/
theorem mask_setLatch (a : AttentionUnit) (c : Cause) (l : Option Latch) : (a.setLatch c l).mask = a.mask := by
  cases c <;> rfl

/-- R162: a condition seen leaves the latches. -/
theorem latch_markSeen (a : AttentionUnit) (c c' : Cause) : (a.markSeen c).latch c' = a.latch c' := by
  cases c <;> rfl

/-- R161: a condition seen leaves the mask. -/
theorem mask_markSeen (a : AttentionUnit) (c : Cause) : (a.markSeen c).mask = a.mask := by
  cases c <;> rfl

/-- R160: one condition seen leaves the others. -/
theorem condition_markSeen_other (a : AttentionUnit) (c c' : Cause) (h : c' ≠ c) :
    (a.markSeen c).condition c' = a.condition c' := by
  cases c <;> cases c' <;> trivial

/-- R162: a condition seen is ACTIVE_NEW no more; an active one is ACTIVE_SEEN. -/
theorem condition_markSeen_same (a : AttentionUnit) (c : Cause) : (a.markSeen c).condition c ≠ .activeNew ∧
    (a.condition c = .activeNew → (a.markSeen c).condition c = .activeSeen) := by
  cases c <;> simp [AttentionUnit.markSeen, AttentionUnit.condition]

/-! ## ACK ATTENTION -/

/-- R162: the cause found is the one of highest priority that qualifies. -/
theorem find_qualifies (a : AttentionUnit) (c : Cause) (hc : a.qualifies c = true)
    (hfirst : ∀ c', a.qualifies c' = true → c.priority ≤ c'.priority) : allCauses.find? a.qualifies = some c := by
  obtain ⟨x, hx⟩ := Option.isSome_iff_exists.1 (List.find?_isSome.2 ⟨c, mem_allCauses c, hc⟩)
  obtain ⟨hqualifies, before, after, hsplit, hbefore⟩ := List.find?_eq_some_iff_append.1 hx
  have hordered := allCauses_ordered
  have hmem := mem_allCauses c
  rw [hsplit] at hordered hmem
  rw [hx]
  rcases List.mem_append.1 hmem with hearly | hlate
  · have hnot := hbefore c hearly
    simp [hc] at hnot
  · rcases List.mem_cons.1 hlate with rfl | hafter
    · rfl
    · have hless : x.priority < c.priority :=
        (List.pairwise_cons.1 (List.pairwise_append.1 hordered).2.1).1 c hafter
      exact absurd (hfirst x hqualifies) (Nat.not_le.2 hless)

/-- R172: a detail is four words. -/
theorem fourWords_length (ws : List Word) : (fourWords ws).length = 4 := by
  simp [fourWords]

/-- Settles the clause of O57 on ACK ATTENTION: none qualifies, or the first that does is returned. -/
theorem ackAttention_answered (s : State) (tag : BitVec 8) (hclear : s.dev.clear 11) :
    ((∀ c, ¬ s.dev.attention.qualifies c = true) → exec (.ackAttention tag) s =
      s.after (s.dev.answered .ackAttention tag (.done [12, 0, 0, 0, 0, 0]))) ∧
    ∀ c, s.dev.attention.qualifies c = true →
      (∀ c', s.dev.attention.qualifies c' = true → c.priority ≤ c'.priority) → exec (.ackAttention tag) s = s.after
        (Device.answered { s.dev with attention := (s.dev.attention.setLatch c none).markSeen c } .ackAttention tag (.done
          (word c.priority :: word (s.dev.attention.repeatCount c) :: fourWords (s.dev.causeWords c)))) := by
  let d := s.dev
  let taken := setDelim d (.complete (.command .ackAttention) tag)
  refine ⟨fun hnone => ?_, fun c hc hfirst => ?_⟩
  · have hfind : allCauses.find? taken.attention.qualifies = none := List.find?_eq_none.2 fun c _ => hnone c
    have hrun : cmdAckAttention taken = (taken, .done [12, 0, 0, 0, 0, 0]) := by
      unfold cmdAckAttention
      rw [hfind]
    exact exec_answered s _ .ackAttention tag [] 11 d _ rfl hclear hrun rfl rfl rfl rfl (Nat.le_refl _)
  · have hfind : allCauses.find? taken.attention.qualifies = some c := find_qualifies d.attention c hc hfirst
    let a := (d.attention.setLatch c none).markSeen c
    have hrun : cmdAckAttention taken = ({ taken with attention := a }, .done
        (word c.priority :: word (d.attention.repeatCount c) :: fourWords (d.causeWords c))) := by
      unfold cmdAckAttention
      rw [hfind]
      cases c <;> rfl
    exact exec_answered s _ .ackAttention tag [] 11 { d with attention := a } _ rfl hclear hrun rfl rfl rfl rfl
      (by simp [Answer.done, fourWords_length])

/-! ## SET ATTENTION MASK -/

/-- R161: the mask set holds bits 1 to 11. -/
theorem maskSet_bit (m : Word) (i : Nat) :
    (m.setWidth 12 &&& 0xFFE#12).getLsbD i = (decide (0 < i ∧ i < 12) && m.getLsbD i) := by
  have hkept : ∀ j < 12, (0xFFE#12).getLsbD j = decide (0 < j) := by decide
  rw [BitVec.getLsbD_and, BitVec.getLsbD_setWidth]
  by_cases hi : i < 12
  · rw [hkept i hi]
    simp [hi, Bool.and_comm]
  · simp [hi]

/-! ## The details -/

/-- R159, 12.4: a set latch gives the detail and the repeat count of its cause. -/
theorem latched_detail (d : Device) (c : Cause) :
    (∀ l, d.attention.latch c = some l →
      d.causeWords c = l.detail.words ∧ d.attention.repeatCount c = l.repeats) ∧
    (d.attention.latch c = none → d.attention.repeatCount c = 0) := by
  refine ⟨fun l hlatch => ⟨?_, ?_⟩, fun hlatch => ?_⟩
  · cases c with
    | rejectFull => cases hlatch
    | binFull => cases hlatch
    | printFault => cases hlatch
    | _ => simp only [Device.causeWords, hlatch]
  · simp only [AttentionUnit.repeatCount, hlatch]
  · simp only [AttentionUnit.repeatCount, hlatch]

/-- 12.4: the head word of a kind with its qualifier. -/
theorem headWord_eq (code qualifier : Nat) : headWord code qualifier = word (256 * code + qualifier) := by
  rw [headWord, Nat.mul_comm]

/-- 12.4: how a record came to its bin, as a word. -/
theorem viaCode_word (route : Route) :
    word (viaCode (some route)) = match route.via with | .primary => 0 | .alternate => 1 | .reject => 2 := by
  obtain ⟨bin, via⟩ := route
  cases via <;> rfl

/-- 12.4: the kind of a scan part, as a word. -/
theorem sideCode_word (side : Side) : word (sideCode side) = match side with | .a => 1 | .b => 2 := by
  cases side <;> rfl

/-! ## What an occurrence makes of a latch -/

/-- R159: the latch of the occurrence's cause is set, and nothing else changes. -/
theorem occur_latch (d : Device) (o : Occurrence) :
    (occur d o).attention.latch o.cause = some (latchOn (d.attention.latch o.cause) o) := by
  cases o <;> rfl

/-- R159: a latch on an occurrence: the first gives its detail, the next are counted up to 255. -/
theorem latchOn_eq (o : Occurrence) : latchOn none o = { detail := o, repeats := 0 } ∧
    ∀ l : Latch, latchOn (some l) o =
      { detail := l.detail, repeats := if l.repeats < 255 then l.repeats + 1 else 255 } := by
  refine ⟨rfl, fun l => ?_⟩
  have hcount : min 255 (l.repeats + 1) = if l.repeats < 255 then l.repeats + 1 else 255 := by
    split <;> omega
  exact congrArg (fun n => ({ detail := l.detail, repeats := n } : Latch)) hcount

/-- Settles O57: the two commands, the details, the codes, and what an occurrence makes of a latch. -/
theorem attentionCommandsAnswered : Obligations.AttentionCommandsAnswered := by
  refine ⟨fun s tag => ?ack, fun s tag m => ?mask, latched_detail, fun d => ⟨rfl, ?print, binFull_words d⟩, ?details, rfl,
    rfl, rfl, rfl, ⟨rfl, mem_allCauses⟩, fun o => ⟨(latchOn_eq o).1, (latchOn_eq o).2, ?cause⟩, fun d o => ?occur⟩
  case ack =>
    intro d qualifies hclear
    obtain ⟨hnone, hfirst⟩ := ackAttention_answered s tag hclear
    have hqualifies : ∀ c, d.attention.qualifies c = true ↔ qualifies c := qualifies_iff d.attention
    refine ⟨fun h => hnone fun c hc => h c ((hqualifies c).1 hc), fun c hc hleast => ?_⟩
    obtain ⟨hseen, hmarked⟩ := condition_markSeen_same (d.attention.setLatch c none) c
    refine ⟨(d.attention.setLatch c none).markSeen c,
      hfirst c ((hqualifies c).2 hc) fun c' hc' => hleast c' ((hqualifies c').1 hc'),
      ?_, hseen, fun hnew => hmarked ?_, ?_,
      fun c' hother => ⟨?_, ?_⟩⟩
    · rw [latch_markSeen, latch_setLatch_none]
    · rw [condition_setLatch, hnew]
    · rw [mask_markSeen, mask_setLatch]
    · rw [latch_markSeen, latch_setLatch_other _ _ _ _ hother]
    · rw [condition_markSeen_other _ _ _ hother, condition_setLatch]
  case mask =>
    intro d hclear
    exact ⟨m.setWidth 12 &&& 0xFFE#12, maskSet_bit m,
      exec_answered s _ .setAttentionMask tag [m] 6
        { d with attention := { d.attention with mask := m.setWidth 12 &&& 0xFFE#12 } } _ rfl hclear rfl rfl rfl rfl rfl
        (Nat.le_refl _)⟩
  case print =>
    have hflag : ∀ b : Bool, word (bit b) = if b then 1 else 0 := by decide
    exact congrArg₂ (fun x y => [x, y]) (hflag _) (hflag _)
  case details =>
    intro n number row count m p route q kind x side head four upper lower via part
    have hpos : posWords p = [upper, lower] := posWords_eq p
    have hlost : (Occurrence.lost number row p).words = [number, word row, upper, lower] :=
      congrArg ([number, word row] ++ ·) hpos
    have hstray : (Occurrence.stray row p).words = [word row, upper, lower] := congrArg (word row :: ·) hpos
    have hfull : (Occurrence.queueFull p).words = [upper, lower] := hpos
    have hvia : word (viaCode (some route)) = via := viaCode_word route
    have hmissed : (Occurrence.missed number (some route)).words = [number, word route.bin.val, via] :=
      congrArg (fun v => [number, word route.bin.val, v]) hvia
    have hexcess : (Occurrence.linkError (.excessBody kind q)).words = [1, word (256 * frameCode kind + q.toNat)] :=
      congrArg (fun v => [1, v]) (headWord_eq (frameCode kind) q.toNat)
    have hpart : word (sideCode side) = part := sideCode_word side
    have hcount : (Occurrence.linkError (.badCount side count)).words = [4, part, word count] :=
      congrArg (fun v => [4, v, word count]) hpart
    have hduplicate : (Occurrence.linkError (.duplicatePart side n number)).words = [5, part, n, number] :=
      congrArg (fun v => [5, v, n, number]) hpart
    have horphan : (Occurrence.linkError (.orphanPart side n)).words = [6, part, n] :=
      congrArg (fun v => [6, v, n]) hpart
    simp only [four, hlost, hstray, hfull, hmissed, hexcess, hcount, hduplicate, horphan]
    exact ⟨rfl, rfl, rfl, rfl, rfl, rfl, rfl, rfl, rfl, rfl, rfl, rfl, rfl, rfl, rfl, rfl, rfl, rfl⟩
  case cause => cases o <;> rfl
  case occur =>
    intro a
    exact ⟨rfl, occur_latch d o, fun c hother => latch_setLatch_other _ _ _ _ hother,
      fun c => condition_setLatch _ _ _ _, mask_setLatch _ _ _⟩

end Sys2Proof.Machine
